-- ==== Sys2Proof/Word.lean ====
section
/-!
DEFINITION. The machine's words: 32-bit words, dibits, and the plain accessors of their bits (rules R14, R82, R83).
-/
namespace Sys2Proof

/-- One 32-bit word: a port word, a grammar word, a register, or the bit pattern of a binary32 value (rule R82 e). -/
abbrev Word := BitVec 32

/-- A two-bit symbol; the high bit is `d[1]`, the low bit `d[0]` (rule R14). -/
abbrev Dibit := BitVec 2

end Sys2Proof
end

