-- ==== Sys2Proof/Machine/Float32.lean ====
section
/-!
DEFINITION. IEEE 754 binary32 with round to nearest even, on bit patterns (rules R10, R82 e, R196). Every finite value is an
integer number of units of 2^-149; a result is computed exactly in units and rounded once. A NaN result takes its sign and
its 22 low fraction bits from the argument `q`, a free value of the caller (rule R196: which NaN is unspecified).
-/
namespace Sys2Proof.Machine

/-- The sign bit. -/
def f32Sign (x : Word) : Bool := x.msb

/-- The 31 bits below the sign: they order the magnitudes. -/
def f32Mag (x : Word) : Nat := x.toNat % 2 ^ 31

/-- The magnitude bits of an infinity. -/
def f32InfMag : Nat := 0x7F800000

/-- Is a NaN. -/
def f32IsNaN (x : Word) : Bool := decide (f32InfMag < f32Mag x)

/-- Is `+inf` or `-inf`. -/
def f32IsInf (x : Word) : Bool := decide (f32Mag x = f32InfMag)

/-- Is neither a NaN nor an infinity. -/
def f32IsFinite (x : Word) : Bool := decide (f32Mag x < f32InfMag)

/-- The magnitude of a finite value in units of 2^-149, subnormals kept. -/
def f32Units (x : Word) : Nat :=
  if f32Mag x / 2 ^ 23 = 0 then f32Mag x % 2 ^ 23
  else (2 ^ 23 + f32Mag x % 2 ^ 23) * 2 ^ (f32Mag x / 2 ^ 23 - 1)

/-- A finite value in units of 2^-149. -/
def f32Int (x : Word) : Int := if f32Sign x then -(f32Units x : Int) else (f32Units x : Int)

/-- The word with a sign and magnitude bits. -/
def f32Make (neg : Bool) (mag : Nat) : Word := BitVec.ofNat 32 ((if neg then 2 ^ 31 else 0) + mag)

/-- The quiet NaN with the sign and payload bits of `q`. -/
def f32NaN (q : BitVec 23) : Word := q.extractLsb' 22 1 ++ 0x1FF#9 ++ q.extractLsb' 0 22

/-- The magnitude bits of `num / den` units, rounded to nearest even, infinite past the largest finite value. -/
def f32Round (num den : Nat) : Nat :=
  let k := Nat.log2 (num / den) - 23
  let d := den * 2 ^ k
  let m := num / d
  let r := num % d
  let up := if d < 2 * r ∨ (2 * r = d ∧ m % 2 = 1) then 1 else 0
  min (k * 2 ^ 23 + m + up) f32InfMag

/-- `fadd`. -/
def fadd (q : BitVec 23) (a b : Word) : Word :=
  if f32IsNaN a || f32IsNaN b then f32NaN q
  else if f32IsInf a then (if f32IsInf b && f32Sign a != f32Sign b then f32NaN q else a)
  else if f32IsInf b then b
  else if f32Int a + f32Int b = 0 then f32Make (f32Sign a && f32Sign b) 0
  else f32Make (decide (f32Int a + f32Int b < 0)) (f32Round (f32Int a + f32Int b).natAbs 1)

/-- The sign bit flipped. -/
def fneg (a : Word) : Word := a ^^^ 0x80000000#32

/-- `fabs`: the sign bit cleared (rule R174). -/
def fabs (a : Word) : Word := a &&& 0x7FFFFFFF#32

/-- `fsub`. -/
def fsub (q : BitVec 23) (a b : Word) : Word := fadd q a (fneg b)

/-- `fmul`. -/
def fmul (q : BitVec 23) (a b : Word) : Word :=
  if f32IsNaN a || f32IsNaN b then f32NaN q
  else if f32IsInf a || f32IsInf b then
    (if f32Mag a = 0 ∨ f32Mag b = 0 then f32NaN q else f32Make (f32Sign a != f32Sign b) f32InfMag)
  else f32Make (f32Sign a != f32Sign b) (f32Round (f32Units a * f32Units b) (2 ^ 149))

/-- `fdiv`. -/
def fdiv (q : BitVec 23) (a b : Word) : Word :=
  if f32IsNaN a || f32IsNaN b then f32NaN q
  else if f32IsInf a then (if f32IsInf b then f32NaN q else f32Make (f32Sign a != f32Sign b) f32InfMag)
  else if f32IsInf b then f32Make (f32Sign a != f32Sign b) 0
  else if f32Mag b = 0 then
    (if f32Mag a = 0 then f32NaN q else f32Make (f32Sign a != f32Sign b) f32InfMag)
  else f32Make (f32Sign a != f32Sign b) (f32Round (f32Units a * 2 ^ 149) (f32Units b))

/-- The integer square root of `n`, found from bit `b - 1` down, given the bits above. -/
def isqrtFrom (n : Nat) : Nat → Nat → Nat
  | 0, acc => acc
  | b + 1, acc => if (acc + 2 ^ b) * (acc + 2 ^ b) ≤ n then isqrtFrom n b (acc + 2 ^ b) else isqrtFrom n b acc

/-- The integer square root. -/
def isqrt (n : Nat) : Nat := isqrtFrom n (Nat.log2 n / 2 + 1) 0

/-- `fsqrt`. The root in units is that of the units times 2^149; a nonzero remainder is kept as half a unit, far below the
last bit of the result, so that the one rounding sees it. -/
def fsqrt (q : BitVec 23) (a : Word) : Word :=
  if f32IsNaN a then f32NaN q
  else if f32Mag a = 0 then a
  else if f32Sign a then f32NaN q
  else if f32IsInf a then a
  else
    let n := f32Units a * 2 ^ 149
    let s := isqrt n
    f32Make false (f32Round (2 * s + (if s * s = n then 0 else 1)) 2)

/-- `cvt_u32_f32`. -/
def cvtU32F32 (n : Nat) : Word := f32Make false (f32Round (n * 2 ^ 149) 1)

/-- The order of the values that are not NaN: the magnitude bits, signed; the two zeros are one. -/
def f32Key (x : Word) : Int := if f32Sign x then -(f32Mag x : Int) else (f32Mag x : Int)

/-- `flt`: false on a NaN. -/
def flt (a b : Word) : Bool := !f32IsNaN a && !f32IsNaN b && decide (f32Key a < f32Key b)

/-- `fgt`: false on a NaN. -/
def fgt (a b : Word) : Bool := flt b a

/-- `feq`: false on a NaN. -/
def feq (a b : Word) : Bool := !f32IsNaN a && !f32IsNaN b && decide (f32Key a = f32Key b)

/-- `a <= b`: false on a NaN. -/
def fle (a b : Word) : Bool := !f32IsNaN a && !f32IsNaN b && decide (f32Key a ≤ f32Key b)

end Sys2Proof.Machine
end

