-- ==== Sys2Proof/Syntax.lean ====
section
/-!
DEFINITION. The instructions of the block: the ten commands of format C and the four field descriptors of format D
(rules R100, R102, R107), one constructor per row of the opcode table.
-/
namespace Sys2Proof

/-- The two command ports: `p` carries the producer's and host's commands, `q` the consumer's (rule R310). -/
inductive Port where
  | p
  | q
  deriving DecidableEq, Repr

/-- The instructions. Operand words that follow a command word are operands of its constructor (rule R103). -/
inductive Instr where
  /-- RESET (rule R141). -/
  | reset
  /-- START (rule R142). -/
  | start
  /-- STOP (rule R144). -/
  | stop
  /-- LOCK with the sync type to record (rule R145). -/
  | lock (st : BitVec 4)
  /-- UNLOCK (rule R147). -/
  | unlock
  /-- SUBMIT with its `N` sample words; `N` is the length of the list (rule R148). -/
  | submit (samples : List Word)
  /-- WRCR: configuration register address and datum (rule R152). -/
  | wrcr (a : BitVec 8) (v : Word)
  /-- WRGM: grammar memory address and datum (rule R154). -/
  | wrgm (a : BitVec 10) (v : Word)
  /-- CONSUME (rule R157). -/
  | consume
  /-- RDSR: register address (rule R160). -/
  | rdsr (a : BitVec 8)
  /-- SKIP `w` (rule R229). -/
  | skip (w : BitVec 10)
  /-- CACH: `PROT`, `SLOTIDX`, `SLOTHALF`, `W` (rule R230). -/
  | cach (prot : Bool) (slotIdx : BitVec 6) (slotHalf : Bool) (w : BitVec 10)
  /-- VOICE: `PROT`, `LAST`, `BASE`, `W` (rule R231). -/
  | voice (prot : Bool) (last : Bool) (base : BitVec 6) (w : BitVec 10)
  /-- SYNC: `PROT`, `W` (rule R235). -/
  | sync (prot : Bool) (w : BitVec 10)
  deriving DecidableEq, Repr

end Sys2Proof
end

