-- ==== Sys2Proof/WellFormed.lean ====
section
/-!
DEFINITION. Which instruction terms are instructions: the bounds a word's own fields must meet (rules R103, R106, R107,
R109), and the bounds a descriptor must meet in a given grammar (rule R107, check G3 of rule R125).
-/
namespace Sys2Proof

/-- A term that some legal word sequence stands for. The bounds of rule R107 that name no member of the grammar stand here. -/
def Instr.wf : Instr → Bool
  | .submit samples => decide (samples.length < 2 ^ 16)
  | .skip w => decide (1 ≤ w.toNat)
  | .cach _ slotIdx _ w => decide (1 ≤ w.toNat) && decide (w.toNat ≤ 64) && decide (slotIdx.toNat < w.toNat)
  | .voice _ _ _ w => decide (1 ≤ w.toNat) && decide (w.toNat ≤ 48)
  | .sync _ w => decide (1 ≤ w.toNat)
  | .reset => true
  | .start => true
  | .stop => true
  | .lock _ => true
  | .unlock => true
  | .wrcr _ _ => true
  | .wrgm _ _ => true
  | .consume => true
  | .rdsr _ => true

/-- The bounds of rule R107 that do name members of the grammar: `BASE + W <= VLEN` and `W = SYNCW`. -/
def Instr.fits (vlen syncw : Nat) : Instr → Bool
  | .voice _ _ base w => decide (base.toNat + w.toNat ≤ vlen)
  | .sync _ w => decide (w.toNat = syncw)
  | .reset => true
  | .start => true
  | .stop => true
  | .lock _ => true
  | .unlock => true
  | .submit _ => true
  | .wrcr _ _ => true
  | .wrgm _ _ => true
  | .consume => true
  | .rdsr _ => true
  | .skip _ => true
  | .cach _ _ _ _ => true

/-- A format D instruction: one the engine fetches from grammar memory (rule R100). -/
def Instr.isDescriptor : Instr → Bool
  | .skip _ => true
  | .cach _ _ _ _ => true
  | .voice _ _ _ _ => true
  | .sync _ _ => true
  | .reset => false
  | .start => false
  | .stop => false
  | .lock _ => false
  | .unlock => false
  | .submit _ => false
  | .wrcr _ _ => false
  | .wrgm _ _ => false
  | .consume => false
  | .rdsr _ => false

/-- The port a command is legal on (rule R102); a descriptor arrives on no port. -/
def Instr.port : Instr → Option Port
  | .consume => some .q
  | .rdsr _ => some .q
  | .reset => some .p
  | .start => some .p
  | .stop => some .p
  | .lock _ => some .p
  | .unlock => some .p
  | .submit _ => some .p
  | .wrcr _ _ => some .p
  | .wrgm _ _ => some .p
  | .skip _ => none
  | .cach _ _ _ _ => none
  | .voice _ _ _ _ => none
  | .sync _ _ => none

end Sys2Proof
end

