-- ==== Sys2Proof/Decode.lean ====
section
/-!
DEFINITION. Decoding of command words and descriptor words, total on any words and rejecting by name (rules R101 to R109),
and the encoder (rules R102, R106, R107).
-/
namespace Sys2Proof

/-- Why a word is no instruction (rules R105, R109). -/
inductive DecodeError where
  /-- An `OPC` that the opcode map does not hold. -/
  | noSuchOpcode (opc : BitVec 8)
  /-- A command of the other port. -/
  | wrongPort (opc : BitVec 8)
  /-- A legal `OPC` with an unused operand bit set. -/
  | operandBitsSet (opc : BitVec 8)
  /-- A `KIND` of 0x0 or 0x5 to 0xF. -/
  | reservedKind (kind : BitVec 4)
  /-- A descriptor bit that must be 0 is set. -/
  | mustBeZeroSet
  /-- `W` out of the range of its kind. -/
  | badWidth
  /-- `SLOTIDX` not below `W`. -/
  | slotIdxOutOfRange
  deriving DecidableEq, Repr

/-- What stands at the front of a port's word stream. -/
inductive Decoded where
  /-- A whole command and the words after it. -/
  | command (i : Instr) (rest : List Word)
  /-- An illegal command word, of length 1 (rule R103), and the words after it. -/
  | illegal (e : DecodeError) (rest : List Word)
  /-- No word, or a command whose data words have not all arrived. -/
  | incomplete
  deriving DecidableEq, Repr

/-- Bits `lo + n - 1` down to `lo` of a word (rule R14). -/
def bits (w : Word) (lo n : Nat) : BitVec n := w.extractLsb' lo n

/-- The port and the used operand bits of each `OPC` (rule R102). -/
def opcodeRow (opc : BitVec 8) : Option (Port × Word) :=
  if opc = 0x01#8 then some (.p, 0x000000#32)
  else if opc = 0x02#8 then some (.p, 0x000000#32)
  else if opc = 0x03#8 then some (.p, 0x000000#32)
  else if opc = 0x04#8 then some (.p, 0x00000F#32)
  else if opc = 0x05#8 then some (.p, 0x000000#32)
  else if opc = 0x06#8 then some (.p, 0x00FFFF#32)
  else if opc = 0x07#8 then some (.p, 0x0000FF#32)
  else if opc = 0x08#8 then some (.p, 0x0003FF#32)
  else if opc = 0x10#8 then some (.q, 0x000000#32)
  else if opc = 0x11#8 then some (.q, 0x0000FF#32)
  else none

/-- The command of a legal command word, its data words taken from the words after it (rules R102, R103). -/
def takeCommand (w : Word) (ws : List Word) : Decoded :=
  let opc := bits w 24 8
  if opc = 0x01#8 then .command .reset ws
  else if opc = 0x02#8 then .command .start ws
  else if opc = 0x03#8 then .command .stop ws
  else if opc = 0x04#8 then .command (.lock (bits w 0 4)) ws
  else if opc = 0x05#8 then .command .unlock ws
  else if opc = 0x06#8 then
    if (bits w 0 16).toNat ≤ ws.length then
      .command (.submit (ws.take (bits w 0 16).toNat)) (ws.drop (bits w 0 16).toNat)
    else .incomplete
  else if opc = 0x07#8 then
    match ws with
    | [] => .incomplete
    | v :: rest => .command (.wrcr (bits w 0 8) v) rest
  else if opc = 0x08#8 then
    match ws with
    | [] => .incomplete
    | v :: rest => .command (.wrgm (bits w 0 10) v) rest
  else if opc = 0x10#8 then .command .consume ws
  else if opc = 0x11#8 then .command (.rdsr (bits w 0 8)) ws
  else .illegal (.noSuchOpcode opc) ws

/-- Decoding of a port's word stream: legality of the command word first and alone (rules R105, R140). -/
def decodeCommand (port : Port) : List Word → Decoded
  | [] => .incomplete
  | w :: ws =>
    match opcodeRow (bits w 24 8) with
    | none => .illegal (.noSuchOpcode (bits w 24 8)) ws
    | some (owner, used) =>
      if owner ≠ port then .illegal (.wrongPort (bits w 24 8)) ws
      else if w &&& 0x00FFFFFF#32 &&& ~~~used ≠ 0#32 then .illegal (.operandBitsSet (bits w 24 8)) ws
      else takeCommand w ws

/-- Decoding of a descriptor word by its own bits (rules R106, R107, R109). -/
def decodeDescriptor (w : Word) : Except DecodeError Instr :=
  if bits w 28 4 = 0x1#4 then
    if w &&& 0x0FFFFC00#32 ≠ 0#32 then .error .mustBeZeroSet
    else if bits w 0 10 = 0#10 then .error .badWidth
    else .ok (.skip (bits w 0 10))
  else if bits w 28 4 = 0x2#4 then
    if w &&& 0x0407FC00#32 ≠ 0#32 then .error .mustBeZeroSet
    else if bits w 0 10 = 0#10 ∨ 64 < (bits w 0 10).toNat then .error .badWidth
    else if (bits w 0 10).toNat ≤ (bits w 20 6).toNat then .error .slotIdxOutOfRange
    else .ok (.cach (w.getLsbD 27) (bits w 20 6) (w.getLsbD 19) (bits w 0 10))
  else if bits w 28 4 = 0x3#4 then
    if w &&& 0x000FFC00#32 ≠ 0#32 then .error .mustBeZeroSet
    else if bits w 0 10 = 0#10 ∨ 48 < (bits w 0 10).toNat then .error .badWidth
    else .ok (.voice (w.getLsbD 27) (w.getLsbD 26) (bits w 20 6) (bits w 0 10))
  else if bits w 28 4 = 0x4#4 then
    if w &&& 0x07FFFC00#32 ≠ 0#32 then .error .mustBeZeroSet
    else if bits w 0 10 = 0#10 then .error .badWidth
    else .ok (.sync (w.getLsbD 27) (bits w 0 10))
  else .error (.reservedKind (bits w 28 4))

/-- A command word: `OPC` above its operand (rule R101). -/
def commandWord (opc : BitVec 8) (opr : BitVec 24) : Word := opc ++ opr

/-- A descriptor word: `KIND`, `PROT`, `LAST`, `AUX`, `AUXH`, nine zero bits, `W` (rule R106). -/
def descriptorWord (kind : BitVec 4) (prot last : Bool) (aux : BitVec 6) (auxh : Bool) (w : BitVec 10) : Word :=
  kind ++ BitVec.ofBool prot ++ BitVec.ofBool last ++ aux ++ BitVec.ofBool auxh ++ 0#9 ++ w

/-- The words of an instruction (rules R102, R103, R107). -/
def encode : Instr → List Word
  | .reset => [commandWord 0x01#8 0#24]
  | .start => [commandWord 0x02#8 0#24]
  | .stop => [commandWord 0x03#8 0#24]
  | .lock st => [commandWord 0x04#8 (st.setWidth 24)]
  | .unlock => [commandWord 0x05#8 0#24]
  | .submit samples => commandWord 0x06#8 ((BitVec.ofNat 16 samples.length).setWidth 24) :: samples
  | .wrcr a v => [commandWord 0x07#8 (a.setWidth 24), v]
  | .wrgm a v => [commandWord 0x08#8 (a.setWidth 24), v]
  | .consume => [commandWord 0x10#8 0#24]
  | .rdsr a => [commandWord 0x11#8 (a.setWidth 24)]
  | .skip w => [descriptorWord 0x1#4 false false 0#6 false w]
  | .cach prot slotIdx slotHalf w => [descriptorWord 0x2#4 prot false slotIdx slotHalf w]
  | .voice prot last base w => [descriptorWord 0x3#4 prot last base false w]
  | .sync prot w => [descriptorWord 0x4#4 prot false 0#6 false w]

/-- How many data words a command word asks for (rule R103). -/
def dataWords (w : Word) : Nat :=
  if bits w 24 8 = 0x06#8 then (bits w 0 16).toNat
  else if bits w 24 8 = 0x07#8 ∨ bits w 24 8 = 0x08#8 then 1
  else 0

/-- The words of an opcode-table word: its own words, least significant first, then zero data words. -/
def tableWords (nbits w : Nat) : List Word :=
  let given := max 1 ((nbits + 31) / 32)
  let own := (List.range given).map fun k => BitVec.ofNat 32 (w / 2 ^ (32 * k))
  own ++ List.replicate (dataWords (BitVec.ofNat 32 w) + 1 - given) 0#32

/-- The instruction the decoder reads from an opcode-table word: as a command of port P, as a command of port Q, and else as
a descriptor. No word is legal in two of the three. -/
def decodeTableWord (nbits w : Nat) : Option Instr :=
  match decodeCommand .p (tableWords nbits w) with
  | .command i _ => some i
  | _ =>
    match decodeCommand .q (tableWords nbits w) with
    | .command i _ => some i
    | _ =>
      match decodeDescriptor (BitVec.ofNat 32 w) with
      | .ok i => some i
      | .error _ => none

end Sys2Proof
end

