-- ==== Sys2Proof/Config.lean ====
section
/-!
DEFINITION. What is fixed for a machine and is not state (rule R66): the constants of rule R8, the parameters of the
step relation (those of rule R9, `EXPF`, the FEC oracle), and the free values, which have no body.
-/
namespace Sys2Proof

/-- `HCAP`, the capacity of a model's circular buffer (rule R8). -/
def Config.hcap : Nat := 200
/-- `MIN_TRAIN`, the least count of a model that `Estimate` uses (rule R8). -/
def Config.minTrain : Nat := 10
/-- The parameters of rule R9: arguments of the model, each with the default this hardware takes. A parameter that is a width
or a number of registers bounds what the operations keep in the 32-bit or 128-bit register that holds the value (logs 11, 25). -/
structure Params where
  /-- `DBUF_CAP`, entries of the dibit buffer. -/
  dbufCap : Nat := 512
  /-- `IN_CAP`, samples of one input batch. -/
  inCap : Nat := 4096
  /-- `W_CNT`, the width at which the event counters and the BER accumulators stop. -/
  wCnt : Nat := 32
  /-- `W_PTR`, the width at which `WP` and `RP` wrap. -/
  wPtr : Nat := 32
  /-- `GM_WORDS`, words of grammar memory. -/
  gmWords : Nat := 1024
  /-- `NFIELD_MAX`. -/
  nfieldMax : Nat := 64
  /-- `NSYNC_MAX`. -/
  nsyncMax : Nat := 8
  /-- `VLEN_MAX`. -/
  vlenMax : Nat := 48
  /-- `SYNCW_MAX`. -/
  syncwMax : Nat := 32
  /-- `NWIRE_MAX`. -/
  nwireMax : Nat := 512
  /-- `NSIGREG`, the number of signalling registers. -/
  nsigreg : Nat := 8
  /-- `SIGREG_W`, the width of a signalling register. -/
  sigregW : Nat := 128
  deriving DecidableEq, Repr

/-- The bounds that rule R9 sets its parameters, and those that other rules leave them: a pointer tells a full dibit buffer
from an empty one (rule R32), each table fits its place in the map (rules R111 to R113), each register its place in the
register map (rule R61), and the registers and bits that rules R47 and R262 name exist. -/
def Params.legal (P : Params) : Bool :=
  decide (64 ≤ P.dbufCap) && (P.dbufCap == 2 ^ Nat.log2 P.dbufCap) && decide (P.dbufCap < 2 ^ P.wPtr)
    && decide (P.wPtr ≤ 32) && decide (P.inCap ≤ 65535) && decide (P.wCnt ≤ 32) && decide (P.gmWords ≤ 1024)
    && decide (P.nfieldMax ≤ 64) && decide (P.nsyncMax ≤ 8) && decide (P.vlenMax ≤ 48) && decide (P.syncwMax ≤ 32)
    && decide (P.nwireMax ≤ 512) && decide (7 ≤ P.nsigreg) && decide (P.nsigreg ≤ 8) && decide (16 ≤ P.sigregW)
    && decide (P.sigregW ≤ 128)

/-- The parameters of this hardware: every default of rule R9. -/
def Config.params : Params := {}

/-- The register that holds an event counter or BER accumulator of `W_CNT` bits (rules R38, R45, R46). -/
abbrev Counter := BitVec 32
/-- The register that holds `WP` or `RP`, of `W_PTR` bits (rules R31, R32). -/
abbrev Pointer := BitVec 32
/-- The register that holds a signalling register of `SIGREG_W` bits (rules R49, R50). -/
abbrev SigReg := BitVec 128
/-- The registers that hold `NSIGREG` signalling registers (rules R49, R50). -/
abbrev SigFile := Vector SigReg 8

/-- The constant of register `ID` (rule R61). -/
def Config.idWord : Word := 0x54465301#32

/-- A query to the FEC corrector: the descriptor's kind, the burst and field index, the raw dibits (rule R226). -/
structure FecQuery where
  kind : BitVec 4
  j : BitVec 3
  f : BitVec 7
  raw : List Dibit
  deriving DecidableEq, Repr

/-- The corrector's answer: `ok`, and the corrected dibit of each index below `W` (rule R226). -/
structure FecAnswer where
  ok : Bool
  dibit : Nat → Dibit

/-- The parameters of the step relation (rule R66): those of rule R9, the exponential `EXPF` (rule R10), the FEC oracle (rule
R226), and the free sign and payload bits of the NaN that the n-th draw produces (rule R196, U8). -/
structure Env where
  params : Params
  expf : Word → Word
  fec : FecQuery → FecAnswer
  nan : Nat → BitVec 23

/-- The storages whose entries can hold no value (rules R33, R36, R60, R64). -/
inductive Space where
  | dbufDibit
  | dbufSample
  | inBuf
  | outRec
  | gm
  | htVal
  | htMean
  deriving DecidableEq, Repr

/-- Parameter `EXPF` (rule R10, U7). -/
opaque Config.expf : Word → Word
/-- Parameter: whether the FEC corrector confirms a query (rule R226, U19). -/
opaque Config.fecOk : FecQuery → Bool
/-- Parameter: the corrected dibit the FEC corrector answers at an index (rule R226, U19). -/
opaque Config.fecDibit : FecQuery → Nat → Dibit
/-- Free value: sign and payload of the NaN that a draw produces (rule R196, U8). -/
opaque Config.nanBits : Nat → BitVec 23
/-- Free value: what an entry that holds no value reads as (rule R64, U2 to U6). -/
opaque Config.noValue : Space → Nat → Word

/-- The parameters this hardware runs with. -/
def Config.env : Env :=
  { params := Config.params
    expf := Config.expf
    fec := fun q => { ok := Config.fecOk q, dibit := Config.fecDibit q }
    nan := Config.nanBits }

end Sys2Proof
end

