-- ==== Sys2Proof/Machine/State.lean ====
section
/-!
DEFINITION. The state of the block (10_state.md), the reasons a step can stop, and the state after power-on reset (rules R64,
R320).
-/
namespace Sys2Proof.Machine

/-- A storage: its written entries by address, addresses strictly rising. An address that is not listed holds no value. The
block has no bytes, so the cell of a storage is one whole entry (rules R82, R83), where `Host.Cell` has a byte. -/
abbrev Mem (α : Type) := List (Nat × α)

/-- The canonical form of a storage with addresses below `cap`. -/
abbrev Mem.wf {α : Type} (cap : Nat) (m : Mem α) : Prop :=
  (m.map Prod.fst).Pairwise (· < ·) ∧ ∀ a ∈ m.map Prod.fst, a < cap

/-- One symbol heuristic model `HT[p][c]` (rule R36). -/
structure SymModel where
  /-- `VAL`, the stored analog values by slot. -/
  val : Mem Word
  /-- `MEAN`, the running mean stored with each value. -/
  mean : Mem Word
  /-- `IDX`, the slot the next insertion writes. -/
  idx : BitVec 8
  /-- `CNT`, the number of valid slots. -/
  cnt : BitVec 8
  /-- `SUM`, the running sum. -/
  sum : Word
  /-- `VSUM`, the running sum of squared deviations. -/
  vsum : Word
  deriving DecidableEq, Repr

/-- An empty model (rule R324). -/
def SymModel.empty : SymModel :=
  { val := [], mean := [], idx := 0, cnt := 0, sum := 0, vsum := 0 }

/-- One entry of the dibit buffer: the dibit and the sample it was sliced from (rule R30). -/
structure DbEntry where
  d : Dibit
  a : Word
  deriving DecidableEq, Repr

/-- The agents that can be given a turn (rule R13). The FEC corrector only answers inside an engine step. -/
inductive Agent where
  | engine
  | producer
  | consumer
  | por
  deriving DecidableEq, Repr

/-- The state of the block (rule R20), and beside it the model's own fields (last group). -/
structure State where
  /-- `RUN` (rule R21). -/
  run : Bool
  /-- `HALTED` (rule R22). -/
  halted : Bool
  /-- `LOCKED` (rule R23). -/
  locked : Bool
  /-- `GVALID` (rule R24). -/
  gvalid : Bool
  /-- `FAULT`, sticky (rules R25, R297). -/
  fault : BitVec 8
  /-- `J`, the burst index (rule R26). -/
  j : BitVec 3
  /-- `F`, the descriptor index (rule R27). -/
  f : BitVec 7
  /-- `KIDX`, the ordinal of the next voice sub-frame (rule R28). -/
  kidx : BitVec 2
  /-- `DBUF` (rule R30). -/
  dbuf : Mem DbEntry
  /-- `WP` (rule R31). -/
  wp : Pointer
  /-- `RP` (rule R32). -/
  rp : Pointer
  /-- `DB_VALID` (rule R33). -/
  dbValid : Word
  /-- `LAST_DIBIT` (rule R34). -/
  lastDibit : Dibit
  /-- `HT`, model `HT[p][c]` at index `4p + c` (rule R35). -/
  ht : Vector SymModel 16
  /-- `BIT_CNT` (rule R38). -/
  bitCnt : Counter
  /-- `BIT_ERR` (rule R38). -/
  bitErr : Counter
  /-- `CURSLOT` (rule R40). -/
  curslot : BitVec 1
  /-- `LASTSYNC` (rule R41). -/
  lastsync : BitVec 4
  /-- `SLOTST[0]` (rule R42). -/
  slotst0 : BitVec 2
  /-- `SLOTST[1]` (rule R42). -/
  slotst1 : BitVec 2
  /-- `MUTED` (rule R43). -/
  muted : Bool
  /-- `FIRSTFRAME` (rule R44). -/
  firstframe : Bool
  /-- `HDR_ERR` (rule R45). -/
  hdrErr : Counter
  /-- `AUD_ERR` (rule R45). -/
  audErr : Counter
  /-- `SYNC_MISS` (rule R46). -/
  syncMiss : Counter
  /-- `ALGID` (rule R47). -/
  algid : BitVec 8
  /-- `KEYID` (rule R47). -/
  keyid : BitVec 16
  /-- `ENC_PRES` (rule R47). -/
  encPres : Bool
  /-- `DISC` (rule R48). -/
  disc : BitVec 2
  /-- `DISC_VALID` (rule R48). -/
  discValid : Bool
  /-- `SIGW[0..7]`, the working signalling registers (rule R49). -/
  sigw : SigFile
  /-- `SIGC[0..7]`, the committed signalling registers (rule R50). -/
  sigc : SigFile
  /-- `SIGBAD` (rule R51). -/
  sigbad : Bool
  /-- `VM`, four rows; bit `c` of row `r` is `VM[r][c]` (rule R53). -/
  vm : Vector (BitVec 24) 4
  /-- `VBAD` (rule R54). -/
  vbad : Bool
  /-- `IN_BUF` (rule R55). -/
  inBuf : Mem Word
  /-- `RDY_LEN` (rule R55). -/
  rdyLen : BitVec 16
  /-- `IN_OFF` (rule R55). -/
  inOff : BitVec 16
  /-- `OUT_REC`, five words (rule R56). -/
  outRec : Mem Word
  /-- `OUT_LEN` (rule R56). -/
  outLen : BitVec 1
  /-- `OUT_OFF` (rule R56). -/
  outOff : BitVec 1
  /-- `CTRL` (rule R57). -/
  ctrl : Word
  /-- `TH_CENTER` (rule R58). -/
  thCenter : Word
  /-- `TH_UMID` (rule R58). -/
  thUmid : Word
  /-- `TH_LMID` (rule R58). -/
  thLmid : Word
  /-- `TH_BAND` (rule R58). -/
  thBand : Word
  /-- `SLICE_MAP` (rule R59). -/
  sliceMap : BitVec 8
  /-- `GM`, grammar memory (rule R60). -/
  gm : Mem Word
  /-- MODEL'S OWN: the turns the environment has fixed in advance (rule R89, log 1). -/
  turns : List Agent
  /-- MODEL'S OWN: words put on port P and not yet taken (rule R103, log 2). -/
  portP : List Word
  /-- MODEL'S OWN: words put on port Q and not yet taken (rule R103, log 2). -/
  portQ : List Word
  /-- MODEL'S OWN: the response words sent on port Q, oldest first (rule R104, log 4). -/
  qOut : List Word
  /-- MODEL'S OWN: the query words sent on port F, oldest first (rule R127, log 4). -/
  fecOut : List Word
  /-- MODEL'S OWN: the answer words received on port F, oldest first (rule R127, log 4). -/
  fecIn : List Word
  /-- MODEL'S OWN: how many NaN draws were made (rule R196, U8, log 7). -/
  nanDraws : Nat
  deriving DecidableEq, Repr

/-- Why a step stops with a fault. The block's own faults are bits of `FAULT` and stop nothing (rules R297, R302). -/
inductive Fault where
  /-- Raised by the fetch of an engine that is to run a reserved descriptor word, which no grammar that passed START holds
  (rules R109, R294). Safe: the model stops where the spec defines no step. -/
  | reservedDescriptor (w : Word)
  deriving DecidableEq, Repr

/-- Why a step is refused. -/
inductive Refusal where
  /-- Raised by an arm of `exec` whose instruction has no meaning yet. Safe: nothing is said of the instruction. No arm
  answers with it. -/
  | notModelled (mnemonic : String)
  deriving DecidableEq, Repr

/-- The state right after power-on reset: the POR column of rule R64. The three thresholds, which it leaves unspecified, are
+0.0 (DESIGN CHOICE, unsafe, log 10); a storage it leaves unspecified lists nothing (log 8, log 9). -/
def State.reset : State :=
  { run := false
    halted := true
    locked := false
    gvalid := false
    fault := 0
    j := 0
    f := 0
    kidx := 0
    dbuf := []
    wp := 0
    rp := 0
    dbValid := 0
    lastDibit := 0
    ht := Vector.replicate 16 SymModel.empty
    bitCnt := 0
    bitErr := 0
    curslot := 0
    lastsync := 0
    slotst0 := 0
    slotst1 := 0
    muted := true
    firstframe := true
    hdrErr := 0
    audErr := 0
    syncMiss := 0
    algid := 0
    keyid := 0
    encPres := false
    disc := 0
    discValid := false
    sigw := Vector.replicate 8 0
    sigc := Vector.replicate 8 0
    sigbad := false
    vm := Vector.replicate 4 0
    vbad := false
    inBuf := []
    rdyLen := 0
    inOff := 0
    outRec := []
    outLen := 0
    outOff := 0
    ctrl := 0
    thCenter := 0
    thUmid := 0
    thLmid := 0
    thBand := 0x7F800000#32
    sliceMap := 0xE1#8
    gm := []
    turns := []
    portP := []
    portQ := []
    qOut := []
    fecOut := []
    fecIn := []
    nanDraws := 0 }

end Sys2Proof.Machine
end

