-- ==== Sys2Proof/Machine/Memory.lean ====
section
/-!
DEFINITION. Reading and writing a storage: one canonical form, kept by every write (20_memory.md).
-/
namespace Sys2Proof.Machine

/-- The entry at an address, or none where the storage holds no value. -/
def memRead {α : Type} : Mem α → Nat → Option α
  | [], _ => none
  | (b, v) :: m, a => if a = b then some v else memRead m a

/-- One entry written. -/
def memWrite {α : Type} : Mem α → Nat → α → Mem α
  | [], a, v => [(a, v)]
  | (b, x) :: m, a, v =>
    if a < b then (a, v) :: (b, x) :: m
    else if a = b then (a, v) :: m
    else (b, x) :: memWrite m a v

/-- A run of entries written from address 0 on; the entries above it stay (rule R148). -/
def memLoad {α : Type} (m : Mem α) (xs : List α) : Mem α :=
  xs.zipIdx.map (fun p => (p.2, p.1)) ++ m.filter (fun e => decide (xs.length ≤ e.1))

/-- `GmRead` (rule R80); a word no WRGM has written is a free value (rule R64, U2, log 9). -/
def gmRead (gm : Mem Word) (a : Nat) : Word := (memRead gm a).getD (Config.noValue .gm a)

/-- A word of grammar memory written; an address past the last word stores nothing (rules R9, R60, R154,
DESIGN CHOICE, log 25). -/
def gmWrite (P : Params) (gm : Mem Word) (a : Nat) (v : Word) : Mem Word :=
  if a < P.gmWords then memWrite gm a v else gm

/-- One bit of a vector set to a value; no bit where the index is past its width. -/
def setBitTo {n : Nat} (x : BitVec n) (i : Nat) (b : Bool) : BitVec n :=
  if b then x ||| (1#n <<< i) else x &&& ~~~(1#n <<< i)

/-- `bit(d, h)`: the high bit of a dibit when `h`, else its low bit (rule R121). -/
def dibitBit (d : Dibit) (h : Bool) : Bool := if h then d.getLsbD 1 else d.getLsbD 0

end Sys2Proof.Machine
end

