-- ==== Sys2Proof/Machine/Grammar.lean ====
section
/-!
DEFINITION. The structured view of grammar memory (rules R110 to R119). A member is the field of its word as it stands; the
START checks are what bounds it.
-/
namespace Sys2Proof.Machine

/-- `NFIELD` (rule R112). -/
def gNfield (gm : Mem Word) : Nat := (bits (gmRead gm 0x000) 0 7).toNat
/-- `NSYNC` (rule R112). -/
def gNsync (gm : Mem Word) : Nat := (bits (gmRead gm 0x000) 8 4).toNat
/-- `VLEN` (rule R112). -/
def gVlen (gm : Mem Word) : Nat := (bits (gmRead gm 0x000) 16 6).toNat
/-- `SYNCW` (rule R112). -/
def gSyncw (gm : Mem Word) : Nat := (bits (gmRead gm 0x000) 22 6).toNat
/-- `LOOKBACK` (rule R113). -/
def gLookback (gm : Mem Word) : Nat := (bits (gmRead gm 0x001) 0 10).toNat
/-- `NWIRE` (rule R113). -/
def gNwire (gm : Mem Word) : Nat := (bits (gmRead gm 0x001) 16 10).toNat
/-- `DISC_BURST` (rule R114). -/
def gDiscBurst (gm : Mem Word) : BitVec 3 := bits (gmRead gm 0x002) 0 3
/-- `SIG_LAST` (rule R114). -/
def gSigLast (gm : Mem Word) : BitVec 3 := bits (gmRead gm 0x002) 3 3
/-- `ENC_MASK[v]` (rule R114). -/
def gEncMask (gm : Mem Word) (v : Dibit) : Bool := (gmRead gm 0x002).getLsbD (6 + v.toNat)
/-- `SYNC_EXPECT[j]` (rule R114); the member has six bits. -/
def gSyncExpect (gm : Mem Word) (j : BitVec 3) : Bool := (bits (gmRead gm 0x002) 10 6).getLsbD j.toNat
/-- `D1IDX` (rule R114). -/
def gD1Idx (gm : Mem Word) : Nat := (bits (gmRead gm 0x002) 16 1).toNat
/-- `D1HALF` (rule R114). -/
def gD1Half (gm : Mem Word) : Bool := (gmRead gm 0x002).getLsbD 17
/-- `D0IDX` (rule R114). -/
def gD0Idx (gm : Mem Word) : Nat := (bits (gmRead gm 0x002) 18 1).toNat
/-- `D0HALF` (rule R114). -/
def gD0Half (gm : Mem Word) : Bool := (gmRead gm 0x002).getLsbD 19
/-- `TG_LO` (rule R114). -/
def gTgLo (gm : Mem Word) : Nat := (bits (gmRead gm 0x002) 20 7).toNat
/-- `TG_W` (rule R114). -/
def gTgW (gm : Mem Word) : Nat := (bits (gmRead gm 0x002) 27 5).toNat
/-- `FOLD[d]` (rule R115). -/
def gFold (gm : Mem Word) (d : Dibit) : Dibit := bits (gmRead gm 0x003) (2 * d.toNat) 2
/-- `FIELD[f]`, a format D word (rule R116). -/
def gField (gm : Mem Word) (f : Nat) : Word := gmRead gm (0x010 + f)
/-- `SYNCTAB[k].PAT[i]` (rule R117). -/
def gPat (gm : Mem Word) (k i : Nat) : Dibit := bits (gmRead gm (0x050 + 4 * k + i / 16)) (2 * (i % 16)) 2
/-- `SYNCTAB[k].CLASS` is DATA (rule R117). -/
def gClassData (gm : Mem Word) (k : Nat) : Bool := (gmRead gm (0x052 + 4 * k)).getLsbD 0
/-- `SYNCTAB[k].TYPE` (rule R117). -/
def gType (gm : Mem Word) (k : Nat) : BitVec 4 := bits (gmRead gm (0x052 + 4 * k)) 4 4
/-- `VTAB[k].WR` (rule R118). -/
def gVtabWr (gm : Mem Word) (k : Nat) : BitVec 2 := bits (gmRead gm (0x080 + k)) 0 2
/-- `VTAB[k].XC` (rule R118). -/
def gVtabXc (gm : Mem Word) (k : Nat) : Nat := (bits (gmRead gm (0x080 + k)) 2 5).toNat
/-- `VTAB[k].YR` (rule R118). -/
def gVtabYr (gm : Mem Word) (k : Nat) : BitVec 2 := bits (gmRead gm (0x080 + k)) 8 2
/-- `VTAB[k].ZC` (rule R118). -/
def gVtabZc (gm : Mem Word) (k : Nat) : Nat := (bits (gmRead gm (0x080 + k)) 10 5).toNat
/-- `WIRE[n]`, the word (rule R119). -/
def gWire (gm : Mem Word) (n : Nat) : Word := gmRead gm (0x100 + n)
/-- `JW` of a wiring entry (rule R119). -/
def wireJw (e : Word) : BitVec 3 := bits e 0 3
/-- `SEL[v]` of a wiring entry (rule R119). -/
def wireSel (e : Word) (v : Dibit) : Bool := e.getLsbD (3 + v.toNat)
/-- `SRC` of a wiring entry (rule R119). -/
def wireSrc (e : Word) : Nat := (bits e 7 5).toNat
/-- `HALF` of a wiring entry (rule R119). -/
def wireHalf (e : Word) : Bool := e.getLsbD 12
/-- `DST` of a wiring entry (rule R119). -/
def wireDst (e : Word) : BitVec 3 := bits e 13 3
/-- `BIT` of a wiring entry (rule R119). -/
def wireBit (e : Word) : Nat := (bits e 16 7).toNat

/-- `KIND` of a descriptor word (rule R106). -/
def descKind (w : Word) : BitVec 4 := bits w 28 4
/-- `W` of a descriptor word (rule R106). -/
def descW (w : Word) : Nat := (bits w 0 10).toNat

/-- The descriptor words of one burst iteration, in order (rule R110). -/
def gFields (gm : Mem Word) : List Word := (List.range (gNfield gm)).map (gField gm)

/-- The wiring entries, in order (rule R110). -/
def gWires (gm : Mem Word) : List Word := (List.range (gNwire gm)).map (gWire gm)

/-- Whether folded dibits are the pattern of sync entry `k` (rule R122). -/
def patMatches (gm : Mem Word) (r : List Dibit) (k : Nat) : Bool :=
  r.zipIdx.all fun p => gFold gm p.1 == gPat gm k p.2

/-- The lowest sync entry that the raw dibits match (rules R122, R235). -/
def syncMatch (gm : Mem Word) (r : List Dibit) : Option Nat :=
  (List.range (gNsync gm)).find? (patMatches gm r)

/-- `TGID`: a view of `SIGC[2]` (rule R263). -/
def tgidView (gm : Mem Word) (payload : BitVec 128) : BitVec 24 :=
  if gTgW gm = 0 then 0
  else ((payload >>> gTgLo gm) &&& (BitVec.allOnes 128 >>> (128 - gTgW gm))).setWidth 24

end Sys2Proof.Machine
end

