-- ==== Sys2Proof/Machine/Checks.lean ====
section
/-!
DEFINITION. The checks START runs: G1 to G10 on grammar memory, G11 on the configuration (rule R125).
-/
namespace Sys2Proof.Machine

/-- G1, header ranges and zero bits. -/
def checkG1 (P : Params) (gm : Mem Word) : Bool :=
  decide (1 ≤ gNfield gm) && decide (gNfield gm ≤ P.nfieldMax) && decide (gNsync gm ≤ P.nsyncMax)
    && decide (1 ≤ gVlen gm) && decide (gVlen gm ≤ P.vlenMax)
    && decide (1 ≤ gSyncw gm) && decide (gSyncw gm ≤ P.syncwMax)
    && decide (gNwire gm ≤ P.nwireMax) && decide (gLookback gm ≤ P.dbufCap)
    && (gmRead gm 0x000 &&& 0xF000F080#32 == 0#32)
    && (gmRead gm 0x001 &&& 0xFC00FC00#32 == 0#32)
    && (gmRead gm 0x003 &&& 0xFFFFFF00#32 == 0#32)

/-- G2, signalling ranges. -/
def checkG2 (gm : Mem Word) : Bool :=
  decide ((gDiscBurst gm).toNat ≤ 5) && decide ((gSigLast gm).toNat ≤ 5)
    && decide ((gDiscBurst gm).toNat ≤ (gSigLast gm).toNat)
    && decide ((gSigLast gm).toNat - (gDiscBurst gm).toNat + 1 ≤ 5)
    && decide (gD1Idx gm < gSyncw gm) && decide (gD0Idx gm < gSyncw gm)
    && decide (gTgW gm ≤ 24) && decide (gTgLo gm + gTgW gm ≤ 128)

/-- A descriptor word legal in this grammar (rules R106, R107, R109). -/
def legalDescriptor (gm : Mem Word) (w : Word) : Bool :=
  match decodeDescriptor w with
  | .ok i => i.fits (gVlen gm) (gSyncw gm)
  | .error _ => false

/-- G3, every descriptor of the pass is legal. -/
def checkG3 (gm : Mem Word) : Bool := (gFields gm).all (legalDescriptor gm)

/-- Whether a descriptor word is of kind SYNC. -/
def isSyncWord (w : Word) : Bool := descKind w == 0x4#4

/-- G4, at most one SYNC descriptor. -/
def checkG4 (gm : Mem Word) : Bool := decide ((gFields gm).countP isSyncWord ≤ 1)

/-- The sum of the widths up to and including the first SYNC descriptor, if there is one. -/
def widthToSync : List Word → Option Nat
  | [] => none
  | w :: ws => if isSyncWord w then some (descW w) else (widthToSync ws).map (descW w + ·)

/-- G5, `LOOKBACK` reaches from the start of a pass to the end of its sync field. -/
def checkG5 (gm : Mem Word) : Bool :=
  match widthToSync (gFields gm) with
  | some n => decide (gLookback gm = n)
  | none => decide (gNsync gm = 0) && decide (gNwire gm = 0)

/-- G6 from a given `next`: voice segments are well nested. -/
def voiceNested (vlen : Nat) : Nat → List Word → Bool
  | next, [] => decide (next = 0)
  | next, w :: ws =>
    if descKind w == 0x3#4 then
      decide ((bits w 20 6).toNat = next) &&
        (if w.getLsbD 26 then decide ((bits w 20 6).toNat + descW w = vlen) && voiceNested vlen 0 ws
         else voiceNested vlen ((bits w 20 6).toNat + descW w) ws)
    else voiceNested vlen next ws

/-- G6. -/
def checkG6 (gm : Mem Word) : Bool := voiceNested (gVlen gm) 0 (gFields gm)

/-- G7, every width fits the dibit buffer. -/
def checkG7 (P : Params) (gm : Mem Word) : Bool := (gFields gm).all fun w => decide (descW w ≤ P.dbufCap)

/-- G8, one sync entry obeys rule R117. -/
def legalSyncEntry (gm : Mem Word) (k : Nat) : Bool :=
  ((List.range 32).all fun i => decide (i < gSyncw gm) || gPat gm k i == 0#2)
    && (gmRead gm (0x052 + 4 * k) &&& 0xFFFFFF0E#32 == 0#32)
    && (gmRead gm (0x053 + 4 * k) == 0#32)
    && decide (1 ≤ (gType gm k).toNat)

/-- G8. -/
def checkG8 (gm : Mem Word) : Bool := (List.range (gNsync gm)).all (legalSyncEntry gm)

/-- G9, voice table columns and zero bits. -/
def checkG9 (gm : Mem Word) : Bool :=
  (List.range (gVlen gm)).all fun k =>
    decide (gVtabXc gm k ≤ 23) && decide (gVtabZc gm k ≤ 23) && (gmRead gm (0x080 + k) &&& 0xFFFF8080#32 == 0#32)

/-- G10, wiring entries. -/
def checkG10 (gm : Mem Word) : Bool :=
  (gWires gm).all fun e =>
    decide ((wireJw e).toNat ≤ 5) && decide ((gDiscBurst gm).toNat ≤ (wireJw e).toNat)
      && decide ((wireJw e).toNat ≤ (gSigLast gm).toNat)
      && decide (wireSrc e < gSyncw gm) && (e &&& 0xFF800000#32 == 0#32)

/-- G1 to G10 all pass. -/
def grammarOk (P : Params) (gm : Mem Word) : Bool :=
  checkG1 P gm && checkG2 gm && checkG3 gm && checkG4 gm && checkG5 gm && checkG6 gm && checkG7 P gm && checkG8 gm
    && checkG9 gm && checkG10 gm

/-- G11 passes: thresholds finite and ordered, the band `+inf` or finite and not below zero. -/
def configOk (center umid lmid band : Word) : Bool :=
  f32IsFinite center && f32IsFinite umid && f32IsFinite lmid && fle lmid center && fle center umid
    && (band == 0x7F800000#32 || (f32IsFinite band && fle 0#32 band))

end Sys2Proof.Machine
end

