-- ==== Sys2Proof/Machine/Flags.lean ====
section
/-!
DEFINITION. The sticky FAULT register, the saturating counters and the STATUS layout (rules R62, R195, R297).
-/
namespace Sys2Proof.Machine

/-- The bits of FAULT that a step can set (rule R297). -/
inductive FaultCode where
  | illcmd
  | overrun
  | grammar
  | cfg
  | badsample
  | busywr
  | badlock
  deriving DecidableEq, Repr

/-- The bit number of a fault code (rule R297). -/
def faultBit : FaultCode → Nat
  | .illcmd => 0
  | .overrun => 1
  | .grammar => 2
  | .cfg => 3
  | .badsample => 4
  | .busywr => 5
  | .badlock => 6

/-- `x <- sat(x + 1)` at the width `W_CNT` (rules R9, R195, log 25). -/
def satInc (P : Params) (x : Counter) : Counter := if x.toNat = 2 ^ P.wCnt - 1 then x else x + 1

/-- The STATUS word (rule R62). -/
def statusWord (s : State) : Word :=
  0#7 ++ BitVec.ofBool s.vbad ++ BitVec.ofBool s.sigbad ++ s.disc ++ BitVec.ofBool s.discValid
    ++ BitVec.ofBool s.encPres ++ s.kidx ++ s.f ++ s.j ++ s.curslot ++ BitVec.ofBool s.firstframe
    ++ BitVec.ofBool s.muted ++ BitVec.ofBool s.gvalid ++ BitVec.ofBool s.locked ++ BitVec.ofBool s.halted
    ++ BitVec.ofBool s.run

end Sys2Proof.Machine
end

