-- ==== Sys2Proof/Machine/Ops.lean ====
section
/-!
DEFINITION. The named operations over the state: `raise`, which is all that taking an exception is in this block (rules R297,
R302; there is no return, rule R303), the channel and buffer primitives (rules R71 to R79), and the clearing procedures
(rules R320 to R324).
-/
namespace Sys2Proof.Machine

/-- `raise <code>`: the sticky bit is set and nothing else happens (rule R297). -/
def raise (code : FaultCode) (s : State) : State := { s with fault := setBitTo s.fault (faultBit code) true }

/-- The model `HT[p][c]` (rule R35). -/
def htGet (s : State) (p c : Dibit) : SymModel :=
  s.ht[4 * p.toNat + c.toNat]'(by have := p.isLt; have := c.isLt; omega)

/-- `HT[p][c]` replaced. -/
def htSet (s : State) (p c : Dibit) (m : SymModel) : State :=
  { s with ht := s.ht.set (4 * p.toNat + c.toNat) m (by have := p.isLt; have := c.isLt; omega) }

/-- `CTRL.CTX_EN` (rule R57). -/
def ctxEn (s : State) : Bool := s.ctrl.getLsbD 0

/-- `CTRL.AUTOLOCK` (rule R57). -/
def autoLock (s : State) : Bool := s.ctrl.getLsbD 1

/-- Pointer arithmetic: a pointer or difference of pointers taken modulo `2^W_PTR` (rules R9, R15, R195, log 25). -/
def ptrWrap (P : Params) (p : Pointer) : Pointer := BitVec.ofNat 32 (p.toNat % 2 ^ P.wPtr)

/-- The index of a pointer into the dibit buffer (rule R71). -/
def dbIndex (P : Params) (p : Pointer) : Nat := p.toNat % P.dbufCap

/-- `DbRead` (rule R72); an entry that holds no value is a free value (U3, log 8). -/
def dbRead (P : Params) (s : State) (p : Pointer) : DbEntry :=
  (memRead s.dbuf (dbIndex P p)).getD
    { d := (Config.noValue .dbufDibit (dbIndex P p)).setWidth 2, a := Config.noValue .dbufSample (dbIndex P p) }

/-- `DbPush` (rule R73). -/
def dbPush (P : Params) (d : Dibit) (a : Word) (s : State) : State :=
  { s with
    dbuf := memWrite s.dbuf (dbIndex P s.wp) { d := d, a := a }
    wp := ptrWrap P (s.wp + 1)
    dbValid := BitVec.ofNat 32 (min (s.dbValid.toNat + 1) P.dbufCap)
    lastDibit := d
    rp := if s.locked then s.rp else ptrWrap P (s.wp + 1) }

/-- The dibits between the two pointers, `(WP - RP) mod 2^W_PTR` (rules R9, R32). -/
def avail (P : Params) (s : State) : Nat := (ptrWrap P (s.wp - s.rp)).toNat

/-- The value `InRead` returns (rule R76); an entry that holds no value is a free value (U4, log 8). -/
def inHead (s : State) : Word := (memRead s.inBuf s.inOff.toNat).getD (Config.noValue .inBuf s.inOff.toNat)

/-- The offset update of `InRead` (rule R76). -/
def inAdvance (s : State) : State :=
  { s with
    rdyLen := if s.inOff + 1 = s.rdyLen then 0 else s.rdyLen
    inOff := if s.inOff + 1 = s.rdyLen then 0 else s.inOff + 1 }

/-- `OutWrite` (rule R78). -/
def outWrite (record : List Word) (s : State) : State :=
  { s with outRec := memLoad s.outRec record, outLen := 1, outOff := 0 }

/-- Word `i` of the record in the output slot; one that holds no value is a free value (U5, log 8). -/
def outWord (s : State) (i : Nat) : Word := (memRead s.outRec i).getD (Config.noValue .outRec i)

/-- `SessionClear` (rule R324). -/
def sessionClear (s : State) : State :=
  { s with
    ht := Vector.replicate 16 SymModel.empty
    bitCnt := 0
    bitErr := 0
    j := 0
    f := 0
    kidx := 0
    lastDibit := 0
    curslot := 0
    lastsync := 0
    slotst0 := 0
    slotst1 := 0
    muted := true
    firstframe := true
    hdrErr := 0
    audErr := 0
    syncMiss := 0
    algid := 0
    keyid := 0
    encPres := false
    disc := 0
    discValid := false
    sigbad := false
    sigw := Vector.replicate 8 0
    sigc := Vector.replicate 8 0
    vm := Vector.replicate 4 0
    vbad := false }

/-- `Reset` (rule R321): an entry that loses its value is no longer listed. -/
def resetProc (s : State) : State :=
  { sessionClear s with
    rdyLen := 0
    inOff := 0
    outLen := 0
    outOff := 0
    inBuf := []
    outRec := []
    wp := 0
    rp := 0
    dbValid := 0
    dbuf := []
    locked := false }

/-- `Unlock` (rule R322). -/
def unlockProc (s : State) : State := { sessionClear s with locked := false, rp := s.wp }

/-- `LockOn(st)` (rule R323). -/
def lockOn (P : Params) (st : BitVec 4) (s : State) : State :=
  { sessionClear s with
    locked := true
    rp := ptrWrap P (s.wp - BitVec.ofNat 32 (gLookback s.gm))
    lastsync := st }

/-- `POR` (rule R320), an event of its own agent: the state after power-on reset, with the outside world's words and
transcripts as they are (log 16). -/
def porProc (s : State) : State :=
  { State.reset with
    turns := s.turns
    portP := s.portP
    portQ := s.portQ
    qOut := s.qOut
    fecOut := s.fecOut
    fecIn := s.fecIn
    nanDraws := s.nanDraws }

/-- Whether the descriptor at `F` is the last of the pass (rule R240). -/
def lastField (s : State) : Bool := decide (s.f.toNat + 1 = gNfield s.gm)

/-- `Advance(W)` (rule R240). -/
def advance (P : Params) (w : BitVec 10) (s : State) : State :=
  { s with
    rp := ptrWrap P (s.rp + w.setWidth 32)
    f := if lastField s then 0 else s.f + 1
    j := if lastField s then BitVec.ofNat 3 ((s.j.toNat + 1) % 6) else s.j
    kidx := if lastField s then 0 else s.kidx
    firstframe := if lastField s then false else s.firstframe }

end Sys2Proof.Machine
end

