-- ==== Sys2Proof/Machine/Operands.lean ====
section
/-!
DEFINITION. The operands of a descriptor: the field at `RP` (rules R84, R211, R243), and the packing of dibits into words
(rule R82 c).
-/
namespace Sys2Proof.Machine

/-- The field: the `W` entries from `RP` on, in arrival order (rules R82 b, R211). -/
def readField (P : Params) (s : State) (w : BitVec 10) : List DbEntry :=
  (List.range w.toNat).map fun i => dbRead P s (ptrWrap P (s.rp + BitVec.ofNat 32 i))

/-- Dibit `i` of a field's content. -/
def dibitAt (content : List Dibit) (i : Nat) : Dibit := content.getD i 0#2

/-- The word holding the given dibits, the first lowest (rule R82 c). -/
def packWord (ds : List Dibit) : Word := ds.foldr (fun d acc => (acc <<< 2) ||| d.setWidth 32) 0#32

/-- Dibits packed sixteen to a word (rule R82 c). -/
def packDibits (ds : List Dibit) : List Word :=
  (List.range ((ds.length + 15) / 16)).map fun k => packWord ((ds.drop (16 * k)).take 16)

end Sys2Proof.Machine
end

