-- ==== Sys2Proof/Machine/Classifier.lean ====
section
/-!
DEFINITION. The symbol threshold adapter: static slicer, ambiguity, Estimate, Update and its parts, the BER value
(41_slicer_classifier.md).
-/
namespace Sys2Proof.Machine

/-- The region of a sample among the three thresholds (rule R172). -/
def sliceRegion (s : State) (v : Word) : Nat :=
  if fgt v s.thCenter then (if fgt v s.thUmid then 0 else 1) else (if flt v s.thLmid then 3 else 2)

/-- `StaticSlice` (rule R172). -/
def staticSlice (s : State) (v : Word) : Dibit := s.sliceMap.extractLsb' (2 * sliceRegion s v) 2

/-- `Ambiguous` (rule R174). -/
def ambiguous (q : BitVec 23) (s : State) (v : Word) : Bool :=
  s.thBand == 0x7F800000#32
    || [s.thLmid, s.thCenter, s.thUmid].any fun t => flt (fabs (fsub q v t)) s.thBand

/-- `EXPF` with the values that the property `EXPF_MONO` fixes: a NaN for a NaN, 1 at the zeros, +0 at `-inf` (rule R10). -/
def expfOf (env : Env) (q : BitVec 23) (x : Word) : Word :=
  if f32IsNaN x then f32NaN q
  else if f32Mag x = 0 then 0x3F800000#32
  else if x = 0xFF800000#32 then 0#32
  else env.expf x

/-- A model that `Estimate` can use (rule R179 a, b). -/
def estimable (m : SymModel) : Bool :=
  decide (Config.minTrain ≤ m.cnt.toNat) && f32IsFinite m.sum && f32IsFinite m.vsum && fgt m.vsum 0#32

/-- The density value of one candidate, in the order of rule R178. -/
def pdfOf (env : Env) (q : BitVec 23) (m : SymModel) (v : Word) : Word :=
  let n := cvtU32F32 m.cnt.toNat
  let x := fsub q (fmul q v n) m.sum
  let num := fmul q (fmul q 0xBF000000#32 n) (fmul q x x)
  let den := fmul q (fmul q n n) m.vsum
  fmul q (fsqrt q (fdiv q n m.vsum)) (expfOf env q (fdiv q num den))

/-- The first candidate with the largest value: the comparison is strict (rule R181). -/
def argMax (pdf : Dibit → Word) : Dibit :=
  [1#2, 2#2, 3#2].foldl (fun best c => if fgt (pdf c) (pdf best) then c else best) 0#2

/-- `Estimate` (rules R178, R179). -/
def estimate (env : Env) (q : BitVec 23) (s : State) (p : Dibit) (v : Word) : Option Dibit :=
  if [0#2, 1#2, 2#2, 3#2].all fun c => estimable (htGet s p c) then
    if [0#2, 1#2, 2#2, 3#2].any fun c => f32IsNaN (pdfOf env q (htGet s p c) v) then none
    else some (argMax fun c => pdfOf env q (htGet s p c) v)
  else none

/-- `ErrCount`: 0 when equal, 2 for opposite symbols, else 1 (rule R186). -/
def errCount (raw corr : Dibit) : Nat :=
  if raw = corr then 0
  else if (raw = 0#2 ∧ corr = 3#2) ∨ (raw = 3#2 ∧ corr = 0#2) ∨ (raw = 1#2 ∧ corr = 2#2) ∨ (raw = 2#2 ∧ corr = 1#2) then 2
  else 1

/-- `BerFold` on the pair `(BIT_CNT, BIT_ERR)` (rule R188), with the freeze of rule R189. -/
def berPair (P : Params) (e : Nat) (cnt err : Counter) : Counter × Counter :=
  if 2 ^ P.wCnt - 3 < cnt.toNat then (cnt, err)
  else if !(cnt + 2).getLsbD 0 && !(err + BitVec.ofNat 32 e).getLsbD 0 then
    ((cnt + 2) >>> 1, (err + BitVec.ofNat 32 e) >>> 1)
  else (cnt + 2, err + BitVec.ofNat 32 e)

/-- `BerFold` (rule R188). -/
def berFold (P : Params) (e : Nat) (s : State) : State :=
  { s with bitCnt := (berPair P e s.bitCnt s.bitErr).1, bitErr := (berPair P e s.bitCnt s.bitErr).2 }

/-- The eviction of the oldest value of a full model (rule R190). A slot that holds no value is a free value (U6, log 8). -/
def modelEvict (q : Nat → BitVec 23) (m : SymModel) : SymModel :=
  if m.cnt.toNat = Config.hcap then
    let ov := (memRead m.val m.idx.toNat).getD (Config.noValue .htVal m.idx.toNat)
    let om := (memRead m.mean m.idx.toNat).getD (Config.noValue .htMean m.idx.toNat)
    let dv := fsub (q 1) ov om
    { m with sum := fsub (q 0) m.sum ov, vsum := fsub (q 3) m.vsum (fmul (q 2) dv dv) }
  else m

/-- `ModelInsert` (rule R190). -/
def modelInsert (q : Nat → BitVec 23) (m0 : SymModel) (a : Word) : SymModel :=
  let m := modelEvict q m0
  let sum := fadd (q 4) m.sum a
  let cnt := if m.cnt.toNat < Config.hcap then m.cnt + 1 else m.cnt
  let mu := fdiv (q 5) sum (cvtU32F32 cnt.toNat)
  let d := fsub (q 6) a mu
  { val := memWrite m.val m.idx.toNat a
    mean := memWrite m.mean m.idx.toNat mu
    idx := BitVec.ofNat 8 ((m.idx.toNat + 1) % Config.hcap)
    cnt := cnt
    sum := sum
    vsum := fadd (q 8) m.vsum (fmul (q 7) d d) }

/-- The NaN bits of the n-th draw's operations (log 7). -/
def drawNan (env : Env) (n k : Nat) : BitVec 23 := env.nan (16 * n + k)

/-- `Update` (rules R185, R191). -/
def update (env : Env) (p raw corr : Dibit) (a : Word) (s : State) : State :=
  let t := berFold env.params (errCount raw corr) s
  let row := if ctxEn s then p else 0#2
  { htSet t row corr (modelInsert (drawNan env s.nanDraws) (htGet t row corr) a) with nanDraws := s.nanDraws + 1 }

/-- `TrainField` (rule R193) from a given predecessor: under conditioning a dibit with no confirmed predecessor in the field
is skipped. -/
def trainFrom (env : Env) : Option Dibit → List (Dibit × Dibit × Word) → State → State
  | _, [], s => s
  | before, (raw, corr, a) :: rest, s =>
    let t :=
      if ctxEn s then
        match before with
        | none => s
        | some p => update env p raw corr a s
      else update env 0#2 raw corr a s
    trainFrom env (some corr) rest t

/-- `TrainField` (rule R193): the raw dibits and samples of the field, and its corrected dibits. -/
def trainField (env : Env) (field : List DbEntry) (corrected : List Dibit) (s : State) : State :=
  trainFrom env none ((field.zip corrected).map fun e => (e.1.d, e.2, e.1.a)) s

/-- `getBERPercent` (rule R192). -/
def berPercent (q : BitVec 23) (cnt err : Word) : Word :=
  if cnt = 0#32 then 0#32
  else fdiv q (fmul q (cvtU32F32 err.toNat) 0x42C80000#32) (cvtU32F32 cnt.toNat)

end Sys2Proof.Machine
end

