-- ==== Sys2Proof/Machine/Fec.lean ====
section
/-!
DEFINITION. The FEC oracle, its port messages, and the common shape of a protected field (rules R127, R226, R227).
-/
namespace Sys2Proof.Machine

/-- The query of a field (rule R226). -/
def fecQuery (kind : BitVec 4) (field : List DbEntry) (s : State) : FecQuery :=
  { kind := kind, j := s.j, f := s.f, raw := field.map DbEntry.d }

/-- The query words on port F (rule R127). -/
def queryWords (q : FecQuery) : List Word :=
  (q.kind ++ q.j ++ 0#2 ++ q.f ++ 0#6 ++ BitVec.ofNat 10 q.raw.length) :: packDibits q.raw

/-- The corrected dibits of an answer, one for each raw dibit (rule R226). -/
def correctedDibits (answer : FecAnswer) (n : Nat) : List Dibit := (List.range n).map answer.dibit

/-- The answer words on port F (rule R127). -/
def answerWords (answer : FecAnswer) (n : Nat) : List Word :=
  (0#31 ++ BitVec.ofBool answer.ok) :: packDibits (correctedDibits answer n)

/-- The query sent and the answer received, as the words port F carries them (rule R127). -/
def fecTranscript (q : FecQuery) (answer : FecAnswer) (s : State) : State :=
  { s with fecOut := s.fecOut ++ queryWords q, fecIn := s.fecIn ++ answerWords answer q.raw.length }

/-- What `Protect` answers: whether the field's content may be used, the content, and the state after it. -/
structure Protected where
  good : Bool
  content : List Dibit
  after : State

/-- `Protect` (rule R227). -/
def protect (env : Env) (kind : BitVec 4) (prot : Bool) (field : List DbEntry) (s : State) : Protected :=
  if prot then
    let query := fecQuery kind field s
    let answer := env.fec query
    let asked := fecTranscript query answer s
    if answer.ok then
      { good := true
        content := correctedDibits answer field.length
        after := trainField env field (correctedDibits answer field.length) asked }
    else { good := false, content := field.map DbEntry.d, after := asked }
  else { good := true, content := field.map DbEntry.d, after := s }

end Sys2Proof.Machine
end

