-- ==== Sys2Proof/Machine/Signalling.lean ====
section
/-!
DEFINITION. Signalling assembly inside the SYNC descriptor (43_signalling.md).
-/
namespace Sys2Proof.Machine

/-- `SigStart` (rule R252). -/
def sigStart (s : State) : State :=
  { s with sigw := Vector.replicate 8 0, sigbad := false, discValid := false, disc := 0 }

/-- `SigFecFail` (rule R254). -/
def sigFecFail (P : Params) (s : State) : State := { s with hdrErr := satInc P s.hdrErr, sigbad := true }

/-- `SigDisc` (rule R255). -/
def sigDisc (content : List Dibit) (s : State) : State :=
  { s with
    disc :=
      BitVec.ofBool (dibitBit (dibitAt content (gD1Idx s.gm)) (gD1Half s.gm))
        ++ BitVec.ofBool (dibitBit (dibitAt content (gD0Idx s.gm)) (gD0Half s.gm))
    discValid := true }

/-- One wiring entry applied to the working registers (rule R257). A register or bit past `NSIGREG` or `SIGREG_W` (rule R9)
does not exist and is not written (DESIGN CHOICE, log 25). -/
def wireOne (P : Params) (j : BitVec 3) (disc : Dibit) (content : List Dibit) (regs : SigFile) (e : Word) :
    SigFile :=
  if wireJw e = j ∧ wireSel e disc = true ∧ (wireDst e).toNat < P.nsigreg ∧ wireBit e < P.sigregW then
    regs.set (wireDst e).toNat
      (setBitTo (regs[(wireDst e).toNat]'(wireDst e).isLt) (wireBit e) (dibitBit (dibitAt content (wireSrc e)) (wireHalf e)))
      (wireDst e).isLt
  else regs

/-- `SigWire` (rule R257): the entries in table order. -/
def sigWire (P : Params) (content : List Dibit) (s : State) : State :=
  if s.discValid then { s with sigw := (gWires s.gm).foldl (wireOne P s.j s.disc content) s.sigw }
  else { s with sigbad := true }

/-- `SigBurst` (rule R253). -/
def sigBurst (env : Env) (prot : Bool) (field : List DbEntry) (s : State) : State :=
  let p := protect env 0x4#4 prot field s
  if p.good then
    sigWire env.params p.content (if s.j = gDiscBurst s.gm then sigDisc p.content p.after else p.after)
  else sigFecFail env.params p.after

/-- `SigComplete` (rule R262). -/
def sigComplete (s : State) : State :=
  if !s.sigbad && s.discValid then
    if gEncMask s.gm s.disc then
      { s with sigc := s.sigw, algid := s.sigw[5].setWidth 8, keyid := s.sigw[6].setWidth 16, encPres := true }
    else { s with sigc := s.sigw, algid := 0, keyid := 0, encPres := false }
  else s

/-- Whether the burst index lies in the signalling span (rule R251). -/
def inSpan (s : State) : Bool :=
  decide ((gDiscBurst s.gm).toNat ≤ s.j.toNat) && decide (s.j.toNat ≤ (gSigLast s.gm).toNat)

end Sys2Proof.Machine
end

