-- ==== Sys2Proof/Machine/Descriptors.lean ====
section
/-!
DEFINITION. The four field descriptors: each meaning is the whole FIELD step of its descriptor (rules R211, R229 to R240).
The `…Field` operations take the parameters of the step relation as an argument, so that a statement can hold for every FEC
oracle; the meanings run them with `Config.env`.
-/
namespace Sys2Proof.Machine

/-- SKIP: the field is dropped (rule R229). -/
def skipField (P : Params) (w : BitVec 10) (s : State) : State := advance P w s

/-- CACH (rule R230). -/
def cachField (env : Env) (prot : Bool) (slotIdx : BitVec 6) (slotHalf : Bool) (w : BitVec 10) (s : State) : State :=
  let p := protect env 0x2#4 prot (readField env.params s w) s
  advance env.params w
    (if p.good then
      { p.after with curslot := BitVec.ofBool (dibitBit (dibitAt p.content slotIdx.toNat) slotHalf) }
    else { p.after with hdrErr := satInc env.params p.after.hdrErr })

/-- One bit of the voice matrix set; no cell where the column is past the last (rule R53). -/
def vmSet (vm : Vector (BitVec 24) 4) (row : BitVec 2) (col : Nat) (b : Bool) : Vector (BitVec 24) 4 :=
  vm.set row.toNat (setBitTo (vm[row.toNat]'row.isLt) col b) row.isLt

/-- The placement of one sub-frame dibit: the high bit, then the low bit (rules R232, R233). -/
def placeDibit (gm : Mem Word) (k : Nat) (d : Dibit) (vm : Vector (BitVec 24) 4) : Vector (BitVec 24) 4 :=
  vmSet (vmSet vm (gVtabWr gm k) (gVtabXc gm k) (dibitBit d true)) (gVtabYr gm k) (gVtabZc gm k) (dibitBit d false)

/-- The placement of a segment from sub-frame index `k` on, in ascending order (rule R231). -/
def placeDibits (gm : Mem Word) : Nat → List Dibit → Vector (BitVec 24) 4 → Vector (BitVec 24) 4
  | _, [], vm => vm
  | k, d :: ds, vm => placeDibits gm (k + 1) ds (placeDibit gm k d vm)

/-- The record of a voice frame (rule R130). -/
def voiceRecord (s : State) : List Word :=
  [(s.kidx ++ s.j ++ s.curslot).setWidth 32, s.vm[0].setWidth 32, s.vm[1].setWidth 32, s.vm[2].setWidth 32,
    s.vm[3].setWidth 32]

/-- `EmitVoice` (rule R234). -/
def emitVoice (s : State) : State :=
  if !s.muted && !s.firstframe && !s.vbad then { outWrite (voiceRecord s) s with kidx := s.kidx + 1 }
  else { s with kidx := s.kidx + 1 }

/-- `EmitHeld` of a VOICE descriptor (rule R212). -/
def emitHeld (last : Bool) (s : State) : Bool := last && !s.muted && !s.firstframe && s.outLen != 0

/-- VOICE, up to its content: a new sub-frame clears the matrix (rule R231). -/
def voiceBegin (base : BitVec 6) (s : State) : State :=
  if base = 0#6 then { s with vm := Vector.replicate 4 0, vbad := false } else s

/-- VOICE, the content placed or the failure counted (rule R231). -/
def voicePlace (env : Env) (prot : Bool) (base : BitVec 6) (field : List DbEntry) (s : State) : State :=
  let p := protect env 0x3#4 prot field s
  if p.good then { p.after with vm := placeDibits p.after.gm base.toNat p.content p.after.vm }
  else { p.after with vbad := true, audErr := satInc env.params p.after.audErr }

/-- VOICE (rule R231). -/
def voiceField (env : Env) (prot last : Bool) (base : BitVec 6) (w : BitVec 10) (s : State) : State :=
  let t := voicePlace env prot base (readField env.params s w) (voiceBegin base s)
  advance env.params w (if last then emitVoice t else t)

/-- The slot status of the current slot written (rules R42, R236). -/
def setSlotStatus (code : BitVec 2) (s : State) : State :=
  if s.curslot = 0#1 then { s with slotst0 := code } else { s with slotst1 := code }

/-- `SyncMatched` (rule R236). -/
def syncMatched (k : Nat) (s : State) : State :=
  if gClassData s.gm k then { setSlotStatus 2#2 s with muted := true, lastsync := gType s.gm k }
  else { setSlotStatus 1#2 s with muted := false, lastsync := gType s.gm k }

/-- SYNC, the field matched or not (rules R235, R237, R258). -/
def syncBody (env : Env) (prot : Bool) (field : List DbEntry) (s : State) : State :=
  match syncMatch s.gm (field.map DbEntry.d) with
  | some k => if inSpan s then { syncMatched k s with sigbad := true } else syncMatched k s
  | none =>
    let t := if gSyncExpect s.gm s.j then { s with syncMiss := satInc env.params s.syncMiss } else s
    if inSpan s then sigBurst env prot field t else t

/-- SYNC (rule R235). -/
def syncField (env : Env) (prot : Bool) (w : BitVec 10) (s : State) : State :=
  let started := if s.j = gDiscBurst s.gm then sigStart s else s
  let t := syncBody env prot (readField env.params s w) started
  advance env.params w (if s.j = gSigLast s.gm then sigComplete t else t)

/-- SKIP (rule R229). -/
def execSkip (w : BitVec 10) (s : State) : Host.Outcome State Fault Refusal := .next (skipField Config.params w s)

/-- CACH (rule R230). -/
def execCach (prot : Bool) (slotIdx : BitVec 6) (slotHalf : Bool) (w : BitVec 10) (s : State) :
    Host.Outcome State Fault Refusal :=
  .next (cachField Config.env prot slotIdx slotHalf w s)

/-- VOICE (rule R231). A held descriptor takes no step: it waits with nothing changed (rule R212, log 18). -/
def execVoice (prot last : Bool) (base : BitVec 6) (w : BitVec 10) (s : State) : Host.Outcome State Fault Refusal :=
  .next (if emitHeld last s then s else voiceField Config.env prot last base w s)

/-- SYNC (rule R235). -/
def execSync (prot : Bool) (w : BitVec 10) (s : State) : Host.Outcome State Fault Refusal :=
  .next (syncField Config.env prot w s)

end Sys2Proof.Machine
end

