-- ==== Sys2Proof/Machine/Registers.lean ====
section
/-!
DEFINITION. The register map as RDSR reads it and WRCR writes it (rules R61 to R63, R81).
-/
namespace Sys2Proof.Machine

/-- Word `k` of a 128-bit register (rule R61). -/
def regWord (x : BitVec 128) (k : Nat) : Word := x.extractLsb' (32 * k) 32

/-- The readable member `k` of a model (rule R61). -/
def modelWord (m : SymModel) (k : Nat) : Word :=
  if k = 0 then m.cnt.setWidth 32 else if k = 1 then m.idx.setWidth 32 else if k = 2 then m.sum else m.vsum

/-- The word register address `a` reads as; 0 for an address rule R61 does not list. -/
def readReg (s : State) (a : BitVec 8) : Word :=
  match a.toNat with
  | 0x00 => Config.idWord
  | 0x01 => s.ctrl
  | 0x02 => statusWord s
  | 0x03 => s.fault.setWidth 32
  | 0x04 => s.thCenter
  | 0x05 => s.thUmid
  | 0x06 => s.thLmid
  | 0x07 => s.thBand
  | 0x08 => s.sliceMap.setWidth 32
  | 0x10 => s.bitCnt
  | 0x11 => s.bitErr
  | 0x12 => berPercent (Config.nanBits s.nanDraws) s.bitCnt s.bitErr
  | 0x13 => s.hdrErr
  | 0x14 => s.audErr
  | 0x15 => s.syncMiss
  | 0x16 => s.lastsync.setWidth 32
  | 0x17 => (s.slotst1 ++ s.slotst0).setWidth 32
  | 0x18 => BitVec.ofBool s.encPres ++ 0#23 ++ s.algid
  | 0x19 => BitVec.ofBool s.encPres ++ 0#15 ++ s.keyid
  | 0x1A => (tgidView s.gm s.sigc[2]).setWidth 32
  | 0x1B => s.lastDibit.setWidth 32
  | 0x40 => s.wp
  | 0x41 => s.rp
  | 0x42 => s.dbValid
  | 0x43 => s.rdyLen.setWidth 32
  | 0x44 => s.inOff.setWidth 32
  | 0x45 => s.outLen.setWidth 32
  | 0x46 => s.outOff.setWidth 32
  | 0x50 => s.vm[0].setWidth 32
  | 0x51 => s.vm[1].setWidth 32
  | 0x52 => s.vm[2].setWidth 32
  | 0x53 => s.vm[3].setWidth 32
  | n =>
    if 0x20 ≤ n ∧ n < 0x40 then
      regWord (s.sigc[(n - 0x20) / 4 % 8]'(Nat.mod_lt _ (by decide))) (n % 4)
    else if 0x80 ≤ n ∧ n < 0xC0 then
      modelWord (s.ht[(n - 0x80) / 4 % 16]'(Nat.mod_lt _ (by decide))) (n % 4)
    else 0#32

/-- Whether WRCR may write register address `a` (rule R152). -/
def writable (a : BitVec 8) : Bool :=
  a == 0x01#8 || a == 0x04#8 || a == 0x05#8 || a == 0x06#8 || a == 0x07#8 || a == 0x08#8

/-- The write of a writable register: `CTRL` keeps bits 1:0, `SLICE_MAP` bits 7:0 (rules R57, R61, R152). -/
def writeReg (a : BitVec 8) (v : Word) (s : State) : State :=
  if a = 0x01#8 then { s with ctrl := v &&& 0x00000003#32 }
  else if a = 0x04#8 then { s with thCenter := v }
  else if a = 0x05#8 then { s with thUmid := v }
  else if a = 0x06#8 then { s with thLmid := v }
  else if a = 0x07#8 then { s with thBand := v }
  else if a = 0x08#8 then { s with sliceMap := v.setWidth 8 }
  else s

end Sys2Proof.Machine
end

