-- ==== Sys2Proof/Machine/PortCommands.lean ====
section
/-!
DEFINITION. The ten port commands (40_port_commands.md). The data words of a command are taken from the port by the fetch, in
every case, so a meaning only says what the command does with them.
-/
namespace Sys2Proof.Machine

/-- RESET (rule R141). -/
def execReset (s : State) : Host.Outcome State Fault Refusal := .next (resetProc s)

/-- The failing checks of a START reported (rule R142). -/
def startFail (okG okC : Bool) (s : State) : State :=
  let t := { s with gvalid := false }
  let u := if okG then t else raise .grammar t
  if okC then u else raise .cfg u

/-- START of a halted engine, given what the two kinds of check answer (rule R142). -/
def startHalted (okG okC : Bool) (s : State) : State :=
  if okG && okC then { (if s.gvalid then s else unlockProc s) with gvalid := true, run := true, halted := false }
  else startFail okG okC s

/-- START (rule R142). -/
def execStart (s : State) : Host.Outcome State Fault Refusal :=
  .next
    (if s.halted then startHalted (grammarOk Config.params s.gm) (configOk s.thCenter s.thUmid s.thLmid s.thBand) s
    else { s with run := true })

/-- STOP (rule R144). -/
def execStop (s : State) : Host.Outcome State Fault Refusal := .next { s with run := false }

/-- LOCK (rule R145). -/
def execLock (st : BitVec 4) (s : State) : Host.Outcome State Fault Refusal :=
  .next (if !s.gvalid || decide (s.dbValid.toNat < gLookback s.gm) then raise .badlock s else lockOn Config.params st s)

/-- UNLOCK (rule R147). -/
def execUnlock (s : State) : Host.Outcome State Fault Refusal := .next (unlockProc s)

/-- `submitSamples`, with batches of at most `IN_CAP` samples (rules R148 to R150). -/
def submitSamples (P : Params) (samples : List Word) (s : State) : State :=
  if samples.length = 0 then s
  else if P.inCap < samples.length then raise .illcmd s
  else if s.rdyLen ≠ 0 then raise .overrun s
  else { s with inBuf := memLoad s.inBuf samples, inOff := 0, rdyLen := BitVec.ofNat 16 samples.length }

/-- SUBMIT (rules R148 to R150). -/
def execSubmit (samples : List Word) (s : State) : Host.Outcome State Fault Refusal :=
  .next (submitSamples Config.params samples s)

/-- WRCR (rule R152). -/
def execWrcr (a : BitVec 8) (v : Word) (s : State) : Host.Outcome State Fault Refusal :=
  .next
    (if !writable a then raise .illcmd s
    else if !s.halted then raise .busywr s
    else { writeReg a v s with gvalid := false })

/-- WRGM (rule R154). -/
def execWrgm (a : BitVec 10) (v : Word) (s : State) : Host.Outcome State Fault Refusal :=
  .next
    (if !s.halted then raise .busywr s
    else { s with gm := gmWrite Config.params s.gm a.toNat v, gvalid := false })

/-- Whether a CONSUME holds (rule R158). -/
def consumeHeld (s : State) : Bool := s.outLen == 0 && s.run

/-- The six response words of a CONSUME (rules R104, R157). -/
def consumeAnswer (s : State) : List Word :=
  if s.outLen = 0 then List.replicate 6 0#32
  else 1#32 :: (List.range 5).map (outWord s)

/-- CONSUME (rule R157). A held CONSUME takes no step: it waits with nothing changed (rule R158, log 18). -/
def execConsume (s : State) : Host.Outcome State Fault Refusal :=
  .next
    (if consumeHeld s then s
    else if s.outLen = 0 then { s with qOut := s.qOut ++ consumeAnswer s }
    else { s with qOut := s.qOut ++ consumeAnswer s, outLen := 0, outOff := 0 })

/-- RDSR (rule R160). -/
def execRdsr (a : BitVec 8) (s : State) : Host.Outcome State Fault Refusal :=
  .next { s with qOut := s.qOut ++ [readReg s a] }

end Sys2Proof.Machine
end

