-- ==== Sys2Proof/Machine/Dispatch.lean ====
section
/-!
DEFINITION. One arm per instruction, each one direct call of its meaning.
-/
namespace Sys2Proof.Machine

def exec (i : Instr) (s : State) : Host.Outcome State Fault Refusal :=
  match i with
  | .reset => Sys2Proof.Machine.execReset s
  | .start => Sys2Proof.Machine.execStart s
  | .stop => Sys2Proof.Machine.execStop s
  | .lock st => Sys2Proof.Machine.execLock st s
  | .unlock => Sys2Proof.Machine.execUnlock s
  | .submit samples => Sys2Proof.Machine.execSubmit samples s
  | .wrcr a v => Sys2Proof.Machine.execWrcr a v s
  | .wrgm a v => Sys2Proof.Machine.execWrgm a v s
  | .consume => Sys2Proof.Machine.execConsume s
  | .rdsr a => Sys2Proof.Machine.execRdsr a s
  | .skip w => Sys2Proof.Machine.execSkip w s
  | .cach prot slotIdx slotHalf w => Sys2Proof.Machine.execCach prot slotIdx slotHalf w s
  | .voice prot last base w => Sys2Proof.Machine.execVoice prot last base w s
  | .sync prot w => Sys2Proof.Machine.execSync prot w s

end Sys2Proof.Machine
end

