-- ==== Sys2Proof/Machine/Engine.lean ====
section
/-!
DEFINITION. Which step comes next: the engine's selection (rule R210) and its steps without an encoding, SYM (rule R170) and
HALT (rule R213); the fetch of a port's next command (rules R103, R105, R140); the choice of the agent (rule R89, log 1).
-/
namespace Sys2Proof.Machine

/-- The context of an estimate (rule R176). -/
def symContext (s : State) : Dibit := if ctxEn s then s.lastDibit else 0#2

/-- The dibit SYM pushes for a sample (rule R170). -/
def classify (env : Env) (s : State) (v : Word) : Dibit :=
  let q := drawNan env s.nanDraws 15
  if ambiguous q s v then (estimate env q s (symContext s) v).getD (staticSlice s v) else staticSlice s v

/-- The last `SYNCW` dibits pushed (rule R218). -/
def recentDibits (P : Params) (s : State) : List Dibit :=
  (List.range (gSyncw s.gm)).map fun i => (dbRead P s (ptrWrap P (s.wp - BitVec.ofNat 32 (gSyncw s.gm) + BitVec.ofNat 32 i))).d

/-- Whether the grammar has a SYNC descriptor (rule R218). -/
def hasSync (gm : Mem Word) : Bool := (gFields gm).any isSyncWord

/-- `AutoLockCheck` (rule R218). -/
def autoLockCheck (P : Params) (s : State) : State :=
  if s.locked || !autoLock s then s
  else if !hasSync s.gm || decide (gNsync s.gm = 0) then s
  else if s.dbValid.toNat < gLookback s.gm then s
  else
    match syncMatch s.gm (recentDibits P s) with
    | some k => lockOn P (gType s.gm k) s
    | none => s

/-- SYM up to its push: one sample taken, classified and pushed (rule R170). -/
def symPush (env : Env) (s : State) : State :=
  let v := inHead s
  let t := inAdvance s
  let u := if f32IsFinite v then t else raise .badsample t
  dbPush env.params (classify env u v) v u

/-- SYM (rule R170): the push, then the sync detector. -/
def symStep (env : Env) (s : State) : State := autoLockCheck env.params (symPush env s)

/-- HALT (rule R213). -/
def haltStep (s : State) : State := { s with halted := true }

/-- The engine's next step (rule R210). -/
inductive EngineChoice where
  | hold
  | halt
  | sym
  | field (i : Instr)
  | reserved (w : Word)
  deriving DecidableEq, Repr

/-- `EmitHeld` of the fetched descriptor (rule R212). -/
def descriptorHeld (i : Instr) (s : State) : Bool :=
  match i with
  | .voice _ last _ _ => emitHeld last s
  | _ => false

/-- The choice when no complete field can run (rule R210). -/
def sampleChoice (s : State) : EngineChoice :=
  if s.rdyLen ≠ 0 then .sym else if s.run then .hold else .halt

/-- The engine's step selection (rule R210). -/
def engineChoice (P : Params) (s : State) : EngineChoice :=
  if s.halted then .hold
  else if s.locked && decide (descW (gField s.gm s.f.toNat) ≤ avail P s) then
    match decodeDescriptor (gField s.gm s.f.toNat) with
    | .error _ => .reserved (gField s.gm s.f.toNat)
    | .ok i => if descriptorHeld i s then (if s.run then .hold else .halt) else .field i
  else sampleChoice s

/-- What a turn comes to: a whole step of its own, an instruction to run, or a reserved descriptor. -/
inductive Fetched where
  | done (s : State)
  | instr (i : Instr) (s : State)
  | reserved (w : Word)

/-- The engine's turn. -/
def fetchEngine (env : Env) (s : State) : Fetched :=
  match engineChoice env.params s with
  | .hold => .done s
  | .halt => .done (haltStep s)
  | .sym => .done (symStep env s)
  | .field i => .instr i s
  | .reserved w => .reserved w

/-- Port P's turn: the command is taken from the port with its data words; an illegal word raises ILLCMD (rules R103, R105). -/
def fetchP (s : State) : Fetched :=
  match decodeCommand .p s.portP with
  | .incomplete => .done s
  | .illegal _ rest => .done (raise .illcmd { s with portP := rest })
  | .command i rest => .instr i { s with portP := rest }

/-- Port Q's turn: a held CONSUME stays on the port (rule R158). -/
def fetchQ (s : State) : Fetched :=
  match decodeCommand .q s.portQ with
  | .incomplete => .done s
  | .illegal _ rest => .done (raise .illcmd { s with portQ := rest })
  | .command i rest => if i = .consume ∧ consumeHeld s = true then .done s else .instr i { s with portQ := rest }

/-- Whether port P's words hold a command or an illegal word at their front. -/
def readyP (s : State) : Bool := decodeCommand .p s.portP != .incomplete

/-- Whether port Q's words hold a command that does not hold, or an illegal word, at their front. -/
def readyQ (s : State) : Bool :=
  match decodeCommand .q s.portQ with
  | .incomplete => false
  | .illegal _ _ => true
  | .command i _ => !(i = .consume ∧ consumeHeld s = true)

/-- The agent that moves when no turn is listed: the engine while it has a step, then port P, then port Q, the schedule of the
spec's own programs (95_test_vectors.md section 3; DESIGN CHOICE, unsafe, log 1). -/
def idleAgent (P : Params) (s : State) : Agent :=
  if engineChoice P s ≠ .hold then .engine
  else if readyP s then .producer
  else if readyQ s then .consumer
  else .engine

/-- The agent whose turn it is. -/
def nextAgent (P : Params) (s : State) : Agent :=
  match s.turns with
  | a :: _ => a
  | [] => idleAgent P s

/-- The state with the turn taken. -/
def takeTurn (s : State) : State := { s with turns := s.turns.tail }

/-- An agent's turn. -/
def fetchFor (env : Env) (a : Agent) (s : State) : Fetched :=
  match a with
  | .engine => fetchEngine env s
  | .producer => fetchP s
  | .consumer => fetchQ s
  | .por => .done (porProc s)

/-- The next turn. -/
def fetch (env : Env) (s : State) : Fetched := fetchFor env (nextAgent env.params s) (takeTurn s)

/-- Dibit buffer entries written from a pointer on. -/
def fillDbuf (m : Mem DbEntry) (p : Word) : Nat → Mem DbEntry
  | 0 => m
  | n + 1 => memWrite (fillDbuf m p n) (dbIndex Config.params (p + BitVec.ofNat 32 n)) { d := 0, a := 0 }

/-- The opcode-table word put on port P, on port Q, or else into `FIELD[F]` of an engine that runs, is locked and has the field
buffered (log 2, log 15). -/
def placeFetchWord (s : State) (nbits w : Nat) : State :=
  match decodeCommand .p (tableWords nbits w) with
  | .command _ _ => { s with portP := tableWords nbits w, turns := [.producer] }
  | _ =>
    match decodeCommand .q (tableWords nbits w) with
    | .command _ _ => { s with portQ := tableWords nbits w, turns := [.consumer] }
    | _ =>
      { s with
        halted := false
        locked := true
        gm := memWrite s.gm (0x010 + s.f.toNat) (BitVec.ofNat 32 w)
        wp := s.rp + BitVec.ofNat 32 (descW (BitVec.ofNat 32 w))
        dbValid := BitVec.ofNat 32 (min (descW (BitVec.ofNat 32 w)) Config.params.dbufCap)
        dbuf := fillDbuf s.dbuf s.rp (min (descW (BitVec.ofNat 32 w)) Config.params.dbufCap)
        turns := [.engine] }

end Sys2Proof.Machine
end

