-- ==== Sys2Proof/Machine/Step.lean ====
section
/-!
DEFINITION. One step of the block: the next turn, and the instruction it fetched (rules R16, R89, R140, R210).
-/
namespace Sys2Proof.Machine

/-- One step. -/
def step (s : State) : Host.Outcome State Fault Refusal :=
  match fetch Config.env s with
  | .done t => .next t
  | .instr i t => exec i t
  | .reserved w => .fault (.reservedDescriptor w)

/-- An opcode-table word stored where the next step fetches its instruction. -/
def State.withFetchWord (s : State) (nbits w : Nat) : State := placeFetchWord s nbits w

end Sys2Proof.Machine
end

