-- ==== Sys2Proof/Safety.lean ====
section
/-!
DEFINITION. What a legal state of the block is (the invariants rules R26, R27, R32, R33, R36, R37, R38, R55, R57, R92, R109 and
R245 give), and the shapes of effects that the statements speak of.
-/
namespace Sys2Proof.Machine

/-- Every storage is in its canonical form, within its address space (rule R70). -/
def StoragesCanonical (s : State) : Prop :=
  Mem.wf Config.params.dbufCap s.dbuf ∧ Mem.wf Config.params.inCap s.inBuf ∧ Mem.wf 5 s.outRec ∧ Mem.wf Config.params.gmWords s.gm

/-- A model in the form rule R36 gives it: the slots below `CNT` and no others hold a value, and `IDX` is the slot the next
insertion writes. -/
def ModelLegal (m : SymModel) : Prop :=
  m.cnt.toNat ≤ 200 ∧ m.idx.toNat < 200 ∧ (m.cnt.toNat < 200 → m.idx = m.cnt)
    ∧ Mem.wf 200 m.val ∧ Mem.wf 200 m.mean
    ∧ (∀ a, (memRead m.val a).isSome = decide (a < m.cnt.toNat))
    ∧ (∀ a, (memRead m.mean a).isSome = decide (a < m.cnt.toNat))

/-- The classifier's invariants (rules R37, R188). -/
def ClassifierLegal (s : State) : Prop :=
  (∀ p c : Dibit, ModelLegal (htGet s p c)) ∧ s.bitErr.toNat ≤ s.bitCnt.toNat

/-- The channels' invariants (rule R55, R56). -/
def ChannelsLegal (s : State) : Prop :=
  (s.inOff.toNat < s.rdyLen.toNat ∨ (s.rdyLen = 0 ∧ s.inOff = 0)) ∧ s.rdyLen.toNat ≤ Config.params.inCap ∧ s.outOff = 0
    ∧ (∀ i, i < s.rdyLen.toNat → (memRead s.inBuf i).isSome = true)
    ∧ (s.outLen = 1 → ∀ i, i < 5 → (memRead s.outRec i).isSome = true)

/-- The sequencer and the grammar fit each other: an engine that is not halted has a validated grammar and configuration
(rules R22, R24, R92), the descriptor index lies in the validated table (rule R27), the burst index is 0 to 5 (rule R26). -/
def GrammarLegal (s : State) : Prop :=
  (s.halted = false → s.gvalid = true)
    ∧ (s.gvalid = true →
        grammarOk Config.params s.gm = true ∧ configOk s.thCenter s.thUmid s.thLmid s.thBand = true ∧ s.f.toNat < gNfield s.gm)
    ∧ s.j.toNat < 6

/-- The dibit buffer's invariants: what lies between the pointers was pushed and not overwritten (rules R32, R33, R72). -/
def BufferLegal (s : State) : Prop :=
  s.dbValid.toNat ≤ Config.params.dbufCap ∧ avail Config.params s ≤ s.dbValid.toNat ∧ (s.locked = false → s.rp = s.wp)
    ∧ ∀ k, 1 ≤ k → k ≤ s.dbValid.toNat → (memRead s.dbuf (dbIndex Config.params (s.wp - BitVec.ofNat 32 k))).isSome = true

/-- The hard-wired zeros and the codes that never occur (rules R42, R57, R297). -/
def CodesLegal (s : State) : Prop :=
  s.ctrl &&& 0xFFFFFFFC#32 = 0#32 ∧ s.slotst0 ≠ 3#2 ∧ s.slotst1 ≠ 3#2 ∧ s.fault.getLsbD 7 = false

/-- The session and the classifier as a clearing procedure leaves them, `LASTSYNC` apart (rules R64, R324). -/
def SessionCleared (t : State) : Prop :=
  (∀ p c : Dibit,
      (htGet t p c).cnt = 0 ∧ (htGet t p c).idx = 0 ∧ (htGet t p c).sum = 0#32 ∧ (htGet t p c).vsum = 0#32
        ∧ ∀ a, memRead (htGet t p c).val a = none ∧ memRead (htGet t p c).mean a = none)
    ∧ t.bitCnt = 0 ∧ t.bitErr = 0 ∧ t.j = 0 ∧ t.f = 0 ∧ t.kidx = 0 ∧ t.lastDibit = 0 ∧ t.curslot = 0
    ∧ t.slotst0 = 0 ∧ t.slotst1 = 0 ∧ t.muted = true ∧ t.firstframe = true
    ∧ t.hdrErr = 0 ∧ t.audErr = 0 ∧ t.syncMiss = 0 ∧ t.algid = 0 ∧ t.keyid = 0 ∧ t.encPres = false
    ∧ t.disc = 0 ∧ t.discValid = false ∧ t.sigbad = false
    ∧ (∀ n : Fin 8, t.sigw[n] = 0 ∧ t.sigc[n] = 0) ∧ (∀ r : Fin 4, t.vm[r] = 0) ∧ t.vbad = false

/-- `t` is `s` but for the session, the classifier, the sequencer, `LOCKED` and `RP`: what LockOn and Unlock may write
(rules R162, R322, R323). -/
def OnlySessionWritten (s t : State) : Prop :=
  t = { s with
        ht := t.ht, bitCnt := t.bitCnt, bitErr := t.bitErr, j := t.j, f := t.f, kidx := t.kidx,
        lastDibit := t.lastDibit, curslot := t.curslot, lastsync := t.lastsync, slotst0 := t.slotst0,
        slotst1 := t.slotst1, muted := t.muted, firstframe := t.firstframe, hdrErr := t.hdrErr,
        audErr := t.audErr, syncMiss := t.syncMiss, algid := t.algid, keyid := t.keyid, encPres := t.encPres,
        disc := t.disc, discValid := t.discValid, sigbad := t.sigbad, sigw := t.sigw, sigc := t.sigc,
        vm := t.vm, vbad := t.vbad, locked := t.locked, rp := t.rp }

/-- The sequencer advanced by `Advance(W)` from `s`, with `kidx` the sub-frame ordinal the body left (rule R240). -/
def Advanced (w : BitVec 10) (kidx : BitVec 2) (s t : State) : Prop :=
  t.rp = s.rp + w.setWidth 32
    ∧ (s.f.toNat + 1 = gNfield s.gm →
        t.f = 0 ∧ t.j.toNat = (s.j.toNat + 1) % 6 ∧ t.kidx = 0 ∧ t.firstframe = false)
    ∧ (s.f.toNat + 1 ≠ gNfield s.gm →
        t.f = s.f + 1 ∧ t.j = s.j ∧ t.kidx = kidx ∧ t.firstframe = s.firstframe)

/-- The classifier, the BER accumulators, port F's transcript and the draws as `s` has them: nothing was trained or asked. -/
def NothingTrained (s t : State) : Prop :=
  t.ht = s.ht ∧ t.bitCnt = s.bitCnt ∧ t.bitErr = s.bitErr ∧ t.nanDraws = s.nanDraws

/-- One query was sent on port F and answered (rules R127, R226). -/
def Asked (q : FecQuery) (s t : State) : Prop :=
  t.fecOut = s.fecOut ++ queryWords q ∧ t.fecIn = s.fecIn ++ answerWords (Config.env.fec q) q.raw.length

/-- No query was sent on port F. -/
def NotAsked (s t : State) : Prop := t.fecOut = s.fecOut ∧ t.fecIn = s.fecIn

/-- The classifier and the BER accumulators trained on the whole field with the oracle's corrected dibits (rules R193, R227). -/
def Trained (q : FecQuery) (field : List DbEntry) (s t : State) : Prop :=
  let after := trainField Config.env field (correctedDibits (Config.env.fec q) field.length) s
  t.ht = after.ht ∧ t.bitCnt = after.bitCnt ∧ t.bitErr = after.bitErr ∧ t.nanDraws = after.nanDraws

/-- Bit `c` of row `r` of the voice matrix (rule R53). -/
def vmBit (vm : Vector (BitVec 24) 4) (r : BitVec 2) (c : Nat) : Bool := (vm[r.toNat]'r.isLt).getLsbD c

/-- The positions of a voice table from entry `base` on, high bit then low bit of each entry (rules R118, R232, R233). -/
def vtabPositions (gm : Mem Word) (base n : Nat) : List (BitVec 2 × Nat) :=
  (List.range n).flatMap fun i =>
    [(gVtabWr gm (base + i), gVtabXc gm (base + i)), (gVtabYr gm (base + i), gVtabZc gm (base + i))]

/-- The property `EXPF_MONO` that the spec assumes of `EXPF` (rule R10), for the function the model uses. -/
def ExpfMono (env : Env) : Prop :=
  ∀ (q : BitVec 23) (a b : Word), fle a b = true → fle b 0#32 = true →
    fle 0#32 (expfOf env q a) = true ∧ fle (expfOf env q a) (expfOf env q b) = true
      ∧ fle (expfOf env q b) 0x3F800000#32 = true

/-- Bit `n` of FAULT is set and nothing else changed (rule R297). -/
def FaultRaised (n : Nat) (s t : State) : Prop :=
  t = { s with fault := t.fault } ∧ ∀ k, k < 8 → t.fault.getLsbD k = (s.fault.getLsbD k || decide (k = n))

/-- The command words as spec/opcode_table.json lists them: port, match, mask (rule R102). -/
def commandTable : List (Port × Word × Word) :=
  [(.p, 0x01000000#32, 0xFFFFFFFF#32), (.p, 0x02000000#32, 0xFFFFFFFF#32), (.p, 0x03000000#32, 0xFFFFFFFF#32),
    (.p, 0x04000000#32, 0xFFFFFFF0#32), (.p, 0x05000000#32, 0xFFFFFFFF#32), (.p, 0x06000000#32, 0xFFFF0000#32),
    (.p, 0x07000000#32, 0xFFFFFF00#32), (.p, 0x08000000#32, 0xFFFFFC00#32), (.q, 0x10000000#32, 0xFFFFFFFF#32),
    (.q, 0x11000000#32, 0xFFFFFF00#32)]

/-- A word that is a command word on a port (rules R102, R105). -/
def LegalCommandWord (port : Port) (w : Word) : Prop := ∃ r ∈ commandTable, r.1 = port ∧ w &&& r.2.2 = r.2.1

/-- Everything the procedure Reset clears is cleared: channels, dibit buffer, session, classifier, sequencer, `LOCKED`
(rules R64, R321). -/
def ResetDone (t : State) : Prop :=
  SessionCleared t ∧ t.lastsync = 0 ∧ t.locked = false ∧ t.rdyLen = 0 ∧ t.inOff = 0 ∧ t.outLen = 0 ∧ t.outOff = 0
    ∧ t.wp = 0 ∧ t.rp = 0 ∧ t.dbValid = 0
    ∧ (∀ a, memRead t.inBuf a = none) ∧ (∀ a, memRead t.outRec a = none) ∧ (∀ a, memRead t.dbuf a = none)

/-- What power-on reset leaves: the POR column of rule R64 (rule R320). -/
def PorDone (t : State) : Prop :=
  t.run = false ∧ t.halted = true ∧ t.gvalid = false ∧ t.fault = 0
    ∧ t.ctrl = 0 ∧ t.thBand = 0x7F800000#32 ∧ t.sliceMap = 0xE1#8 ∧ ResetDone t

/-- Bits `lo` to `hi` of a word are zero. -/
def ZeroBits (w : Word) (lo hi : Nat) : Prop := ∀ i, lo ≤ i → i ≤ hi → w.getLsbD i = false

/-- A grammar that keeps the bounds of rule R125, checks G1 to G10 in order, with those of rules R112 to R119. -/
def GrammarAccepted (P : Params) (gm : Mem Word) : Prop :=
  let isKind := fun (k : BitVec 4) (n : Nat) => (gField gm n).extractLsb' 28 4 = k
  (1 ≤ gNfield gm ∧ gNfield gm ≤ P.nfieldMax ∧ gNsync gm ≤ P.nsyncMax ∧ 1 ≤ gVlen gm ∧ gVlen gm ≤ P.vlenMax
      ∧ 1 ≤ gSyncw gm ∧ gSyncw gm ≤ P.syncwMax ∧ gNwire gm ≤ P.nwireMax ∧ gLookback gm ≤ P.dbufCap
      ∧ ZeroBits (gmRead gm 0x000) 7 7 ∧ ZeroBits (gmRead gm 0x000) 12 15 ∧ ZeroBits (gmRead gm 0x000) 28 31
      ∧ ZeroBits (gmRead gm 0x001) 10 15 ∧ ZeroBits (gmRead gm 0x001) 26 31 ∧ ZeroBits (gmRead gm 0x003) 8 31)
    ∧ ((gDiscBurst gm).toNat ≤ (gSigLast gm).toNat ∧ (gSigLast gm).toNat ≤ 5
      ∧ (gSigLast gm).toNat ≤ (gDiscBurst gm).toNat + 4 ∧ gD1Idx gm < gSyncw gm ∧ gD0Idx gm < gSyncw gm
      ∧ gTgW gm ≤ 24 ∧ gTgLo gm + gTgW gm ≤ 128)
    ∧ (∀ n, n < gNfield gm → legalDescriptor gm (gField gm n) = true)
    ∧ (∀ m n, m < gNfield gm → n < gNfield gm → isKind 0x4#4 m → isKind 0x4#4 n → m = n)
    ∧ (∀ n, n < gNfield gm → isKind 0x4#4 n →
        gLookback gm = ((List.range (n + 1)).map fun m => descW (gField gm m)).sum)
    ∧ ((∀ n, n < gNfield gm → ¬ isKind 0x4#4 n) → gNsync gm = 0 ∧ gNwire gm = 0)
    ∧ (∃ next : Nat → Nat, next 0 = 0 ∧ next (gNfield gm) = 0 ∧ ∀ n, n < gNfield gm →
        let base := ((gField gm n).extractLsb' 20 6).toNat
        let w := descW (gField gm n)
        (¬ isKind 0x3#4 n → next (n + 1) = next n) ∧
        (isKind 0x3#4 n → base = next n ∧
          if (gField gm n).getLsbD 26 then base + w = gVlen gm ∧ next (n + 1) = 0 else next (n + 1) = base + w))
    ∧ (∀ n, n < gNfield gm → descW (gField gm n) ≤ P.dbufCap)
    ∧ (∀ k, k < gNsync gm → (∀ i, gSyncw gm ≤ i → i < 32 → gPat gm k i = 0) ∧ 1 ≤ (gType gm k).toNat
      ∧ ZeroBits (gmRead gm (0x052 + 4 * k)) 1 3 ∧ ZeroBits (gmRead gm (0x052 + 4 * k)) 8 31
      ∧ gmRead gm (0x053 + 4 * k) = 0)
    ∧ (∀ k, k < gVlen gm → gVtabXc gm k ≤ 23 ∧ gVtabZc gm k ≤ 23
      ∧ ZeroBits (gmRead gm (0x080 + k)) 7 7 ∧ ZeroBits (gmRead gm (0x080 + k)) 15 31)
    ∧ ∀ n, n < gNwire gm → (gDiscBurst gm).toNat ≤ (wireJw (gWire gm n)).toNat
      ∧ (wireJw (gWire gm n)).toNat ≤ (gSigLast gm).toNat ∧ wireSrc (gWire gm n) < gSyncw gm
      ∧ ZeroBits (gWire gm n) 23 31

/-- Configuration that keeps the bounds of check G11 (rule R125); the order is that of the values. -/
def ConfigAccepted (center umid lmid band : Word) : Prop :=
  f32IsFinite center = true ∧ f32IsFinite umid = true ∧ f32IsFinite lmid = true
    ∧ f32Int lmid ≤ f32Int center ∧ f32Int center ≤ f32Int umid
    ∧ (band = 0x7F800000#32 ∨ (f32IsFinite band = true ∧ 0 ≤ f32Int band))

/-- The grammar memory words that the map reserves, and the entries past the end of each table (rules R111, R116 to R120). -/
def IgnoredWord (gm : Mem Word) (a : Nat) : Prop :=
  (0x004 ≤ a ∧ a < 0x010) ∨ (0x010 + gNfield gm ≤ a ∧ a < 0x050) ∨ (0x050 + 4 * gNsync gm ≤ a ∧ a < 0x070)
    ∨ (0x070 ≤ a ∧ a < 0x080) ∨ (0x080 + gVlen gm ≤ a ∧ a < 0x0B0) ∨ (0x0B0 ≤ a ∧ a < 0x100)
    ∨ (0x100 + gNwire gm ≤ a ∧ a < 0x300) ∨ (0x300 ≤ a ∧ a < 0x400)

/-- `r` is the real number `x` rounded to nearest, ties to even (rule R196); both in units of 2^-149. A number at or past the
midpoint of the largest finite value, `(2^24 - 1) * 2^253`, and `2^277` becomes infinite. -/
def RoundsTo (x : ℝ) (r : Word) : Prop :=
  (x < 0 → f32Sign r = true) ∧ (0 < x → f32Sign r = false)
    ∧ ((2 ^ 25 - 1) * 2 ^ 252 ≤ |x| → f32IsInf r = true)
    ∧ (|x| < (2 ^ 25 - 1) * 2 ^ 252 → f32IsFinite r = true ∧ ∀ c : Word, f32IsFinite c = true →
        |(f32Int r : ℝ) - x| ≤ |(f32Int c : ℝ) - x|
          ∧ (|(f32Int r : ℝ) - x| = |(f32Int c : ℝ) - x| → f32Int c ≠ f32Int r → r.getLsbD 0 = false))

/-- Raw dibit `i` of the field at `RP` (rules R82 b, R211). -/
def rawDibit (s : State) (i : Nat) : Dibit := (dbRead Config.params s (s.rp + BitVec.ofNat 32 i)).d

/-- The field content that a descriptor uses when it may use it: the oracle's corrected dibits of a protected field, else
the raw dibits (rule R227). -/
def contentDibit (prot : Bool) (q : FecQuery) (s : State) (i : Nat) : Dibit :=
  if prot then Config.fecDibit q i else rawDibit s i

/-- Entry `k` of the sync table matches `n` dibits (rule R122). -/
def MatchesSync (gm : Mem Word) (n : Nat) (raw : Nat → Dibit) (k : Nat) : Prop :=
  ∀ i, i < n → gFold gm (raw i) = gPat gm k i

/-- `k` is the lowest matching entry (rule R235). -/
def LowestMatch (gm : Mem Word) (n : Nat) (raw : Nat → Dibit) (k : Nat) : Prop :=
  k < gNsync gm ∧ MatchesSync gm n raw k ∧ ∀ l, l < k → ¬ MatchesSync gm n raw l

/-- No entry matches (rule R237). -/
def NoMatch (gm : Mem Word) (n : Nat) (raw : Nat → Dibit) : Prop := ∀ k, k < gNsync gm → ¬ MatchesSync gm n raw k

/-- `y` is `x` counted up, saturating at `2^32 - 1` (rule R195). -/
def Counted (x y : Word) : Prop := y.toNat = min (x.toNat + 1) (2 ^ 32 - 1)

/-- SigComplete as seen from before a SYNC step to after it (rule R262). -/
def SigCompleted (s t : State) : Prop :=
  if s.j = gSigLast s.gm ∧ t.sigbad = false ∧ t.discValid = true then
    t.sigc = t.sigw
      ∧ (if gEncMask s.gm t.disc = true then
          t.encPres = true ∧ t.algid = t.sigw[5].extractLsb' 0 8 ∧ t.keyid = t.sigw[6].extractLsb' 0 16
        else t.encPres = false ∧ t.algid = 0 ∧ t.keyid = 0)
  else t.sigc = s.sigc ∧ t.algid = s.algid ∧ t.keyid = s.keyid ∧ t.encPres = s.encPres

/-- The bits a segment places, in the order of `vtabPositions` (rules R232, R233). -/
def segmentBits (ds : List Dibit) : List Bool := ds.flatMap fun d => [d.getLsbD 1, d.getLsbD 0]

/-- A wiring entry applies in burst `j` under discriminator `disc` and names bit `b` of register `r` (rules R119, R257). -/
def WiresTo (P : Params) (j : BitVec 3) (disc : Dibit) (e : Word) (r : Fin 8) (b : Nat) : Prop :=
  wireJw e = j ∧ wireSel e disc = true ∧ (wireDst e).toNat = r.val ∧ wireBit e = b
    ∧ r.val < P.nsigreg ∧ b < P.sigregW

/-- The binary32 value of an integer. -/
def f32OfInt (n : Int) : Word := f32Make (decide (n < 0)) (f32Round (n.natAbs * 2 ^ 149) 1)

end Sys2Proof.Machine
end

