-- ==== Sys2Proof/Certificates/Slice0/Obligations.lean ====
section
/-!
DEFINITION. The statements for the provers: what each instruction does, what a step is, what every step keeps.
-/
open Sys2Proof Sys2Proof.Machine

/-! ### Encoding -/

/-- Decoding what the encoder wrote, in front of any further words, gives the command back (rules R101 to R103). -/
def Obligations.CommandDecodeEncode : Prop :=
  ∀ (port : Port) (i : Instr) (rest : List Word), i.wf = true → i.port = some port →
    decodeCommand port (encode i ++ rest) = .command i rest

/-- A well-formed descriptor is one word, and that word decodes to it (rules R106, R107). -/
def Obligations.DescriptorDecodeEncode : Prop :=
  ∀ i : Instr, i.wf = true → i.isDescriptor = true → ∃ w : Word, encode i = [w] ∧ decodeDescriptor w = .ok i

/-- Each command and each descriptor has one spelling: words that decode to it are its encoding (rules R101 to R109). -/
def Obligations.InstructionEncodeDecode : Prop :=
  (∀ (port : Port) (ws rest : List Word) (i : Instr), decodeCommand port ws = .command i rest →
    i.wf = true ∧ i.port = some port ∧ ws = encode i ++ rest) ∧
  ∀ (w : Word) (i : Instr), decodeDescriptor w = .ok i → i.wf = true ∧ i.isDescriptor = true ∧ encode i = [w]

/-- Which words are commands, and how many data words each takes (rules R102, R103, R105). That a command whose data words
have not all arrived waits on its port is the model's choice (log 2). -/
def Obligations.CommandLength : Prop :=
  ∀ (port : Port) (w : Word) (ws : List Word),
    (¬ LegalCommandWord port w → ∃ e, decodeCommand port (w :: ws) = .illegal e ws) ∧
    (LegalCommandWord port w →
      let n := if w.extractLsb' 24 8 = 0x06#8 then (w.extractLsb' 0 16).toNat
        else if w.extractLsb' 24 8 = 0x07#8 ∨ w.extractLsb' 24 8 = 0x08#8 then 1 else 0
      if n ≤ ws.length then ∃ i, i.port = some port ∧ decodeCommand port (w :: ws) = .command i (ws.drop n)
      else decodeCommand port (w :: ws) = .incomplete)

/-- Which words are descriptors that check G3 accepts (rules R106, R107, R109). -/
def Obligations.LegalDescriptorWords : Prop :=
  ∀ (gm : Mem Word) (w : Word),
    let W := (w.extractLsb' 0 10).toNat
    let AUX := (w.extractLsb' 20 6).toNat
    legalDescriptor gm w = true ↔
      (w &&& 0xFFFFFC00#32 = 0x10000000#32 ∧ 1 ≤ W)
        ∨ (w &&& 0xF407FC00#32 = 0x20000000#32 ∧ 1 ≤ W ∧ W ≤ 64 ∧ AUX < W)
        ∨ (w &&& 0xF00FFC00#32 = 0x30000000#32 ∧ 1 ≤ W ∧ W ≤ 48 ∧ AUX + W ≤ gVlen gm)
        ∨ (w &&& 0xF7FFFC00#32 = 0x40000000#32 ∧ 1 ≤ W ∧ W = gSyncw gm)

/-- Words of the spec's own examples decode to the instructions they stand for (95_test_vectors.md sections 2.1 and 2.7 to
2.9, rules R229 to R235). -/
def Obligations.SpecWordsDecode : Prop :=
  decodeCommand .p [0x01000000#32] = .command .reset []
    ∧ decodeCommand .p [0x04000003#32] = .command (.lock 3) []
    ∧ decodeCommand .p [0x06000002#32, 0x3F800000#32, 0xC0400000#32]
        = .command (.submit [0x3F800000#32, 0xC0400000#32]) []
    ∧ decodeCommand .p [0x07000005#32, 0x40000000#32] = .command (.wrcr 0x05#8 0x40000000#32) []
    ∧ decodeCommand .p [0x08000010#32, 0x2028000C#32] = .command (.wrgm 0x010#10 0x2028000C#32) []
    ∧ decodeCommand .q [0x11000002#32] = .command (.rdsr 0x02#8) []
    ∧ decodeDescriptor 0x10000090#32 = .ok (.skip 144)
    ∧ decodeDescriptor 0x2028000C#32 = .ok (.cach false 2 true 12)
    ∧ decodeDescriptor 0x35200012#32 = .ok (.voice false true 18 18)
    ∧ decodeDescriptor 0x48000018#32 = .ok (.sync true 24)

/-! ### The step -/

/-- On port P's turn the command at the front of the port is taken with its data words and run (rules R103, R140). -/
def Obligations.PortPStepRunsCommand : Prop :=
  ∀ (s : State) (ts : List Agent) (i : Instr) (rest : List Word),
    s.turns = .producer :: ts → decodeCommand .p s.portP = .command i rest →
      step s = exec i { s with turns := ts, portP := rest }

/-- On port Q's turn the command at the front of the port is taken and run; a CONSUME that holds stays on the port and the
turn passes (rules R140, R158; that a hold is a step that only passes the turn is the model's, log 3). -/
def Obligations.PortQStepRunsCommand : Prop :=
  ∀ (s : State) (ts : List Agent) (i : Instr) (rest : List Word),
    s.turns = .consumer :: ts → decodeCommand .q s.portQ = .command i rest →
      (¬ (i = .consume ∧ s.outLen = 0 ∧ s.run = true) → step s = exec i { s with turns := ts, portQ := rest }) ∧
      (i = .consume → s.outLen = 0 → s.run = true → step s = .next { s with turns := ts })

/-- On the engine's turn a complete field that is not held runs the descriptor at `F` (rules R210, R211). -/
def Obligations.EngineStepRunsDescriptor : Prop :=
  ∀ (s : State) (ts : List Agent) (i : Instr),
    s.turns = .engine :: ts → s.halted = false → s.locked = true →
    decodeDescriptor (gmRead s.gm (0x010 + s.f.toNat)) = .ok i →
    ((gmRead s.gm (0x010 + s.f.toNat)).extractLsb' 0 10).toNat ≤ (s.wp - s.rp).toNat →
    ¬ (∃ prot base w, i = .voice prot true base w ∧ s.muted = false ∧ s.firstframe = false ∧ s.outLen ≠ 0) →
      step s = exec i { s with turns := ts }

/-- An illegal command word sets ILLCMD and does nothing else; it is one word, and port Q sends no response to it (rule
R105). -/
def Obligations.IllegalWordOnlyRaises : Prop :=
  ∀ (s : State) (ts : List Agent) (w : Word) (ws : List Word),
    (s.turns = .producer :: ts → s.portP = w :: ws → ¬ LegalCommandWord .p w →
      ∃ t, step s = .next t ∧ FaultRaised 0 { s with turns := ts, portP := ws } t) ∧
    (s.turns = .consumer :: ts → s.portQ = w :: ws → ¬ LegalCommandWord .q w →
      ∃ t, step s = .next t ∧ FaultRaised 0 { s with turns := ts, portQ := ws } t) ∧
    ¬ LegalCommandWord .p 0x00000000#32 ∧ ¬ LegalCommandWord .q 0x00000000#32 ∧
    ¬ LegalCommandWord .p 0xFFFFFFFF#32 ∧ ¬ LegalCommandWord .q 0xFFFFFFFF#32

/-- The engine's selection where no descriptor runs: halted, held, HALT, SYM (rules R210, R212, R213). -/
def Obligations.EngineSelection : Prop :=
  ∀ (s : State) (ts : List Agent), s.turns = .engine :: ts →
    let d := gmRead s.gm (0x010 + s.f.toNat)
    let complete := s.locked = true ∧ (d.extractLsb' 0 10).toNat ≤ (s.wp - s.rp).toNat
    let held := ∃ prot base w, decodeDescriptor d = .ok (.voice prot true base w)
      ∧ s.muted = false ∧ s.firstframe = false ∧ s.outLen ≠ 0
    (s.halted = true → step s = .next { s with turns := ts }) ∧
    (s.halted = false → complete → held → s.run = true → step s = .next { s with turns := ts }) ∧
    (s.halted = false → complete → held → s.run = false → step s = .next { s with turns := ts, halted := true }) ∧
    (s.halted = false → ¬ complete → s.rdyLen ≠ 0 → step s = .next (symStep Config.env { s with turns := ts })) ∧
    (s.halted = false → ¬ complete → s.rdyLen = 0 → s.run = true → step s = .next { s with turns := ts }) ∧
    (s.halted = false → ¬ complete → s.rdyLen = 0 → s.run = false →
      step s = .next { s with turns := ts, halted := true })

/-- Power-on reset, at any step boundary (rule R320): the reset state and the state after a POR turn have the values of the
POR column (rule R64). Nothing is said of the thresholds and of `GM`, which it leaves unspecified. -/
def Obligations.PowerOnReset : Prop :=
  PorDone State.reset ∧ statusWord State.reset = 0x00000032#32 ∧
  ∀ (s : State) (ts : List Agent), s.turns = .por :: ts → ∃ t, step s = .next t ∧ PorDone t

/-! ### Port commands -/

/-- RESET (rule R141). -/
def Obligations.ResetCommand : Prop :=
  encode .reset = [0x01000000#32] ∧
  ∀ s : State, ∃ t, exec .reset s = .next t ∧ ResetDone t
    ∧ t = { t with
          run := s.run, halted := s.halted, gvalid := s.gvalid, fault := s.fault, ctrl := s.ctrl
          thCenter := s.thCenter, thUmid := s.thUmid, thLmid := s.thLmid, thBand := s.thBand
          sliceMap := s.sliceMap, gm := s.gm, turns := s.turns, portP := s.portP, portQ := s.portQ
          qOut := s.qOut, fecOut := s.fecOut, fecIn := s.fecIn, nanDraws := s.nanDraws }
    ∧ (engineChoice Config.params s = .hold → engineChoice Config.params t = .hold)
    ∧ readReg t 0x12#8 = 0x00000000#32

/-- START (rule R142). What the two kinds of check accept is StartChecksAccept. -/
def Obligations.StartCommand : Prop :=
  encode .start = [0x02000000#32] ∧
  ∀ s : State, ∃ t, exec .start s = .next t ∧
    let okG := grammarOk Config.params s.gm
    let okC := configOk s.thCenter s.thUmid s.thLmid s.thBand
    (s.halted = false → t = { s with run := true }) ∧
    (s.halted = true → okG = true → okC = true → s.gvalid = true → t = { s with run := true, halted := false }) ∧
    (s.halted = true → okG = true → okC = true → s.gvalid = false →
      SessionCleared t ∧ t.lastsync = 0 ∧ t.locked = false ∧ t.rp = s.wp
        ∧ OnlySessionWritten { s with gvalid := true, run := true, halted := false } t) ∧
    (s.halted = true → ¬ (okG = true ∧ okC = true) →
      t = { s with gvalid := false, fault := t.fault }
        ∧ ∀ k, k < 8 → t.fault.getLsbD k
            = (s.fault.getLsbD k || (decide (k = 2) && !okG) || (decide (k = 3) && !okC)))

/-- What the checks accept (rule R125): G1 to G10 exactly the grammars that keep the rule's bounds, for any capacities, and G11
exactly the ordered finite thresholds with a band that is `+inf` or not below zero. -/
def Obligations.StartChecksAccept : Prop :=
  (∀ (P : Params) (gm : Mem Word), grammarOk P gm = true ↔ GrammarAccepted P gm) ∧
  ∀ center umid lmid band : Word, configOk center umid lmid band = true ↔ ConfigAccepted center umid lmid band

/-- STOP (rule R144): only `RUN` falls; the engine goes on with what it has and halts only where it would wait. -/
def Obligations.StopCommand : Prop :=
  encode .stop = [0x03000000#32] ∧
  ∀ s : State, ∃ t, exec .stop s = .next t ∧ t = { s with run := false }
    ∧ (engineChoice Config.params s ≠ .hold → engineChoice Config.params t = engineChoice Config.params s)
    ∧ (engineChoice Config.params s = .hold → s.halted = false → engineChoice Config.params t = .halt)

/-- LOCK (rules R145, R323). -/
def Obligations.LockCommand : Prop :=
  (∀ st : BitVec 4, encode (.lock st) = [0x04000000#32 ||| st.setWidth 32]) ∧
  ∀ (st : BitVec 4) (s : State), ∃ t, exec (.lock st) s = .next t ∧
    if s.gvalid = false ∨ s.dbValid.toNat < gLookback s.gm then FaultRaised 6 s t
    else SessionCleared t ∧ t.locked = true ∧ t.lastsync = st
      ∧ t.rp.toNat = (s.wp.toNat + (2 ^ 32 - gLookback s.gm)) % 2 ^ 32 ∧ OnlySessionWritten s t

/-- UNLOCK (rules R147, R322). -/
def Obligations.UnlockCommand : Prop :=
  encode .unlock = [0x05000000#32] ∧
  ∀ s : State, ∃ t, exec .unlock s = .next t
    ∧ SessionCleared t ∧ t.lastsync = 0 ∧ t.locked = false ∧ t.rp = s.wp ∧ OnlySessionWritten s t

/-- SUBMIT (rules R148, R149, R150), and the data words taken from the port in every case; the order of the tests is that of rule R301. -/
def Obligations.SubmitCommand : Prop :=
  (∀ samples : List Word, samples.length < 2 ^ 16 →
    encode (.submit samples) = (0x06000000#32 ||| BitVec.ofNat 32 samples.length) :: samples
      ∧ ∀ (s : State) (ts : List Agent) (rest : List Word), s.turns = .producer :: ts →
          s.portP = encode (.submit samples) ++ rest →
            step s = exec (.submit samples) { s with turns := ts, portP := rest }) ∧
  ∀ (samples : List Word) (s : State), ∃ t, exec (.submit samples) s = .next t ∧
    if samples.length = 0 then t = s
    else if 4096 < samples.length then FaultRaised 0 s t
    else if s.rdyLen ≠ 0 then FaultRaised 1 s t
    else t = { s with inBuf := t.inBuf, inOff := 0, rdyLen := t.rdyLen } ∧ t.rdyLen.toNat = samples.length
      ∧ ∀ a, memRead t.inBuf a = if a < samples.length then samples[a]? else memRead s.inBuf a

/-- WRCR (rule R152), and the data word taken from the port in every case. -/
def Obligations.WrcrCommand : Prop :=
  (∀ (a : BitVec 8) (v : Word), encode (.wrcr a v) = [0x07000000#32 ||| a.setWidth 32, v]
    ∧ ∀ (s : State) (ts : List Agent) (rest : List Word), s.turns = .producer :: ts →
        s.portP = encode (.wrcr a v) ++ rest → step s = exec (.wrcr a v) { s with turns := ts, portP := rest }) ∧
  ∀ (a : BitVec 8) (v : Word) (s : State), ∃ t, exec (.wrcr a v) s = .next t ∧
    if a ∉ [0x01#8, 0x04#8, 0x05#8, 0x06#8, 0x07#8, 0x08#8] then FaultRaised 0 s t
    else if s.halted = false then FaultRaised 5 s t
    else t = { s with
          ctrl := if a = 0x01#8 then v &&& 0x00000003#32 else s.ctrl
          thCenter := if a = 0x04#8 then v else s.thCenter
          thUmid := if a = 0x05#8 then v else s.thUmid
          thLmid := if a = 0x06#8 then v else s.thLmid
          thBand := if a = 0x07#8 then v else s.thBand
          sliceMap := if a = 0x08#8 then v.extractLsb' 0 8 else s.sliceMap
          gvalid := false }

/-- WRGM (rule R154), and the data word taken from the port in either case. -/
def Obligations.WrgmCommand : Prop :=
  (∀ (a : BitVec 10) (v : Word), encode (.wrgm a v) = [0x08000000#32 ||| a.setWidth 32, v]
    ∧ ∀ (s : State) (ts : List Agent) (rest : List Word), s.turns = .producer :: ts →
        s.portP = encode (.wrgm a v) ++ rest → step s = exec (.wrgm a v) { s with turns := ts, portP := rest }) ∧
  ∀ (a : BitVec 10) (v : Word) (s : State), ∃ t, exec (.wrgm a v) s = .next t ∧
    if s.halted = false then FaultRaised 5 s t
    else t = { s with gm := t.gm, gvalid := false }
      ∧ ∀ c, memRead t.gm c = if c = a.toNat then some v else memRead s.gm c

/-- CONSUME where it is enabled (rules R104, R157). -/
def Obligations.ConsumeCommand : Prop :=
  encode .consume = [0x10000000#32] ∧
  ∀ s : State, s.outLen ≠ 0 ∨ s.run = false → ∃ t, exec .consume s = .next t ∧ (∀ last, emitHeld last t = false) ∧
    if s.outLen ≠ 0 then
      t = { s with
          qOut := s.qOut ++ [1#32, outWord s 0, outWord s 1, outWord s 2, outWord s 3, outWord s 4]
          outLen := 0, outOff := 0 }
    else t = { s with qOut := s.qOut ++ [0#32, 0#32, 0#32, 0#32, 0#32, 0#32] }

/-- RDSR (rule R160): the word that the register map assigns to the address (rules R61, R62, R192), and no other effect. TGID
is stated where the grammar keeps the bounds of check G2, the only ones for which rule R263 defines it. -/
def Obligations.RdsrCommand : Prop :=
  (∀ a : BitVec 8, encode (.rdsr a) = [0x11000000#32 ||| a.setWidth 32]) ∧
  ∀ (a : BitVec 8) (s : State), ∃ v : Word, exec (.rdsr a) s = .next { s with qOut := s.qOut ++ [v] } ∧
    (a = 0x00#8 → v = 0x54465301#32) ∧ (a = 0x01#8 → v = s.ctrl) ∧
    (a = 0x02#8 → v.getLsbD 0 = s.run ∧ v.getLsbD 1 = s.halted ∧ v.getLsbD 2 = s.locked ∧ v.getLsbD 3 = s.gvalid
      ∧ v.getLsbD 4 = s.muted ∧ v.getLsbD 5 = s.firstframe ∧ v.extractLsb' 6 1 = s.curslot ∧ v.extractLsb' 7 3 = s.j
      ∧ v.extractLsb' 10 7 = s.f ∧ v.extractLsb' 17 2 = s.kidx ∧ v.getLsbD 19 = s.encPres
      ∧ v.getLsbD 20 = s.discValid ∧ v.extractLsb' 21 2 = s.disc ∧ v.getLsbD 23 = s.sigbad ∧ v.getLsbD 24 = s.vbad
      ∧ v.extractLsb' 25 7 = 0#7) ∧
    (a = 0x03#8 → v = s.fault.setWidth 32) ∧ (a = 0x04#8 → v = s.thCenter) ∧ (a = 0x05#8 → v = s.thUmid) ∧
    (a = 0x06#8 → v = s.thLmid) ∧ (a = 0x07#8 → v = s.thBand) ∧ (a = 0x08#8 → v = s.sliceMap.setWidth 32) ∧
    (a = 0x10#8 → v = s.bitCnt) ∧ (a = 0x11#8 → v = s.bitErr) ∧
    (a = 0x12#8 → s.bitCnt = 0 → v = 0#32) ∧
    (a = 0x12#8 → s.bitCnt ≠ 0 → ∃ q, v = fdiv q (fmul q (cvtU32F32 s.bitErr.toNat) 0x42C80000#32)
      (cvtU32F32 s.bitCnt.toNat)) ∧
    (a = 0x13#8 → v = s.hdrErr) ∧ (a = 0x14#8 → v = s.audErr) ∧ (a = 0x15#8 → v = s.syncMiss) ∧
    (a = 0x16#8 → v = s.lastsync.setWidth 32) ∧
    (a = 0x17#8 → v.extractLsb' 0 2 = s.slotst0 ∧ v.extractLsb' 2 2 = s.slotst1 ∧ v.extractLsb' 4 28 = 0#28) ∧
    (a = 0x18#8 → v.extractLsb' 0 8 = s.algid ∧ v.extractLsb' 8 23 = 0#23 ∧ v.getLsbD 31 = s.encPres) ∧
    (a = 0x19#8 → v.extractLsb' 0 16 = s.keyid ∧ v.extractLsb' 16 15 = 0#15 ∧ v.getLsbD 31 = s.encPres) ∧
    (a = 0x1A#8 → gTgW s.gm ≤ 24 → gTgLo s.gm + gTgW s.gm ≤ 128 → ∀ i, i < 32 →
      v.getLsbD i = (decide (i < gTgW s.gm) && s.sigc[2].getLsbD (gTgLo s.gm + i))) ∧
    (a = 0x1B#8 → v = s.lastDibit.setWidth 32) ∧
    (∀ r k : Nat, ∀ hr : r < 8, k < 4 → a.toNat = 0x20 + 4 * r + k → v = (s.sigc[r]).extractLsb' (32 * k) 32) ∧
    (a = 0x40#8 → v = s.wp) ∧ (a = 0x41#8 → v = s.rp) ∧ (a = 0x42#8 → v = s.dbValid) ∧
    (a = 0x43#8 → v = s.rdyLen.setWidth 32) ∧ (a = 0x44#8 → v = s.inOff.setWidth 32) ∧
    (a = 0x45#8 → v = s.outLen.setWidth 32) ∧ (a = 0x46#8 → v = s.outOff.setWidth 32) ∧
    (∀ r : Nat, ∀ hr : r < 4, a.toNat = 0x50 + r → v = (s.vm[r]).setWidth 32) ∧
    (∀ p c : Dibit,
      (a.toNat = 0x80 + 4 * (4 * p.toNat + c.toNat) → v = (htGet s p c).cnt.setWidth 32) ∧
      (a.toNat = 0x80 + 4 * (4 * p.toNat + c.toNat) + 1 → v = (htGet s p c).idx.setWidth 32) ∧
      (a.toNat = 0x80 + 4 * (4 * p.toNat + c.toNat) + 2 → v = (htGet s p c).sum) ∧
      (a.toNat = 0x80 + 4 * (4 * p.toNat + c.toNat) + 3 → v = (htGet s p c).vsum)) ∧
    ((0x09 ≤ a.toNat ∧ a.toNat ≤ 0x0F) ∨ (0x1C ≤ a.toNat ∧ a.toNat ≤ 0x1F) ∨ (0x47 ≤ a.toNat ∧ a.toNat ≤ 0x4F)
      ∨ (0x54 ≤ a.toNat ∧ a.toNat ≤ 0x7F) ∨ 0xC0 ≤ a.toNat → v = 0#32)

/-! ### Descriptors -/

/-- SKIP (rule R229) with Advance (rule R240). -/
def Obligations.SkipDescriptor : Prop :=
  ∀ (w : BitVec 10) (s : State), ∃ t, exec (.skip w) s = .next t ∧ Advanced w s.kidx s t
    ∧ t = { s with rp := t.rp, f := t.f, j := t.j, kidx := t.kidx, firstframe := t.firstframe }

/-- CACH (rules R227, R230, R293). -/
def Obligations.CachDescriptor : Prop :=
  ∀ (prot : Bool) (slotIdx : BitVec 6) (slotHalf : Bool) (w : BitVec 10) (s : State),
    (Instr.cach prot slotIdx slotHalf w).wf = true →
    let field := readField Config.params s w
    let q := fecQuery 0x2#4 field s
    ∃ t, exec (.cach prot slotIdx slotHalf w) s = .next t ∧ Advanced w s.kidx s t
      ∧ t = { s with
            rp := t.rp, f := t.f, j := t.j, kidx := t.kidx, firstframe := t.firstframe
            curslot := t.curslot, hdrErr := t.hdrErr, ht := t.ht, bitCnt := t.bitCnt, bitErr := t.bitErr
            nanDraws := t.nanDraws, fecOut := t.fecOut, fecIn := t.fecIn }
      ∧ (if prot then Asked q s t else NotAsked s t)
      ∧ (if prot = true ∧ Config.fecOk q = true then Trained q field s t else NothingTrained s t)
      ∧ (if prot = true ∧ Config.fecOk q = false then t.curslot = s.curslot ∧ Counted s.hdrErr t.hdrErr
        else t.hdrErr = s.hdrErr ∧ t.curslot.toNat
          = ((contentDibit prot q s slotIdx.toNat).getLsbD (if slotHalf then 1 else 0)).toNat)

/-- VOICE where it is not held (rules R227, R231, R234, R293). -/
def Obligations.VoiceDescriptor : Prop :=
  ∀ (prot last : Bool) (base : BitVec 6) (w : BitVec 10) (s : State),
    ¬ (last = true ∧ s.muted = false ∧ s.firstframe = false ∧ s.outLen ≠ 0) →
    let field := readField Config.params s w
    let q := fecQuery 0x3#4 field s
    let content := (List.range w.toNat).map (contentDibit prot q s)
    let vm0 := if base = 0 then Vector.replicate 4 0#24 else s.vm
    let vbad0 := if base = 0 then false else s.vbad
    ∃ t, exec (.voice prot last base w) s = .next t
      ∧ Advanced w (if last then s.kidx + 1 else s.kidx) s t
      ∧ t = { s with
            rp := t.rp, f := t.f, j := t.j, kidx := t.kidx, firstframe := t.firstframe
            vm := t.vm, vbad := t.vbad, audErr := t.audErr, ht := t.ht, bitCnt := t.bitCnt, bitErr := t.bitErr
            nanDraws := t.nanDraws, fecOut := t.fecOut, fecIn := t.fecIn
            outRec := t.outRec, outLen := t.outLen, outOff := t.outOff }
      ∧ (if prot then Asked q s t else NotAsked s t)
      ∧ (if prot = true ∧ Config.fecOk q = true then Trained q field s t else NothingTrained s t)
      ∧ (if prot = true ∧ Config.fecOk q = false then
          t.vm = vm0 ∧ t.vbad = true ∧ Counted s.audErr t.audErr
        else t.vm = placeDibits s.gm base.toNat content vm0 ∧ t.vbad = vbad0 ∧ t.audErr = s.audErr)
      ∧ (if last = true ∧ s.muted = false ∧ s.firstframe = false ∧ t.vbad = false then
          t.outLen = 1 ∧ t.outOff = 0
            ∧ (∃ h : Word, memRead t.outRec 0 = some h ∧ h.extractLsb' 0 1 = s.curslot ∧ h.extractLsb' 1 3 = s.j
                ∧ h.extractLsb' 4 2 = s.kidx ∧ h.extractLsb' 6 26 = 0#26)
            ∧ ∀ r : Fin 4, memRead t.outRec (1 + r.val) = some ((t.vm[r]).setWidth 32)
        else t.outRec = s.outRec ∧ t.outLen = s.outLen ∧ t.outOff = s.outOff)

/-- A held VOICE waits (rule R212; that waiting is a next state with nothing changed is the model's, log 18). -/
def Obligations.VoiceHeldWaits : Prop :=
  ∀ (prot : Bool) (base : BitVec 6) (w : BitVec 10) (s : State),
    s.muted = false → s.firstframe = false → s.outLen ≠ 0 → exec (.voice prot true base w) s = .next s

/-- SYNC whose field is a sync word (rules R235, R236, R252, R258, R262). -/
def Obligations.SyncMatchedDescriptor : Prop :=
  ∀ (prot : Bool) (w : BitVec 10) (s : State) (k : Nat), LowestMatch s.gm w.toNat (rawDibit s) k →
    let data := gClassData s.gm k
    let starts := s.j = gDiscBurst s.gm
    ∃ t, exec (.sync prot w) s = .next t ∧ Advanced w s.kidx s t
      ∧ t = { s with
            rp := t.rp, f := t.f, j := t.j, kidx := t.kidx, firstframe := t.firstframe
            muted := data
            lastsync := gType s.gm k
            slotst0 := if s.curslot = 0 then (if data then 2 else 1) else s.slotst0
            slotst1 := if s.curslot = 1 then (if data then 2 else 1) else s.slotst1
            sigw := if starts then Vector.replicate 8 0 else s.sigw
            disc := if starts then 0 else s.disc
            discValid := if starts then false else s.discValid
            sigbad := t.sigbad, sigc := t.sigc, algid := t.algid, keyid := t.keyid, encPres := t.encPres }
      ∧ t.sigbad = (if (gDiscBurst s.gm).toNat ≤ s.j.toNat ∧ s.j.toNat ≤ (gSigLast s.gm).toNat then true
          else if starts then false else s.sigbad)
      ∧ SigCompleted s t

/-- SYNC whose field matched nothing, outside the signalling span (rules R235, R237, R252, R262, R265). -/
def Obligations.SyncUnmatchedOutsideSpan : Prop :=
  ∀ (prot : Bool) (w : BitVec 10) (s : State), NoMatch s.gm w.toNat (rawDibit s) →
    ¬ ((gDiscBurst s.gm).toNat ≤ s.j.toNat ∧ s.j.toNat ≤ (gSigLast s.gm).toNat) →
    let starts := s.j = gDiscBurst s.gm
    ∃ t, exec (.sync prot w) s = .next t ∧ Advanced w s.kidx s t
      ∧ t = { s with
            rp := t.rp, f := t.f, j := t.j, kidx := t.kidx, firstframe := t.firstframe
            syncMiss := t.syncMiss
            sigw := if starts then Vector.replicate 8 0 else s.sigw
            disc := if starts then 0 else s.disc
            discValid := if starts then false else s.discValid
            sigbad := if starts then false else s.sigbad
            sigc := t.sigc, algid := t.algid, keyid := t.keyid, encPres := t.encPres }
      ∧ (if gSyncExpect s.gm s.j then Counted s.syncMiss t.syncMiss else t.syncMiss = s.syncMiss)
      ∧ SigCompleted s t

/-- SYNC whose field matched nothing, inside the signalling span (rules R227, R235, R237, R252 to R257, R262, R293). -/
def Obligations.SyncUnmatchedInSpan : Prop :=
  ∀ (prot : Bool) (w : BitVec 10) (s : State), NoMatch s.gm w.toNat (rawDibit s) →
    (gDiscBurst s.gm).toNat ≤ s.j.toNat → s.j.toNat ≤ (gSigLast s.gm).toNat →
    let starts := s.j = gDiscBurst s.gm
    let field := readField Config.params s w
    let q := fecQuery 0x4#4 field s
    let content := (List.range w.toNat).map (contentDibit prot q s)
    let sigw0 := if starts then Vector.replicate 8 0 else s.sigw
    let sigbad0 := if starts then false else s.sigbad
    ∃ t, exec (.sync prot w) s = .next t ∧ Advanced w s.kidx s t
      ∧ t = { s with
            rp := t.rp, f := t.f, j := t.j, kidx := t.kidx, firstframe := t.firstframe
            syncMiss := t.syncMiss, hdrErr := t.hdrErr
            sigw := t.sigw, disc := t.disc, discValid := t.discValid, sigbad := t.sigbad
            sigc := t.sigc, algid := t.algid, keyid := t.keyid, encPres := t.encPres
            ht := t.ht, bitCnt := t.bitCnt, bitErr := t.bitErr, nanDraws := t.nanDraws
            fecOut := t.fecOut, fecIn := t.fecIn }
      ∧ (if gSyncExpect s.gm s.j then Counted s.syncMiss t.syncMiss else t.syncMiss = s.syncMiss)
      ∧ (if prot then Asked q s t else NotAsked s t)
      ∧ (if prot = true ∧ Config.fecOk q = true then Trained q field s t else NothingTrained s t)
      ∧ (if prot = true ∧ Config.fecOk q = false then
          Counted s.hdrErr t.hdrErr ∧ t.sigbad = true ∧ t.sigw = sigw0
            ∧ t.disc = (if starts then 0 else s.disc) ∧ t.discValid = (if starts then false else s.discValid)
        else
          t.hdrErr = s.hdrErr
            ∧ (if starts then
                t.discValid = true
                  ∧ t.disc.getLsbD 1 = dibitBit (dibitAt content (gD1Idx s.gm)) (gD1Half s.gm)
                  ∧ t.disc.getLsbD 0 = dibitBit (dibitAt content (gD0Idx s.gm)) (gD0Half s.gm)
              else t.discValid = s.discValid ∧ t.disc = s.disc)
            ∧ (if t.discValid then
                t.sigw = (gWires s.gm).foldl (wireOne Config.params s.j t.disc content) sigw0 ∧ t.sigbad = sigbad0
              else t.sigw = sigw0 ∧ t.sigbad = true))
      ∧ SigCompleted s t

/-- Voice placement, bit by bit: the last bit sent to a matrix position stands there; a position that no entry of the
segment names keeps its bit (rules R118, R232, R233). -/
def Obligations.VoicePlacementBits : Prop :=
  ∀ (gm : Mem Word) (base : Nat) (ds : List Dibit) (vm : Vector (BitVec 24) 4) (r : BitVec 2) (c : Nat), c < 24 →
    let pos := vtabPositions gm base ds.length
    let bit := segmentBits ds
    let after := placeDibits gm base ds vm
    (∀ (m : Nat) (b : Bool), pos[m]? = some (r, c) → bit[m]? = some b → (∀ n : Nat, m < n → pos[n]? ≠ some (r, c)) → vmBit after r c = b) ∧
    ((r, c) ∉ pos → vmBit after r c = vmBit vm r c)

/-- The wiring table, bit by bit: the last applicable entry that names a bit decides it; a bit that none names keeps its
value (rules R119, R257). It holds for any number and width of signalling registers (rule R9), where an entry names a bit
only if the bit exists (the model's choice, log 25); here every bit that an entry can name does. -/
def Obligations.SignallingWiringBits : Prop :=
  ∀ (P : Params) (j : BitVec 3) (disc : Dibit) (content : List Dibit) (regs : SigFile) (es : List Word) (r : Fin 8)
    (b : Nat),
    let after := es.foldl (wireOne P j disc content) regs
    (∀ (m : Nat) (e : Word), es[m]? = some e → WiresTo P j disc e r b →
      (∀ (n : Nat) (e' : Word), m < n → es[n]? = some e' → ¬ WiresTo P j disc e' r b) →
        (after[r]).getLsbD b = (dibitAt content (wireSrc e)).getLsbD (if wireHalf e then 1 else 0)) ∧
    ((∀ e ∈ es, ¬ WiresTo P j disc e r b) → (after[r]).getLsbD b = (regs[r]).getLsbD b)

/-! ### The engine's sample step and the classifier -/

/-- SYM up to the sync detector (rules R73, R76, R170, R171, R174, R176). -/
def Obligations.SampleStep : Prop :=
  ∀ (s : State) (ts : List Agent) (v : Word), s.turns = .engine :: ts → s.halted = false →
    (s.locked = false ∨ (s.wp - s.rp).toNat < ((gmRead s.gm (0x010 + s.f.toNat)).extractLsb' 0 10).toNat) →
    s.rdyLen ≠ 0 → memRead s.inBuf s.inOff.toNat = some v →
    ∃ (u : State) (d : Dibit) (q : BitVec 23), step s = .next (autoLockCheck Config.params u)
      ∧ u = { s with
            turns := ts, dbuf := u.dbuf, wp := s.wp + 1, dbValid := u.dbValid, lastDibit := d
            rp := if s.locked then s.rp else s.wp + 1
            rdyLen := if s.inOff + 1 = s.rdyLen then 0 else s.rdyLen
            inOff := if s.inOff + 1 = s.rdyLen then 0 else s.inOff + 1
            fault := u.fault }
      ∧ (∀ a, memRead u.dbuf a = if a = s.wp.toNat % 512 then some { d := d, a := v } else memRead s.dbuf a)
      ∧ u.dbValid.toNat = min (s.dbValid.toNat + 1) 512
      ∧ (∀ k, k < 8 → u.fault.getLsbD k = (s.fault.getLsbD k || (decide (k = 4) && !f32IsFinite v)))
      ∧ (if s.thBand = 0x7F800000#32 ∨ flt (fabs (fsub q v s.thLmid)) s.thBand = true
            ∨ flt (fabs (fsub q v s.thCenter)) s.thBand = true ∨ flt (fabs (fsub q v s.thUmid)) s.thBand = true then
          d = (estimate Config.env q s (if s.ctrl.getLsbD 0 then s.lastDibit else 0) v).getD (staticSlice s v)
        else d = staticSlice s v)

/-- AutoLockCheck (rules R218, R323): no lock without the switch, a SYNC descriptor, a sync table and `LOOKBACK` dibits; else
the lowest entry that the last `SYNCW` dibits match locks. It holds for any other parameters of
rule R9 where `W_PTR` is 32. -/
def Obligations.AutoLockDetector : Prop :=
  ∀ (P : Params) (s : State), P.wPtr = 32 →
    let recent := fun i : Nat => (dbRead P s (s.wp - BitVec.ofNat 32 (gSyncw s.gm) + BitVec.ofNat 32 i)).d
    let off := s.locked = true ∨ s.ctrl.getLsbD 1 = false
      ∨ (∀ f, f < gNfield s.gm → (gField s.gm f).extractLsb' 28 4 ≠ 0x4#4) ∨ gNsync s.gm = 0
      ∨ s.dbValid.toNat < gLookback s.gm
    (off → autoLockCheck P s = s) ∧
    (¬ off → NoMatch s.gm (gSyncw s.gm) recent → autoLockCheck P s = s) ∧
    (∀ k, ¬ off → LowestMatch s.gm (gSyncw s.gm) recent k →
      let t := autoLockCheck P s
      SessionCleared t ∧ t.locked = true ∧ t.lastsync = gType s.gm k
        ∧ t.rp.toNat = (s.wp.toNat + (2 ^ 32 - gLookback s.gm)) % 2 ^ 32 ∧ OnlySessionWritten s t)

/-- The static slicer's regions and their borders (rules R172, R173). A sample equal to the upper threshold falls on the inner
side where the upper threshold lies above the centre. -/
def Obligations.StaticSlicer : Prop :=
  ∀ (s : State) (v : Word),
    let out := fun region : Nat => s.sliceMap.extractLsb' (2 * region) 2
    (f32IsNaN v = true → staticSlice s v = out 2) ∧
    (configOk s.thCenter s.thUmid s.thLmid s.thBand = true →
      (flt s.thUmid v = true → staticSlice s v = out 0) ∧
      (flt s.thCenter v = true → fle v s.thUmid = true → staticSlice s v = out 1) ∧
      (fle v s.thCenter = true → fle s.thLmid v = true → staticSlice s v = out 2) ∧
      (flt v s.thLmid = true → staticSlice s v = out 3) ∧
      (feq s.thLmid s.thCenter = true → feq s.thCenter s.thUmid = true → sliceRegion s v ≠ 1))

/-- Estimate (rules R178, R179, R181): when it answers None, and which candidate it answers, by the density values of rule
R178 in the order of operations written there. -/
def Obligations.EstimateAnswer : Prop :=
  ∀ (env : Env) (q : BitVec 23) (s : State) (p : Dibit) (v : Word),
    let pdf := fun c : Dibit =>
      let m := htGet s p c
      let n := cvtU32F32 m.cnt.toNat
      let x := fsub q (fmul q v n) m.sum
      let y := fdiv q (fmul q (fmul q 0xBF000000#32 n) (fmul q x x)) (fmul q (fmul q n n) m.vsum)
      fmul q (fsqrt q (fdiv q n m.vsum)) (expfOf env q y)
    let usable := ∀ c : Dibit, 10 ≤ (htGet s p c).cnt.toNat ∧ f32IsFinite (htGet s p c).sum = true
      ∧ f32IsFinite (htGet s p c).vsum = true ∧ fgt (htGet s p c).vsum 0#32 = true
    (¬ usable → estimate env q s p v = none) ∧
    (usable → (∃ c, f32IsNaN (pdf c) = true) → estimate env q s p v = none) ∧
    (usable → (∀ c, f32IsNaN (pdf c) = false) → ∃ d, estimate env q s p v = some d
      ∧ (∀ c, fgt (pdf c) (pdf d) = false) ∧ ∀ c : Dibit, c.toNat < d.toNat → fgt (pdf d) (pdf c) = true)

/-- Update (rules R185 to R189, R191): the BER accumulators, frozen near the top of their width `W_CNT` (rule R9; for a
width that is not 32 the model's choice, log 25), and the one model it inserts into. The error count is the Hamming distance of the two dibits (rule R187). -/
def Obligations.UpdateEffect : Prop :=
  ∀ (env : Env) (p raw corr : Dibit) (a : Word) (s : State), env.params.legal = true →
    let t := update env p raw corr a s
    let top := 2 ^ env.params.wCnt - 3
    let row := if s.ctrl.getLsbD 0 then p else 0#2
    let e := ((raw ^^^ corr).getLsbD 0).toNat + ((raw ^^^ corr).getLsbD 1).toNat
    (top < s.bitCnt.toNat → t.bitCnt = s.bitCnt ∧ t.bitErr = s.bitErr) ∧
    (s.bitCnt.toNat ≤ top → s.bitErr.toNat ≤ s.bitCnt.toNat →
      if (s.bitCnt.toNat + 2) % 2 = 0 ∧ (s.bitErr.toNat + e) % 2 = 0 then
        t.bitCnt.toNat = (s.bitCnt.toNat + 2) / 2 ∧ t.bitErr.toNat = (s.bitErr.toNat + e) / 2
      else t.bitCnt.toNat = s.bitCnt.toNat + 2 ∧ t.bitErr.toNat = s.bitErr.toNat + e) ∧
    (∀ p' c', ¬ (p' = row ∧ c' = corr) → htGet t p' c' = htGet s p' c') ∧
    (∃ nans, htGet t row corr = modelInsert nans (htGet s row corr) a) ∧
    t = { s with bitCnt := t.bitCnt, bitErr := t.bitErr, ht := t.ht, nanDraws := t.nanDraws }

/-- ModelInsert on a model of legal form (rule R190), for every choice of the free NaN bits: evict the oldest when full, then
insert. -/
def Obligations.ModelInsertEffect : Prop :=
  ∀ (nans : Nat → BitVec 23) (m : SymModel) (a : Word), ModelLegal m →
    let m' := modelInsert nans m a
    ModelLegal m'
      ∧ m'.cnt.toNat = min (m.cnt.toNat + 1) 200 ∧ m'.idx.toNat = (m.idx.toNat + 1) % 200
      ∧ (∀ k, memRead m'.val k = if k = m.idx.toNat then some a else memRead m.val k)
      ∧ (∀ k, k ≠ m.idx.toNat → memRead m'.mean k = memRead m.mean k)
      ∧ ∃ q0 q1 q2 q3 q4 q5 q6 q7 q8 mu,
          mu = fdiv q5 m'.sum (cvtU32F32 m'.cnt.toNat) ∧ memRead m'.mean m.idx.toNat = some mu
            ∧ (m.cnt.toNat < 200 → m'.sum = fadd q4 m.sum a
                ∧ m'.vsum = fadd q8 m.vsum (fmul q7 (fsub q6 a mu) (fsub q6 a mu)))
            ∧ (∀ ov om, m.cnt.toNat = 200 → memRead m.val m.idx.toNat = some ov →
                memRead m.mean m.idx.toNat = some om →
                m'.sum = fadd q4 (fsub q0 m.sum ov) a
                  ∧ m'.vsum = fadd q8 (fsub q3 m.vsum (fmul q2 (fsub q1 ov om) (fsub q1 ov om)))
                      (fmul q7 (fsub q6 a mu) (fsub q6 a mu)))

/-- Exactness (rule R197): after inserting integers of magnitude below 2^24/200 into an empty model, `SUM` is exactly the sum
of the last 200 of them, and `CNT` counts them up to 200. -/
def Obligations.IntegerSumsExact : Prop :=
  ∀ (nans : Nat → BitVec 23) (xs : List Int), (∀ x ∈ xs, x.natAbs * 200 < 2 ^ 24) →
    let m := xs.foldl (fun m x => modelInsert nans m (f32OfInt x)) SymModel.empty
    m.cnt.toNat = min xs.length 200 ∧ m.sum = f32OfInt (xs.drop (xs.length - 200)).sum

/-- Every operation rounds its exact result to nearest, ties to even (rules R10, R196). Values are in units of 2^-149, in which
every finite value is an integer. -/
def Obligations.ArithmeticRoundsToNearestEven : Prop :=
  (∀ (q : BitVec 23) (a b : Word), f32IsFinite a = true → f32IsFinite b = true →
    RoundsTo ((f32Int a : ℝ) + f32Int b) (fadd q a b)
      ∧ RoundsTo ((f32Int a : ℝ) - f32Int b) (fsub q a b)
      ∧ RoundsTo ((f32Int a : ℝ) * f32Int b / 2 ^ 149) (fmul q a b)
      ∧ (f32Int b ≠ 0 → RoundsTo ((f32Int a : ℝ) * 2 ^ 149 / f32Int b) (fdiv q a b))
      ∧ (0 ≤ f32Int a → RoundsTo (Real.sqrt ((f32Int a : ℝ) * 2 ^ 149)) (fsqrt q a))) ∧
  ∀ n : Nat, RoundsTo ((n : ℝ) * 2 ^ 149) (cvtU32F32 n)

/-- TrainField (rules R35, R191, R193): one Update for each dibit, ascending; under conditioning with the corrected dibit before
it as context and none for the first. So without conditioning only row 0 is trained, and a column that no corrected dibit
names never is. -/
def Obligations.TrainFieldEffect : Prop :=
  ∀ (env : Env) (field : List DbEntry) (corrected : List Dibit) (s : State), corrected.length = field.length →
    let t := trainField env field corrected s
    (∃ u : Nat → State, u 0 = s ∧ t = u field.length ∧
      ∀ (i : Nat) (e : DbEntry) (c : Dibit), field[i]? = some e → corrected[i]? = some c →
        (s.ctrl.getLsbD 0 = false → u (i + 1) = update env 0 e.d c e.a (u i)) ∧
        (s.ctrl.getLsbD 0 = true → i = 0 → u (i + 1) = u i) ∧
        (s.ctrl.getLsbD 0 = true → ∀ p, i ≠ 0 → corrected[i - 1]? = some p → u (i + 1) = update env p e.d c e.a (u i))) ∧
    (s.ctrl.getLsbD 0 = false → ∀ p c : Dibit, p ≠ 0 → htGet t p c = htGet s p c) ∧
    (s.ctrl.getLsbD 0 = true → field.length ≤ 1 → t = s) ∧
    (∀ c : Dibit, c ∉ corrected → ∀ p : Dibit, htGet t p c = htGet s p c)

/-- The FEC query message (rules R82 c, R127): the header word, and the raw dibits packed sixteen to a word. -/
def Obligations.FecQueryMessage : Prop :=
  ∀ q : FecQuery, q.raw.length < 1024 →
    ∃ h ws, queryWords q = h :: ws
      ∧ h.extractLsb' 28 4 = q.kind ∧ h.extractLsb' 25 3 = q.j ∧ h.extractLsb' 23 2 = 0#2 ∧ h.extractLsb' 16 7 = q.f
      ∧ h.extractLsb' 10 6 = 0#6 ∧ (h.extractLsb' 0 10).toNat = q.raw.length
      ∧ ws.length = (q.raw.length + 15) / 16
      ∧ ∀ i, i < 16 * ws.length → ∃ w, ws[i / 16]? = some w ∧ w.extractLsb' (2 * (i % 16)) 2 = q.raw.getD i 0#2

/-! ### What every step keeps -/

/-- Every step keeps the canonical form of every storage. -/
def Obligations.StepKeepsStorages : Prop :=
  ∀ s t : State, StoragesCanonical s → step s = .next t → StoragesCanonical t

/-- Every step keeps the models' form and `BIT_ERR <= BIT_CNT` (rules R37, R188). -/
def Obligations.StepKeepsClassifier : Prop :=
  ∀ s t : State, ClassifierLegal s → step s = .next t → ClassifierLegal t

/-- Every step keeps the channels' invariants (rules R55, R56). -/
def Obligations.StepKeepsChannels : Prop :=
  ∀ s t : State, ChannelsLegal s → step s = .next t → ChannelsLegal t

/-- Every step keeps the fit of sequencer and grammar (rules R22, R24, R26, R27, R92). -/
def Obligations.StepKeepsGrammar : Prop :=
  ∀ s t : State, GrammarLegal s → step s = .next t → GrammarLegal t

/-- Every step keeps the dibit buffer's invariants where the grammar fits (rules R32, R33, R74). -/
def Obligations.StepKeepsBuffer : Prop :=
  ∀ s t : State, GrammarLegal s → BufferLegal s → step s = .next t → BufferLegal t

/-- Every step keeps the hard-wired zeros and the unused codes (rules R42, R57, R297). -/
def Obligations.StepKeepsCodes : Prop :=
  ∀ s t : State, CodesLegal s → step s = .next t → CodesLegal t

/-- The reset state meets every invariant. -/
def Obligations.ResetMeetsInvariants : Prop :=
  StoragesCanonical State.reset ∧ ClassifierLegal State.reset ∧ ChannelsLegal State.reset ∧ GrammarLegal State.reset
    ∧ BufferLegal State.reset ∧ CodesLegal State.reset

/-- Never stuck (rules R109, R305): where the grammar fits, every step answers a next state. In the model a hold is a next state
in which only the turn passed (log 3), and the one stop there is, the fault of a reserved descriptor, is the model's own
(log 12). -/
def Obligations.NeverStuck : Prop := ∀ s : State, GrammarLegal s → ∃ t, step s = .next t

/-- The bounds that the START checks give every descriptor of the pass (rules R125, R245). -/
def Obligations.GrammarBounds : Prop :=
  ∀ (P : Params) (gm : Mem Word), grammarOk P gm = true → gLookback gm ≤ P.dbufCap ∧ ∀ f, f < gNfield gm →
    ∃ i, decodeDescriptor (gField gm f) = .ok i ∧ descW (gField gm f) ≤ P.dbufCap
      ∧ (∀ prot idx half w, i = .cach prot idx half w → idx.toNat < w.toNat)
      ∧ (∀ prot last base w, i = .voice prot last base w →
          ∀ k, base.toNat ≤ k → k < base.toNat + w.toNat → k < gVlen gm ∧ gVtabXc gm k ≤ 23 ∧ gVtabZc gm k ≤ 23)
      ∧ (∀ prot w, i = .sync prot w → w.toNat = gSyncw gm ∧ w.toNat ≤ gLookback gm
          ∧ gD1Idx gm < w.toNat ∧ gD0Idx gm < w.toNat ∧ ∀ e ∈ gWires gm, wireSrc e < w.toNat)

/-- No engine step reads an entry of the dibit buffer, the input buffer or a model that holds no value (rules R33, R36, R72,
R74, R76, R218): the field that runs, the sample SYM takes, the last `SYNCW` dibits that the sync detector compares after the
push, the slot that a full model evicts. -/
def Obligations.NoUnwrittenEntryRead : Prop :=
  ∀ s : State,
    (∀ i, BufferLegal s → engineChoice Config.params s = .field i → ∀ k, k < descW (gField s.gm s.f.toNat) →
      (memRead s.dbuf (dbIndex Config.params (s.rp + BitVec.ofNat 32 k))).isSome = true) ∧
    (ChannelsLegal s → engineChoice Config.params s = .sym → (memRead s.inBuf s.inOff.toNat).isSome = true) ∧
    (GrammarLegal s → BufferLegal s → engineChoice Config.params s = .sym →
      let u := symPush Config.env s
      u.locked = false → u.ctrl.getLsbD 1 = true →
      (∃ f, f < gNfield u.gm ∧ (gField u.gm f).extractLsb' 28 4 = 0x4#4) → gLookback u.gm ≤ u.dbValid.toNat →
      ∀ k, k < gSyncw u.gm → (memRead u.dbuf
        (dbIndex Config.params (u.wp - BitVec.ofNat 32 (gSyncw u.gm) + BitVec.ofNat 32 k))).isSome = true) ∧
    (∀ p c : Dibit, ClassifierLegal s → (htGet s p c).cnt.toNat = 200 →
      (memRead (htGet s p c).val (htGet s p c).idx.toNat).isSome = true
        ∧ (memRead (htGet s p c).mean (htGet s p c).idx.toNat).isSome = true)

/-! ### Rules of the whole machine -/

/-- A FAULT bit once set stays set until power-on reset (rule R297). -/
def Obligations.FaultBitsSticky : Prop :=
  ∀ (s t : State) (k : Nat), step s = .next t → nextAgent Config.params s ≠ .por → s.fault.getLsbD k = true → t.fault.getLsbD k = true

/-- Grammar memory and the configuration registers do not change while the engine is not halted, power-on reset apart
(rule R92). -/
def Obligations.GrammarFixedWhileRunning : Prop :=
  ∀ s t : State, step s = .next t → nextAgent Config.params s ≠ .por → s.halted = false →
    t.gm = s.gm ∧ t.ctrl = s.ctrl ∧ t.thCenter = s.thCenter ∧ t.thUmid = s.thUmid ∧ t.thLmid = s.thLmid
      ∧ t.thBand = s.thBand ∧ t.sliceMap = s.sliceMap

/-- Reserved grammar words and the ignored entries of its tables are never read (rule R120): two states that differ in such a
word alone take the same step, but for that word. -/
def Obligations.IgnoredWordsNeverRead : Prop :=
  ∀ (s : State) (a : Nat) (v : Word), GrammarLegal s → nextAgent Config.params s ≠ .por → IgnoredWord s.gm a →
    let s' := { s with gm := memWrite s.gm a v }
    ∃ t t', step s = .next t ∧ step s' = .next t' ∧ t' = { t with gm := t'.gm }
      ∧ ∀ c, c ≠ a → memRead t'.gm c = memRead t.gm c

/-- The block never unlocks by itself (rules R217, R336). -/
def Obligations.EngineNeverUnlocks : Prop :=
  ∀ s t : State, step s = .next t → nextAgent Config.params s = .engine → s.locked = true → t.locked = true

/-- Port Q writes nothing but the output slot, which it only drains, ILLCMD, which it only sets, and its own words: it takes
some from the port's front and adds responses (rule R310). -/
def Obligations.PortQWritesNothingElse : Prop :=
  ∀ s t : State, step s = .next t → nextAgent Config.params s = .consumer →
    t = { s with
        turns := s.turns.tail, portQ := t.portQ, qOut := t.qOut, outLen := t.outLen, outOff := t.outOff
        fault := t.fault }
      ∧ (∀ k, k ≠ 0 → t.fault.getLsbD k = s.fault.getLsbD k)
      ∧ (t.outLen ≠ s.outLen → t.outLen = 0) ∧ (t.outOff ≠ s.outOff → t.outOff = 0)
      ∧ (s.fault.getLsbD 0 = true → t.fault.getLsbD 0 = true)
      ∧ (∃ ws, t.qOut = s.qOut ++ ws) ∧ ∃ ws, s.portQ = ws ++ t.portQ

/-- The only way out of muting is a SYNC field that matches a VOICE-class sync word (rules R43, R236, R237). -/
def Obligations.OnlyVoiceSyncUnmutes : Prop :=
  ∀ s t : State, step s = .next t → s.muted = true → t.muted = false →
    nextAgent Config.params s = .engine ∧ s.locked = true ∧ ∃ prot w k, decodeDescriptor (gField s.gm s.f.toNat) = .ok (.sync prot w)
      ∧ LowestMatch s.gm w.toNat (rawDibit s) k ∧ gClassData s.gm k = false

/-- A record appears in the output slot only by a VOICE step with `LAST = 1`, unmuted, after the first burst, of a good
sub-frame; and it is the matrix (rules R234, R290). -/
def Obligations.OnlyGoodVoiceFramesForwarded : Prop :=
  ∀ s t : State, step s = .next t → s.outLen = 0 → t.outLen = 1 →
    nextAgent Config.params s = .engine ∧ s.muted = false ∧ s.firstframe = false ∧ t.vbad = false
      ∧ (∃ prot base w, decodeDescriptor (gField s.gm s.f.toNat) = .ok (.voice prot true base w))
      ∧ ∀ r : Fin 4, memRead t.outRec (1 + r.val) = some ((t.vm[r]).setWidth 32)

/-- A record that waits in the output slot is not overwritten (rule R212). -/
def Obligations.WaitingRecordKept : Prop :=
  ∀ s t : State, step s = .next t → s.outLen = 1 → t.outLen = 1 → t.outRec = s.outRec ∧ t.outOff = s.outOff
end

