-- ==== Sys2Proof/Laws/Config.lean ====
section
/-!
SUPPORT. The parameters of rule R9 as this hardware has them, and the registers that hold what they bound.
-/
namespace Sys2Proof

@[simp] theorem Config.params_dbufCap : Config.params.dbufCap = 512 := rfl
@[simp] theorem Config.params_inCap : Config.params.inCap = 4096 := rfl
@[simp] theorem Config.params_wCnt : Config.params.wCnt = 32 := rfl
@[simp] theorem Config.params_wPtr : Config.params.wPtr = 32 := rfl
@[simp] theorem Config.params_nsigreg : Config.params.nsigreg = 8 := rfl
@[simp] theorem Config.params_sigregW : Config.params.sigregW = 128 := rfl
@[simp] theorem Config.params_gmWords : Config.params.gmWords = 1024 := rfl
@[simp] theorem Config.params_nfieldMax : Config.params.nfieldMax = 64 := rfl
@[simp] theorem Config.params_nsyncMax : Config.params.nsyncMax = 8 := rfl
@[simp] theorem Config.params_vlenMax : Config.params.vlenMax = 48 := rfl
@[simp] theorem Config.params_syncwMax : Config.params.syncwMax = 32 := rfl
@[simp] theorem Config.params_nwireMax : Config.params.nwireMax = 512 := rfl

/-- The parameters the step relation of this hardware runs with. -/
@[simp] theorem Config.env_params : Config.env.params = Config.params := rfl

/-- The defaults keep the bounds of rule R9. -/
theorem Config.params_legal : Config.params.legal = true := by decide

/-- At the defaults the registers have exactly the widths and the number that rule R9 gives. -/
theorem Counter_width : Counter = BitVec Config.params.wCnt := rfl
theorem Pointer_width : Pointer = BitVec Config.params.wPtr := rfl
theorem SigReg_width : SigReg = BitVec Config.params.sigregW := rfl
theorem SigFile_size : SigFile = Vector SigReg Config.params.nsigreg := rfl

end Sys2Proof
end

