-- ==== Sys2Proof/Laws/Encoding.lean ====
section
/-!
SUPPORT. The fields of the words the encoder writes (rules R101, R106).
-/
namespace Sys2Proof

@[simp] theorem bits_commandWord_opc (opc : BitVec 8) (opr : BitVec 24) : bits (commandWord opc opr) 24 8 = opc := by
  apply BitVec.eq_of_getLsbD_eq
  intro i hi
  simp only [bits, commandWord, BitVec.getLsbD_extractLsb', BitVec.getLsbD_append]
  have : ¬ (24 + i < 24) := by omega
  simp [hi, this]

theorem bits_commandWord_low (opc : BitVec 8) (opr : BitVec 24) (n : Nat) (hn : n ≤ 24) :
    bits (commandWord opc opr) 0 n = opr.setWidth n := by
  apply BitVec.eq_of_getLsbD_eq
  intro i hi
  simp only [bits, commandWord, BitVec.getLsbD_extractLsb', BitVec.getLsbD_append, BitVec.getLsbD_setWidth]
  have : i < 24 := by omega
  simp [hi, this]

theorem descriptorWord_getLsbD (kind : BitVec 4) (prot last : Bool) (aux : BitVec 6) (auxh : Bool) (w : BitVec 10) (i : Nat) :
    (descriptorWord kind prot last aux auxh w).getLsbD i =
      if i < 10 then w.getLsbD i
      else if i < 19 then false
      else if i < 20 then auxh
      else if i < 26 then aux.getLsbD (i - 20)
      else if i < 27 then last
      else if i < 28 then prot
      else kind.getLsbD (i - 28) := by
  have hb : ∀ (b : Bool) (k : Nat), k < 1 → (BitVec.ofBool b).getLsbD k = b := by
    intro b k hk
    have : k = 0 := by omega
    subst this
    cases b <;> rfl
  simp only [descriptorWord, BitVec.getLsbD_append]
  by_cases h0 : i < 10
  · simp [h0]
  by_cases h1 : i < 19
  · have : i - 10 < 9 := by omega
    simp [h0, h1, this]
  have e1 : ¬ (i - 10 < 9) := by omega
  by_cases h2 : i < 20
  · have : i - 10 - 9 < 1 := by omega
    simp only [h0, h1, h2, e1, this, if_true, if_false]
    exact hb _ _ this
  have e2 : ¬ (i - 10 - 9 < 1) := by omega
  by_cases h3 : i < 26
  · have h4 : i - 10 - 9 - 1 < 6 := by omega
    have h5 : i - 10 - 9 - 1 = i - 20 := by omega
    have h6 : i - 20 < 6 := by omega
    simp only [h0, h1, h2, h3, e1, e2, h5, h6, if_true, if_false]
  have e3 : ¬ (i - 10 - 9 - 1 < 6) := by omega
  by_cases h4 : i < 27
  · have h5 : i - 10 - 9 - 1 - 6 < 1 := by omega
    simp only [h0, h1, h2, h3, h4, e1, e2, e3, h5, if_true, if_false]
    exact hb _ _ h5
  have e4 : ¬ (i - 10 - 9 - 1 - 6 < 1) := by omega
  by_cases h5 : i < 28
  · have h6 : i - 10 - 9 - 1 - 6 - 1 < 1 := by omega
    simp only [h0, h1, h2, h3, h4, h5, e1, e2, e3, e4, h6, if_true, if_false]
    exact hb _ _ h6
  have e5 : ¬ (i - 10 - 9 - 1 - 6 - 1 < 1) := by omega
  have e6 : i - 10 - 9 - 1 - 6 - 1 - 1 = i - 28 := by omega
  simp only [h0, h1, h2, h3, h4, h5, e1, e2, e3, e4, e5, e6, if_false]

@[simp] theorem bits_descriptorWord_kind (kind : BitVec 4) (prot last : Bool) (aux : BitVec 6) (auxh : Bool) (w : BitVec 10) :
    bits (descriptorWord kind prot last aux auxh w) 28 4 = kind := by
  apply BitVec.eq_of_getLsbD_eq
  intro i hi
  simp only [bits, BitVec.getLsbD_extractLsb', descriptorWord_getLsbD]
  have h1 : ¬ (28 + i < 10) := by omega
  have h2 : ¬ (28 + i < 19) := by omega
  have h3 : ¬ (28 + i < 20) := by omega
  have h4 : ¬ (28 + i < 26) := by omega
  have h5 : ¬ (28 + i < 27) := by omega
  have h6 : ¬ (28 + i < 28) := by omega
  simp [hi, h1, h2, h3, h4, h5, h6]

@[simp] theorem bits_descriptorWord_w (kind : BitVec 4) (prot last : Bool) (aux : BitVec 6) (auxh : Bool) (w : BitVec 10) :
    bits (descriptorWord kind prot last aux auxh w) 0 10 = w := by
  apply BitVec.eq_of_getLsbD_eq
  intro i hi
  simp [bits, descriptorWord_getLsbD, hi]

@[simp] theorem bits_descriptorWord_aux (kind : BitVec 4) (prot last : Bool) (aux : BitVec 6) (auxh : Bool) (w : BitVec 10) :
    bits (descriptorWord kind prot last aux auxh w) 20 6 = aux := by
  apply BitVec.eq_of_getLsbD_eq
  intro i hi
  simp only [bits, BitVec.getLsbD_extractLsb', descriptorWord_getLsbD]
  have h1 : ¬ (20 + i < 10) := by omega
  have h2 : ¬ (20 + i < 19) := by omega
  have h3 : ¬ (20 + i < 20) := by omega
  have h4 : 20 + i < 26 := by omega
  simp [hi, h1, h2, h3, h4]

end Sys2Proof
end

