-- ==== Sys2Proof/Laws/Memory.lean ====
section
/-!
SUPPORT. The laws of a storage: a read after a write, the entries a write leaves alone, and the canonical form that every
operation keeps.
-/
namespace Sys2Proof.Machine

variable {α : Type}

@[simp] theorem memRead_nil (a : Nat) : memRead ([] : Mem α) a = none := rfl

@[simp] theorem memRead_cons (b : Nat) (v : α) (m : Mem α) (a : Nat) :
    memRead ((b, v) :: m) a = if a = b then some v else memRead m a := rfl

/-- Reading after a write: the value written at its address, and what stood there at every other address. -/
theorem memRead_memWrite (m : Mem α) (a c : Nat) (v : α) :
    memRead (memWrite m a v) c = if c = a then some v else memRead m c := by
  induction m with
  | nil => simp [memWrite]
  | cons e m ih =>
    obtain ⟨b, x⟩ := e
    unfold memWrite
    split
    · simp
    · split
      · subst_vars
        by_cases h : c = b <;> simp [h]
      · by_cases h : c = b
        · subst h
          simp [Ne.symm ‹¬a = c›]
        · simp [h, ih]

@[simp] theorem memRead_memWrite_same (m : Mem α) (a : Nat) (v : α) : memRead (memWrite m a v) a = some v := by
  simp [memRead_memWrite]

theorem memRead_memWrite_other (m : Mem α) {a c : Nat} (v : α) (h : c ≠ a) :
    memRead (memWrite m a v) c = memRead m c := by
  simp [memRead_memWrite, h]

/-- The addresses a storage lists after a write. -/
theorem mem_keys_memWrite (m : Mem α) (a : Nat) (v : α) (c : Nat) :
    c ∈ (memWrite m a v).map Prod.fst ↔ c = a ∨ c ∈ m.map Prod.fst := by
  induction m with
  | nil => simp [memWrite]
  | cons e m ih =>
    obtain ⟨b, x⟩ := e
    unfold memWrite
    split
    · simp
    · split
      · subst_vars
        simp
      · simp only [List.map_cons, List.mem_cons, ih]
        tauto

/-- A write keeps the canonical form. -/
theorem memWrite_wf {cap : Nat} {m : Mem α} {a : Nat} (v : α) (hm : Mem.wf cap m) (ha : a < cap) :
    Mem.wf cap (memWrite m a v) := by
  induction m with
  | nil => simpa [memWrite, Mem.wf] using ha
  | cons e m ih =>
    obtain ⟨b, x⟩ := e
    obtain ⟨hp, hb⟩ := hm
    simp only [List.map_cons, List.pairwise_cons, List.mem_cons, forall_eq_or_imp] at hp hb
    unfold memWrite
    split
    · rename_i hab
      refine ⟨?_, ?_⟩
      · simp only [List.map_cons, List.pairwise_cons, List.mem_cons, forall_eq_or_imp]
        exact ⟨⟨hab, fun c hc => Nat.lt_trans hab (hp.1 c hc)⟩, hp⟩
      · simp only [List.map_cons, List.mem_cons, forall_eq_or_imp]
        exact ⟨ha, hb⟩
    · split
      · subst_vars
        refine ⟨?_, ?_⟩
        · simpa using hp
        · simpa using hb
      · rename_i h1 h2
        have ih' := ih ⟨hp.2, hb.2⟩
        refine ⟨?_, ?_⟩
        · simp only [List.map_cons, List.pairwise_cons]
          refine ⟨fun c hc => ?_, ih'.1⟩
          rcases (mem_keys_memWrite m a v c).1 hc with rfl | hc
          · omega
          · exact hp.1 c hc
        · simp only [List.map_cons, List.mem_cons, forall_eq_or_imp]
          exact ⟨hb.1, ih'.2⟩

theorem memRead_append (m n : Mem α) (a : Nat) :
    memRead (m ++ n) a = (memRead m a).or (memRead n a) := by
  induction m with
  | nil => simp
  | cons e m ih =>
    obtain ⟨b, x⟩ := e
    by_cases h : a = b <;> simp [h, ih]

theorem memRead_filter (m : Mem α) (n a : Nat) :
    memRead (m.filter fun e => decide (n ≤ e.1)) a = if n ≤ a then memRead m a else none := by
  induction m with
  | nil => simp
  | cons e m ih =>
    obtain ⟨b, x⟩ := e
    by_cases hb : n ≤ b
    · by_cases h : a = b
      · subst h; simp [hb]
      · simp [hb, h, ih]
    · by_cases h : a = b
      · subst h; simp [hb, ih]
      · simp [hb, h, ih]

theorem memRead_zipIdx (xs : List α) (k a : Nat) :
    memRead ((xs.zipIdx k).map fun p => (p.2, p.1)) a = if k ≤ a then xs[a - k]? else none := by
  induction xs generalizing k with
  | nil => simp
  | cons x xs ih =>
    simp only [List.zipIdx_cons, List.map_cons, memRead_cons, ih]
    by_cases h : a = k
    · subst h; simp
    · by_cases h' : k ≤ a
      · have e : a - k = (a - (k + 1)) + 1 := by omega
        have : k + 1 ≤ a := by omega
        simp [h, h', this, e]
      · have : ¬ k + 1 ≤ a := by omega
        simp [h, h', this]

/-- Reading after a run was loaded: the run's entries, and above it what stood there. -/
theorem memRead_memLoad (m : Mem α) (xs : List α) (a : Nat) :
    memRead (memLoad m xs) a = if a < xs.length then xs[a]? else memRead m a := by
  unfold memLoad
  rw [memRead_append, memRead_filter, memRead_zipIdx]
  by_cases h : a < xs.length
  · have : ¬ xs.length ≤ a := by omega
    simp [h]
  · have : xs.length ≤ a := by omega
    simp [h, this]

theorem zipIdx_keys (xs : List α) (k : Nat) :
    ((xs.zipIdx k).map fun p => (p.2, p.1)).map Prod.fst = List.range' k xs.length := by
  induction xs generalizing k with
  | nil => simp
  | cons x xs ih =>
    simp only [List.zipIdx_cons, List.map_cons, List.length_cons, List.range'_succ, ih]

/-- Loading a run keeps the canonical form. -/
theorem memLoad_wf {cap : Nat} {m : Mem α} {xs : List α} (hm : Mem.wf cap m) (hx : xs.length ≤ cap) :
    Mem.wf cap (memLoad m xs) := by
  obtain ⟨hp, hb⟩ := hm
  have hkeys : (memLoad m xs).map Prod.fst
      = List.range' 0 xs.length ++ (m.filter fun e => decide (xs.length ≤ e.1)).map Prod.fst := by
    unfold memLoad
    rw [List.map_append, zipIdx_keys]
  have hsub : ((m.filter fun e => decide (xs.length ≤ e.1)).map Prod.fst).Sublist (m.map Prod.fst) :=
    (List.filter_sublist (l := m)).map Prod.fst
  unfold Mem.wf
  rw [hkeys]
  refine ⟨?_, ?_⟩
  · rw [List.pairwise_append]
    refine ⟨List.pairwise_lt_range', hp.sublist hsub, ?_⟩
    intro a ha b hb'
    simp only [List.mem_map, List.mem_filter, decide_eq_true_eq] at hb'
    obtain ⟨e, ⟨-, he⟩, rfl⟩ := hb'
    simp only [List.mem_range'_1] at ha
    omega
  · intro a ha
    rcases List.mem_append.1 ha with h | h
    · simp only [List.mem_range'_1] at h
      omega
    · exact hb a (hsub.subset h)

theorem nil_wf (cap : Nat) : Mem.wf cap ([] : Mem α) := by simp [Mem.wf]

/-- The storages of the reset state are canonical: they list nothing. -/
theorem reset_storages_empty :
    State.reset.dbuf = [] ∧ State.reset.inBuf = [] ∧ State.reset.outRec = [] ∧ State.reset.gm = [] := ⟨rfl, rfl, rfl, rfl⟩

/-- `GmRead` after a grammar word was written. -/
theorem gmRead_memWrite (gm : Mem Word) (a c : Nat) (v : Word) :
    gmRead (memWrite gm a v) c = if c = a then v else gmRead gm c := by
  unfold gmRead
  rw [memRead_memWrite]
  split <;> simp

/-- Reading after a grammar word was written, inside grammar memory or past it. -/
theorem memRead_gmWrite (P : Params) (gm : Mem Word) (a c : Nat) (v : Word) :
    memRead (gmWrite P gm a v) c = if c = a ∧ a < P.gmWords then some v else memRead gm c := by
  unfold gmWrite
  split <;> simp [memRead_memWrite, *]

/-- A grammar write keeps grammar memory canonical and within its words. -/
theorem gmWrite_wf {P : Params} {gm : Mem Word} (a : Nat) (v : Word) (h : Mem.wf P.gmWords gm) :
    Mem.wf P.gmWords (gmWrite P gm a v) := by
  unfold gmWrite
  split
  · exact memWrite_wf v h ‹_›
  · exact h

/-- A WRGM of this hardware reaches every address it can name. -/
@[simp] theorem gmWrite_params (gm : Mem Word) (a : BitVec 10) (v : Word) :
    gmWrite Config.params gm a.toNat v = memWrite gm a.toNat v := if_pos a.isLt

/-- One bit after a bit was set. -/
theorem getLsbD_setBitTo {n : Nat} (x : BitVec n) (i k : Nat) (b : Bool) (h : i < n) :
    (setBitTo x i b).getLsbD k = if k = i then b else x.getLsbD k := by
  cases b
  · simp only [setBitTo, Bool.false_eq_true, if_false, BitVec.getLsbD_and, BitVec.getLsbD_not, BitVec.getLsbD_shiftLeft,
      BitVec.getLsbD_one]
    by_cases hk : k = i
    · subst hk; simp [h]; omega
    · by_cases hn : k < n
      · by_cases h2 : k < i
        · simp [hk, hn, h2]
        · have : ¬ (k - i = 0) := by omega
          simp [hk, hn, this]
      · simp [hk, hn, BitVec.getLsbD_of_ge _ _ (Nat.not_lt.1 hn)]
  · simp only [setBitTo, if_true, BitVec.getLsbD_or, BitVec.getLsbD_shiftLeft, BitVec.getLsbD_one]
    by_cases hk : k = i
    · subst hk; simp [h]; omega
    · by_cases hn : k < n
      · by_cases h2 : k < i
        · simp [hk, hn, h2]
        · have : ¬ (k - i = 0) := by omega
          simp [hk, hn, this]
      · simp [hk, hn]

end Sys2Proof.Machine
end

