-- ==== Sys2Proof/Laws/State.lean ====
section
/-!
SUPPORT. One lemma per field per named update: what each shared operation writes and what it leaves as it was.
-/
namespace Sys2Proof.Machine

section raiseFields
@[simp] theorem raise_run (c : FaultCode) (s : State) : (raise c s).run = s.run := rfl
@[simp] theorem raise_halted (c : FaultCode) (s : State) : (raise c s).halted = s.halted := rfl
@[simp] theorem raise_locked (c : FaultCode) (s : State) : (raise c s).locked = s.locked := rfl
@[simp] theorem raise_gvalid (c : FaultCode) (s : State) : (raise c s).gvalid = s.gvalid := rfl
@[simp] theorem raise_fault (c : FaultCode) (s : State) : (raise c s).fault = setBitTo s.fault (faultBit c) true := rfl
@[simp] theorem raise_j (c : FaultCode) (s : State) : (raise c s).j = s.j := rfl
@[simp] theorem raise_f (c : FaultCode) (s : State) : (raise c s).f = s.f := rfl
@[simp] theorem raise_kidx (c : FaultCode) (s : State) : (raise c s).kidx = s.kidx := rfl
@[simp] theorem raise_dbuf (c : FaultCode) (s : State) : (raise c s).dbuf = s.dbuf := rfl
@[simp] theorem raise_wp (c : FaultCode) (s : State) : (raise c s).wp = s.wp := rfl
@[simp] theorem raise_rp (c : FaultCode) (s : State) : (raise c s).rp = s.rp := rfl
@[simp] theorem raise_dbValid (c : FaultCode) (s : State) : (raise c s).dbValid = s.dbValid := rfl
@[simp] theorem raise_lastDibit (c : FaultCode) (s : State) : (raise c s).lastDibit = s.lastDibit := rfl
@[simp] theorem raise_ht (c : FaultCode) (s : State) : (raise c s).ht = s.ht := rfl
@[simp] theorem raise_bitCnt (c : FaultCode) (s : State) : (raise c s).bitCnt = s.bitCnt := rfl
@[simp] theorem raise_bitErr (c : FaultCode) (s : State) : (raise c s).bitErr = s.bitErr := rfl
@[simp] theorem raise_curslot (c : FaultCode) (s : State) : (raise c s).curslot = s.curslot := rfl
@[simp] theorem raise_lastsync (c : FaultCode) (s : State) : (raise c s).lastsync = s.lastsync := rfl
@[simp] theorem raise_slotst0 (c : FaultCode) (s : State) : (raise c s).slotst0 = s.slotst0 := rfl
@[simp] theorem raise_slotst1 (c : FaultCode) (s : State) : (raise c s).slotst1 = s.slotst1 := rfl
@[simp] theorem raise_muted (c : FaultCode) (s : State) : (raise c s).muted = s.muted := rfl
@[simp] theorem raise_firstframe (c : FaultCode) (s : State) : (raise c s).firstframe = s.firstframe := rfl
@[simp] theorem raise_hdrErr (c : FaultCode) (s : State) : (raise c s).hdrErr = s.hdrErr := rfl
@[simp] theorem raise_audErr (c : FaultCode) (s : State) : (raise c s).audErr = s.audErr := rfl
@[simp] theorem raise_syncMiss (c : FaultCode) (s : State) : (raise c s).syncMiss = s.syncMiss := rfl
@[simp] theorem raise_algid (c : FaultCode) (s : State) : (raise c s).algid = s.algid := rfl
@[simp] theorem raise_keyid (c : FaultCode) (s : State) : (raise c s).keyid = s.keyid := rfl
@[simp] theorem raise_encPres (c : FaultCode) (s : State) : (raise c s).encPres = s.encPres := rfl
@[simp] theorem raise_disc (c : FaultCode) (s : State) : (raise c s).disc = s.disc := rfl
@[simp] theorem raise_discValid (c : FaultCode) (s : State) : (raise c s).discValid = s.discValid := rfl
@[simp] theorem raise_sigw (c : FaultCode) (s : State) : (raise c s).sigw = s.sigw := rfl
@[simp] theorem raise_sigc (c : FaultCode) (s : State) : (raise c s).sigc = s.sigc := rfl
@[simp] theorem raise_sigbad (c : FaultCode) (s : State) : (raise c s).sigbad = s.sigbad := rfl
@[simp] theorem raise_vm (c : FaultCode) (s : State) : (raise c s).vm = s.vm := rfl
@[simp] theorem raise_vbad (c : FaultCode) (s : State) : (raise c s).vbad = s.vbad := rfl
@[simp] theorem raise_inBuf (c : FaultCode) (s : State) : (raise c s).inBuf = s.inBuf := rfl
@[simp] theorem raise_rdyLen (c : FaultCode) (s : State) : (raise c s).rdyLen = s.rdyLen := rfl
@[simp] theorem raise_inOff (c : FaultCode) (s : State) : (raise c s).inOff = s.inOff := rfl
@[simp] theorem raise_outRec (c : FaultCode) (s : State) : (raise c s).outRec = s.outRec := rfl
@[simp] theorem raise_outLen (c : FaultCode) (s : State) : (raise c s).outLen = s.outLen := rfl
@[simp] theorem raise_outOff (c : FaultCode) (s : State) : (raise c s).outOff = s.outOff := rfl
@[simp] theorem raise_ctrl (c : FaultCode) (s : State) : (raise c s).ctrl = s.ctrl := rfl
@[simp] theorem raise_thCenter (c : FaultCode) (s : State) : (raise c s).thCenter = s.thCenter := rfl
@[simp] theorem raise_thUmid (c : FaultCode) (s : State) : (raise c s).thUmid = s.thUmid := rfl
@[simp] theorem raise_thLmid (c : FaultCode) (s : State) : (raise c s).thLmid = s.thLmid := rfl
@[simp] theorem raise_thBand (c : FaultCode) (s : State) : (raise c s).thBand = s.thBand := rfl
@[simp] theorem raise_sliceMap (c : FaultCode) (s : State) : (raise c s).sliceMap = s.sliceMap := rfl
@[simp] theorem raise_gm (c : FaultCode) (s : State) : (raise c s).gm = s.gm := rfl
@[simp] theorem raise_turns (c : FaultCode) (s : State) : (raise c s).turns = s.turns := rfl
@[simp] theorem raise_portP (c : FaultCode) (s : State) : (raise c s).portP = s.portP := rfl
@[simp] theorem raise_portQ (c : FaultCode) (s : State) : (raise c s).portQ = s.portQ := rfl
@[simp] theorem raise_qOut (c : FaultCode) (s : State) : (raise c s).qOut = s.qOut := rfl
@[simp] theorem raise_fecOut (c : FaultCode) (s : State) : (raise c s).fecOut = s.fecOut := rfl
@[simp] theorem raise_fecIn (c : FaultCode) (s : State) : (raise c s).fecIn = s.fecIn := rfl
@[simp] theorem raise_nanDraws (c : FaultCode) (s : State) : (raise c s).nanDraws = s.nanDraws := rfl
end raiseFields

section htSetFields
@[simp] theorem htSet_run (s : State) (p c : Dibit) (m : SymModel) : (htSet s p c m).run = s.run := rfl
@[simp] theorem htSet_halted (s : State) (p c : Dibit) (m : SymModel) : (htSet s p c m).halted = s.halted := rfl
@[simp] theorem htSet_locked (s : State) (p c : Dibit) (m : SymModel) : (htSet s p c m).locked = s.locked := rfl
@[simp] theorem htSet_gvalid (s : State) (p c : Dibit) (m : SymModel) : (htSet s p c m).gvalid = s.gvalid := rfl
@[simp] theorem htSet_fault (s : State) (p c : Dibit) (m : SymModel) : (htSet s p c m).fault = s.fault := rfl
@[simp] theorem htSet_j (s : State) (p c : Dibit) (m : SymModel) : (htSet s p c m).j = s.j := rfl
@[simp] theorem htSet_f (s : State) (p c : Dibit) (m : SymModel) : (htSet s p c m).f = s.f := rfl
@[simp] theorem htSet_kidx (s : State) (p c : Dibit) (m : SymModel) : (htSet s p c m).kidx = s.kidx := rfl
@[simp] theorem htSet_dbuf (s : State) (p c : Dibit) (m : SymModel) : (htSet s p c m).dbuf = s.dbuf := rfl
@[simp] theorem htSet_wp (s : State) (p c : Dibit) (m : SymModel) : (htSet s p c m).wp = s.wp := rfl
@[simp] theorem htSet_rp (s : State) (p c : Dibit) (m : SymModel) : (htSet s p c m).rp = s.rp := rfl
@[simp] theorem htSet_dbValid (s : State) (p c : Dibit) (m : SymModel) : (htSet s p c m).dbValid = s.dbValid := rfl
@[simp] theorem htSet_lastDibit (s : State) (p c : Dibit) (m : SymModel) : (htSet s p c m).lastDibit = s.lastDibit := rfl
@[simp] theorem htSet_bitCnt (s : State) (p c : Dibit) (m : SymModel) : (htSet s p c m).bitCnt = s.bitCnt := rfl
@[simp] theorem htSet_bitErr (s : State) (p c : Dibit) (m : SymModel) : (htSet s p c m).bitErr = s.bitErr := rfl
@[simp] theorem htSet_curslot (s : State) (p c : Dibit) (m : SymModel) : (htSet s p c m).curslot = s.curslot := rfl
@[simp] theorem htSet_lastsync (s : State) (p c : Dibit) (m : SymModel) : (htSet s p c m).lastsync = s.lastsync := rfl
@[simp] theorem htSet_slotst0 (s : State) (p c : Dibit) (m : SymModel) : (htSet s p c m).slotst0 = s.slotst0 := rfl
@[simp] theorem htSet_slotst1 (s : State) (p c : Dibit) (m : SymModel) : (htSet s p c m).slotst1 = s.slotst1 := rfl
@[simp] theorem htSet_muted (s : State) (p c : Dibit) (m : SymModel) : (htSet s p c m).muted = s.muted := rfl
@[simp] theorem htSet_firstframe (s : State) (p c : Dibit) (m : SymModel) : (htSet s p c m).firstframe = s.firstframe := rfl
@[simp] theorem htSet_hdrErr (s : State) (p c : Dibit) (m : SymModel) : (htSet s p c m).hdrErr = s.hdrErr := rfl
@[simp] theorem htSet_audErr (s : State) (p c : Dibit) (m : SymModel) : (htSet s p c m).audErr = s.audErr := rfl
@[simp] theorem htSet_syncMiss (s : State) (p c : Dibit) (m : SymModel) : (htSet s p c m).syncMiss = s.syncMiss := rfl
@[simp] theorem htSet_algid (s : State) (p c : Dibit) (m : SymModel) : (htSet s p c m).algid = s.algid := rfl
@[simp] theorem htSet_keyid (s : State) (p c : Dibit) (m : SymModel) : (htSet s p c m).keyid = s.keyid := rfl
@[simp] theorem htSet_encPres (s : State) (p c : Dibit) (m : SymModel) : (htSet s p c m).encPres = s.encPres := rfl
@[simp] theorem htSet_disc (s : State) (p c : Dibit) (m : SymModel) : (htSet s p c m).disc = s.disc := rfl
@[simp] theorem htSet_discValid (s : State) (p c : Dibit) (m : SymModel) : (htSet s p c m).discValid = s.discValid := rfl
@[simp] theorem htSet_sigw (s : State) (p c : Dibit) (m : SymModel) : (htSet s p c m).sigw = s.sigw := rfl
@[simp] theorem htSet_sigc (s : State) (p c : Dibit) (m : SymModel) : (htSet s p c m).sigc = s.sigc := rfl
@[simp] theorem htSet_sigbad (s : State) (p c : Dibit) (m : SymModel) : (htSet s p c m).sigbad = s.sigbad := rfl
@[simp] theorem htSet_vm (s : State) (p c : Dibit) (m : SymModel) : (htSet s p c m).vm = s.vm := rfl
@[simp] theorem htSet_vbad (s : State) (p c : Dibit) (m : SymModel) : (htSet s p c m).vbad = s.vbad := rfl
@[simp] theorem htSet_inBuf (s : State) (p c : Dibit) (m : SymModel) : (htSet s p c m).inBuf = s.inBuf := rfl
@[simp] theorem htSet_rdyLen (s : State) (p c : Dibit) (m : SymModel) : (htSet s p c m).rdyLen = s.rdyLen := rfl
@[simp] theorem htSet_inOff (s : State) (p c : Dibit) (m : SymModel) : (htSet s p c m).inOff = s.inOff := rfl
@[simp] theorem htSet_outRec (s : State) (p c : Dibit) (m : SymModel) : (htSet s p c m).outRec = s.outRec := rfl
@[simp] theorem htSet_outLen (s : State) (p c : Dibit) (m : SymModel) : (htSet s p c m).outLen = s.outLen := rfl
@[simp] theorem htSet_outOff (s : State) (p c : Dibit) (m : SymModel) : (htSet s p c m).outOff = s.outOff := rfl
@[simp] theorem htSet_ctrl (s : State) (p c : Dibit) (m : SymModel) : (htSet s p c m).ctrl = s.ctrl := rfl
@[simp] theorem htSet_thCenter (s : State) (p c : Dibit) (m : SymModel) : (htSet s p c m).thCenter = s.thCenter := rfl
@[simp] theorem htSet_thUmid (s : State) (p c : Dibit) (m : SymModel) : (htSet s p c m).thUmid = s.thUmid := rfl
@[simp] theorem htSet_thLmid (s : State) (p c : Dibit) (m : SymModel) : (htSet s p c m).thLmid = s.thLmid := rfl
@[simp] theorem htSet_thBand (s : State) (p c : Dibit) (m : SymModel) : (htSet s p c m).thBand = s.thBand := rfl
@[simp] theorem htSet_sliceMap (s : State) (p c : Dibit) (m : SymModel) : (htSet s p c m).sliceMap = s.sliceMap := rfl
@[simp] theorem htSet_gm (s : State) (p c : Dibit) (m : SymModel) : (htSet s p c m).gm = s.gm := rfl
@[simp] theorem htSet_turns (s : State) (p c : Dibit) (m : SymModel) : (htSet s p c m).turns = s.turns := rfl
@[simp] theorem htSet_portP (s : State) (p c : Dibit) (m : SymModel) : (htSet s p c m).portP = s.portP := rfl
@[simp] theorem htSet_portQ (s : State) (p c : Dibit) (m : SymModel) : (htSet s p c m).portQ = s.portQ := rfl
@[simp] theorem htSet_qOut (s : State) (p c : Dibit) (m : SymModel) : (htSet s p c m).qOut = s.qOut := rfl
@[simp] theorem htSet_fecOut (s : State) (p c : Dibit) (m : SymModel) : (htSet s p c m).fecOut = s.fecOut := rfl
@[simp] theorem htSet_fecIn (s : State) (p c : Dibit) (m : SymModel) : (htSet s p c m).fecIn = s.fecIn := rfl
@[simp] theorem htSet_nanDraws (s : State) (p c : Dibit) (m : SymModel) : (htSet s p c m).nanDraws = s.nanDraws := rfl
end htSetFields

section dbPushFields
@[simp] theorem dbPush_run (P : Params) (d : Dibit) (a : Word) (s : State) : (dbPush P d a s).run = s.run := rfl
@[simp] theorem dbPush_halted (P : Params) (d : Dibit) (a : Word) (s : State) : (dbPush P d a s).halted = s.halted := rfl
@[simp] theorem dbPush_locked (P : Params) (d : Dibit) (a : Word) (s : State) : (dbPush P d a s).locked = s.locked := rfl
@[simp] theorem dbPush_gvalid (P : Params) (d : Dibit) (a : Word) (s : State) : (dbPush P d a s).gvalid = s.gvalid := rfl
@[simp] theorem dbPush_fault (P : Params) (d : Dibit) (a : Word) (s : State) : (dbPush P d a s).fault = s.fault := rfl
@[simp] theorem dbPush_j (P : Params) (d : Dibit) (a : Word) (s : State) : (dbPush P d a s).j = s.j := rfl
@[simp] theorem dbPush_f (P : Params) (d : Dibit) (a : Word) (s : State) : (dbPush P d a s).f = s.f := rfl
@[simp] theorem dbPush_kidx (P : Params) (d : Dibit) (a : Word) (s : State) : (dbPush P d a s).kidx = s.kidx := rfl
@[simp] theorem dbPush_dbuf (P : Params) (d : Dibit) (a : Word) (s : State) : (dbPush P d a s).dbuf = memWrite s.dbuf (dbIndex P s.wp) { d := d, a := a } := rfl
@[simp] theorem dbPush_wp (P : Params) (d : Dibit) (a : Word) (s : State) : (dbPush P d a s).wp = ptrWrap P (s.wp + 1) := rfl
@[simp] theorem dbPush_rp (P : Params) (d : Dibit) (a : Word) (s : State) : (dbPush P d a s).rp = if s.locked then s.rp else ptrWrap P (s.wp + 1) := rfl
@[simp] theorem dbPush_dbValid (P : Params) (d : Dibit) (a : Word) (s : State) : (dbPush P d a s).dbValid = BitVec.ofNat 32 (min (s.dbValid.toNat + 1) P.dbufCap) := rfl
@[simp] theorem dbPush_lastDibit (P : Params) (d : Dibit) (a : Word) (s : State) : (dbPush P d a s).lastDibit = d := rfl
@[simp] theorem dbPush_ht (P : Params) (d : Dibit) (a : Word) (s : State) : (dbPush P d a s).ht = s.ht := rfl
@[simp] theorem dbPush_bitCnt (P : Params) (d : Dibit) (a : Word) (s : State) : (dbPush P d a s).bitCnt = s.bitCnt := rfl
@[simp] theorem dbPush_bitErr (P : Params) (d : Dibit) (a : Word) (s : State) : (dbPush P d a s).bitErr = s.bitErr := rfl
@[simp] theorem dbPush_curslot (P : Params) (d : Dibit) (a : Word) (s : State) : (dbPush P d a s).curslot = s.curslot := rfl
@[simp] theorem dbPush_lastsync (P : Params) (d : Dibit) (a : Word) (s : State) : (dbPush P d a s).lastsync = s.lastsync := rfl
@[simp] theorem dbPush_slotst0 (P : Params) (d : Dibit) (a : Word) (s : State) : (dbPush P d a s).slotst0 = s.slotst0 := rfl
@[simp] theorem dbPush_slotst1 (P : Params) (d : Dibit) (a : Word) (s : State) : (dbPush P d a s).slotst1 = s.slotst1 := rfl
@[simp] theorem dbPush_muted (P : Params) (d : Dibit) (a : Word) (s : State) : (dbPush P d a s).muted = s.muted := rfl
@[simp] theorem dbPush_firstframe (P : Params) (d : Dibit) (a : Word) (s : State) : (dbPush P d a s).firstframe = s.firstframe := rfl
@[simp] theorem dbPush_hdrErr (P : Params) (d : Dibit) (a : Word) (s : State) : (dbPush P d a s).hdrErr = s.hdrErr := rfl
@[simp] theorem dbPush_audErr (P : Params) (d : Dibit) (a : Word) (s : State) : (dbPush P d a s).audErr = s.audErr := rfl
@[simp] theorem dbPush_syncMiss (P : Params) (d : Dibit) (a : Word) (s : State) : (dbPush P d a s).syncMiss = s.syncMiss := rfl
@[simp] theorem dbPush_algid (P : Params) (d : Dibit) (a : Word) (s : State) : (dbPush P d a s).algid = s.algid := rfl
@[simp] theorem dbPush_keyid (P : Params) (d : Dibit) (a : Word) (s : State) : (dbPush P d a s).keyid = s.keyid := rfl
@[simp] theorem dbPush_encPres (P : Params) (d : Dibit) (a : Word) (s : State) : (dbPush P d a s).encPres = s.encPres := rfl
@[simp] theorem dbPush_disc (P : Params) (d : Dibit) (a : Word) (s : State) : (dbPush P d a s).disc = s.disc := rfl
@[simp] theorem dbPush_discValid (P : Params) (d : Dibit) (a : Word) (s : State) : (dbPush P d a s).discValid = s.discValid := rfl
@[simp] theorem dbPush_sigw (P : Params) (d : Dibit) (a : Word) (s : State) : (dbPush P d a s).sigw = s.sigw := rfl
@[simp] theorem dbPush_sigc (P : Params) (d : Dibit) (a : Word) (s : State) : (dbPush P d a s).sigc = s.sigc := rfl
@[simp] theorem dbPush_sigbad (P : Params) (d : Dibit) (a : Word) (s : State) : (dbPush P d a s).sigbad = s.sigbad := rfl
@[simp] theorem dbPush_vm (P : Params) (d : Dibit) (a : Word) (s : State) : (dbPush P d a s).vm = s.vm := rfl
@[simp] theorem dbPush_vbad (P : Params) (d : Dibit) (a : Word) (s : State) : (dbPush P d a s).vbad = s.vbad := rfl
@[simp] theorem dbPush_inBuf (P : Params) (d : Dibit) (a : Word) (s : State) : (dbPush P d a s).inBuf = s.inBuf := rfl
@[simp] theorem dbPush_rdyLen (P : Params) (d : Dibit) (a : Word) (s : State) : (dbPush P d a s).rdyLen = s.rdyLen := rfl
@[simp] theorem dbPush_inOff (P : Params) (d : Dibit) (a : Word) (s : State) : (dbPush P d a s).inOff = s.inOff := rfl
@[simp] theorem dbPush_outRec (P : Params) (d : Dibit) (a : Word) (s : State) : (dbPush P d a s).outRec = s.outRec := rfl
@[simp] theorem dbPush_outLen (P : Params) (d : Dibit) (a : Word) (s : State) : (dbPush P d a s).outLen = s.outLen := rfl
@[simp] theorem dbPush_outOff (P : Params) (d : Dibit) (a : Word) (s : State) : (dbPush P d a s).outOff = s.outOff := rfl
@[simp] theorem dbPush_ctrl (P : Params) (d : Dibit) (a : Word) (s : State) : (dbPush P d a s).ctrl = s.ctrl := rfl
@[simp] theorem dbPush_thCenter (P : Params) (d : Dibit) (a : Word) (s : State) : (dbPush P d a s).thCenter = s.thCenter := rfl
@[simp] theorem dbPush_thUmid (P : Params) (d : Dibit) (a : Word) (s : State) : (dbPush P d a s).thUmid = s.thUmid := rfl
@[simp] theorem dbPush_thLmid (P : Params) (d : Dibit) (a : Word) (s : State) : (dbPush P d a s).thLmid = s.thLmid := rfl
@[simp] theorem dbPush_thBand (P : Params) (d : Dibit) (a : Word) (s : State) : (dbPush P d a s).thBand = s.thBand := rfl
@[simp] theorem dbPush_sliceMap (P : Params) (d : Dibit) (a : Word) (s : State) : (dbPush P d a s).sliceMap = s.sliceMap := rfl
@[simp] theorem dbPush_gm (P : Params) (d : Dibit) (a : Word) (s : State) : (dbPush P d a s).gm = s.gm := rfl
@[simp] theorem dbPush_turns (P : Params) (d : Dibit) (a : Word) (s : State) : (dbPush P d a s).turns = s.turns := rfl
@[simp] theorem dbPush_portP (P : Params) (d : Dibit) (a : Word) (s : State) : (dbPush P d a s).portP = s.portP := rfl
@[simp] theorem dbPush_portQ (P : Params) (d : Dibit) (a : Word) (s : State) : (dbPush P d a s).portQ = s.portQ := rfl
@[simp] theorem dbPush_qOut (P : Params) (d : Dibit) (a : Word) (s : State) : (dbPush P d a s).qOut = s.qOut := rfl
@[simp] theorem dbPush_fecOut (P : Params) (d : Dibit) (a : Word) (s : State) : (dbPush P d a s).fecOut = s.fecOut := rfl
@[simp] theorem dbPush_fecIn (P : Params) (d : Dibit) (a : Word) (s : State) : (dbPush P d a s).fecIn = s.fecIn := rfl
@[simp] theorem dbPush_nanDraws (P : Params) (d : Dibit) (a : Word) (s : State) : (dbPush P d a s).nanDraws = s.nanDraws := rfl
end dbPushFields

section inAdvanceFields
@[simp] theorem inAdvance_run (s : State) : (inAdvance s).run = s.run := rfl
@[simp] theorem inAdvance_halted (s : State) : (inAdvance s).halted = s.halted := rfl
@[simp] theorem inAdvance_locked (s : State) : (inAdvance s).locked = s.locked := rfl
@[simp] theorem inAdvance_gvalid (s : State) : (inAdvance s).gvalid = s.gvalid := rfl
@[simp] theorem inAdvance_fault (s : State) : (inAdvance s).fault = s.fault := rfl
@[simp] theorem inAdvance_j (s : State) : (inAdvance s).j = s.j := rfl
@[simp] theorem inAdvance_f (s : State) : (inAdvance s).f = s.f := rfl
@[simp] theorem inAdvance_kidx (s : State) : (inAdvance s).kidx = s.kidx := rfl
@[simp] theorem inAdvance_dbuf (s : State) : (inAdvance s).dbuf = s.dbuf := rfl
@[simp] theorem inAdvance_wp (s : State) : (inAdvance s).wp = s.wp := rfl
@[simp] theorem inAdvance_rp (s : State) : (inAdvance s).rp = s.rp := rfl
@[simp] theorem inAdvance_dbValid (s : State) : (inAdvance s).dbValid = s.dbValid := rfl
@[simp] theorem inAdvance_lastDibit (s : State) : (inAdvance s).lastDibit = s.lastDibit := rfl
@[simp] theorem inAdvance_ht (s : State) : (inAdvance s).ht = s.ht := rfl
@[simp] theorem inAdvance_bitCnt (s : State) : (inAdvance s).bitCnt = s.bitCnt := rfl
@[simp] theorem inAdvance_bitErr (s : State) : (inAdvance s).bitErr = s.bitErr := rfl
@[simp] theorem inAdvance_curslot (s : State) : (inAdvance s).curslot = s.curslot := rfl
@[simp] theorem inAdvance_lastsync (s : State) : (inAdvance s).lastsync = s.lastsync := rfl
@[simp] theorem inAdvance_slotst0 (s : State) : (inAdvance s).slotst0 = s.slotst0 := rfl
@[simp] theorem inAdvance_slotst1 (s : State) : (inAdvance s).slotst1 = s.slotst1 := rfl
@[simp] theorem inAdvance_muted (s : State) : (inAdvance s).muted = s.muted := rfl
@[simp] theorem inAdvance_firstframe (s : State) : (inAdvance s).firstframe = s.firstframe := rfl
@[simp] theorem inAdvance_hdrErr (s : State) : (inAdvance s).hdrErr = s.hdrErr := rfl
@[simp] theorem inAdvance_audErr (s : State) : (inAdvance s).audErr = s.audErr := rfl
@[simp] theorem inAdvance_syncMiss (s : State) : (inAdvance s).syncMiss = s.syncMiss := rfl
@[simp] theorem inAdvance_algid (s : State) : (inAdvance s).algid = s.algid := rfl
@[simp] theorem inAdvance_keyid (s : State) : (inAdvance s).keyid = s.keyid := rfl
@[simp] theorem inAdvance_encPres (s : State) : (inAdvance s).encPres = s.encPres := rfl
@[simp] theorem inAdvance_disc (s : State) : (inAdvance s).disc = s.disc := rfl
@[simp] theorem inAdvance_discValid (s : State) : (inAdvance s).discValid = s.discValid := rfl
@[simp] theorem inAdvance_sigw (s : State) : (inAdvance s).sigw = s.sigw := rfl
@[simp] theorem inAdvance_sigc (s : State) : (inAdvance s).sigc = s.sigc := rfl
@[simp] theorem inAdvance_sigbad (s : State) : (inAdvance s).sigbad = s.sigbad := rfl
@[simp] theorem inAdvance_vm (s : State) : (inAdvance s).vm = s.vm := rfl
@[simp] theorem inAdvance_vbad (s : State) : (inAdvance s).vbad = s.vbad := rfl
@[simp] theorem inAdvance_inBuf (s : State) : (inAdvance s).inBuf = s.inBuf := rfl
@[simp] theorem inAdvance_rdyLen (s : State) : (inAdvance s).rdyLen = if s.inOff + 1 = s.rdyLen then 0 else s.rdyLen := rfl
@[simp] theorem inAdvance_inOff (s : State) : (inAdvance s).inOff = if s.inOff + 1 = s.rdyLen then 0 else s.inOff + 1 := rfl
@[simp] theorem inAdvance_outRec (s : State) : (inAdvance s).outRec = s.outRec := rfl
@[simp] theorem inAdvance_outLen (s : State) : (inAdvance s).outLen = s.outLen := rfl
@[simp] theorem inAdvance_outOff (s : State) : (inAdvance s).outOff = s.outOff := rfl
@[simp] theorem inAdvance_ctrl (s : State) : (inAdvance s).ctrl = s.ctrl := rfl
@[simp] theorem inAdvance_thCenter (s : State) : (inAdvance s).thCenter = s.thCenter := rfl
@[simp] theorem inAdvance_thUmid (s : State) : (inAdvance s).thUmid = s.thUmid := rfl
@[simp] theorem inAdvance_thLmid (s : State) : (inAdvance s).thLmid = s.thLmid := rfl
@[simp] theorem inAdvance_thBand (s : State) : (inAdvance s).thBand = s.thBand := rfl
@[simp] theorem inAdvance_sliceMap (s : State) : (inAdvance s).sliceMap = s.sliceMap := rfl
@[simp] theorem inAdvance_gm (s : State) : (inAdvance s).gm = s.gm := rfl
@[simp] theorem inAdvance_turns (s : State) : (inAdvance s).turns = s.turns := rfl
@[simp] theorem inAdvance_portP (s : State) : (inAdvance s).portP = s.portP := rfl
@[simp] theorem inAdvance_portQ (s : State) : (inAdvance s).portQ = s.portQ := rfl
@[simp] theorem inAdvance_qOut (s : State) : (inAdvance s).qOut = s.qOut := rfl
@[simp] theorem inAdvance_fecOut (s : State) : (inAdvance s).fecOut = s.fecOut := rfl
@[simp] theorem inAdvance_fecIn (s : State) : (inAdvance s).fecIn = s.fecIn := rfl
@[simp] theorem inAdvance_nanDraws (s : State) : (inAdvance s).nanDraws = s.nanDraws := rfl
end inAdvanceFields

section outWriteFields
@[simp] theorem outWrite_run (l : List Word) (s : State) : (outWrite l s).run = s.run := rfl
@[simp] theorem outWrite_halted (l : List Word) (s : State) : (outWrite l s).halted = s.halted := rfl
@[simp] theorem outWrite_locked (l : List Word) (s : State) : (outWrite l s).locked = s.locked := rfl
@[simp] theorem outWrite_gvalid (l : List Word) (s : State) : (outWrite l s).gvalid = s.gvalid := rfl
@[simp] theorem outWrite_fault (l : List Word) (s : State) : (outWrite l s).fault = s.fault := rfl
@[simp] theorem outWrite_j (l : List Word) (s : State) : (outWrite l s).j = s.j := rfl
@[simp] theorem outWrite_f (l : List Word) (s : State) : (outWrite l s).f = s.f := rfl
@[simp] theorem outWrite_kidx (l : List Word) (s : State) : (outWrite l s).kidx = s.kidx := rfl
@[simp] theorem outWrite_dbuf (l : List Word) (s : State) : (outWrite l s).dbuf = s.dbuf := rfl
@[simp] theorem outWrite_wp (l : List Word) (s : State) : (outWrite l s).wp = s.wp := rfl
@[simp] theorem outWrite_rp (l : List Word) (s : State) : (outWrite l s).rp = s.rp := rfl
@[simp] theorem outWrite_dbValid (l : List Word) (s : State) : (outWrite l s).dbValid = s.dbValid := rfl
@[simp] theorem outWrite_lastDibit (l : List Word) (s : State) : (outWrite l s).lastDibit = s.lastDibit := rfl
@[simp] theorem outWrite_ht (l : List Word) (s : State) : (outWrite l s).ht = s.ht := rfl
@[simp] theorem outWrite_bitCnt (l : List Word) (s : State) : (outWrite l s).bitCnt = s.bitCnt := rfl
@[simp] theorem outWrite_bitErr (l : List Word) (s : State) : (outWrite l s).bitErr = s.bitErr := rfl
@[simp] theorem outWrite_curslot (l : List Word) (s : State) : (outWrite l s).curslot = s.curslot := rfl
@[simp] theorem outWrite_lastsync (l : List Word) (s : State) : (outWrite l s).lastsync = s.lastsync := rfl
@[simp] theorem outWrite_slotst0 (l : List Word) (s : State) : (outWrite l s).slotst0 = s.slotst0 := rfl
@[simp] theorem outWrite_slotst1 (l : List Word) (s : State) : (outWrite l s).slotst1 = s.slotst1 := rfl
@[simp] theorem outWrite_muted (l : List Word) (s : State) : (outWrite l s).muted = s.muted := rfl
@[simp] theorem outWrite_firstframe (l : List Word) (s : State) : (outWrite l s).firstframe = s.firstframe := rfl
@[simp] theorem outWrite_hdrErr (l : List Word) (s : State) : (outWrite l s).hdrErr = s.hdrErr := rfl
@[simp] theorem outWrite_audErr (l : List Word) (s : State) : (outWrite l s).audErr = s.audErr := rfl
@[simp] theorem outWrite_syncMiss (l : List Word) (s : State) : (outWrite l s).syncMiss = s.syncMiss := rfl
@[simp] theorem outWrite_algid (l : List Word) (s : State) : (outWrite l s).algid = s.algid := rfl
@[simp] theorem outWrite_keyid (l : List Word) (s : State) : (outWrite l s).keyid = s.keyid := rfl
@[simp] theorem outWrite_encPres (l : List Word) (s : State) : (outWrite l s).encPres = s.encPres := rfl
@[simp] theorem outWrite_disc (l : List Word) (s : State) : (outWrite l s).disc = s.disc := rfl
@[simp] theorem outWrite_discValid (l : List Word) (s : State) : (outWrite l s).discValid = s.discValid := rfl
@[simp] theorem outWrite_sigw (l : List Word) (s : State) : (outWrite l s).sigw = s.sigw := rfl
@[simp] theorem outWrite_sigc (l : List Word) (s : State) : (outWrite l s).sigc = s.sigc := rfl
@[simp] theorem outWrite_sigbad (l : List Word) (s : State) : (outWrite l s).sigbad = s.sigbad := rfl
@[simp] theorem outWrite_vm (l : List Word) (s : State) : (outWrite l s).vm = s.vm := rfl
@[simp] theorem outWrite_vbad (l : List Word) (s : State) : (outWrite l s).vbad = s.vbad := rfl
@[simp] theorem outWrite_inBuf (l : List Word) (s : State) : (outWrite l s).inBuf = s.inBuf := rfl
@[simp] theorem outWrite_rdyLen (l : List Word) (s : State) : (outWrite l s).rdyLen = s.rdyLen := rfl
@[simp] theorem outWrite_inOff (l : List Word) (s : State) : (outWrite l s).inOff = s.inOff := rfl
@[simp] theorem outWrite_outRec (l : List Word) (s : State) : (outWrite l s).outRec = memLoad s.outRec l := rfl
@[simp] theorem outWrite_outLen (l : List Word) (s : State) : (outWrite l s).outLen = 1 := rfl
@[simp] theorem outWrite_outOff (l : List Word) (s : State) : (outWrite l s).outOff = 0 := rfl
@[simp] theorem outWrite_ctrl (l : List Word) (s : State) : (outWrite l s).ctrl = s.ctrl := rfl
@[simp] theorem outWrite_thCenter (l : List Word) (s : State) : (outWrite l s).thCenter = s.thCenter := rfl
@[simp] theorem outWrite_thUmid (l : List Word) (s : State) : (outWrite l s).thUmid = s.thUmid := rfl
@[simp] theorem outWrite_thLmid (l : List Word) (s : State) : (outWrite l s).thLmid = s.thLmid := rfl
@[simp] theorem outWrite_thBand (l : List Word) (s : State) : (outWrite l s).thBand = s.thBand := rfl
@[simp] theorem outWrite_sliceMap (l : List Word) (s : State) : (outWrite l s).sliceMap = s.sliceMap := rfl
@[simp] theorem outWrite_gm (l : List Word) (s : State) : (outWrite l s).gm = s.gm := rfl
@[simp] theorem outWrite_turns (l : List Word) (s : State) : (outWrite l s).turns = s.turns := rfl
@[simp] theorem outWrite_portP (l : List Word) (s : State) : (outWrite l s).portP = s.portP := rfl
@[simp] theorem outWrite_portQ (l : List Word) (s : State) : (outWrite l s).portQ = s.portQ := rfl
@[simp] theorem outWrite_qOut (l : List Word) (s : State) : (outWrite l s).qOut = s.qOut := rfl
@[simp] theorem outWrite_fecOut (l : List Word) (s : State) : (outWrite l s).fecOut = s.fecOut := rfl
@[simp] theorem outWrite_fecIn (l : List Word) (s : State) : (outWrite l s).fecIn = s.fecIn := rfl
@[simp] theorem outWrite_nanDraws (l : List Word) (s : State) : (outWrite l s).nanDraws = s.nanDraws := rfl
end outWriteFields

section sessionClearFields
@[simp] theorem sessionClear_run (s : State) : (sessionClear s).run = s.run := rfl
@[simp] theorem sessionClear_halted (s : State) : (sessionClear s).halted = s.halted := rfl
@[simp] theorem sessionClear_locked (s : State) : (sessionClear s).locked = s.locked := rfl
@[simp] theorem sessionClear_gvalid (s : State) : (sessionClear s).gvalid = s.gvalid := rfl
@[simp] theorem sessionClear_fault (s : State) : (sessionClear s).fault = s.fault := rfl
@[simp] theorem sessionClear_j (s : State) : (sessionClear s).j = 0 := rfl
@[simp] theorem sessionClear_f (s : State) : (sessionClear s).f = 0 := rfl
@[simp] theorem sessionClear_kidx (s : State) : (sessionClear s).kidx = 0 := rfl
@[simp] theorem sessionClear_dbuf (s : State) : (sessionClear s).dbuf = s.dbuf := rfl
@[simp] theorem sessionClear_wp (s : State) : (sessionClear s).wp = s.wp := rfl
@[simp] theorem sessionClear_rp (s : State) : (sessionClear s).rp = s.rp := rfl
@[simp] theorem sessionClear_dbValid (s : State) : (sessionClear s).dbValid = s.dbValid := rfl
@[simp] theorem sessionClear_lastDibit (s : State) : (sessionClear s).lastDibit = 0 := rfl
@[simp] theorem sessionClear_ht (s : State) : (sessionClear s).ht = Vector.replicate 16 SymModel.empty := rfl
@[simp] theorem sessionClear_bitCnt (s : State) : (sessionClear s).bitCnt = 0 := rfl
@[simp] theorem sessionClear_bitErr (s : State) : (sessionClear s).bitErr = 0 := rfl
@[simp] theorem sessionClear_curslot (s : State) : (sessionClear s).curslot = 0 := rfl
@[simp] theorem sessionClear_lastsync (s : State) : (sessionClear s).lastsync = 0 := rfl
@[simp] theorem sessionClear_slotst0 (s : State) : (sessionClear s).slotst0 = 0 := rfl
@[simp] theorem sessionClear_slotst1 (s : State) : (sessionClear s).slotst1 = 0 := rfl
@[simp] theorem sessionClear_muted (s : State) : (sessionClear s).muted = true := rfl
@[simp] theorem sessionClear_firstframe (s : State) : (sessionClear s).firstframe = true := rfl
@[simp] theorem sessionClear_hdrErr (s : State) : (sessionClear s).hdrErr = 0 := rfl
@[simp] theorem sessionClear_audErr (s : State) : (sessionClear s).audErr = 0 := rfl
@[simp] theorem sessionClear_syncMiss (s : State) : (sessionClear s).syncMiss = 0 := rfl
@[simp] theorem sessionClear_algid (s : State) : (sessionClear s).algid = 0 := rfl
@[simp] theorem sessionClear_keyid (s : State) : (sessionClear s).keyid = 0 := rfl
@[simp] theorem sessionClear_encPres (s : State) : (sessionClear s).encPres = false := rfl
@[simp] theorem sessionClear_disc (s : State) : (sessionClear s).disc = 0 := rfl
@[simp] theorem sessionClear_discValid (s : State) : (sessionClear s).discValid = false := rfl
@[simp] theorem sessionClear_sigw (s : State) : (sessionClear s).sigw = Vector.replicate 8 0 := rfl
@[simp] theorem sessionClear_sigc (s : State) : (sessionClear s).sigc = Vector.replicate 8 0 := rfl
@[simp] theorem sessionClear_sigbad (s : State) : (sessionClear s).sigbad = false := rfl
@[simp] theorem sessionClear_vm (s : State) : (sessionClear s).vm = Vector.replicate 4 0 := rfl
@[simp] theorem sessionClear_vbad (s : State) : (sessionClear s).vbad = false := rfl
@[simp] theorem sessionClear_inBuf (s : State) : (sessionClear s).inBuf = s.inBuf := rfl
@[simp] theorem sessionClear_rdyLen (s : State) : (sessionClear s).rdyLen = s.rdyLen := rfl
@[simp] theorem sessionClear_inOff (s : State) : (sessionClear s).inOff = s.inOff := rfl
@[simp] theorem sessionClear_outRec (s : State) : (sessionClear s).outRec = s.outRec := rfl
@[simp] theorem sessionClear_outLen (s : State) : (sessionClear s).outLen = s.outLen := rfl
@[simp] theorem sessionClear_outOff (s : State) : (sessionClear s).outOff = s.outOff := rfl
@[simp] theorem sessionClear_ctrl (s : State) : (sessionClear s).ctrl = s.ctrl := rfl
@[simp] theorem sessionClear_thCenter (s : State) : (sessionClear s).thCenter = s.thCenter := rfl
@[simp] theorem sessionClear_thUmid (s : State) : (sessionClear s).thUmid = s.thUmid := rfl
@[simp] theorem sessionClear_thLmid (s : State) : (sessionClear s).thLmid = s.thLmid := rfl
@[simp] theorem sessionClear_thBand (s : State) : (sessionClear s).thBand = s.thBand := rfl
@[simp] theorem sessionClear_sliceMap (s : State) : (sessionClear s).sliceMap = s.sliceMap := rfl
@[simp] theorem sessionClear_gm (s : State) : (sessionClear s).gm = s.gm := rfl
@[simp] theorem sessionClear_turns (s : State) : (sessionClear s).turns = s.turns := rfl
@[simp] theorem sessionClear_portP (s : State) : (sessionClear s).portP = s.portP := rfl
@[simp] theorem sessionClear_portQ (s : State) : (sessionClear s).portQ = s.portQ := rfl
@[simp] theorem sessionClear_qOut (s : State) : (sessionClear s).qOut = s.qOut := rfl
@[simp] theorem sessionClear_fecOut (s : State) : (sessionClear s).fecOut = s.fecOut := rfl
@[simp] theorem sessionClear_fecIn (s : State) : (sessionClear s).fecIn = s.fecIn := rfl
@[simp] theorem sessionClear_nanDraws (s : State) : (sessionClear s).nanDraws = s.nanDraws := rfl
end sessionClearFields

section resetProcFields
@[simp] theorem resetProc_run (s : State) : (resetProc s).run = s.run := rfl
@[simp] theorem resetProc_halted (s : State) : (resetProc s).halted = s.halted := rfl
@[simp] theorem resetProc_locked (s : State) : (resetProc s).locked = false := rfl
@[simp] theorem resetProc_gvalid (s : State) : (resetProc s).gvalid = s.gvalid := rfl
@[simp] theorem resetProc_fault (s : State) : (resetProc s).fault = s.fault := rfl
@[simp] theorem resetProc_j (s : State) : (resetProc s).j = 0 := rfl
@[simp] theorem resetProc_f (s : State) : (resetProc s).f = 0 := rfl
@[simp] theorem resetProc_kidx (s : State) : (resetProc s).kidx = 0 := rfl
@[simp] theorem resetProc_dbuf (s : State) : (resetProc s).dbuf = [] := rfl
@[simp] theorem resetProc_wp (s : State) : (resetProc s).wp = 0 := rfl
@[simp] theorem resetProc_rp (s : State) : (resetProc s).rp = 0 := rfl
@[simp] theorem resetProc_dbValid (s : State) : (resetProc s).dbValid = 0 := rfl
@[simp] theorem resetProc_lastDibit (s : State) : (resetProc s).lastDibit = 0 := rfl
@[simp] theorem resetProc_ht (s : State) : (resetProc s).ht = Vector.replicate 16 SymModel.empty := rfl
@[simp] theorem resetProc_bitCnt (s : State) : (resetProc s).bitCnt = 0 := rfl
@[simp] theorem resetProc_bitErr (s : State) : (resetProc s).bitErr = 0 := rfl
@[simp] theorem resetProc_curslot (s : State) : (resetProc s).curslot = 0 := rfl
@[simp] theorem resetProc_lastsync (s : State) : (resetProc s).lastsync = 0 := rfl
@[simp] theorem resetProc_slotst0 (s : State) : (resetProc s).slotst0 = 0 := rfl
@[simp] theorem resetProc_slotst1 (s : State) : (resetProc s).slotst1 = 0 := rfl
@[simp] theorem resetProc_muted (s : State) : (resetProc s).muted = true := rfl
@[simp] theorem resetProc_firstframe (s : State) : (resetProc s).firstframe = true := rfl
@[simp] theorem resetProc_hdrErr (s : State) : (resetProc s).hdrErr = 0 := rfl
@[simp] theorem resetProc_audErr (s : State) : (resetProc s).audErr = 0 := rfl
@[simp] theorem resetProc_syncMiss (s : State) : (resetProc s).syncMiss = 0 := rfl
@[simp] theorem resetProc_algid (s : State) : (resetProc s).algid = 0 := rfl
@[simp] theorem resetProc_keyid (s : State) : (resetProc s).keyid = 0 := rfl
@[simp] theorem resetProc_encPres (s : State) : (resetProc s).encPres = false := rfl
@[simp] theorem resetProc_disc (s : State) : (resetProc s).disc = 0 := rfl
@[simp] theorem resetProc_discValid (s : State) : (resetProc s).discValid = false := rfl
@[simp] theorem resetProc_sigw (s : State) : (resetProc s).sigw = Vector.replicate 8 0 := rfl
@[simp] theorem resetProc_sigc (s : State) : (resetProc s).sigc = Vector.replicate 8 0 := rfl
@[simp] theorem resetProc_sigbad (s : State) : (resetProc s).sigbad = false := rfl
@[simp] theorem resetProc_vm (s : State) : (resetProc s).vm = Vector.replicate 4 0 := rfl
@[simp] theorem resetProc_vbad (s : State) : (resetProc s).vbad = false := rfl
@[simp] theorem resetProc_inBuf (s : State) : (resetProc s).inBuf = [] := rfl
@[simp] theorem resetProc_rdyLen (s : State) : (resetProc s).rdyLen = 0 := rfl
@[simp] theorem resetProc_inOff (s : State) : (resetProc s).inOff = 0 := rfl
@[simp] theorem resetProc_outRec (s : State) : (resetProc s).outRec = [] := rfl
@[simp] theorem resetProc_outLen (s : State) : (resetProc s).outLen = 0 := rfl
@[simp] theorem resetProc_outOff (s : State) : (resetProc s).outOff = 0 := rfl
@[simp] theorem resetProc_ctrl (s : State) : (resetProc s).ctrl = s.ctrl := rfl
@[simp] theorem resetProc_thCenter (s : State) : (resetProc s).thCenter = s.thCenter := rfl
@[simp] theorem resetProc_thUmid (s : State) : (resetProc s).thUmid = s.thUmid := rfl
@[simp] theorem resetProc_thLmid (s : State) : (resetProc s).thLmid = s.thLmid := rfl
@[simp] theorem resetProc_thBand (s : State) : (resetProc s).thBand = s.thBand := rfl
@[simp] theorem resetProc_sliceMap (s : State) : (resetProc s).sliceMap = s.sliceMap := rfl
@[simp] theorem resetProc_gm (s : State) : (resetProc s).gm = s.gm := rfl
@[simp] theorem resetProc_turns (s : State) : (resetProc s).turns = s.turns := rfl
@[simp] theorem resetProc_portP (s : State) : (resetProc s).portP = s.portP := rfl
@[simp] theorem resetProc_portQ (s : State) : (resetProc s).portQ = s.portQ := rfl
@[simp] theorem resetProc_qOut (s : State) : (resetProc s).qOut = s.qOut := rfl
@[simp] theorem resetProc_fecOut (s : State) : (resetProc s).fecOut = s.fecOut := rfl
@[simp] theorem resetProc_fecIn (s : State) : (resetProc s).fecIn = s.fecIn := rfl
@[simp] theorem resetProc_nanDraws (s : State) : (resetProc s).nanDraws = s.nanDraws := rfl
end resetProcFields

section unlockProcFields
@[simp] theorem unlockProc_run (s : State) : (unlockProc s).run = s.run := rfl
@[simp] theorem unlockProc_halted (s : State) : (unlockProc s).halted = s.halted := rfl
@[simp] theorem unlockProc_locked (s : State) : (unlockProc s).locked = false := rfl
@[simp] theorem unlockProc_gvalid (s : State) : (unlockProc s).gvalid = s.gvalid := rfl
@[simp] theorem unlockProc_fault (s : State) : (unlockProc s).fault = s.fault := rfl
@[simp] theorem unlockProc_j (s : State) : (unlockProc s).j = 0 := rfl
@[simp] theorem unlockProc_f (s : State) : (unlockProc s).f = 0 := rfl
@[simp] theorem unlockProc_kidx (s : State) : (unlockProc s).kidx = 0 := rfl
@[simp] theorem unlockProc_dbuf (s : State) : (unlockProc s).dbuf = s.dbuf := rfl
@[simp] theorem unlockProc_wp (s : State) : (unlockProc s).wp = s.wp := rfl
@[simp] theorem unlockProc_rp (s : State) : (unlockProc s).rp = s.wp := rfl
@[simp] theorem unlockProc_dbValid (s : State) : (unlockProc s).dbValid = s.dbValid := rfl
@[simp] theorem unlockProc_lastDibit (s : State) : (unlockProc s).lastDibit = 0 := rfl
@[simp] theorem unlockProc_ht (s : State) : (unlockProc s).ht = Vector.replicate 16 SymModel.empty := rfl
@[simp] theorem unlockProc_bitCnt (s : State) : (unlockProc s).bitCnt = 0 := rfl
@[simp] theorem unlockProc_bitErr (s : State) : (unlockProc s).bitErr = 0 := rfl
@[simp] theorem unlockProc_curslot (s : State) : (unlockProc s).curslot = 0 := rfl
@[simp] theorem unlockProc_lastsync (s : State) : (unlockProc s).lastsync = 0 := rfl
@[simp] theorem unlockProc_slotst0 (s : State) : (unlockProc s).slotst0 = 0 := rfl
@[simp] theorem unlockProc_slotst1 (s : State) : (unlockProc s).slotst1 = 0 := rfl
@[simp] theorem unlockProc_muted (s : State) : (unlockProc s).muted = true := rfl
@[simp] theorem unlockProc_firstframe (s : State) : (unlockProc s).firstframe = true := rfl
@[simp] theorem unlockProc_hdrErr (s : State) : (unlockProc s).hdrErr = 0 := rfl
@[simp] theorem unlockProc_audErr (s : State) : (unlockProc s).audErr = 0 := rfl
@[simp] theorem unlockProc_syncMiss (s : State) : (unlockProc s).syncMiss = 0 := rfl
@[simp] theorem unlockProc_algid (s : State) : (unlockProc s).algid = 0 := rfl
@[simp] theorem unlockProc_keyid (s : State) : (unlockProc s).keyid = 0 := rfl
@[simp] theorem unlockProc_encPres (s : State) : (unlockProc s).encPres = false := rfl
@[simp] theorem unlockProc_disc (s : State) : (unlockProc s).disc = 0 := rfl
@[simp] theorem unlockProc_discValid (s : State) : (unlockProc s).discValid = false := rfl
@[simp] theorem unlockProc_sigw (s : State) : (unlockProc s).sigw = Vector.replicate 8 0 := rfl
@[simp] theorem unlockProc_sigc (s : State) : (unlockProc s).sigc = Vector.replicate 8 0 := rfl
@[simp] theorem unlockProc_sigbad (s : State) : (unlockProc s).sigbad = false := rfl
@[simp] theorem unlockProc_vm (s : State) : (unlockProc s).vm = Vector.replicate 4 0 := rfl
@[simp] theorem unlockProc_vbad (s : State) : (unlockProc s).vbad = false := rfl
@[simp] theorem unlockProc_inBuf (s : State) : (unlockProc s).inBuf = s.inBuf := rfl
@[simp] theorem unlockProc_rdyLen (s : State) : (unlockProc s).rdyLen = s.rdyLen := rfl
@[simp] theorem unlockProc_inOff (s : State) : (unlockProc s).inOff = s.inOff := rfl
@[simp] theorem unlockProc_outRec (s : State) : (unlockProc s).outRec = s.outRec := rfl
@[simp] theorem unlockProc_outLen (s : State) : (unlockProc s).outLen = s.outLen := rfl
@[simp] theorem unlockProc_outOff (s : State) : (unlockProc s).outOff = s.outOff := rfl
@[simp] theorem unlockProc_ctrl (s : State) : (unlockProc s).ctrl = s.ctrl := rfl
@[simp] theorem unlockProc_thCenter (s : State) : (unlockProc s).thCenter = s.thCenter := rfl
@[simp] theorem unlockProc_thUmid (s : State) : (unlockProc s).thUmid = s.thUmid := rfl
@[simp] theorem unlockProc_thLmid (s : State) : (unlockProc s).thLmid = s.thLmid := rfl
@[simp] theorem unlockProc_thBand (s : State) : (unlockProc s).thBand = s.thBand := rfl
@[simp] theorem unlockProc_sliceMap (s : State) : (unlockProc s).sliceMap = s.sliceMap := rfl
@[simp] theorem unlockProc_gm (s : State) : (unlockProc s).gm = s.gm := rfl
@[simp] theorem unlockProc_turns (s : State) : (unlockProc s).turns = s.turns := rfl
@[simp] theorem unlockProc_portP (s : State) : (unlockProc s).portP = s.portP := rfl
@[simp] theorem unlockProc_portQ (s : State) : (unlockProc s).portQ = s.portQ := rfl
@[simp] theorem unlockProc_qOut (s : State) : (unlockProc s).qOut = s.qOut := rfl
@[simp] theorem unlockProc_fecOut (s : State) : (unlockProc s).fecOut = s.fecOut := rfl
@[simp] theorem unlockProc_fecIn (s : State) : (unlockProc s).fecIn = s.fecIn := rfl
@[simp] theorem unlockProc_nanDraws (s : State) : (unlockProc s).nanDraws = s.nanDraws := rfl
end unlockProcFields

section lockOnFields
@[simp] theorem lockOn_run (P : Params) (st : BitVec 4) (s : State) : (lockOn P st s).run = s.run := rfl
@[simp] theorem lockOn_halted (P : Params) (st : BitVec 4) (s : State) : (lockOn P st s).halted = s.halted := rfl
@[simp] theorem lockOn_locked (P : Params) (st : BitVec 4) (s : State) : (lockOn P st s).locked = true := rfl
@[simp] theorem lockOn_gvalid (P : Params) (st : BitVec 4) (s : State) : (lockOn P st s).gvalid = s.gvalid := rfl
@[simp] theorem lockOn_fault (P : Params) (st : BitVec 4) (s : State) : (lockOn P st s).fault = s.fault := rfl
@[simp] theorem lockOn_j (P : Params) (st : BitVec 4) (s : State) : (lockOn P st s).j = 0 := rfl
@[simp] theorem lockOn_f (P : Params) (st : BitVec 4) (s : State) : (lockOn P st s).f = 0 := rfl
@[simp] theorem lockOn_kidx (P : Params) (st : BitVec 4) (s : State) : (lockOn P st s).kidx = 0 := rfl
@[simp] theorem lockOn_dbuf (P : Params) (st : BitVec 4) (s : State) : (lockOn P st s).dbuf = s.dbuf := rfl
@[simp] theorem lockOn_wp (P : Params) (st : BitVec 4) (s : State) : (lockOn P st s).wp = s.wp := rfl
@[simp] theorem lockOn_rp (P : Params) (st : BitVec 4) (s : State) : (lockOn P st s).rp = ptrWrap P (s.wp - BitVec.ofNat 32 (gLookback s.gm)) := rfl
@[simp] theorem lockOn_dbValid (P : Params) (st : BitVec 4) (s : State) : (lockOn P st s).dbValid = s.dbValid := rfl
@[simp] theorem lockOn_lastDibit (P : Params) (st : BitVec 4) (s : State) : (lockOn P st s).lastDibit = 0 := rfl
@[simp] theorem lockOn_ht (P : Params) (st : BitVec 4) (s : State) : (lockOn P st s).ht = Vector.replicate 16 SymModel.empty := rfl
@[simp] theorem lockOn_bitCnt (P : Params) (st : BitVec 4) (s : State) : (lockOn P st s).bitCnt = 0 := rfl
@[simp] theorem lockOn_bitErr (P : Params) (st : BitVec 4) (s : State) : (lockOn P st s).bitErr = 0 := rfl
@[simp] theorem lockOn_curslot (P : Params) (st : BitVec 4) (s : State) : (lockOn P st s).curslot = 0 := rfl
@[simp] theorem lockOn_lastsync (P : Params) (st : BitVec 4) (s : State) : (lockOn P st s).lastsync = st := rfl
@[simp] theorem lockOn_slotst0 (P : Params) (st : BitVec 4) (s : State) : (lockOn P st s).slotst0 = 0 := rfl
@[simp] theorem lockOn_slotst1 (P : Params) (st : BitVec 4) (s : State) : (lockOn P st s).slotst1 = 0 := rfl
@[simp] theorem lockOn_muted (P : Params) (st : BitVec 4) (s : State) : (lockOn P st s).muted = true := rfl
@[simp] theorem lockOn_firstframe (P : Params) (st : BitVec 4) (s : State) : (lockOn P st s).firstframe = true := rfl
@[simp] theorem lockOn_hdrErr (P : Params) (st : BitVec 4) (s : State) : (lockOn P st s).hdrErr = 0 := rfl
@[simp] theorem lockOn_audErr (P : Params) (st : BitVec 4) (s : State) : (lockOn P st s).audErr = 0 := rfl
@[simp] theorem lockOn_syncMiss (P : Params) (st : BitVec 4) (s : State) : (lockOn P st s).syncMiss = 0 := rfl
@[simp] theorem lockOn_algid (P : Params) (st : BitVec 4) (s : State) : (lockOn P st s).algid = 0 := rfl
@[simp] theorem lockOn_keyid (P : Params) (st : BitVec 4) (s : State) : (lockOn P st s).keyid = 0 := rfl
@[simp] theorem lockOn_encPres (P : Params) (st : BitVec 4) (s : State) : (lockOn P st s).encPres = false := rfl
@[simp] theorem lockOn_disc (P : Params) (st : BitVec 4) (s : State) : (lockOn P st s).disc = 0 := rfl
@[simp] theorem lockOn_discValid (P : Params) (st : BitVec 4) (s : State) : (lockOn P st s).discValid = false := rfl
@[simp] theorem lockOn_sigw (P : Params) (st : BitVec 4) (s : State) : (lockOn P st s).sigw = Vector.replicate 8 0 := rfl
@[simp] theorem lockOn_sigc (P : Params) (st : BitVec 4) (s : State) : (lockOn P st s).sigc = Vector.replicate 8 0 := rfl
@[simp] theorem lockOn_sigbad (P : Params) (st : BitVec 4) (s : State) : (lockOn P st s).sigbad = false := rfl
@[simp] theorem lockOn_vm (P : Params) (st : BitVec 4) (s : State) : (lockOn P st s).vm = Vector.replicate 4 0 := rfl
@[simp] theorem lockOn_vbad (P : Params) (st : BitVec 4) (s : State) : (lockOn P st s).vbad = false := rfl
@[simp] theorem lockOn_inBuf (P : Params) (st : BitVec 4) (s : State) : (lockOn P st s).inBuf = s.inBuf := rfl
@[simp] theorem lockOn_rdyLen (P : Params) (st : BitVec 4) (s : State) : (lockOn P st s).rdyLen = s.rdyLen := rfl
@[simp] theorem lockOn_inOff (P : Params) (st : BitVec 4) (s : State) : (lockOn P st s).inOff = s.inOff := rfl
@[simp] theorem lockOn_outRec (P : Params) (st : BitVec 4) (s : State) : (lockOn P st s).outRec = s.outRec := rfl
@[simp] theorem lockOn_outLen (P : Params) (st : BitVec 4) (s : State) : (lockOn P st s).outLen = s.outLen := rfl
@[simp] theorem lockOn_outOff (P : Params) (st : BitVec 4) (s : State) : (lockOn P st s).outOff = s.outOff := rfl
@[simp] theorem lockOn_ctrl (P : Params) (st : BitVec 4) (s : State) : (lockOn P st s).ctrl = s.ctrl := rfl
@[simp] theorem lockOn_thCenter (P : Params) (st : BitVec 4) (s : State) : (lockOn P st s).thCenter = s.thCenter := rfl
@[simp] theorem lockOn_thUmid (P : Params) (st : BitVec 4) (s : State) : (lockOn P st s).thUmid = s.thUmid := rfl
@[simp] theorem lockOn_thLmid (P : Params) (st : BitVec 4) (s : State) : (lockOn P st s).thLmid = s.thLmid := rfl
@[simp] theorem lockOn_thBand (P : Params) (st : BitVec 4) (s : State) : (lockOn P st s).thBand = s.thBand := rfl
@[simp] theorem lockOn_sliceMap (P : Params) (st : BitVec 4) (s : State) : (lockOn P st s).sliceMap = s.sliceMap := rfl
@[simp] theorem lockOn_gm (P : Params) (st : BitVec 4) (s : State) : (lockOn P st s).gm = s.gm := rfl
@[simp] theorem lockOn_turns (P : Params) (st : BitVec 4) (s : State) : (lockOn P st s).turns = s.turns := rfl
@[simp] theorem lockOn_portP (P : Params) (st : BitVec 4) (s : State) : (lockOn P st s).portP = s.portP := rfl
@[simp] theorem lockOn_portQ (P : Params) (st : BitVec 4) (s : State) : (lockOn P st s).portQ = s.portQ := rfl
@[simp] theorem lockOn_qOut (P : Params) (st : BitVec 4) (s : State) : (lockOn P st s).qOut = s.qOut := rfl
@[simp] theorem lockOn_fecOut (P : Params) (st : BitVec 4) (s : State) : (lockOn P st s).fecOut = s.fecOut := rfl
@[simp] theorem lockOn_fecIn (P : Params) (st : BitVec 4) (s : State) : (lockOn P st s).fecIn = s.fecIn := rfl
@[simp] theorem lockOn_nanDraws (P : Params) (st : BitVec 4) (s : State) : (lockOn P st s).nanDraws = s.nanDraws := rfl
end lockOnFields

section advanceFields
@[simp] theorem advance_run (P : Params) (w : BitVec 10) (s : State) : (advance P w s).run = s.run := rfl
@[simp] theorem advance_halted (P : Params) (w : BitVec 10) (s : State) : (advance P w s).halted = s.halted := rfl
@[simp] theorem advance_locked (P : Params) (w : BitVec 10) (s : State) : (advance P w s).locked = s.locked := rfl
@[simp] theorem advance_gvalid (P : Params) (w : BitVec 10) (s : State) : (advance P w s).gvalid = s.gvalid := rfl
@[simp] theorem advance_fault (P : Params) (w : BitVec 10) (s : State) : (advance P w s).fault = s.fault := rfl
@[simp] theorem advance_j (P : Params) (w : BitVec 10) (s : State) : (advance P w s).j = if lastField s then BitVec.ofNat 3 ((s.j.toNat + 1) % 6) else s.j := rfl
@[simp] theorem advance_f (P : Params) (w : BitVec 10) (s : State) : (advance P w s).f = if lastField s then 0 else s.f + 1 := rfl
@[simp] theorem advance_kidx (P : Params) (w : BitVec 10) (s : State) : (advance P w s).kidx = if lastField s then 0 else s.kidx := rfl
@[simp] theorem advance_dbuf (P : Params) (w : BitVec 10) (s : State) : (advance P w s).dbuf = s.dbuf := rfl
@[simp] theorem advance_wp (P : Params) (w : BitVec 10) (s : State) : (advance P w s).wp = s.wp := rfl
@[simp] theorem advance_rp (P : Params) (w : BitVec 10) (s : State) : (advance P w s).rp = ptrWrap P (s.rp + w.setWidth 32) := rfl
@[simp] theorem advance_dbValid (P : Params) (w : BitVec 10) (s : State) : (advance P w s).dbValid = s.dbValid := rfl
@[simp] theorem advance_lastDibit (P : Params) (w : BitVec 10) (s : State) : (advance P w s).lastDibit = s.lastDibit := rfl
@[simp] theorem advance_ht (P : Params) (w : BitVec 10) (s : State) : (advance P w s).ht = s.ht := rfl
@[simp] theorem advance_bitCnt (P : Params) (w : BitVec 10) (s : State) : (advance P w s).bitCnt = s.bitCnt := rfl
@[simp] theorem advance_bitErr (P : Params) (w : BitVec 10) (s : State) : (advance P w s).bitErr = s.bitErr := rfl
@[simp] theorem advance_curslot (P : Params) (w : BitVec 10) (s : State) : (advance P w s).curslot = s.curslot := rfl
@[simp] theorem advance_lastsync (P : Params) (w : BitVec 10) (s : State) : (advance P w s).lastsync = s.lastsync := rfl
@[simp] theorem advance_slotst0 (P : Params) (w : BitVec 10) (s : State) : (advance P w s).slotst0 = s.slotst0 := rfl
@[simp] theorem advance_slotst1 (P : Params) (w : BitVec 10) (s : State) : (advance P w s).slotst1 = s.slotst1 := rfl
@[simp] theorem advance_muted (P : Params) (w : BitVec 10) (s : State) : (advance P w s).muted = s.muted := rfl
@[simp] theorem advance_firstframe (P : Params) (w : BitVec 10) (s : State) : (advance P w s).firstframe = if lastField s then false else s.firstframe := rfl
@[simp] theorem advance_hdrErr (P : Params) (w : BitVec 10) (s : State) : (advance P w s).hdrErr = s.hdrErr := rfl
@[simp] theorem advance_audErr (P : Params) (w : BitVec 10) (s : State) : (advance P w s).audErr = s.audErr := rfl
@[simp] theorem advance_syncMiss (P : Params) (w : BitVec 10) (s : State) : (advance P w s).syncMiss = s.syncMiss := rfl
@[simp] theorem advance_algid (P : Params) (w : BitVec 10) (s : State) : (advance P w s).algid = s.algid := rfl
@[simp] theorem advance_keyid (P : Params) (w : BitVec 10) (s : State) : (advance P w s).keyid = s.keyid := rfl
@[simp] theorem advance_encPres (P : Params) (w : BitVec 10) (s : State) : (advance P w s).encPres = s.encPres := rfl
@[simp] theorem advance_disc (P : Params) (w : BitVec 10) (s : State) : (advance P w s).disc = s.disc := rfl
@[simp] theorem advance_discValid (P : Params) (w : BitVec 10) (s : State) : (advance P w s).discValid = s.discValid := rfl
@[simp] theorem advance_sigw (P : Params) (w : BitVec 10) (s : State) : (advance P w s).sigw = s.sigw := rfl
@[simp] theorem advance_sigc (P : Params) (w : BitVec 10) (s : State) : (advance P w s).sigc = s.sigc := rfl
@[simp] theorem advance_sigbad (P : Params) (w : BitVec 10) (s : State) : (advance P w s).sigbad = s.sigbad := rfl
@[simp] theorem advance_vm (P : Params) (w : BitVec 10) (s : State) : (advance P w s).vm = s.vm := rfl
@[simp] theorem advance_vbad (P : Params) (w : BitVec 10) (s : State) : (advance P w s).vbad = s.vbad := rfl
@[simp] theorem advance_inBuf (P : Params) (w : BitVec 10) (s : State) : (advance P w s).inBuf = s.inBuf := rfl
@[simp] theorem advance_rdyLen (P : Params) (w : BitVec 10) (s : State) : (advance P w s).rdyLen = s.rdyLen := rfl
@[simp] theorem advance_inOff (P : Params) (w : BitVec 10) (s : State) : (advance P w s).inOff = s.inOff := rfl
@[simp] theorem advance_outRec (P : Params) (w : BitVec 10) (s : State) : (advance P w s).outRec = s.outRec := rfl
@[simp] theorem advance_outLen (P : Params) (w : BitVec 10) (s : State) : (advance P w s).outLen = s.outLen := rfl
@[simp] theorem advance_outOff (P : Params) (w : BitVec 10) (s : State) : (advance P w s).outOff = s.outOff := rfl
@[simp] theorem advance_ctrl (P : Params) (w : BitVec 10) (s : State) : (advance P w s).ctrl = s.ctrl := rfl
@[simp] theorem advance_thCenter (P : Params) (w : BitVec 10) (s : State) : (advance P w s).thCenter = s.thCenter := rfl
@[simp] theorem advance_thUmid (P : Params) (w : BitVec 10) (s : State) : (advance P w s).thUmid = s.thUmid := rfl
@[simp] theorem advance_thLmid (P : Params) (w : BitVec 10) (s : State) : (advance P w s).thLmid = s.thLmid := rfl
@[simp] theorem advance_thBand (P : Params) (w : BitVec 10) (s : State) : (advance P w s).thBand = s.thBand := rfl
@[simp] theorem advance_sliceMap (P : Params) (w : BitVec 10) (s : State) : (advance P w s).sliceMap = s.sliceMap := rfl
@[simp] theorem advance_gm (P : Params) (w : BitVec 10) (s : State) : (advance P w s).gm = s.gm := rfl
@[simp] theorem advance_turns (P : Params) (w : BitVec 10) (s : State) : (advance P w s).turns = s.turns := rfl
@[simp] theorem advance_portP (P : Params) (w : BitVec 10) (s : State) : (advance P w s).portP = s.portP := rfl
@[simp] theorem advance_portQ (P : Params) (w : BitVec 10) (s : State) : (advance P w s).portQ = s.portQ := rfl
@[simp] theorem advance_qOut (P : Params) (w : BitVec 10) (s : State) : (advance P w s).qOut = s.qOut := rfl
@[simp] theorem advance_fecOut (P : Params) (w : BitVec 10) (s : State) : (advance P w s).fecOut = s.fecOut := rfl
@[simp] theorem advance_fecIn (P : Params) (w : BitVec 10) (s : State) : (advance P w s).fecIn = s.fecIn := rfl
@[simp] theorem advance_nanDraws (P : Params) (w : BitVec 10) (s : State) : (advance P w s).nanDraws = s.nanDraws := rfl
end advanceFields

section berFoldFields
@[simp] theorem berFold_run (P : Params) (e : Nat) (s : State) : (berFold P e s).run = s.run := rfl
@[simp] theorem berFold_halted (P : Params) (e : Nat) (s : State) : (berFold P e s).halted = s.halted := rfl
@[simp] theorem berFold_locked (P : Params) (e : Nat) (s : State) : (berFold P e s).locked = s.locked := rfl
@[simp] theorem berFold_gvalid (P : Params) (e : Nat) (s : State) : (berFold P e s).gvalid = s.gvalid := rfl
@[simp] theorem berFold_fault (P : Params) (e : Nat) (s : State) : (berFold P e s).fault = s.fault := rfl
@[simp] theorem berFold_j (P : Params) (e : Nat) (s : State) : (berFold P e s).j = s.j := rfl
@[simp] theorem berFold_f (P : Params) (e : Nat) (s : State) : (berFold P e s).f = s.f := rfl
@[simp] theorem berFold_kidx (P : Params) (e : Nat) (s : State) : (berFold P e s).kidx = s.kidx := rfl
@[simp] theorem berFold_dbuf (P : Params) (e : Nat) (s : State) : (berFold P e s).dbuf = s.dbuf := rfl
@[simp] theorem berFold_wp (P : Params) (e : Nat) (s : State) : (berFold P e s).wp = s.wp := rfl
@[simp] theorem berFold_rp (P : Params) (e : Nat) (s : State) : (berFold P e s).rp = s.rp := rfl
@[simp] theorem berFold_dbValid (P : Params) (e : Nat) (s : State) : (berFold P e s).dbValid = s.dbValid := rfl
@[simp] theorem berFold_lastDibit (P : Params) (e : Nat) (s : State) : (berFold P e s).lastDibit = s.lastDibit := rfl
@[simp] theorem berFold_ht (P : Params) (e : Nat) (s : State) : (berFold P e s).ht = s.ht := rfl
@[simp] theorem berFold_bitCnt (P : Params) (e : Nat) (s : State) : (berFold P e s).bitCnt = (berPair P e s.bitCnt s.bitErr).1 := rfl
@[simp] theorem berFold_bitErr (P : Params) (e : Nat) (s : State) : (berFold P e s).bitErr = (berPair P e s.bitCnt s.bitErr).2 := rfl
@[simp] theorem berFold_curslot (P : Params) (e : Nat) (s : State) : (berFold P e s).curslot = s.curslot := rfl
@[simp] theorem berFold_lastsync (P : Params) (e : Nat) (s : State) : (berFold P e s).lastsync = s.lastsync := rfl
@[simp] theorem berFold_slotst0 (P : Params) (e : Nat) (s : State) : (berFold P e s).slotst0 = s.slotst0 := rfl
@[simp] theorem berFold_slotst1 (P : Params) (e : Nat) (s : State) : (berFold P e s).slotst1 = s.slotst1 := rfl
@[simp] theorem berFold_muted (P : Params) (e : Nat) (s : State) : (berFold P e s).muted = s.muted := rfl
@[simp] theorem berFold_firstframe (P : Params) (e : Nat) (s : State) : (berFold P e s).firstframe = s.firstframe := rfl
@[simp] theorem berFold_hdrErr (P : Params) (e : Nat) (s : State) : (berFold P e s).hdrErr = s.hdrErr := rfl
@[simp] theorem berFold_audErr (P : Params) (e : Nat) (s : State) : (berFold P e s).audErr = s.audErr := rfl
@[simp] theorem berFold_syncMiss (P : Params) (e : Nat) (s : State) : (berFold P e s).syncMiss = s.syncMiss := rfl
@[simp] theorem berFold_algid (P : Params) (e : Nat) (s : State) : (berFold P e s).algid = s.algid := rfl
@[simp] theorem berFold_keyid (P : Params) (e : Nat) (s : State) : (berFold P e s).keyid = s.keyid := rfl
@[simp] theorem berFold_encPres (P : Params) (e : Nat) (s : State) : (berFold P e s).encPres = s.encPres := rfl
@[simp] theorem berFold_disc (P : Params) (e : Nat) (s : State) : (berFold P e s).disc = s.disc := rfl
@[simp] theorem berFold_discValid (P : Params) (e : Nat) (s : State) : (berFold P e s).discValid = s.discValid := rfl
@[simp] theorem berFold_sigw (P : Params) (e : Nat) (s : State) : (berFold P e s).sigw = s.sigw := rfl
@[simp] theorem berFold_sigc (P : Params) (e : Nat) (s : State) : (berFold P e s).sigc = s.sigc := rfl
@[simp] theorem berFold_sigbad (P : Params) (e : Nat) (s : State) : (berFold P e s).sigbad = s.sigbad := rfl
@[simp] theorem berFold_vm (P : Params) (e : Nat) (s : State) : (berFold P e s).vm = s.vm := rfl
@[simp] theorem berFold_vbad (P : Params) (e : Nat) (s : State) : (berFold P e s).vbad = s.vbad := rfl
@[simp] theorem berFold_inBuf (P : Params) (e : Nat) (s : State) : (berFold P e s).inBuf = s.inBuf := rfl
@[simp] theorem berFold_rdyLen (P : Params) (e : Nat) (s : State) : (berFold P e s).rdyLen = s.rdyLen := rfl
@[simp] theorem berFold_inOff (P : Params) (e : Nat) (s : State) : (berFold P e s).inOff = s.inOff := rfl
@[simp] theorem berFold_outRec (P : Params) (e : Nat) (s : State) : (berFold P e s).outRec = s.outRec := rfl
@[simp] theorem berFold_outLen (P : Params) (e : Nat) (s : State) : (berFold P e s).outLen = s.outLen := rfl
@[simp] theorem berFold_outOff (P : Params) (e : Nat) (s : State) : (berFold P e s).outOff = s.outOff := rfl
@[simp] theorem berFold_ctrl (P : Params) (e : Nat) (s : State) : (berFold P e s).ctrl = s.ctrl := rfl
@[simp] theorem berFold_thCenter (P : Params) (e : Nat) (s : State) : (berFold P e s).thCenter = s.thCenter := rfl
@[simp] theorem berFold_thUmid (P : Params) (e : Nat) (s : State) : (berFold P e s).thUmid = s.thUmid := rfl
@[simp] theorem berFold_thLmid (P : Params) (e : Nat) (s : State) : (berFold P e s).thLmid = s.thLmid := rfl
@[simp] theorem berFold_thBand (P : Params) (e : Nat) (s : State) : (berFold P e s).thBand = s.thBand := rfl
@[simp] theorem berFold_sliceMap (P : Params) (e : Nat) (s : State) : (berFold P e s).sliceMap = s.sliceMap := rfl
@[simp] theorem berFold_gm (P : Params) (e : Nat) (s : State) : (berFold P e s).gm = s.gm := rfl
@[simp] theorem berFold_turns (P : Params) (e : Nat) (s : State) : (berFold P e s).turns = s.turns := rfl
@[simp] theorem berFold_portP (P : Params) (e : Nat) (s : State) : (berFold P e s).portP = s.portP := rfl
@[simp] theorem berFold_portQ (P : Params) (e : Nat) (s : State) : (berFold P e s).portQ = s.portQ := rfl
@[simp] theorem berFold_qOut (P : Params) (e : Nat) (s : State) : (berFold P e s).qOut = s.qOut := rfl
@[simp] theorem berFold_fecOut (P : Params) (e : Nat) (s : State) : (berFold P e s).fecOut = s.fecOut := rfl
@[simp] theorem berFold_fecIn (P : Params) (e : Nat) (s : State) : (berFold P e s).fecIn = s.fecIn := rfl
@[simp] theorem berFold_nanDraws (P : Params) (e : Nat) (s : State) : (berFold P e s).nanDraws = s.nanDraws := rfl
end berFoldFields

section updateFields
@[simp] theorem update_run (env : Env) (p r c : Dibit) (a : Word) (s : State) : (update env p r c a s).run = s.run := rfl
@[simp] theorem update_halted (env : Env) (p r c : Dibit) (a : Word) (s : State) : (update env p r c a s).halted = s.halted := rfl
@[simp] theorem update_locked (env : Env) (p r c : Dibit) (a : Word) (s : State) : (update env p r c a s).locked = s.locked := rfl
@[simp] theorem update_gvalid (env : Env) (p r c : Dibit) (a : Word) (s : State) : (update env p r c a s).gvalid = s.gvalid := rfl
@[simp] theorem update_fault (env : Env) (p r c : Dibit) (a : Word) (s : State) : (update env p r c a s).fault = s.fault := rfl
@[simp] theorem update_j (env : Env) (p r c : Dibit) (a : Word) (s : State) : (update env p r c a s).j = s.j := rfl
@[simp] theorem update_f (env : Env) (p r c : Dibit) (a : Word) (s : State) : (update env p r c a s).f = s.f := rfl
@[simp] theorem update_kidx (env : Env) (p r c : Dibit) (a : Word) (s : State) : (update env p r c a s).kidx = s.kidx := rfl
@[simp] theorem update_dbuf (env : Env) (p r c : Dibit) (a : Word) (s : State) : (update env p r c a s).dbuf = s.dbuf := rfl
@[simp] theorem update_wp (env : Env) (p r c : Dibit) (a : Word) (s : State) : (update env p r c a s).wp = s.wp := rfl
@[simp] theorem update_rp (env : Env) (p r c : Dibit) (a : Word) (s : State) : (update env p r c a s).rp = s.rp := rfl
@[simp] theorem update_dbValid (env : Env) (p r c : Dibit) (a : Word) (s : State) : (update env p r c a s).dbValid = s.dbValid := rfl
@[simp] theorem update_lastDibit (env : Env) (p r c : Dibit) (a : Word) (s : State) : (update env p r c a s).lastDibit = s.lastDibit := rfl
@[simp] theorem update_bitCnt (env : Env) (p r c : Dibit) (a : Word) (s : State) : (update env p r c a s).bitCnt = (berPair env.params (errCount r c) s.bitCnt s.bitErr).1 := rfl
@[simp] theorem update_bitErr (env : Env) (p r c : Dibit) (a : Word) (s : State) : (update env p r c a s).bitErr = (berPair env.params (errCount r c) s.bitCnt s.bitErr).2 := rfl
@[simp] theorem update_curslot (env : Env) (p r c : Dibit) (a : Word) (s : State) : (update env p r c a s).curslot = s.curslot := rfl
@[simp] theorem update_lastsync (env : Env) (p r c : Dibit) (a : Word) (s : State) : (update env p r c a s).lastsync = s.lastsync := rfl
@[simp] theorem update_slotst0 (env : Env) (p r c : Dibit) (a : Word) (s : State) : (update env p r c a s).slotst0 = s.slotst0 := rfl
@[simp] theorem update_slotst1 (env : Env) (p r c : Dibit) (a : Word) (s : State) : (update env p r c a s).slotst1 = s.slotst1 := rfl
@[simp] theorem update_muted (env : Env) (p r c : Dibit) (a : Word) (s : State) : (update env p r c a s).muted = s.muted := rfl
@[simp] theorem update_firstframe (env : Env) (p r c : Dibit) (a : Word) (s : State) : (update env p r c a s).firstframe = s.firstframe := rfl
@[simp] theorem update_hdrErr (env : Env) (p r c : Dibit) (a : Word) (s : State) : (update env p r c a s).hdrErr = s.hdrErr := rfl
@[simp] theorem update_audErr (env : Env) (p r c : Dibit) (a : Word) (s : State) : (update env p r c a s).audErr = s.audErr := rfl
@[simp] theorem update_syncMiss (env : Env) (p r c : Dibit) (a : Word) (s : State) : (update env p r c a s).syncMiss = s.syncMiss := rfl
@[simp] theorem update_algid (env : Env) (p r c : Dibit) (a : Word) (s : State) : (update env p r c a s).algid = s.algid := rfl
@[simp] theorem update_keyid (env : Env) (p r c : Dibit) (a : Word) (s : State) : (update env p r c a s).keyid = s.keyid := rfl
@[simp] theorem update_encPres (env : Env) (p r c : Dibit) (a : Word) (s : State) : (update env p r c a s).encPres = s.encPres := rfl
@[simp] theorem update_disc (env : Env) (p r c : Dibit) (a : Word) (s : State) : (update env p r c a s).disc = s.disc := rfl
@[simp] theorem update_discValid (env : Env) (p r c : Dibit) (a : Word) (s : State) : (update env p r c a s).discValid = s.discValid := rfl
@[simp] theorem update_sigw (env : Env) (p r c : Dibit) (a : Word) (s : State) : (update env p r c a s).sigw = s.sigw := rfl
@[simp] theorem update_sigc (env : Env) (p r c : Dibit) (a : Word) (s : State) : (update env p r c a s).sigc = s.sigc := rfl
@[simp] theorem update_sigbad (env : Env) (p r c : Dibit) (a : Word) (s : State) : (update env p r c a s).sigbad = s.sigbad := rfl
@[simp] theorem update_vm (env : Env) (p r c : Dibit) (a : Word) (s : State) : (update env p r c a s).vm = s.vm := rfl
@[simp] theorem update_vbad (env : Env) (p r c : Dibit) (a : Word) (s : State) : (update env p r c a s).vbad = s.vbad := rfl
@[simp] theorem update_inBuf (env : Env) (p r c : Dibit) (a : Word) (s : State) : (update env p r c a s).inBuf = s.inBuf := rfl
@[simp] theorem update_rdyLen (env : Env) (p r c : Dibit) (a : Word) (s : State) : (update env p r c a s).rdyLen = s.rdyLen := rfl
@[simp] theorem update_inOff (env : Env) (p r c : Dibit) (a : Word) (s : State) : (update env p r c a s).inOff = s.inOff := rfl
@[simp] theorem update_outRec (env : Env) (p r c : Dibit) (a : Word) (s : State) : (update env p r c a s).outRec = s.outRec := rfl
@[simp] theorem update_outLen (env : Env) (p r c : Dibit) (a : Word) (s : State) : (update env p r c a s).outLen = s.outLen := rfl
@[simp] theorem update_outOff (env : Env) (p r c : Dibit) (a : Word) (s : State) : (update env p r c a s).outOff = s.outOff := rfl
@[simp] theorem update_ctrl (env : Env) (p r c : Dibit) (a : Word) (s : State) : (update env p r c a s).ctrl = s.ctrl := rfl
@[simp] theorem update_thCenter (env : Env) (p r c : Dibit) (a : Word) (s : State) : (update env p r c a s).thCenter = s.thCenter := rfl
@[simp] theorem update_thUmid (env : Env) (p r c : Dibit) (a : Word) (s : State) : (update env p r c a s).thUmid = s.thUmid := rfl
@[simp] theorem update_thLmid (env : Env) (p r c : Dibit) (a : Word) (s : State) : (update env p r c a s).thLmid = s.thLmid := rfl
@[simp] theorem update_thBand (env : Env) (p r c : Dibit) (a : Word) (s : State) : (update env p r c a s).thBand = s.thBand := rfl
@[simp] theorem update_sliceMap (env : Env) (p r c : Dibit) (a : Word) (s : State) : (update env p r c a s).sliceMap = s.sliceMap := rfl
@[simp] theorem update_gm (env : Env) (p r c : Dibit) (a : Word) (s : State) : (update env p r c a s).gm = s.gm := rfl
@[simp] theorem update_turns (env : Env) (p r c : Dibit) (a : Word) (s : State) : (update env p r c a s).turns = s.turns := rfl
@[simp] theorem update_portP (env : Env) (p r c : Dibit) (a : Word) (s : State) : (update env p r c a s).portP = s.portP := rfl
@[simp] theorem update_portQ (env : Env) (p r c : Dibit) (a : Word) (s : State) : (update env p r c a s).portQ = s.portQ := rfl
@[simp] theorem update_qOut (env : Env) (p r c : Dibit) (a : Word) (s : State) : (update env p r c a s).qOut = s.qOut := rfl
@[simp] theorem update_fecOut (env : Env) (p r c : Dibit) (a : Word) (s : State) : (update env p r c a s).fecOut = s.fecOut := rfl
@[simp] theorem update_fecIn (env : Env) (p r c : Dibit) (a : Word) (s : State) : (update env p r c a s).fecIn = s.fecIn := rfl
@[simp] theorem update_nanDraws (env : Env) (p r c : Dibit) (a : Word) (s : State) : (update env p r c a s).nanDraws = s.nanDraws + 1 := rfl
end updateFields

section fecTranscriptFields
@[simp] theorem fecTranscript_run (q : FecQuery) (a : FecAnswer) (s : State) : (fecTranscript q a s).run = s.run := rfl
@[simp] theorem fecTranscript_halted (q : FecQuery) (a : FecAnswer) (s : State) : (fecTranscript q a s).halted = s.halted := rfl
@[simp] theorem fecTranscript_locked (q : FecQuery) (a : FecAnswer) (s : State) : (fecTranscript q a s).locked = s.locked := rfl
@[simp] theorem fecTranscript_gvalid (q : FecQuery) (a : FecAnswer) (s : State) : (fecTranscript q a s).gvalid = s.gvalid := rfl
@[simp] theorem fecTranscript_fault (q : FecQuery) (a : FecAnswer) (s : State) : (fecTranscript q a s).fault = s.fault := rfl
@[simp] theorem fecTranscript_j (q : FecQuery) (a : FecAnswer) (s : State) : (fecTranscript q a s).j = s.j := rfl
@[simp] theorem fecTranscript_f (q : FecQuery) (a : FecAnswer) (s : State) : (fecTranscript q a s).f = s.f := rfl
@[simp] theorem fecTranscript_kidx (q : FecQuery) (a : FecAnswer) (s : State) : (fecTranscript q a s).kidx = s.kidx := rfl
@[simp] theorem fecTranscript_dbuf (q : FecQuery) (a : FecAnswer) (s : State) : (fecTranscript q a s).dbuf = s.dbuf := rfl
@[simp] theorem fecTranscript_wp (q : FecQuery) (a : FecAnswer) (s : State) : (fecTranscript q a s).wp = s.wp := rfl
@[simp] theorem fecTranscript_rp (q : FecQuery) (a : FecAnswer) (s : State) : (fecTranscript q a s).rp = s.rp := rfl
@[simp] theorem fecTranscript_dbValid (q : FecQuery) (a : FecAnswer) (s : State) : (fecTranscript q a s).dbValid = s.dbValid := rfl
@[simp] theorem fecTranscript_lastDibit (q : FecQuery) (a : FecAnswer) (s : State) : (fecTranscript q a s).lastDibit = s.lastDibit := rfl
@[simp] theorem fecTranscript_ht (q : FecQuery) (a : FecAnswer) (s : State) : (fecTranscript q a s).ht = s.ht := rfl
@[simp] theorem fecTranscript_bitCnt (q : FecQuery) (a : FecAnswer) (s : State) : (fecTranscript q a s).bitCnt = s.bitCnt := rfl
@[simp] theorem fecTranscript_bitErr (q : FecQuery) (a : FecAnswer) (s : State) : (fecTranscript q a s).bitErr = s.bitErr := rfl
@[simp] theorem fecTranscript_curslot (q : FecQuery) (a : FecAnswer) (s : State) : (fecTranscript q a s).curslot = s.curslot := rfl
@[simp] theorem fecTranscript_lastsync (q : FecQuery) (a : FecAnswer) (s : State) : (fecTranscript q a s).lastsync = s.lastsync := rfl
@[simp] theorem fecTranscript_slotst0 (q : FecQuery) (a : FecAnswer) (s : State) : (fecTranscript q a s).slotst0 = s.slotst0 := rfl
@[simp] theorem fecTranscript_slotst1 (q : FecQuery) (a : FecAnswer) (s : State) : (fecTranscript q a s).slotst1 = s.slotst1 := rfl
@[simp] theorem fecTranscript_muted (q : FecQuery) (a : FecAnswer) (s : State) : (fecTranscript q a s).muted = s.muted := rfl
@[simp] theorem fecTranscript_firstframe (q : FecQuery) (a : FecAnswer) (s : State) : (fecTranscript q a s).firstframe = s.firstframe := rfl
@[simp] theorem fecTranscript_hdrErr (q : FecQuery) (a : FecAnswer) (s : State) : (fecTranscript q a s).hdrErr = s.hdrErr := rfl
@[simp] theorem fecTranscript_audErr (q : FecQuery) (a : FecAnswer) (s : State) : (fecTranscript q a s).audErr = s.audErr := rfl
@[simp] theorem fecTranscript_syncMiss (q : FecQuery) (a : FecAnswer) (s : State) : (fecTranscript q a s).syncMiss = s.syncMiss := rfl
@[simp] theorem fecTranscript_algid (q : FecQuery) (a : FecAnswer) (s : State) : (fecTranscript q a s).algid = s.algid := rfl
@[simp] theorem fecTranscript_keyid (q : FecQuery) (a : FecAnswer) (s : State) : (fecTranscript q a s).keyid = s.keyid := rfl
@[simp] theorem fecTranscript_encPres (q : FecQuery) (a : FecAnswer) (s : State) : (fecTranscript q a s).encPres = s.encPres := rfl
@[simp] theorem fecTranscript_disc (q : FecQuery) (a : FecAnswer) (s : State) : (fecTranscript q a s).disc = s.disc := rfl
@[simp] theorem fecTranscript_discValid (q : FecQuery) (a : FecAnswer) (s : State) : (fecTranscript q a s).discValid = s.discValid := rfl
@[simp] theorem fecTranscript_sigw (q : FecQuery) (a : FecAnswer) (s : State) : (fecTranscript q a s).sigw = s.sigw := rfl
@[simp] theorem fecTranscript_sigc (q : FecQuery) (a : FecAnswer) (s : State) : (fecTranscript q a s).sigc = s.sigc := rfl
@[simp] theorem fecTranscript_sigbad (q : FecQuery) (a : FecAnswer) (s : State) : (fecTranscript q a s).sigbad = s.sigbad := rfl
@[simp] theorem fecTranscript_vm (q : FecQuery) (a : FecAnswer) (s : State) : (fecTranscript q a s).vm = s.vm := rfl
@[simp] theorem fecTranscript_vbad (q : FecQuery) (a : FecAnswer) (s : State) : (fecTranscript q a s).vbad = s.vbad := rfl
@[simp] theorem fecTranscript_inBuf (q : FecQuery) (a : FecAnswer) (s : State) : (fecTranscript q a s).inBuf = s.inBuf := rfl
@[simp] theorem fecTranscript_rdyLen (q : FecQuery) (a : FecAnswer) (s : State) : (fecTranscript q a s).rdyLen = s.rdyLen := rfl
@[simp] theorem fecTranscript_inOff (q : FecQuery) (a : FecAnswer) (s : State) : (fecTranscript q a s).inOff = s.inOff := rfl
@[simp] theorem fecTranscript_outRec (q : FecQuery) (a : FecAnswer) (s : State) : (fecTranscript q a s).outRec = s.outRec := rfl
@[simp] theorem fecTranscript_outLen (q : FecQuery) (a : FecAnswer) (s : State) : (fecTranscript q a s).outLen = s.outLen := rfl
@[simp] theorem fecTranscript_outOff (q : FecQuery) (a : FecAnswer) (s : State) : (fecTranscript q a s).outOff = s.outOff := rfl
@[simp] theorem fecTranscript_ctrl (q : FecQuery) (a : FecAnswer) (s : State) : (fecTranscript q a s).ctrl = s.ctrl := rfl
@[simp] theorem fecTranscript_thCenter (q : FecQuery) (a : FecAnswer) (s : State) : (fecTranscript q a s).thCenter = s.thCenter := rfl
@[simp] theorem fecTranscript_thUmid (q : FecQuery) (a : FecAnswer) (s : State) : (fecTranscript q a s).thUmid = s.thUmid := rfl
@[simp] theorem fecTranscript_thLmid (q : FecQuery) (a : FecAnswer) (s : State) : (fecTranscript q a s).thLmid = s.thLmid := rfl
@[simp] theorem fecTranscript_thBand (q : FecQuery) (a : FecAnswer) (s : State) : (fecTranscript q a s).thBand = s.thBand := rfl
@[simp] theorem fecTranscript_sliceMap (q : FecQuery) (a : FecAnswer) (s : State) : (fecTranscript q a s).sliceMap = s.sliceMap := rfl
@[simp] theorem fecTranscript_gm (q : FecQuery) (a : FecAnswer) (s : State) : (fecTranscript q a s).gm = s.gm := rfl
@[simp] theorem fecTranscript_turns (q : FecQuery) (a : FecAnswer) (s : State) : (fecTranscript q a s).turns = s.turns := rfl
@[simp] theorem fecTranscript_portP (q : FecQuery) (a : FecAnswer) (s : State) : (fecTranscript q a s).portP = s.portP := rfl
@[simp] theorem fecTranscript_portQ (q : FecQuery) (a : FecAnswer) (s : State) : (fecTranscript q a s).portQ = s.portQ := rfl
@[simp] theorem fecTranscript_qOut (q : FecQuery) (a : FecAnswer) (s : State) : (fecTranscript q a s).qOut = s.qOut := rfl
@[simp] theorem fecTranscript_fecOut (q : FecQuery) (a : FecAnswer) (s : State) : (fecTranscript q a s).fecOut = s.fecOut ++ queryWords q := rfl
@[simp] theorem fecTranscript_fecIn (q : FecQuery) (a : FecAnswer) (s : State) : (fecTranscript q a s).fecIn = s.fecIn ++ answerWords a q.raw.length := rfl
@[simp] theorem fecTranscript_nanDraws (q : FecQuery) (a : FecAnswer) (s : State) : (fecTranscript q a s).nanDraws = s.nanDraws := rfl
end fecTranscriptFields

section sigStartFields
@[simp] theorem sigStart_run (s : State) : (sigStart s).run = s.run := rfl
@[simp] theorem sigStart_halted (s : State) : (sigStart s).halted = s.halted := rfl
@[simp] theorem sigStart_locked (s : State) : (sigStart s).locked = s.locked := rfl
@[simp] theorem sigStart_gvalid (s : State) : (sigStart s).gvalid = s.gvalid := rfl
@[simp] theorem sigStart_fault (s : State) : (sigStart s).fault = s.fault := rfl
@[simp] theorem sigStart_j (s : State) : (sigStart s).j = s.j := rfl
@[simp] theorem sigStart_f (s : State) : (sigStart s).f = s.f := rfl
@[simp] theorem sigStart_kidx (s : State) : (sigStart s).kidx = s.kidx := rfl
@[simp] theorem sigStart_dbuf (s : State) : (sigStart s).dbuf = s.dbuf := rfl
@[simp] theorem sigStart_wp (s : State) : (sigStart s).wp = s.wp := rfl
@[simp] theorem sigStart_rp (s : State) : (sigStart s).rp = s.rp := rfl
@[simp] theorem sigStart_dbValid (s : State) : (sigStart s).dbValid = s.dbValid := rfl
@[simp] theorem sigStart_lastDibit (s : State) : (sigStart s).lastDibit = s.lastDibit := rfl
@[simp] theorem sigStart_ht (s : State) : (sigStart s).ht = s.ht := rfl
@[simp] theorem sigStart_bitCnt (s : State) : (sigStart s).bitCnt = s.bitCnt := rfl
@[simp] theorem sigStart_bitErr (s : State) : (sigStart s).bitErr = s.bitErr := rfl
@[simp] theorem sigStart_curslot (s : State) : (sigStart s).curslot = s.curslot := rfl
@[simp] theorem sigStart_lastsync (s : State) : (sigStart s).lastsync = s.lastsync := rfl
@[simp] theorem sigStart_slotst0 (s : State) : (sigStart s).slotst0 = s.slotst0 := rfl
@[simp] theorem sigStart_slotst1 (s : State) : (sigStart s).slotst1 = s.slotst1 := rfl
@[simp] theorem sigStart_muted (s : State) : (sigStart s).muted = s.muted := rfl
@[simp] theorem sigStart_firstframe (s : State) : (sigStart s).firstframe = s.firstframe := rfl
@[simp] theorem sigStart_hdrErr (s : State) : (sigStart s).hdrErr = s.hdrErr := rfl
@[simp] theorem sigStart_audErr (s : State) : (sigStart s).audErr = s.audErr := rfl
@[simp] theorem sigStart_syncMiss (s : State) : (sigStart s).syncMiss = s.syncMiss := rfl
@[simp] theorem sigStart_algid (s : State) : (sigStart s).algid = s.algid := rfl
@[simp] theorem sigStart_keyid (s : State) : (sigStart s).keyid = s.keyid := rfl
@[simp] theorem sigStart_encPres (s : State) : (sigStart s).encPres = s.encPres := rfl
@[simp] theorem sigStart_disc (s : State) : (sigStart s).disc = 0 := rfl
@[simp] theorem sigStart_discValid (s : State) : (sigStart s).discValid = false := rfl
@[simp] theorem sigStart_sigw (s : State) : (sigStart s).sigw = Vector.replicate 8 0 := rfl
@[simp] theorem sigStart_sigc (s : State) : (sigStart s).sigc = s.sigc := rfl
@[simp] theorem sigStart_sigbad (s : State) : (sigStart s).sigbad = false := rfl
@[simp] theorem sigStart_vm (s : State) : (sigStart s).vm = s.vm := rfl
@[simp] theorem sigStart_vbad (s : State) : (sigStart s).vbad = s.vbad := rfl
@[simp] theorem sigStart_inBuf (s : State) : (sigStart s).inBuf = s.inBuf := rfl
@[simp] theorem sigStart_rdyLen (s : State) : (sigStart s).rdyLen = s.rdyLen := rfl
@[simp] theorem sigStart_inOff (s : State) : (sigStart s).inOff = s.inOff := rfl
@[simp] theorem sigStart_outRec (s : State) : (sigStart s).outRec = s.outRec := rfl
@[simp] theorem sigStart_outLen (s : State) : (sigStart s).outLen = s.outLen := rfl
@[simp] theorem sigStart_outOff (s : State) : (sigStart s).outOff = s.outOff := rfl
@[simp] theorem sigStart_ctrl (s : State) : (sigStart s).ctrl = s.ctrl := rfl
@[simp] theorem sigStart_thCenter (s : State) : (sigStart s).thCenter = s.thCenter := rfl
@[simp] theorem sigStart_thUmid (s : State) : (sigStart s).thUmid = s.thUmid := rfl
@[simp] theorem sigStart_thLmid (s : State) : (sigStart s).thLmid = s.thLmid := rfl
@[simp] theorem sigStart_thBand (s : State) : (sigStart s).thBand = s.thBand := rfl
@[simp] theorem sigStart_sliceMap (s : State) : (sigStart s).sliceMap = s.sliceMap := rfl
@[simp] theorem sigStart_gm (s : State) : (sigStart s).gm = s.gm := rfl
@[simp] theorem sigStart_turns (s : State) : (sigStart s).turns = s.turns := rfl
@[simp] theorem sigStart_portP (s : State) : (sigStart s).portP = s.portP := rfl
@[simp] theorem sigStart_portQ (s : State) : (sigStart s).portQ = s.portQ := rfl
@[simp] theorem sigStart_qOut (s : State) : (sigStart s).qOut = s.qOut := rfl
@[simp] theorem sigStart_fecOut (s : State) : (sigStart s).fecOut = s.fecOut := rfl
@[simp] theorem sigStart_fecIn (s : State) : (sigStart s).fecIn = s.fecIn := rfl
@[simp] theorem sigStart_nanDraws (s : State) : (sigStart s).nanDraws = s.nanDraws := rfl
end sigStartFields

section sigFecFailFields
@[simp] theorem sigFecFail_run (P : Params) (s : State) : (sigFecFail P s).run = s.run := rfl
@[simp] theorem sigFecFail_halted (P : Params) (s : State) : (sigFecFail P s).halted = s.halted := rfl
@[simp] theorem sigFecFail_locked (P : Params) (s : State) : (sigFecFail P s).locked = s.locked := rfl
@[simp] theorem sigFecFail_gvalid (P : Params) (s : State) : (sigFecFail P s).gvalid = s.gvalid := rfl
@[simp] theorem sigFecFail_fault (P : Params) (s : State) : (sigFecFail P s).fault = s.fault := rfl
@[simp] theorem sigFecFail_j (P : Params) (s : State) : (sigFecFail P s).j = s.j := rfl
@[simp] theorem sigFecFail_f (P : Params) (s : State) : (sigFecFail P s).f = s.f := rfl
@[simp] theorem sigFecFail_kidx (P : Params) (s : State) : (sigFecFail P s).kidx = s.kidx := rfl
@[simp] theorem sigFecFail_dbuf (P : Params) (s : State) : (sigFecFail P s).dbuf = s.dbuf := rfl
@[simp] theorem sigFecFail_wp (P : Params) (s : State) : (sigFecFail P s).wp = s.wp := rfl
@[simp] theorem sigFecFail_rp (P : Params) (s : State) : (sigFecFail P s).rp = s.rp := rfl
@[simp] theorem sigFecFail_dbValid (P : Params) (s : State) : (sigFecFail P s).dbValid = s.dbValid := rfl
@[simp] theorem sigFecFail_lastDibit (P : Params) (s : State) : (sigFecFail P s).lastDibit = s.lastDibit := rfl
@[simp] theorem sigFecFail_ht (P : Params) (s : State) : (sigFecFail P s).ht = s.ht := rfl
@[simp] theorem sigFecFail_bitCnt (P : Params) (s : State) : (sigFecFail P s).bitCnt = s.bitCnt := rfl
@[simp] theorem sigFecFail_bitErr (P : Params) (s : State) : (sigFecFail P s).bitErr = s.bitErr := rfl
@[simp] theorem sigFecFail_curslot (P : Params) (s : State) : (sigFecFail P s).curslot = s.curslot := rfl
@[simp] theorem sigFecFail_lastsync (P : Params) (s : State) : (sigFecFail P s).lastsync = s.lastsync := rfl
@[simp] theorem sigFecFail_slotst0 (P : Params) (s : State) : (sigFecFail P s).slotst0 = s.slotst0 := rfl
@[simp] theorem sigFecFail_slotst1 (P : Params) (s : State) : (sigFecFail P s).slotst1 = s.slotst1 := rfl
@[simp] theorem sigFecFail_muted (P : Params) (s : State) : (sigFecFail P s).muted = s.muted := rfl
@[simp] theorem sigFecFail_firstframe (P : Params) (s : State) : (sigFecFail P s).firstframe = s.firstframe := rfl
@[simp] theorem sigFecFail_hdrErr (P : Params) (s : State) : (sigFecFail P s).hdrErr = satInc P s.hdrErr := rfl
@[simp] theorem sigFecFail_audErr (P : Params) (s : State) : (sigFecFail P s).audErr = s.audErr := rfl
@[simp] theorem sigFecFail_syncMiss (P : Params) (s : State) : (sigFecFail P s).syncMiss = s.syncMiss := rfl
@[simp] theorem sigFecFail_algid (P : Params) (s : State) : (sigFecFail P s).algid = s.algid := rfl
@[simp] theorem sigFecFail_keyid (P : Params) (s : State) : (sigFecFail P s).keyid = s.keyid := rfl
@[simp] theorem sigFecFail_encPres (P : Params) (s : State) : (sigFecFail P s).encPres = s.encPres := rfl
@[simp] theorem sigFecFail_disc (P : Params) (s : State) : (sigFecFail P s).disc = s.disc := rfl
@[simp] theorem sigFecFail_discValid (P : Params) (s : State) : (sigFecFail P s).discValid = s.discValid := rfl
@[simp] theorem sigFecFail_sigw (P : Params) (s : State) : (sigFecFail P s).sigw = s.sigw := rfl
@[simp] theorem sigFecFail_sigc (P : Params) (s : State) : (sigFecFail P s).sigc = s.sigc := rfl
@[simp] theorem sigFecFail_sigbad (P : Params) (s : State) : (sigFecFail P s).sigbad = true := rfl
@[simp] theorem sigFecFail_vm (P : Params) (s : State) : (sigFecFail P s).vm = s.vm := rfl
@[simp] theorem sigFecFail_vbad (P : Params) (s : State) : (sigFecFail P s).vbad = s.vbad := rfl
@[simp] theorem sigFecFail_inBuf (P : Params) (s : State) : (sigFecFail P s).inBuf = s.inBuf := rfl
@[simp] theorem sigFecFail_rdyLen (P : Params) (s : State) : (sigFecFail P s).rdyLen = s.rdyLen := rfl
@[simp] theorem sigFecFail_inOff (P : Params) (s : State) : (sigFecFail P s).inOff = s.inOff := rfl
@[simp] theorem sigFecFail_outRec (P : Params) (s : State) : (sigFecFail P s).outRec = s.outRec := rfl
@[simp] theorem sigFecFail_outLen (P : Params) (s : State) : (sigFecFail P s).outLen = s.outLen := rfl
@[simp] theorem sigFecFail_outOff (P : Params) (s : State) : (sigFecFail P s).outOff = s.outOff := rfl
@[simp] theorem sigFecFail_ctrl (P : Params) (s : State) : (sigFecFail P s).ctrl = s.ctrl := rfl
@[simp] theorem sigFecFail_thCenter (P : Params) (s : State) : (sigFecFail P s).thCenter = s.thCenter := rfl
@[simp] theorem sigFecFail_thUmid (P : Params) (s : State) : (sigFecFail P s).thUmid = s.thUmid := rfl
@[simp] theorem sigFecFail_thLmid (P : Params) (s : State) : (sigFecFail P s).thLmid = s.thLmid := rfl
@[simp] theorem sigFecFail_thBand (P : Params) (s : State) : (sigFecFail P s).thBand = s.thBand := rfl
@[simp] theorem sigFecFail_sliceMap (P : Params) (s : State) : (sigFecFail P s).sliceMap = s.sliceMap := rfl
@[simp] theorem sigFecFail_gm (P : Params) (s : State) : (sigFecFail P s).gm = s.gm := rfl
@[simp] theorem sigFecFail_turns (P : Params) (s : State) : (sigFecFail P s).turns = s.turns := rfl
@[simp] theorem sigFecFail_portP (P : Params) (s : State) : (sigFecFail P s).portP = s.portP := rfl
@[simp] theorem sigFecFail_portQ (P : Params) (s : State) : (sigFecFail P s).portQ = s.portQ := rfl
@[simp] theorem sigFecFail_qOut (P : Params) (s : State) : (sigFecFail P s).qOut = s.qOut := rfl
@[simp] theorem sigFecFail_fecOut (P : Params) (s : State) : (sigFecFail P s).fecOut = s.fecOut := rfl
@[simp] theorem sigFecFail_fecIn (P : Params) (s : State) : (sigFecFail P s).fecIn = s.fecIn := rfl
@[simp] theorem sigFecFail_nanDraws (P : Params) (s : State) : (sigFecFail P s).nanDraws = s.nanDraws := rfl
end sigFecFailFields

section sigDiscFields
@[simp] theorem sigDisc_run (l : List Dibit) (s : State) : (sigDisc l s).run = s.run := rfl
@[simp] theorem sigDisc_halted (l : List Dibit) (s : State) : (sigDisc l s).halted = s.halted := rfl
@[simp] theorem sigDisc_locked (l : List Dibit) (s : State) : (sigDisc l s).locked = s.locked := rfl
@[simp] theorem sigDisc_gvalid (l : List Dibit) (s : State) : (sigDisc l s).gvalid = s.gvalid := rfl
@[simp] theorem sigDisc_fault (l : List Dibit) (s : State) : (sigDisc l s).fault = s.fault := rfl
@[simp] theorem sigDisc_j (l : List Dibit) (s : State) : (sigDisc l s).j = s.j := rfl
@[simp] theorem sigDisc_f (l : List Dibit) (s : State) : (sigDisc l s).f = s.f := rfl
@[simp] theorem sigDisc_kidx (l : List Dibit) (s : State) : (sigDisc l s).kidx = s.kidx := rfl
@[simp] theorem sigDisc_dbuf (l : List Dibit) (s : State) : (sigDisc l s).dbuf = s.dbuf := rfl
@[simp] theorem sigDisc_wp (l : List Dibit) (s : State) : (sigDisc l s).wp = s.wp := rfl
@[simp] theorem sigDisc_rp (l : List Dibit) (s : State) : (sigDisc l s).rp = s.rp := rfl
@[simp] theorem sigDisc_dbValid (l : List Dibit) (s : State) : (sigDisc l s).dbValid = s.dbValid := rfl
@[simp] theorem sigDisc_lastDibit (l : List Dibit) (s : State) : (sigDisc l s).lastDibit = s.lastDibit := rfl
@[simp] theorem sigDisc_ht (l : List Dibit) (s : State) : (sigDisc l s).ht = s.ht := rfl
@[simp] theorem sigDisc_bitCnt (l : List Dibit) (s : State) : (sigDisc l s).bitCnt = s.bitCnt := rfl
@[simp] theorem sigDisc_bitErr (l : List Dibit) (s : State) : (sigDisc l s).bitErr = s.bitErr := rfl
@[simp] theorem sigDisc_curslot (l : List Dibit) (s : State) : (sigDisc l s).curslot = s.curslot := rfl
@[simp] theorem sigDisc_lastsync (l : List Dibit) (s : State) : (sigDisc l s).lastsync = s.lastsync := rfl
@[simp] theorem sigDisc_slotst0 (l : List Dibit) (s : State) : (sigDisc l s).slotst0 = s.slotst0 := rfl
@[simp] theorem sigDisc_slotst1 (l : List Dibit) (s : State) : (sigDisc l s).slotst1 = s.slotst1 := rfl
@[simp] theorem sigDisc_muted (l : List Dibit) (s : State) : (sigDisc l s).muted = s.muted := rfl
@[simp] theorem sigDisc_firstframe (l : List Dibit) (s : State) : (sigDisc l s).firstframe = s.firstframe := rfl
@[simp] theorem sigDisc_hdrErr (l : List Dibit) (s : State) : (sigDisc l s).hdrErr = s.hdrErr := rfl
@[simp] theorem sigDisc_audErr (l : List Dibit) (s : State) : (sigDisc l s).audErr = s.audErr := rfl
@[simp] theorem sigDisc_syncMiss (l : List Dibit) (s : State) : (sigDisc l s).syncMiss = s.syncMiss := rfl
@[simp] theorem sigDisc_algid (l : List Dibit) (s : State) : (sigDisc l s).algid = s.algid := rfl
@[simp] theorem sigDisc_keyid (l : List Dibit) (s : State) : (sigDisc l s).keyid = s.keyid := rfl
@[simp] theorem sigDisc_encPres (l : List Dibit) (s : State) : (sigDisc l s).encPres = s.encPres := rfl
@[simp] theorem sigDisc_discValid (l : List Dibit) (s : State) : (sigDisc l s).discValid = true := rfl
@[simp] theorem sigDisc_sigw (l : List Dibit) (s : State) : (sigDisc l s).sigw = s.sigw := rfl
@[simp] theorem sigDisc_sigc (l : List Dibit) (s : State) : (sigDisc l s).sigc = s.sigc := rfl
@[simp] theorem sigDisc_sigbad (l : List Dibit) (s : State) : (sigDisc l s).sigbad = s.sigbad := rfl
@[simp] theorem sigDisc_vm (l : List Dibit) (s : State) : (sigDisc l s).vm = s.vm := rfl
@[simp] theorem sigDisc_vbad (l : List Dibit) (s : State) : (sigDisc l s).vbad = s.vbad := rfl
@[simp] theorem sigDisc_inBuf (l : List Dibit) (s : State) : (sigDisc l s).inBuf = s.inBuf := rfl
@[simp] theorem sigDisc_rdyLen (l : List Dibit) (s : State) : (sigDisc l s).rdyLen = s.rdyLen := rfl
@[simp] theorem sigDisc_inOff (l : List Dibit) (s : State) : (sigDisc l s).inOff = s.inOff := rfl
@[simp] theorem sigDisc_outRec (l : List Dibit) (s : State) : (sigDisc l s).outRec = s.outRec := rfl
@[simp] theorem sigDisc_outLen (l : List Dibit) (s : State) : (sigDisc l s).outLen = s.outLen := rfl
@[simp] theorem sigDisc_outOff (l : List Dibit) (s : State) : (sigDisc l s).outOff = s.outOff := rfl
@[simp] theorem sigDisc_ctrl (l : List Dibit) (s : State) : (sigDisc l s).ctrl = s.ctrl := rfl
@[simp] theorem sigDisc_thCenter (l : List Dibit) (s : State) : (sigDisc l s).thCenter = s.thCenter := rfl
@[simp] theorem sigDisc_thUmid (l : List Dibit) (s : State) : (sigDisc l s).thUmid = s.thUmid := rfl
@[simp] theorem sigDisc_thLmid (l : List Dibit) (s : State) : (sigDisc l s).thLmid = s.thLmid := rfl
@[simp] theorem sigDisc_thBand (l : List Dibit) (s : State) : (sigDisc l s).thBand = s.thBand := rfl
@[simp] theorem sigDisc_sliceMap (l : List Dibit) (s : State) : (sigDisc l s).sliceMap = s.sliceMap := rfl
@[simp] theorem sigDisc_gm (l : List Dibit) (s : State) : (sigDisc l s).gm = s.gm := rfl
@[simp] theorem sigDisc_turns (l : List Dibit) (s : State) : (sigDisc l s).turns = s.turns := rfl
@[simp] theorem sigDisc_portP (l : List Dibit) (s : State) : (sigDisc l s).portP = s.portP := rfl
@[simp] theorem sigDisc_portQ (l : List Dibit) (s : State) : (sigDisc l s).portQ = s.portQ := rfl
@[simp] theorem sigDisc_qOut (l : List Dibit) (s : State) : (sigDisc l s).qOut = s.qOut := rfl
@[simp] theorem sigDisc_fecOut (l : List Dibit) (s : State) : (sigDisc l s).fecOut = s.fecOut := rfl
@[simp] theorem sigDisc_fecIn (l : List Dibit) (s : State) : (sigDisc l s).fecIn = s.fecIn := rfl
@[simp] theorem sigDisc_nanDraws (l : List Dibit) (s : State) : (sigDisc l s).nanDraws = s.nanDraws := rfl
end sigDiscFields

section takeTurnFields
@[simp] theorem takeTurn_run (s : State) : (takeTurn s).run = s.run := rfl
@[simp] theorem takeTurn_halted (s : State) : (takeTurn s).halted = s.halted := rfl
@[simp] theorem takeTurn_locked (s : State) : (takeTurn s).locked = s.locked := rfl
@[simp] theorem takeTurn_gvalid (s : State) : (takeTurn s).gvalid = s.gvalid := rfl
@[simp] theorem takeTurn_fault (s : State) : (takeTurn s).fault = s.fault := rfl
@[simp] theorem takeTurn_j (s : State) : (takeTurn s).j = s.j := rfl
@[simp] theorem takeTurn_f (s : State) : (takeTurn s).f = s.f := rfl
@[simp] theorem takeTurn_kidx (s : State) : (takeTurn s).kidx = s.kidx := rfl
@[simp] theorem takeTurn_dbuf (s : State) : (takeTurn s).dbuf = s.dbuf := rfl
@[simp] theorem takeTurn_wp (s : State) : (takeTurn s).wp = s.wp := rfl
@[simp] theorem takeTurn_rp (s : State) : (takeTurn s).rp = s.rp := rfl
@[simp] theorem takeTurn_dbValid (s : State) : (takeTurn s).dbValid = s.dbValid := rfl
@[simp] theorem takeTurn_lastDibit (s : State) : (takeTurn s).lastDibit = s.lastDibit := rfl
@[simp] theorem takeTurn_ht (s : State) : (takeTurn s).ht = s.ht := rfl
@[simp] theorem takeTurn_bitCnt (s : State) : (takeTurn s).bitCnt = s.bitCnt := rfl
@[simp] theorem takeTurn_bitErr (s : State) : (takeTurn s).bitErr = s.bitErr := rfl
@[simp] theorem takeTurn_curslot (s : State) : (takeTurn s).curslot = s.curslot := rfl
@[simp] theorem takeTurn_lastsync (s : State) : (takeTurn s).lastsync = s.lastsync := rfl
@[simp] theorem takeTurn_slotst0 (s : State) : (takeTurn s).slotst0 = s.slotst0 := rfl
@[simp] theorem takeTurn_slotst1 (s : State) : (takeTurn s).slotst1 = s.slotst1 := rfl
@[simp] theorem takeTurn_muted (s : State) : (takeTurn s).muted = s.muted := rfl
@[simp] theorem takeTurn_firstframe (s : State) : (takeTurn s).firstframe = s.firstframe := rfl
@[simp] theorem takeTurn_hdrErr (s : State) : (takeTurn s).hdrErr = s.hdrErr := rfl
@[simp] theorem takeTurn_audErr (s : State) : (takeTurn s).audErr = s.audErr := rfl
@[simp] theorem takeTurn_syncMiss (s : State) : (takeTurn s).syncMiss = s.syncMiss := rfl
@[simp] theorem takeTurn_algid (s : State) : (takeTurn s).algid = s.algid := rfl
@[simp] theorem takeTurn_keyid (s : State) : (takeTurn s).keyid = s.keyid := rfl
@[simp] theorem takeTurn_encPres (s : State) : (takeTurn s).encPres = s.encPres := rfl
@[simp] theorem takeTurn_disc (s : State) : (takeTurn s).disc = s.disc := rfl
@[simp] theorem takeTurn_discValid (s : State) : (takeTurn s).discValid = s.discValid := rfl
@[simp] theorem takeTurn_sigw (s : State) : (takeTurn s).sigw = s.sigw := rfl
@[simp] theorem takeTurn_sigc (s : State) : (takeTurn s).sigc = s.sigc := rfl
@[simp] theorem takeTurn_sigbad (s : State) : (takeTurn s).sigbad = s.sigbad := rfl
@[simp] theorem takeTurn_vm (s : State) : (takeTurn s).vm = s.vm := rfl
@[simp] theorem takeTurn_vbad (s : State) : (takeTurn s).vbad = s.vbad := rfl
@[simp] theorem takeTurn_inBuf (s : State) : (takeTurn s).inBuf = s.inBuf := rfl
@[simp] theorem takeTurn_rdyLen (s : State) : (takeTurn s).rdyLen = s.rdyLen := rfl
@[simp] theorem takeTurn_inOff (s : State) : (takeTurn s).inOff = s.inOff := rfl
@[simp] theorem takeTurn_outRec (s : State) : (takeTurn s).outRec = s.outRec := rfl
@[simp] theorem takeTurn_outLen (s : State) : (takeTurn s).outLen = s.outLen := rfl
@[simp] theorem takeTurn_outOff (s : State) : (takeTurn s).outOff = s.outOff := rfl
@[simp] theorem takeTurn_ctrl (s : State) : (takeTurn s).ctrl = s.ctrl := rfl
@[simp] theorem takeTurn_thCenter (s : State) : (takeTurn s).thCenter = s.thCenter := rfl
@[simp] theorem takeTurn_thUmid (s : State) : (takeTurn s).thUmid = s.thUmid := rfl
@[simp] theorem takeTurn_thLmid (s : State) : (takeTurn s).thLmid = s.thLmid := rfl
@[simp] theorem takeTurn_thBand (s : State) : (takeTurn s).thBand = s.thBand := rfl
@[simp] theorem takeTurn_sliceMap (s : State) : (takeTurn s).sliceMap = s.sliceMap := rfl
@[simp] theorem takeTurn_gm (s : State) : (takeTurn s).gm = s.gm := rfl
@[simp] theorem takeTurn_turns (s : State) : (takeTurn s).turns = s.turns.tail := rfl
@[simp] theorem takeTurn_portP (s : State) : (takeTurn s).portP = s.portP := rfl
@[simp] theorem takeTurn_portQ (s : State) : (takeTurn s).portQ = s.portQ := rfl
@[simp] theorem takeTurn_qOut (s : State) : (takeTurn s).qOut = s.qOut := rfl
@[simp] theorem takeTurn_fecOut (s : State) : (takeTurn s).fecOut = s.fecOut := rfl
@[simp] theorem takeTurn_fecIn (s : State) : (takeTurn s).fecIn = s.fecIn := rfl
@[simp] theorem takeTurn_nanDraws (s : State) : (takeTurn s).nanDraws = s.nanDraws := rfl
end takeTurnFields

section haltStepFields
@[simp] theorem haltStep_run (s : State) : (haltStep s).run = s.run := rfl
@[simp] theorem haltStep_halted (s : State) : (haltStep s).halted = true := rfl
@[simp] theorem haltStep_locked (s : State) : (haltStep s).locked = s.locked := rfl
@[simp] theorem haltStep_gvalid (s : State) : (haltStep s).gvalid = s.gvalid := rfl
@[simp] theorem haltStep_fault (s : State) : (haltStep s).fault = s.fault := rfl
@[simp] theorem haltStep_j (s : State) : (haltStep s).j = s.j := rfl
@[simp] theorem haltStep_f (s : State) : (haltStep s).f = s.f := rfl
@[simp] theorem haltStep_kidx (s : State) : (haltStep s).kidx = s.kidx := rfl
@[simp] theorem haltStep_dbuf (s : State) : (haltStep s).dbuf = s.dbuf := rfl
@[simp] theorem haltStep_wp (s : State) : (haltStep s).wp = s.wp := rfl
@[simp] theorem haltStep_rp (s : State) : (haltStep s).rp = s.rp := rfl
@[simp] theorem haltStep_dbValid (s : State) : (haltStep s).dbValid = s.dbValid := rfl
@[simp] theorem haltStep_lastDibit (s : State) : (haltStep s).lastDibit = s.lastDibit := rfl
@[simp] theorem haltStep_ht (s : State) : (haltStep s).ht = s.ht := rfl
@[simp] theorem haltStep_bitCnt (s : State) : (haltStep s).bitCnt = s.bitCnt := rfl
@[simp] theorem haltStep_bitErr (s : State) : (haltStep s).bitErr = s.bitErr := rfl
@[simp] theorem haltStep_curslot (s : State) : (haltStep s).curslot = s.curslot := rfl
@[simp] theorem haltStep_lastsync (s : State) : (haltStep s).lastsync = s.lastsync := rfl
@[simp] theorem haltStep_slotst0 (s : State) : (haltStep s).slotst0 = s.slotst0 := rfl
@[simp] theorem haltStep_slotst1 (s : State) : (haltStep s).slotst1 = s.slotst1 := rfl
@[simp] theorem haltStep_muted (s : State) : (haltStep s).muted = s.muted := rfl
@[simp] theorem haltStep_firstframe (s : State) : (haltStep s).firstframe = s.firstframe := rfl
@[simp] theorem haltStep_hdrErr (s : State) : (haltStep s).hdrErr = s.hdrErr := rfl
@[simp] theorem haltStep_audErr (s : State) : (haltStep s).audErr = s.audErr := rfl
@[simp] theorem haltStep_syncMiss (s : State) : (haltStep s).syncMiss = s.syncMiss := rfl
@[simp] theorem haltStep_algid (s : State) : (haltStep s).algid = s.algid := rfl
@[simp] theorem haltStep_keyid (s : State) : (haltStep s).keyid = s.keyid := rfl
@[simp] theorem haltStep_encPres (s : State) : (haltStep s).encPres = s.encPres := rfl
@[simp] theorem haltStep_disc (s : State) : (haltStep s).disc = s.disc := rfl
@[simp] theorem haltStep_discValid (s : State) : (haltStep s).discValid = s.discValid := rfl
@[simp] theorem haltStep_sigw (s : State) : (haltStep s).sigw = s.sigw := rfl
@[simp] theorem haltStep_sigc (s : State) : (haltStep s).sigc = s.sigc := rfl
@[simp] theorem haltStep_sigbad (s : State) : (haltStep s).sigbad = s.sigbad := rfl
@[simp] theorem haltStep_vm (s : State) : (haltStep s).vm = s.vm := rfl
@[simp] theorem haltStep_vbad (s : State) : (haltStep s).vbad = s.vbad := rfl
@[simp] theorem haltStep_inBuf (s : State) : (haltStep s).inBuf = s.inBuf := rfl
@[simp] theorem haltStep_rdyLen (s : State) : (haltStep s).rdyLen = s.rdyLen := rfl
@[simp] theorem haltStep_inOff (s : State) : (haltStep s).inOff = s.inOff := rfl
@[simp] theorem haltStep_outRec (s : State) : (haltStep s).outRec = s.outRec := rfl
@[simp] theorem haltStep_outLen (s : State) : (haltStep s).outLen = s.outLen := rfl
@[simp] theorem haltStep_outOff (s : State) : (haltStep s).outOff = s.outOff := rfl
@[simp] theorem haltStep_ctrl (s : State) : (haltStep s).ctrl = s.ctrl := rfl
@[simp] theorem haltStep_thCenter (s : State) : (haltStep s).thCenter = s.thCenter := rfl
@[simp] theorem haltStep_thUmid (s : State) : (haltStep s).thUmid = s.thUmid := rfl
@[simp] theorem haltStep_thLmid (s : State) : (haltStep s).thLmid = s.thLmid := rfl
@[simp] theorem haltStep_thBand (s : State) : (haltStep s).thBand = s.thBand := rfl
@[simp] theorem haltStep_sliceMap (s : State) : (haltStep s).sliceMap = s.sliceMap := rfl
@[simp] theorem haltStep_gm (s : State) : (haltStep s).gm = s.gm := rfl
@[simp] theorem haltStep_turns (s : State) : (haltStep s).turns = s.turns := rfl
@[simp] theorem haltStep_portP (s : State) : (haltStep s).portP = s.portP := rfl
@[simp] theorem haltStep_portQ (s : State) : (haltStep s).portQ = s.portQ := rfl
@[simp] theorem haltStep_qOut (s : State) : (haltStep s).qOut = s.qOut := rfl
@[simp] theorem haltStep_fecOut (s : State) : (haltStep s).fecOut = s.fecOut := rfl
@[simp] theorem haltStep_fecIn (s : State) : (haltStep s).fecIn = s.fecIn := rfl
@[simp] theorem haltStep_nanDraws (s : State) : (haltStep s).nanDraws = s.nanDraws := rfl
end haltStepFields

section voiceBeginFields
@[simp] theorem voiceBegin_run (b : BitVec 6) (s : State) : (voiceBegin b s).run = s.run := by unfold voiceBegin; split <;> rfl
@[simp] theorem voiceBegin_halted (b : BitVec 6) (s : State) : (voiceBegin b s).halted = s.halted := by unfold voiceBegin; split <;> rfl
@[simp] theorem voiceBegin_locked (b : BitVec 6) (s : State) : (voiceBegin b s).locked = s.locked := by unfold voiceBegin; split <;> rfl
@[simp] theorem voiceBegin_gvalid (b : BitVec 6) (s : State) : (voiceBegin b s).gvalid = s.gvalid := by unfold voiceBegin; split <;> rfl
@[simp] theorem voiceBegin_fault (b : BitVec 6) (s : State) : (voiceBegin b s).fault = s.fault := by unfold voiceBegin; split <;> rfl
@[simp] theorem voiceBegin_j (b : BitVec 6) (s : State) : (voiceBegin b s).j = s.j := by unfold voiceBegin; split <;> rfl
@[simp] theorem voiceBegin_f (b : BitVec 6) (s : State) : (voiceBegin b s).f = s.f := by unfold voiceBegin; split <;> rfl
@[simp] theorem voiceBegin_kidx (b : BitVec 6) (s : State) : (voiceBegin b s).kidx = s.kidx := by unfold voiceBegin; split <;> rfl
@[simp] theorem voiceBegin_dbuf (b : BitVec 6) (s : State) : (voiceBegin b s).dbuf = s.dbuf := by unfold voiceBegin; split <;> rfl
@[simp] theorem voiceBegin_wp (b : BitVec 6) (s : State) : (voiceBegin b s).wp = s.wp := by unfold voiceBegin; split <;> rfl
@[simp] theorem voiceBegin_rp (b : BitVec 6) (s : State) : (voiceBegin b s).rp = s.rp := by unfold voiceBegin; split <;> rfl
@[simp] theorem voiceBegin_dbValid (b : BitVec 6) (s : State) : (voiceBegin b s).dbValid = s.dbValid := by unfold voiceBegin; split <;> rfl
@[simp] theorem voiceBegin_lastDibit (b : BitVec 6) (s : State) : (voiceBegin b s).lastDibit = s.lastDibit := by unfold voiceBegin; split <;> rfl
@[simp] theorem voiceBegin_ht (b : BitVec 6) (s : State) : (voiceBegin b s).ht = s.ht := by unfold voiceBegin; split <;> rfl
@[simp] theorem voiceBegin_bitCnt (b : BitVec 6) (s : State) : (voiceBegin b s).bitCnt = s.bitCnt := by unfold voiceBegin; split <;> rfl
@[simp] theorem voiceBegin_bitErr (b : BitVec 6) (s : State) : (voiceBegin b s).bitErr = s.bitErr := by unfold voiceBegin; split <;> rfl
@[simp] theorem voiceBegin_curslot (b : BitVec 6) (s : State) : (voiceBegin b s).curslot = s.curslot := by unfold voiceBegin; split <;> rfl
@[simp] theorem voiceBegin_lastsync (b : BitVec 6) (s : State) : (voiceBegin b s).lastsync = s.lastsync := by unfold voiceBegin; split <;> rfl
@[simp] theorem voiceBegin_slotst0 (b : BitVec 6) (s : State) : (voiceBegin b s).slotst0 = s.slotst0 := by unfold voiceBegin; split <;> rfl
@[simp] theorem voiceBegin_slotst1 (b : BitVec 6) (s : State) : (voiceBegin b s).slotst1 = s.slotst1 := by unfold voiceBegin; split <;> rfl
@[simp] theorem voiceBegin_muted (b : BitVec 6) (s : State) : (voiceBegin b s).muted = s.muted := by unfold voiceBegin; split <;> rfl
@[simp] theorem voiceBegin_firstframe (b : BitVec 6) (s : State) : (voiceBegin b s).firstframe = s.firstframe := by unfold voiceBegin; split <;> rfl
@[simp] theorem voiceBegin_hdrErr (b : BitVec 6) (s : State) : (voiceBegin b s).hdrErr = s.hdrErr := by unfold voiceBegin; split <;> rfl
@[simp] theorem voiceBegin_audErr (b : BitVec 6) (s : State) : (voiceBegin b s).audErr = s.audErr := by unfold voiceBegin; split <;> rfl
@[simp] theorem voiceBegin_syncMiss (b : BitVec 6) (s : State) : (voiceBegin b s).syncMiss = s.syncMiss := by unfold voiceBegin; split <;> rfl
@[simp] theorem voiceBegin_algid (b : BitVec 6) (s : State) : (voiceBegin b s).algid = s.algid := by unfold voiceBegin; split <;> rfl
@[simp] theorem voiceBegin_keyid (b : BitVec 6) (s : State) : (voiceBegin b s).keyid = s.keyid := by unfold voiceBegin; split <;> rfl
@[simp] theorem voiceBegin_encPres (b : BitVec 6) (s : State) : (voiceBegin b s).encPres = s.encPres := by unfold voiceBegin; split <;> rfl
@[simp] theorem voiceBegin_disc (b : BitVec 6) (s : State) : (voiceBegin b s).disc = s.disc := by unfold voiceBegin; split <;> rfl
@[simp] theorem voiceBegin_discValid (b : BitVec 6) (s : State) : (voiceBegin b s).discValid = s.discValid := by unfold voiceBegin; split <;> rfl
@[simp] theorem voiceBegin_sigw (b : BitVec 6) (s : State) : (voiceBegin b s).sigw = s.sigw := by unfold voiceBegin; split <;> rfl
@[simp] theorem voiceBegin_sigc (b : BitVec 6) (s : State) : (voiceBegin b s).sigc = s.sigc := by unfold voiceBegin; split <;> rfl
@[simp] theorem voiceBegin_sigbad (b : BitVec 6) (s : State) : (voiceBegin b s).sigbad = s.sigbad := by unfold voiceBegin; split <;> rfl
@[simp] theorem voiceBegin_inBuf (b : BitVec 6) (s : State) : (voiceBegin b s).inBuf = s.inBuf := by unfold voiceBegin; split <;> rfl
@[simp] theorem voiceBegin_rdyLen (b : BitVec 6) (s : State) : (voiceBegin b s).rdyLen = s.rdyLen := by unfold voiceBegin; split <;> rfl
@[simp] theorem voiceBegin_inOff (b : BitVec 6) (s : State) : (voiceBegin b s).inOff = s.inOff := by unfold voiceBegin; split <;> rfl
@[simp] theorem voiceBegin_outRec (b : BitVec 6) (s : State) : (voiceBegin b s).outRec = s.outRec := by unfold voiceBegin; split <;> rfl
@[simp] theorem voiceBegin_outLen (b : BitVec 6) (s : State) : (voiceBegin b s).outLen = s.outLen := by unfold voiceBegin; split <;> rfl
@[simp] theorem voiceBegin_outOff (b : BitVec 6) (s : State) : (voiceBegin b s).outOff = s.outOff := by unfold voiceBegin; split <;> rfl
@[simp] theorem voiceBegin_ctrl (b : BitVec 6) (s : State) : (voiceBegin b s).ctrl = s.ctrl := by unfold voiceBegin; split <;> rfl
@[simp] theorem voiceBegin_thCenter (b : BitVec 6) (s : State) : (voiceBegin b s).thCenter = s.thCenter := by unfold voiceBegin; split <;> rfl
@[simp] theorem voiceBegin_thUmid (b : BitVec 6) (s : State) : (voiceBegin b s).thUmid = s.thUmid := by unfold voiceBegin; split <;> rfl
@[simp] theorem voiceBegin_thLmid (b : BitVec 6) (s : State) : (voiceBegin b s).thLmid = s.thLmid := by unfold voiceBegin; split <;> rfl
@[simp] theorem voiceBegin_thBand (b : BitVec 6) (s : State) : (voiceBegin b s).thBand = s.thBand := by unfold voiceBegin; split <;> rfl
@[simp] theorem voiceBegin_sliceMap (b : BitVec 6) (s : State) : (voiceBegin b s).sliceMap = s.sliceMap := by unfold voiceBegin; split <;> rfl
@[simp] theorem voiceBegin_gm (b : BitVec 6) (s : State) : (voiceBegin b s).gm = s.gm := by unfold voiceBegin; split <;> rfl
@[simp] theorem voiceBegin_turns (b : BitVec 6) (s : State) : (voiceBegin b s).turns = s.turns := by unfold voiceBegin; split <;> rfl
@[simp] theorem voiceBegin_portP (b : BitVec 6) (s : State) : (voiceBegin b s).portP = s.portP := by unfold voiceBegin; split <;> rfl
@[simp] theorem voiceBegin_portQ (b : BitVec 6) (s : State) : (voiceBegin b s).portQ = s.portQ := by unfold voiceBegin; split <;> rfl
@[simp] theorem voiceBegin_qOut (b : BitVec 6) (s : State) : (voiceBegin b s).qOut = s.qOut := by unfold voiceBegin; split <;> rfl
@[simp] theorem voiceBegin_fecOut (b : BitVec 6) (s : State) : (voiceBegin b s).fecOut = s.fecOut := by unfold voiceBegin; split <;> rfl
@[simp] theorem voiceBegin_fecIn (b : BitVec 6) (s : State) : (voiceBegin b s).fecIn = s.fecIn := by unfold voiceBegin; split <;> rfl
@[simp] theorem voiceBegin_nanDraws (b : BitVec 6) (s : State) : (voiceBegin b s).nanDraws = s.nanDraws := by unfold voiceBegin; split <;> rfl
end voiceBeginFields

section setSlotStatusFields
@[simp] theorem setSlotStatus_run (c : BitVec 2) (s : State) : (setSlotStatus c s).run = s.run := by unfold setSlotStatus; split <;> rfl
@[simp] theorem setSlotStatus_halted (c : BitVec 2) (s : State) : (setSlotStatus c s).halted = s.halted := by unfold setSlotStatus; split <;> rfl
@[simp] theorem setSlotStatus_locked (c : BitVec 2) (s : State) : (setSlotStatus c s).locked = s.locked := by unfold setSlotStatus; split <;> rfl
@[simp] theorem setSlotStatus_gvalid (c : BitVec 2) (s : State) : (setSlotStatus c s).gvalid = s.gvalid := by unfold setSlotStatus; split <;> rfl
@[simp] theorem setSlotStatus_fault (c : BitVec 2) (s : State) : (setSlotStatus c s).fault = s.fault := by unfold setSlotStatus; split <;> rfl
@[simp] theorem setSlotStatus_j (c : BitVec 2) (s : State) : (setSlotStatus c s).j = s.j := by unfold setSlotStatus; split <;> rfl
@[simp] theorem setSlotStatus_f (c : BitVec 2) (s : State) : (setSlotStatus c s).f = s.f := by unfold setSlotStatus; split <;> rfl
@[simp] theorem setSlotStatus_kidx (c : BitVec 2) (s : State) : (setSlotStatus c s).kidx = s.kidx := by unfold setSlotStatus; split <;> rfl
@[simp] theorem setSlotStatus_dbuf (c : BitVec 2) (s : State) : (setSlotStatus c s).dbuf = s.dbuf := by unfold setSlotStatus; split <;> rfl
@[simp] theorem setSlotStatus_wp (c : BitVec 2) (s : State) : (setSlotStatus c s).wp = s.wp := by unfold setSlotStatus; split <;> rfl
@[simp] theorem setSlotStatus_rp (c : BitVec 2) (s : State) : (setSlotStatus c s).rp = s.rp := by unfold setSlotStatus; split <;> rfl
@[simp] theorem setSlotStatus_dbValid (c : BitVec 2) (s : State) : (setSlotStatus c s).dbValid = s.dbValid := by unfold setSlotStatus; split <;> rfl
@[simp] theorem setSlotStatus_lastDibit (c : BitVec 2) (s : State) : (setSlotStatus c s).lastDibit = s.lastDibit := by unfold setSlotStatus; split <;> rfl
@[simp] theorem setSlotStatus_ht (c : BitVec 2) (s : State) : (setSlotStatus c s).ht = s.ht := by unfold setSlotStatus; split <;> rfl
@[simp] theorem setSlotStatus_bitCnt (c : BitVec 2) (s : State) : (setSlotStatus c s).bitCnt = s.bitCnt := by unfold setSlotStatus; split <;> rfl
@[simp] theorem setSlotStatus_bitErr (c : BitVec 2) (s : State) : (setSlotStatus c s).bitErr = s.bitErr := by unfold setSlotStatus; split <;> rfl
@[simp] theorem setSlotStatus_curslot (c : BitVec 2) (s : State) : (setSlotStatus c s).curslot = s.curslot := by unfold setSlotStatus; split <;> rfl
@[simp] theorem setSlotStatus_lastsync (c : BitVec 2) (s : State) : (setSlotStatus c s).lastsync = s.lastsync := by unfold setSlotStatus; split <;> rfl
@[simp] theorem setSlotStatus_muted (c : BitVec 2) (s : State) : (setSlotStatus c s).muted = s.muted := by unfold setSlotStatus; split <;> rfl
@[simp] theorem setSlotStatus_firstframe (c : BitVec 2) (s : State) : (setSlotStatus c s).firstframe = s.firstframe := by unfold setSlotStatus; split <;> rfl
@[simp] theorem setSlotStatus_hdrErr (c : BitVec 2) (s : State) : (setSlotStatus c s).hdrErr = s.hdrErr := by unfold setSlotStatus; split <;> rfl
@[simp] theorem setSlotStatus_audErr (c : BitVec 2) (s : State) : (setSlotStatus c s).audErr = s.audErr := by unfold setSlotStatus; split <;> rfl
@[simp] theorem setSlotStatus_syncMiss (c : BitVec 2) (s : State) : (setSlotStatus c s).syncMiss = s.syncMiss := by unfold setSlotStatus; split <;> rfl
@[simp] theorem setSlotStatus_algid (c : BitVec 2) (s : State) : (setSlotStatus c s).algid = s.algid := by unfold setSlotStatus; split <;> rfl
@[simp] theorem setSlotStatus_keyid (c : BitVec 2) (s : State) : (setSlotStatus c s).keyid = s.keyid := by unfold setSlotStatus; split <;> rfl
@[simp] theorem setSlotStatus_encPres (c : BitVec 2) (s : State) : (setSlotStatus c s).encPres = s.encPres := by unfold setSlotStatus; split <;> rfl
@[simp] theorem setSlotStatus_disc (c : BitVec 2) (s : State) : (setSlotStatus c s).disc = s.disc := by unfold setSlotStatus; split <;> rfl
@[simp] theorem setSlotStatus_discValid (c : BitVec 2) (s : State) : (setSlotStatus c s).discValid = s.discValid := by unfold setSlotStatus; split <;> rfl
@[simp] theorem setSlotStatus_sigw (c : BitVec 2) (s : State) : (setSlotStatus c s).sigw = s.sigw := by unfold setSlotStatus; split <;> rfl
@[simp] theorem setSlotStatus_sigc (c : BitVec 2) (s : State) : (setSlotStatus c s).sigc = s.sigc := by unfold setSlotStatus; split <;> rfl
@[simp] theorem setSlotStatus_sigbad (c : BitVec 2) (s : State) : (setSlotStatus c s).sigbad = s.sigbad := by unfold setSlotStatus; split <;> rfl
@[simp] theorem setSlotStatus_vm (c : BitVec 2) (s : State) : (setSlotStatus c s).vm = s.vm := by unfold setSlotStatus; split <;> rfl
@[simp] theorem setSlotStatus_vbad (c : BitVec 2) (s : State) : (setSlotStatus c s).vbad = s.vbad := by unfold setSlotStatus; split <;> rfl
@[simp] theorem setSlotStatus_inBuf (c : BitVec 2) (s : State) : (setSlotStatus c s).inBuf = s.inBuf := by unfold setSlotStatus; split <;> rfl
@[simp] theorem setSlotStatus_rdyLen (c : BitVec 2) (s : State) : (setSlotStatus c s).rdyLen = s.rdyLen := by unfold setSlotStatus; split <;> rfl
@[simp] theorem setSlotStatus_inOff (c : BitVec 2) (s : State) : (setSlotStatus c s).inOff = s.inOff := by unfold setSlotStatus; split <;> rfl
@[simp] theorem setSlotStatus_outRec (c : BitVec 2) (s : State) : (setSlotStatus c s).outRec = s.outRec := by unfold setSlotStatus; split <;> rfl
@[simp] theorem setSlotStatus_outLen (c : BitVec 2) (s : State) : (setSlotStatus c s).outLen = s.outLen := by unfold setSlotStatus; split <;> rfl
@[simp] theorem setSlotStatus_outOff (c : BitVec 2) (s : State) : (setSlotStatus c s).outOff = s.outOff := by unfold setSlotStatus; split <;> rfl
@[simp] theorem setSlotStatus_ctrl (c : BitVec 2) (s : State) : (setSlotStatus c s).ctrl = s.ctrl := by unfold setSlotStatus; split <;> rfl
@[simp] theorem setSlotStatus_thCenter (c : BitVec 2) (s : State) : (setSlotStatus c s).thCenter = s.thCenter := by unfold setSlotStatus; split <;> rfl
@[simp] theorem setSlotStatus_thUmid (c : BitVec 2) (s : State) : (setSlotStatus c s).thUmid = s.thUmid := by unfold setSlotStatus; split <;> rfl
@[simp] theorem setSlotStatus_thLmid (c : BitVec 2) (s : State) : (setSlotStatus c s).thLmid = s.thLmid := by unfold setSlotStatus; split <;> rfl
@[simp] theorem setSlotStatus_thBand (c : BitVec 2) (s : State) : (setSlotStatus c s).thBand = s.thBand := by unfold setSlotStatus; split <;> rfl
@[simp] theorem setSlotStatus_sliceMap (c : BitVec 2) (s : State) : (setSlotStatus c s).sliceMap = s.sliceMap := by unfold setSlotStatus; split <;> rfl
@[simp] theorem setSlotStatus_gm (c : BitVec 2) (s : State) : (setSlotStatus c s).gm = s.gm := by unfold setSlotStatus; split <;> rfl
@[simp] theorem setSlotStatus_turns (c : BitVec 2) (s : State) : (setSlotStatus c s).turns = s.turns := by unfold setSlotStatus; split <;> rfl
@[simp] theorem setSlotStatus_portP (c : BitVec 2) (s : State) : (setSlotStatus c s).portP = s.portP := by unfold setSlotStatus; split <;> rfl
@[simp] theorem setSlotStatus_portQ (c : BitVec 2) (s : State) : (setSlotStatus c s).portQ = s.portQ := by unfold setSlotStatus; split <;> rfl
@[simp] theorem setSlotStatus_qOut (c : BitVec 2) (s : State) : (setSlotStatus c s).qOut = s.qOut := by unfold setSlotStatus; split <;> rfl
@[simp] theorem setSlotStatus_fecOut (c : BitVec 2) (s : State) : (setSlotStatus c s).fecOut = s.fecOut := by unfold setSlotStatus; split <;> rfl
@[simp] theorem setSlotStatus_fecIn (c : BitVec 2) (s : State) : (setSlotStatus c s).fecIn = s.fecIn := by unfold setSlotStatus; split <;> rfl
@[simp] theorem setSlotStatus_nanDraws (c : BitVec 2) (s : State) : (setSlotStatus c s).nanDraws = s.nanDraws := by unfold setSlotStatus; split <;> rfl
end setSlotStatusFields

section syncMatchedFields
@[simp] theorem syncMatched_run (k : Nat) (s : State) : (syncMatched k s).run = s.run := by unfold syncMatched; split <;> simp [*]
@[simp] theorem syncMatched_halted (k : Nat) (s : State) : (syncMatched k s).halted = s.halted := by unfold syncMatched; split <;> simp [*]
@[simp] theorem syncMatched_locked (k : Nat) (s : State) : (syncMatched k s).locked = s.locked := by unfold syncMatched; split <;> simp [*]
@[simp] theorem syncMatched_gvalid (k : Nat) (s : State) : (syncMatched k s).gvalid = s.gvalid := by unfold syncMatched; split <;> simp [*]
@[simp] theorem syncMatched_fault (k : Nat) (s : State) : (syncMatched k s).fault = s.fault := by unfold syncMatched; split <;> simp [*]
@[simp] theorem syncMatched_j (k : Nat) (s : State) : (syncMatched k s).j = s.j := by unfold syncMatched; split <;> simp [*]
@[simp] theorem syncMatched_f (k : Nat) (s : State) : (syncMatched k s).f = s.f := by unfold syncMatched; split <;> simp [*]
@[simp] theorem syncMatched_kidx (k : Nat) (s : State) : (syncMatched k s).kidx = s.kidx := by unfold syncMatched; split <;> simp [*]
@[simp] theorem syncMatched_dbuf (k : Nat) (s : State) : (syncMatched k s).dbuf = s.dbuf := by unfold syncMatched; split <;> simp [*]
@[simp] theorem syncMatched_wp (k : Nat) (s : State) : (syncMatched k s).wp = s.wp := by unfold syncMatched; split <;> simp [*]
@[simp] theorem syncMatched_rp (k : Nat) (s : State) : (syncMatched k s).rp = s.rp := by unfold syncMatched; split <;> simp [*]
@[simp] theorem syncMatched_dbValid (k : Nat) (s : State) : (syncMatched k s).dbValid = s.dbValid := by unfold syncMatched; split <;> simp [*]
@[simp] theorem syncMatched_lastDibit (k : Nat) (s : State) : (syncMatched k s).lastDibit = s.lastDibit := by unfold syncMatched; split <;> simp [*]
@[simp] theorem syncMatched_ht (k : Nat) (s : State) : (syncMatched k s).ht = s.ht := by unfold syncMatched; split <;> simp [*]
@[simp] theorem syncMatched_bitCnt (k : Nat) (s : State) : (syncMatched k s).bitCnt = s.bitCnt := by unfold syncMatched; split <;> simp [*]
@[simp] theorem syncMatched_bitErr (k : Nat) (s : State) : (syncMatched k s).bitErr = s.bitErr := by unfold syncMatched; split <;> simp [*]
@[simp] theorem syncMatched_curslot (k : Nat) (s : State) : (syncMatched k s).curslot = s.curslot := by unfold syncMatched; split <;> simp [*]
@[simp] theorem syncMatched_lastsync (k : Nat) (s : State) : (syncMatched k s).lastsync = gType s.gm k := by unfold syncMatched; split <;> simp [*]
@[simp] theorem syncMatched_muted (k : Nat) (s : State) : (syncMatched k s).muted = gClassData s.gm k := by unfold syncMatched; split <;> simp [*]
@[simp] theorem syncMatched_firstframe (k : Nat) (s : State) : (syncMatched k s).firstframe = s.firstframe := by unfold syncMatched; split <;> simp [*]
@[simp] theorem syncMatched_hdrErr (k : Nat) (s : State) : (syncMatched k s).hdrErr = s.hdrErr := by unfold syncMatched; split <;> simp [*]
@[simp] theorem syncMatched_audErr (k : Nat) (s : State) : (syncMatched k s).audErr = s.audErr := by unfold syncMatched; split <;> simp [*]
@[simp] theorem syncMatched_syncMiss (k : Nat) (s : State) : (syncMatched k s).syncMiss = s.syncMiss := by unfold syncMatched; split <;> simp [*]
@[simp] theorem syncMatched_algid (k : Nat) (s : State) : (syncMatched k s).algid = s.algid := by unfold syncMatched; split <;> simp [*]
@[simp] theorem syncMatched_keyid (k : Nat) (s : State) : (syncMatched k s).keyid = s.keyid := by unfold syncMatched; split <;> simp [*]
@[simp] theorem syncMatched_encPres (k : Nat) (s : State) : (syncMatched k s).encPres = s.encPres := by unfold syncMatched; split <;> simp [*]
@[simp] theorem syncMatched_disc (k : Nat) (s : State) : (syncMatched k s).disc = s.disc := by unfold syncMatched; split <;> simp [*]
@[simp] theorem syncMatched_discValid (k : Nat) (s : State) : (syncMatched k s).discValid = s.discValid := by unfold syncMatched; split <;> simp [*]
@[simp] theorem syncMatched_sigw (k : Nat) (s : State) : (syncMatched k s).sigw = s.sigw := by unfold syncMatched; split <;> simp [*]
@[simp] theorem syncMatched_sigc (k : Nat) (s : State) : (syncMatched k s).sigc = s.sigc := by unfold syncMatched; split <;> simp [*]
@[simp] theorem syncMatched_sigbad (k : Nat) (s : State) : (syncMatched k s).sigbad = s.sigbad := by unfold syncMatched; split <;> simp [*]
@[simp] theorem syncMatched_vm (k : Nat) (s : State) : (syncMatched k s).vm = s.vm := by unfold syncMatched; split <;> simp [*]
@[simp] theorem syncMatched_vbad (k : Nat) (s : State) : (syncMatched k s).vbad = s.vbad := by unfold syncMatched; split <;> simp [*]
@[simp] theorem syncMatched_inBuf (k : Nat) (s : State) : (syncMatched k s).inBuf = s.inBuf := by unfold syncMatched; split <;> simp [*]
@[simp] theorem syncMatched_rdyLen (k : Nat) (s : State) : (syncMatched k s).rdyLen = s.rdyLen := by unfold syncMatched; split <;> simp [*]
@[simp] theorem syncMatched_inOff (k : Nat) (s : State) : (syncMatched k s).inOff = s.inOff := by unfold syncMatched; split <;> simp [*]
@[simp] theorem syncMatched_outRec (k : Nat) (s : State) : (syncMatched k s).outRec = s.outRec := by unfold syncMatched; split <;> simp [*]
@[simp] theorem syncMatched_outLen (k : Nat) (s : State) : (syncMatched k s).outLen = s.outLen := by unfold syncMatched; split <;> simp [*]
@[simp] theorem syncMatched_outOff (k : Nat) (s : State) : (syncMatched k s).outOff = s.outOff := by unfold syncMatched; split <;> simp [*]
@[simp] theorem syncMatched_ctrl (k : Nat) (s : State) : (syncMatched k s).ctrl = s.ctrl := by unfold syncMatched; split <;> simp [*]
@[simp] theorem syncMatched_thCenter (k : Nat) (s : State) : (syncMatched k s).thCenter = s.thCenter := by unfold syncMatched; split <;> simp [*]
@[simp] theorem syncMatched_thUmid (k : Nat) (s : State) : (syncMatched k s).thUmid = s.thUmid := by unfold syncMatched; split <;> simp [*]
@[simp] theorem syncMatched_thLmid (k : Nat) (s : State) : (syncMatched k s).thLmid = s.thLmid := by unfold syncMatched; split <;> simp [*]
@[simp] theorem syncMatched_thBand (k : Nat) (s : State) : (syncMatched k s).thBand = s.thBand := by unfold syncMatched; split <;> simp [*]
@[simp] theorem syncMatched_sliceMap (k : Nat) (s : State) : (syncMatched k s).sliceMap = s.sliceMap := by unfold syncMatched; split <;> simp [*]
@[simp] theorem syncMatched_gm (k : Nat) (s : State) : (syncMatched k s).gm = s.gm := by unfold syncMatched; split <;> simp [*]
@[simp] theorem syncMatched_turns (k : Nat) (s : State) : (syncMatched k s).turns = s.turns := by unfold syncMatched; split <;> simp [*]
@[simp] theorem syncMatched_portP (k : Nat) (s : State) : (syncMatched k s).portP = s.portP := by unfold syncMatched; split <;> simp [*]
@[simp] theorem syncMatched_portQ (k : Nat) (s : State) : (syncMatched k s).portQ = s.portQ := by unfold syncMatched; split <;> simp [*]
@[simp] theorem syncMatched_qOut (k : Nat) (s : State) : (syncMatched k s).qOut = s.qOut := by unfold syncMatched; split <;> simp [*]
@[simp] theorem syncMatched_fecOut (k : Nat) (s : State) : (syncMatched k s).fecOut = s.fecOut := by unfold syncMatched; split <;> simp [*]
@[simp] theorem syncMatched_fecIn (k : Nat) (s : State) : (syncMatched k s).fecIn = s.fecIn := by unfold syncMatched; split <;> simp [*]
@[simp] theorem syncMatched_nanDraws (k : Nat) (s : State) : (syncMatched k s).nanDraws = s.nanDraws := by unfold syncMatched; split <;> simp [*]
end syncMatchedFields

section sigWireFields
@[simp] theorem sigWire_run (P : Params) (l : List Dibit) (s : State) : (sigWire P l s).run = s.run := by unfold sigWire; split <;> rfl
@[simp] theorem sigWire_halted (P : Params) (l : List Dibit) (s : State) : (sigWire P l s).halted = s.halted := by unfold sigWire; split <;> rfl
@[simp] theorem sigWire_locked (P : Params) (l : List Dibit) (s : State) : (sigWire P l s).locked = s.locked := by unfold sigWire; split <;> rfl
@[simp] theorem sigWire_gvalid (P : Params) (l : List Dibit) (s : State) : (sigWire P l s).gvalid = s.gvalid := by unfold sigWire; split <;> rfl
@[simp] theorem sigWire_fault (P : Params) (l : List Dibit) (s : State) : (sigWire P l s).fault = s.fault := by unfold sigWire; split <;> rfl
@[simp] theorem sigWire_j (P : Params) (l : List Dibit) (s : State) : (sigWire P l s).j = s.j := by unfold sigWire; split <;> rfl
@[simp] theorem sigWire_f (P : Params) (l : List Dibit) (s : State) : (sigWire P l s).f = s.f := by unfold sigWire; split <;> rfl
@[simp] theorem sigWire_kidx (P : Params) (l : List Dibit) (s : State) : (sigWire P l s).kidx = s.kidx := by unfold sigWire; split <;> rfl
@[simp] theorem sigWire_dbuf (P : Params) (l : List Dibit) (s : State) : (sigWire P l s).dbuf = s.dbuf := by unfold sigWire; split <;> rfl
@[simp] theorem sigWire_wp (P : Params) (l : List Dibit) (s : State) : (sigWire P l s).wp = s.wp := by unfold sigWire; split <;> rfl
@[simp] theorem sigWire_rp (P : Params) (l : List Dibit) (s : State) : (sigWire P l s).rp = s.rp := by unfold sigWire; split <;> rfl
@[simp] theorem sigWire_dbValid (P : Params) (l : List Dibit) (s : State) : (sigWire P l s).dbValid = s.dbValid := by unfold sigWire; split <;> rfl
@[simp] theorem sigWire_lastDibit (P : Params) (l : List Dibit) (s : State) : (sigWire P l s).lastDibit = s.lastDibit := by unfold sigWire; split <;> rfl
@[simp] theorem sigWire_ht (P : Params) (l : List Dibit) (s : State) : (sigWire P l s).ht = s.ht := by unfold sigWire; split <;> rfl
@[simp] theorem sigWire_bitCnt (P : Params) (l : List Dibit) (s : State) : (sigWire P l s).bitCnt = s.bitCnt := by unfold sigWire; split <;> rfl
@[simp] theorem sigWire_bitErr (P : Params) (l : List Dibit) (s : State) : (sigWire P l s).bitErr = s.bitErr := by unfold sigWire; split <;> rfl
@[simp] theorem sigWire_curslot (P : Params) (l : List Dibit) (s : State) : (sigWire P l s).curslot = s.curslot := by unfold sigWire; split <;> rfl
@[simp] theorem sigWire_lastsync (P : Params) (l : List Dibit) (s : State) : (sigWire P l s).lastsync = s.lastsync := by unfold sigWire; split <;> rfl
@[simp] theorem sigWire_slotst0 (P : Params) (l : List Dibit) (s : State) : (sigWire P l s).slotst0 = s.slotst0 := by unfold sigWire; split <;> rfl
@[simp] theorem sigWire_slotst1 (P : Params) (l : List Dibit) (s : State) : (sigWire P l s).slotst1 = s.slotst1 := by unfold sigWire; split <;> rfl
@[simp] theorem sigWire_muted (P : Params) (l : List Dibit) (s : State) : (sigWire P l s).muted = s.muted := by unfold sigWire; split <;> rfl
@[simp] theorem sigWire_firstframe (P : Params) (l : List Dibit) (s : State) : (sigWire P l s).firstframe = s.firstframe := by unfold sigWire; split <;> rfl
@[simp] theorem sigWire_hdrErr (P : Params) (l : List Dibit) (s : State) : (sigWire P l s).hdrErr = s.hdrErr := by unfold sigWire; split <;> rfl
@[simp] theorem sigWire_audErr (P : Params) (l : List Dibit) (s : State) : (sigWire P l s).audErr = s.audErr := by unfold sigWire; split <;> rfl
@[simp] theorem sigWire_syncMiss (P : Params) (l : List Dibit) (s : State) : (sigWire P l s).syncMiss = s.syncMiss := by unfold sigWire; split <;> rfl
@[simp] theorem sigWire_algid (P : Params) (l : List Dibit) (s : State) : (sigWire P l s).algid = s.algid := by unfold sigWire; split <;> rfl
@[simp] theorem sigWire_keyid (P : Params) (l : List Dibit) (s : State) : (sigWire P l s).keyid = s.keyid := by unfold sigWire; split <;> rfl
@[simp] theorem sigWire_encPres (P : Params) (l : List Dibit) (s : State) : (sigWire P l s).encPres = s.encPres := by unfold sigWire; split <;> rfl
@[simp] theorem sigWire_disc (P : Params) (l : List Dibit) (s : State) : (sigWire P l s).disc = s.disc := by unfold sigWire; split <;> rfl
@[simp] theorem sigWire_discValid (P : Params) (l : List Dibit) (s : State) : (sigWire P l s).discValid = s.discValid := by unfold sigWire; split <;> rfl
@[simp] theorem sigWire_sigc (P : Params) (l : List Dibit) (s : State) : (sigWire P l s).sigc = s.sigc := by unfold sigWire; split <;> rfl
@[simp] theorem sigWire_vm (P : Params) (l : List Dibit) (s : State) : (sigWire P l s).vm = s.vm := by unfold sigWire; split <;> rfl
@[simp] theorem sigWire_vbad (P : Params) (l : List Dibit) (s : State) : (sigWire P l s).vbad = s.vbad := by unfold sigWire; split <;> rfl
@[simp] theorem sigWire_inBuf (P : Params) (l : List Dibit) (s : State) : (sigWire P l s).inBuf = s.inBuf := by unfold sigWire; split <;> rfl
@[simp] theorem sigWire_rdyLen (P : Params) (l : List Dibit) (s : State) : (sigWire P l s).rdyLen = s.rdyLen := by unfold sigWire; split <;> rfl
@[simp] theorem sigWire_inOff (P : Params) (l : List Dibit) (s : State) : (sigWire P l s).inOff = s.inOff := by unfold sigWire; split <;> rfl
@[simp] theorem sigWire_outRec (P : Params) (l : List Dibit) (s : State) : (sigWire P l s).outRec = s.outRec := by unfold sigWire; split <;> rfl
@[simp] theorem sigWire_outLen (P : Params) (l : List Dibit) (s : State) : (sigWire P l s).outLen = s.outLen := by unfold sigWire; split <;> rfl
@[simp] theorem sigWire_outOff (P : Params) (l : List Dibit) (s : State) : (sigWire P l s).outOff = s.outOff := by unfold sigWire; split <;> rfl
@[simp] theorem sigWire_ctrl (P : Params) (l : List Dibit) (s : State) : (sigWire P l s).ctrl = s.ctrl := by unfold sigWire; split <;> rfl
@[simp] theorem sigWire_thCenter (P : Params) (l : List Dibit) (s : State) : (sigWire P l s).thCenter = s.thCenter := by unfold sigWire; split <;> rfl
@[simp] theorem sigWire_thUmid (P : Params) (l : List Dibit) (s : State) : (sigWire P l s).thUmid = s.thUmid := by unfold sigWire; split <;> rfl
@[simp] theorem sigWire_thLmid (P : Params) (l : List Dibit) (s : State) : (sigWire P l s).thLmid = s.thLmid := by unfold sigWire; split <;> rfl
@[simp] theorem sigWire_thBand (P : Params) (l : List Dibit) (s : State) : (sigWire P l s).thBand = s.thBand := by unfold sigWire; split <;> rfl
@[simp] theorem sigWire_sliceMap (P : Params) (l : List Dibit) (s : State) : (sigWire P l s).sliceMap = s.sliceMap := by unfold sigWire; split <;> rfl
@[simp] theorem sigWire_gm (P : Params) (l : List Dibit) (s : State) : (sigWire P l s).gm = s.gm := by unfold sigWire; split <;> rfl
@[simp] theorem sigWire_turns (P : Params) (l : List Dibit) (s : State) : (sigWire P l s).turns = s.turns := by unfold sigWire; split <;> rfl
@[simp] theorem sigWire_portP (P : Params) (l : List Dibit) (s : State) : (sigWire P l s).portP = s.portP := by unfold sigWire; split <;> rfl
@[simp] theorem sigWire_portQ (P : Params) (l : List Dibit) (s : State) : (sigWire P l s).portQ = s.portQ := by unfold sigWire; split <;> rfl
@[simp] theorem sigWire_qOut (P : Params) (l : List Dibit) (s : State) : (sigWire P l s).qOut = s.qOut := by unfold sigWire; split <;> rfl
@[simp] theorem sigWire_fecOut (P : Params) (l : List Dibit) (s : State) : (sigWire P l s).fecOut = s.fecOut := by unfold sigWire; split <;> rfl
@[simp] theorem sigWire_fecIn (P : Params) (l : List Dibit) (s : State) : (sigWire P l s).fecIn = s.fecIn := by unfold sigWire; split <;> rfl
@[simp] theorem sigWire_nanDraws (P : Params) (l : List Dibit) (s : State) : (sigWire P l s).nanDraws = s.nanDraws := by unfold sigWire; split <;> rfl
end sigWireFields

section sigCompleteFields
@[simp] theorem sigComplete_run (s : State) : (sigComplete s).run = s.run := by unfold sigComplete; split <;> [skip; rfl]; split <;> rfl
@[simp] theorem sigComplete_halted (s : State) : (sigComplete s).halted = s.halted := by unfold sigComplete; split <;> [skip; rfl]; split <;> rfl
@[simp] theorem sigComplete_locked (s : State) : (sigComplete s).locked = s.locked := by unfold sigComplete; split <;> [skip; rfl]; split <;> rfl
@[simp] theorem sigComplete_gvalid (s : State) : (sigComplete s).gvalid = s.gvalid := by unfold sigComplete; split <;> [skip; rfl]; split <;> rfl
@[simp] theorem sigComplete_fault (s : State) : (sigComplete s).fault = s.fault := by unfold sigComplete; split <;> [skip; rfl]; split <;> rfl
@[simp] theorem sigComplete_j (s : State) : (sigComplete s).j = s.j := by unfold sigComplete; split <;> [skip; rfl]; split <;> rfl
@[simp] theorem sigComplete_f (s : State) : (sigComplete s).f = s.f := by unfold sigComplete; split <;> [skip; rfl]; split <;> rfl
@[simp] theorem sigComplete_kidx (s : State) : (sigComplete s).kidx = s.kidx := by unfold sigComplete; split <;> [skip; rfl]; split <;> rfl
@[simp] theorem sigComplete_dbuf (s : State) : (sigComplete s).dbuf = s.dbuf := by unfold sigComplete; split <;> [skip; rfl]; split <;> rfl
@[simp] theorem sigComplete_wp (s : State) : (sigComplete s).wp = s.wp := by unfold sigComplete; split <;> [skip; rfl]; split <;> rfl
@[simp] theorem sigComplete_rp (s : State) : (sigComplete s).rp = s.rp := by unfold sigComplete; split <;> [skip; rfl]; split <;> rfl
@[simp] theorem sigComplete_dbValid (s : State) : (sigComplete s).dbValid = s.dbValid := by unfold sigComplete; split <;> [skip; rfl]; split <;> rfl
@[simp] theorem sigComplete_lastDibit (s : State) : (sigComplete s).lastDibit = s.lastDibit := by unfold sigComplete; split <;> [skip; rfl]; split <;> rfl
@[simp] theorem sigComplete_ht (s : State) : (sigComplete s).ht = s.ht := by unfold sigComplete; split <;> [skip; rfl]; split <;> rfl
@[simp] theorem sigComplete_bitCnt (s : State) : (sigComplete s).bitCnt = s.bitCnt := by unfold sigComplete; split <;> [skip; rfl]; split <;> rfl
@[simp] theorem sigComplete_bitErr (s : State) : (sigComplete s).bitErr = s.bitErr := by unfold sigComplete; split <;> [skip; rfl]; split <;> rfl
@[simp] theorem sigComplete_curslot (s : State) : (sigComplete s).curslot = s.curslot := by unfold sigComplete; split <;> [skip; rfl]; split <;> rfl
@[simp] theorem sigComplete_lastsync (s : State) : (sigComplete s).lastsync = s.lastsync := by unfold sigComplete; split <;> [skip; rfl]; split <;> rfl
@[simp] theorem sigComplete_slotst0 (s : State) : (sigComplete s).slotst0 = s.slotst0 := by unfold sigComplete; split <;> [skip; rfl]; split <;> rfl
@[simp] theorem sigComplete_slotst1 (s : State) : (sigComplete s).slotst1 = s.slotst1 := by unfold sigComplete; split <;> [skip; rfl]; split <;> rfl
@[simp] theorem sigComplete_muted (s : State) : (sigComplete s).muted = s.muted := by unfold sigComplete; split <;> [skip; rfl]; split <;> rfl
@[simp] theorem sigComplete_firstframe (s : State) : (sigComplete s).firstframe = s.firstframe := by unfold sigComplete; split <;> [skip; rfl]; split <;> rfl
@[simp] theorem sigComplete_hdrErr (s : State) : (sigComplete s).hdrErr = s.hdrErr := by unfold sigComplete; split <;> [skip; rfl]; split <;> rfl
@[simp] theorem sigComplete_audErr (s : State) : (sigComplete s).audErr = s.audErr := by unfold sigComplete; split <;> [skip; rfl]; split <;> rfl
@[simp] theorem sigComplete_syncMiss (s : State) : (sigComplete s).syncMiss = s.syncMiss := by unfold sigComplete; split <;> [skip; rfl]; split <;> rfl
@[simp] theorem sigComplete_disc (s : State) : (sigComplete s).disc = s.disc := by unfold sigComplete; split <;> [skip; rfl]; split <;> rfl
@[simp] theorem sigComplete_discValid (s : State) : (sigComplete s).discValid = s.discValid := by unfold sigComplete; split <;> [skip; rfl]; split <;> rfl
@[simp] theorem sigComplete_sigw (s : State) : (sigComplete s).sigw = s.sigw := by unfold sigComplete; split <;> [skip; rfl]; split <;> rfl
@[simp] theorem sigComplete_sigbad (s : State) : (sigComplete s).sigbad = s.sigbad := by unfold sigComplete; split <;> [skip; rfl]; split <;> rfl
@[simp] theorem sigComplete_vm (s : State) : (sigComplete s).vm = s.vm := by unfold sigComplete; split <;> [skip; rfl]; split <;> rfl
@[simp] theorem sigComplete_vbad (s : State) : (sigComplete s).vbad = s.vbad := by unfold sigComplete; split <;> [skip; rfl]; split <;> rfl
@[simp] theorem sigComplete_inBuf (s : State) : (sigComplete s).inBuf = s.inBuf := by unfold sigComplete; split <;> [skip; rfl]; split <;> rfl
@[simp] theorem sigComplete_rdyLen (s : State) : (sigComplete s).rdyLen = s.rdyLen := by unfold sigComplete; split <;> [skip; rfl]; split <;> rfl
@[simp] theorem sigComplete_inOff (s : State) : (sigComplete s).inOff = s.inOff := by unfold sigComplete; split <;> [skip; rfl]; split <;> rfl
@[simp] theorem sigComplete_outRec (s : State) : (sigComplete s).outRec = s.outRec := by unfold sigComplete; split <;> [skip; rfl]; split <;> rfl
@[simp] theorem sigComplete_outLen (s : State) : (sigComplete s).outLen = s.outLen := by unfold sigComplete; split <;> [skip; rfl]; split <;> rfl
@[simp] theorem sigComplete_outOff (s : State) : (sigComplete s).outOff = s.outOff := by unfold sigComplete; split <;> [skip; rfl]; split <;> rfl
@[simp] theorem sigComplete_ctrl (s : State) : (sigComplete s).ctrl = s.ctrl := by unfold sigComplete; split <;> [skip; rfl]; split <;> rfl
@[simp] theorem sigComplete_thCenter (s : State) : (sigComplete s).thCenter = s.thCenter := by unfold sigComplete; split <;> [skip; rfl]; split <;> rfl
@[simp] theorem sigComplete_thUmid (s : State) : (sigComplete s).thUmid = s.thUmid := by unfold sigComplete; split <;> [skip; rfl]; split <;> rfl
@[simp] theorem sigComplete_thLmid (s : State) : (sigComplete s).thLmid = s.thLmid := by unfold sigComplete; split <;> [skip; rfl]; split <;> rfl
@[simp] theorem sigComplete_thBand (s : State) : (sigComplete s).thBand = s.thBand := by unfold sigComplete; split <;> [skip; rfl]; split <;> rfl
@[simp] theorem sigComplete_sliceMap (s : State) : (sigComplete s).sliceMap = s.sliceMap := by unfold sigComplete; split <;> [skip; rfl]; split <;> rfl
@[simp] theorem sigComplete_gm (s : State) : (sigComplete s).gm = s.gm := by unfold sigComplete; split <;> [skip; rfl]; split <;> rfl
@[simp] theorem sigComplete_turns (s : State) : (sigComplete s).turns = s.turns := by unfold sigComplete; split <;> [skip; rfl]; split <;> rfl
@[simp] theorem sigComplete_portP (s : State) : (sigComplete s).portP = s.portP := by unfold sigComplete; split <;> [skip; rfl]; split <;> rfl
@[simp] theorem sigComplete_portQ (s : State) : (sigComplete s).portQ = s.portQ := by unfold sigComplete; split <;> [skip; rfl]; split <;> rfl
@[simp] theorem sigComplete_qOut (s : State) : (sigComplete s).qOut = s.qOut := by unfold sigComplete; split <;> [skip; rfl]; split <;> rfl
@[simp] theorem sigComplete_fecOut (s : State) : (sigComplete s).fecOut = s.fecOut := by unfold sigComplete; split <;> [skip; rfl]; split <;> rfl
@[simp] theorem sigComplete_fecIn (s : State) : (sigComplete s).fecIn = s.fecIn := by unfold sigComplete; split <;> [skip; rfl]; split <;> rfl
@[simp] theorem sigComplete_nanDraws (s : State) : (sigComplete s).nanDraws = s.nanDraws := by unfold sigComplete; split <;> [skip; rfl]; split <;> rfl
end sigCompleteFields

section emitVoiceFields
@[simp] theorem emitVoice_run (s : State) : (emitVoice s).run = s.run := by unfold emitVoice; split <;> rfl
@[simp] theorem emitVoice_halted (s : State) : (emitVoice s).halted = s.halted := by unfold emitVoice; split <;> rfl
@[simp] theorem emitVoice_locked (s : State) : (emitVoice s).locked = s.locked := by unfold emitVoice; split <;> rfl
@[simp] theorem emitVoice_gvalid (s : State) : (emitVoice s).gvalid = s.gvalid := by unfold emitVoice; split <;> rfl
@[simp] theorem emitVoice_fault (s : State) : (emitVoice s).fault = s.fault := by unfold emitVoice; split <;> rfl
@[simp] theorem emitVoice_j (s : State) : (emitVoice s).j = s.j := by unfold emitVoice; split <;> rfl
@[simp] theorem emitVoice_f (s : State) : (emitVoice s).f = s.f := by unfold emitVoice; split <;> rfl
@[simp] theorem emitVoice_kidx (s : State) : (emitVoice s).kidx = s.kidx + 1 := by unfold emitVoice; split <;> rfl
@[simp] theorem emitVoice_dbuf (s : State) : (emitVoice s).dbuf = s.dbuf := by unfold emitVoice; split <;> rfl
@[simp] theorem emitVoice_wp (s : State) : (emitVoice s).wp = s.wp := by unfold emitVoice; split <;> rfl
@[simp] theorem emitVoice_rp (s : State) : (emitVoice s).rp = s.rp := by unfold emitVoice; split <;> rfl
@[simp] theorem emitVoice_dbValid (s : State) : (emitVoice s).dbValid = s.dbValid := by unfold emitVoice; split <;> rfl
@[simp] theorem emitVoice_lastDibit (s : State) : (emitVoice s).lastDibit = s.lastDibit := by unfold emitVoice; split <;> rfl
@[simp] theorem emitVoice_ht (s : State) : (emitVoice s).ht = s.ht := by unfold emitVoice; split <;> rfl
@[simp] theorem emitVoice_bitCnt (s : State) : (emitVoice s).bitCnt = s.bitCnt := by unfold emitVoice; split <;> rfl
@[simp] theorem emitVoice_bitErr (s : State) : (emitVoice s).bitErr = s.bitErr := by unfold emitVoice; split <;> rfl
@[simp] theorem emitVoice_curslot (s : State) : (emitVoice s).curslot = s.curslot := by unfold emitVoice; split <;> rfl
@[simp] theorem emitVoice_lastsync (s : State) : (emitVoice s).lastsync = s.lastsync := by unfold emitVoice; split <;> rfl
@[simp] theorem emitVoice_slotst0 (s : State) : (emitVoice s).slotst0 = s.slotst0 := by unfold emitVoice; split <;> rfl
@[simp] theorem emitVoice_slotst1 (s : State) : (emitVoice s).slotst1 = s.slotst1 := by unfold emitVoice; split <;> rfl
@[simp] theorem emitVoice_muted (s : State) : (emitVoice s).muted = s.muted := by unfold emitVoice; split <;> rfl
@[simp] theorem emitVoice_firstframe (s : State) : (emitVoice s).firstframe = s.firstframe := by unfold emitVoice; split <;> rfl
@[simp] theorem emitVoice_hdrErr (s : State) : (emitVoice s).hdrErr = s.hdrErr := by unfold emitVoice; split <;> rfl
@[simp] theorem emitVoice_audErr (s : State) : (emitVoice s).audErr = s.audErr := by unfold emitVoice; split <;> rfl
@[simp] theorem emitVoice_syncMiss (s : State) : (emitVoice s).syncMiss = s.syncMiss := by unfold emitVoice; split <;> rfl
@[simp] theorem emitVoice_algid (s : State) : (emitVoice s).algid = s.algid := by unfold emitVoice; split <;> rfl
@[simp] theorem emitVoice_keyid (s : State) : (emitVoice s).keyid = s.keyid := by unfold emitVoice; split <;> rfl
@[simp] theorem emitVoice_encPres (s : State) : (emitVoice s).encPres = s.encPres := by unfold emitVoice; split <;> rfl
@[simp] theorem emitVoice_disc (s : State) : (emitVoice s).disc = s.disc := by unfold emitVoice; split <;> rfl
@[simp] theorem emitVoice_discValid (s : State) : (emitVoice s).discValid = s.discValid := by unfold emitVoice; split <;> rfl
@[simp] theorem emitVoice_sigw (s : State) : (emitVoice s).sigw = s.sigw := by unfold emitVoice; split <;> rfl
@[simp] theorem emitVoice_sigc (s : State) : (emitVoice s).sigc = s.sigc := by unfold emitVoice; split <;> rfl
@[simp] theorem emitVoice_sigbad (s : State) : (emitVoice s).sigbad = s.sigbad := by unfold emitVoice; split <;> rfl
@[simp] theorem emitVoice_vm (s : State) : (emitVoice s).vm = s.vm := by unfold emitVoice; split <;> rfl
@[simp] theorem emitVoice_vbad (s : State) : (emitVoice s).vbad = s.vbad := by unfold emitVoice; split <;> rfl
@[simp] theorem emitVoice_inBuf (s : State) : (emitVoice s).inBuf = s.inBuf := by unfold emitVoice; split <;> rfl
@[simp] theorem emitVoice_rdyLen (s : State) : (emitVoice s).rdyLen = s.rdyLen := by unfold emitVoice; split <;> rfl
@[simp] theorem emitVoice_inOff (s : State) : (emitVoice s).inOff = s.inOff := by unfold emitVoice; split <;> rfl
@[simp] theorem emitVoice_ctrl (s : State) : (emitVoice s).ctrl = s.ctrl := by unfold emitVoice; split <;> rfl
@[simp] theorem emitVoice_thCenter (s : State) : (emitVoice s).thCenter = s.thCenter := by unfold emitVoice; split <;> rfl
@[simp] theorem emitVoice_thUmid (s : State) : (emitVoice s).thUmid = s.thUmid := by unfold emitVoice; split <;> rfl
@[simp] theorem emitVoice_thLmid (s : State) : (emitVoice s).thLmid = s.thLmid := by unfold emitVoice; split <;> rfl
@[simp] theorem emitVoice_thBand (s : State) : (emitVoice s).thBand = s.thBand := by unfold emitVoice; split <;> rfl
@[simp] theorem emitVoice_sliceMap (s : State) : (emitVoice s).sliceMap = s.sliceMap := by unfold emitVoice; split <;> rfl
@[simp] theorem emitVoice_gm (s : State) : (emitVoice s).gm = s.gm := by unfold emitVoice; split <;> rfl
@[simp] theorem emitVoice_turns (s : State) : (emitVoice s).turns = s.turns := by unfold emitVoice; split <;> rfl
@[simp] theorem emitVoice_portP (s : State) : (emitVoice s).portP = s.portP := by unfold emitVoice; split <;> rfl
@[simp] theorem emitVoice_portQ (s : State) : (emitVoice s).portQ = s.portQ := by unfold emitVoice; split <;> rfl
@[simp] theorem emitVoice_qOut (s : State) : (emitVoice s).qOut = s.qOut := by unfold emitVoice; split <;> rfl
@[simp] theorem emitVoice_fecOut (s : State) : (emitVoice s).fecOut = s.fecOut := by unfold emitVoice; split <;> rfl
@[simp] theorem emitVoice_fecIn (s : State) : (emitVoice s).fecIn = s.fecIn := by unfold emitVoice; split <;> rfl
@[simp] theorem emitVoice_nanDraws (s : State) : (emitVoice s).nanDraws = s.nanDraws := by unfold emitVoice; split <;> rfl
end emitVoiceFields

end Sys2Proof.Machine
end

