-- ==== Sys2Proof/Laws/Ops.lean ====
section
/-!
SUPPORT. What each shared operation can do, said once: the provers cite these instead of unfolding the operation.
-/
namespace Sys2Proof.Machine

/-- Where `W_PTR` is the width of its register, a pointer wraps by itself. -/
theorem ptrWrap_of_full_width {P : Params} (h : P.wPtr = 32) (p : Pointer) : ptrWrap P p = p :=
  BitVec.eq_of_toNat_eq (by simp only [ptrWrap, h, BitVec.toNat_ofNat]; omega)

@[simp] theorem ptrWrap_params (p : Pointer) : ptrWrap Config.params p = p := ptrWrap_of_full_width rfl p

/-- A wrapped pointer as a number. -/
theorem toNat_ptrWrap (P : Params) (p : Pointer) (h : P.wPtr ≤ 32) : (ptrWrap P p).toNat = p.toNat % 2 ^ P.wPtr := by
  have : 2 ^ P.wPtr ≤ 2 ^ 32 := Nat.pow_le_pow_right (by decide) h
  have := Nat.mod_lt p.toNat (Nat.two_pow_pos P.wPtr)
  simp only [ptrWrap, BitVec.toNat_ofNat]
  omega

/-- Wrapping does not change which entry of the dibit buffer a pointer names (rule R31). -/
theorem dbIndex_ptrWrap (P : Params) (p : Pointer) (h : P.wPtr ≤ 32) (hd : P.dbufCap ∣ 2 ^ P.wPtr) :
    dbIndex P (ptrWrap P p) = dbIndex P p := by
  rw [dbIndex, dbIndex, toNat_ptrWrap P p h, Nat.mod_mod_of_dvd _ hd]

theorem htGet_htSet (s : State) (p c p' c' : Dibit) (m : SymModel) :
    htGet (htSet s p c m) p' c' = if p' = p ∧ c' = c then m else htGet s p' c' := by
  have hp := p.isLt
  have hc := c.isLt
  have hp' := p'.isLt
  have hc' := c'.isLt
  unfold htGet htSet
  by_cases h : p' = p ∧ c' = c
  · obtain ⟨rfl, rfl⟩ := h
    simp
  · have hne : 4 * p.toNat + c.toNat ≠ 4 * p'.toNat + c'.toNat := by
      intro e
      apply h
      constructor <;> apply BitVec.eq_of_toNat_eq <;> omega
    simp [hne, h]

@[simp] theorem htGet_sessionClear (s : State) (p c : Dibit) : htGet (sessionClear s) p c = SymModel.empty := by
  simp [htGet]

@[simp] theorem htGet_resetProc (s : State) (p c : Dibit) : htGet (resetProc s) p c = SymModel.empty := by simp [htGet]

@[simp] theorem htGet_unlockProc (s : State) (p c : Dibit) : htGet (unlockProc s) p c = SymModel.empty := by simp [htGet]

@[simp] theorem htGet_lockOn (P : Params) (st : BitVec 4) (s : State) (p c : Dibit) : htGet (lockOn P st s) p c = SymModel.empty := by
  simp [htGet]

/-- Two states with the same classifier array have the same models. -/
theorem htGet_congr {s t : State} (h : s.ht = t.ht) (p c : Dibit) : htGet s p c = htGet t p c := by
  simp [htGet, h]

/-- `Update` writes the BER accumulators, one model, and the count of draws (rule R185). -/
theorem htGet_update (env : Env) (p raw corr : Dibit) (a : Word) (s : State) (p' c' : Dibit) :
    htGet (update env p raw corr a s) p' c' =
      if p' = (if ctxEn s then p else 0#2) ∧ c' = corr then
        modelInsert (drawNan env s.nanDraws) (htGet s (if ctxEn s then p else 0#2) corr) a
      else htGet s p' c' := by
  have h1 : htGet (update env p raw corr a s) p' c'
      = htGet (htSet (berFold env.params (errCount raw corr) s) (if ctxEn s then p else 0#2) corr
          (modelInsert (drawNan env s.nanDraws) (htGet (berFold env.params (errCount raw corr) s) (if ctxEn s then p else 0#2) corr) a))
          p' c' := htGet_congr rfl p' c'
  rw [h1, htGet_htSet]
  rfl

/-- `Update` leaves everything else as it was. -/
theorem update_frame (env : Env) (p raw corr : Dibit) (a : Word) (s : State) :
    update env p raw corr a s =
      { s with
        ht := (update env p raw corr a s).ht
        bitCnt := (update env p raw corr a s).bitCnt
        bitErr := (update env p raw corr a s).bitErr
        nanDraws := (update env p raw corr a s).nanDraws } := rfl

/-- A training run writes only the classifier, the BER accumulators and the count of draws (rule R193). -/
theorem trainFrom_frame (env : Env) (before : Option Dibit) (l : List (Dibit × Dibit × Word)) (s : State) :
    trainFrom env before l s =
      { s with
        ht := (trainFrom env before l s).ht
        bitCnt := (trainFrom env before l s).bitCnt
        bitErr := (trainFrom env before l s).bitErr
        nanDraws := (trainFrom env before l s).nanDraws } := by
  induction l generalizing before s with
  | nil => rfl
  | cons e l ih =>
    obtain ⟨raw, corr, a⟩ := e
    simp only [trainFrom]
    cases hctx : ctxEn s with
    | false =>
      simp only [Bool.false_eq_true, if_false]
      exact (ih _ _).trans (by simp)
    | true =>
      cases before with
      | none => simpa using ih _ _
      | some p =>
        simp only [if_true]
        exact (ih _ _).trans (by simp)

/-- A property of the state that every `Update` keeps is kept by a training run. -/
theorem trainFrom_keeps (env : Env) (P : State → Prop)
    (hstep : ∀ p raw corr a s, P s → P (update env p raw corr a s))
    (before : Option Dibit) (l : List (Dibit × Dibit × Word)) (s : State) (h : P s) :
    P (trainFrom env before l s) := by
  induction l generalizing before s with
  | nil => exact h
  | cons e l ih =>
    obtain ⟨raw, corr, a⟩ := e
    simp only [trainFrom]
    apply ih
    split
    · split
      · exact h
      · exact hstep _ _ _ _ _ h
    · exact hstep _ _ _ _ _ h

/-- What training reads: the classifier, the accumulators, the count of draws and `CTRL`. -/
theorem trainFrom_congr (env : Env) (l : List (Dibit × Dibit × Word)) (before : Option Dibit) (s t : State)
    (h1 : s.ht = t.ht) (h2 : s.bitCnt = t.bitCnt) (h3 : s.bitErr = t.bitErr) (h4 : s.nanDraws = t.nanDraws)
    (h5 : s.ctrl = t.ctrl) :
    (trainFrom env before l s).ht = (trainFrom env before l t).ht
      ∧ (trainFrom env before l s).bitCnt = (trainFrom env before l t).bitCnt
      ∧ (trainFrom env before l s).bitErr = (trainFrom env before l t).bitErr
      ∧ (trainFrom env before l s).nanDraws = (trainFrom env before l t).nanDraws := by
  induction l generalizing before s t with
  | nil => exact ⟨h1, h2, h3, h4⟩
  | cons e l ih =>
    obtain ⟨raw, corr, a⟩ := e
    have hc : ctxEn s = ctxEn t := by simp [ctxEn, h5]
    have hup : ∀ p, (update env p raw corr a s).ht = (update env p raw corr a t).ht
        ∧ (update env p raw corr a s).bitCnt = (update env p raw corr a t).bitCnt
        ∧ (update env p raw corr a s).bitErr = (update env p raw corr a t).bitErr
        ∧ (update env p raw corr a s).nanDraws = (update env p raw corr a t).nanDraws
        ∧ (update env p raw corr a s).ctrl = (update env p raw corr a t).ctrl := by
      intro p
      simp [update, htSet, htGet, berFold, hc, h1, h2, h3, h4, h5]
    simp only [trainFrom, hc]
    cases ctxEn t with
    | false =>
      obtain ⟨a1, a2, a3, a4, a5⟩ := hup 0#2
      exact ih _ _ _ a1 a2 a3 a4 a5
    | true =>
      cases before with
      | none => exact ih _ _ _ h1 h2 h3 h4 h5
      | some p =>
        obtain ⟨a1, a2, a3, a4, a5⟩ := hup p
        exact ih _ _ _ a1 a2 a3 a4 a5

/-- `Protect` writes only the classifier, the BER accumulators, port F's transcript and the count of draws (rule R227). -/
theorem protect_frame (env : Env) (kind : BitVec 4) (prot : Bool) (field : List DbEntry) (s : State) :
    (protect env kind prot field s).after =
      { s with
        ht := (protect env kind prot field s).after.ht
        bitCnt := (protect env kind prot field s).after.bitCnt
        bitErr := (protect env kind prot field s).after.bitErr
        nanDraws := (protect env kind prot field s).after.nanDraws
        fecOut := (protect env kind prot field s).after.fecOut
        fecIn := (protect env kind prot field s).after.fecIn } := by
  unfold protect
  cases prot with
  | false => rfl
  | true =>
    simp only [if_true]
    split
    · simp only [trainField]
      refine (trainFrom_frame _ _ _ _).trans ?_
      generalize (field.zip _).map _ = l
      generalize env.fec (fecQuery kind field s) = answer
      have h1 := congrArg State.fecOut (trainFrom_frame env none l (fecTranscript (fecQuery kind field s) answer s))
      have h2 := congrArg State.fecIn (trainFrom_frame env none l (fecTranscript (fecQuery kind field s) answer s))
      simp only [fecTranscript_fecOut, fecTranscript_fecIn] at h1 h2
      rw [h1, h2]
      rfl
    · rfl

/-- `Protect` of an unprotected field: the raw dibits, nothing asked, nothing trained (rule R227). -/
@[simp] theorem protect_unprotected (env : Env) (kind : BitVec 4) (field : List DbEntry) (s : State) :
    protect env kind false field s = { good := true, content := field.map DbEntry.d, after := s } := rfl

/-- `Protect` of a protected field that the oracle confirms (rule R227). -/
theorem protect_confirmed (env : Env) (kind : BitVec 4) (field : List DbEntry) (s : State)
    (h : (env.fec (fecQuery kind field s)).ok = true) :
    protect env kind true field s =
      { good := true
        content := correctedDibits (env.fec (fecQuery kind field s)) field.length
        after := trainField env field (correctedDibits (env.fec (fecQuery kind field s)) field.length)
          (fecTranscript (fecQuery kind field s) (env.fec (fecQuery kind field s)) s) } := by
  simp [protect, h]

/-- `Protect` of a protected field that the oracle does not confirm (rule R227). -/
theorem protect_failed (env : Env) (kind : BitVec 4) (field : List DbEntry) (s : State)
    (h : (env.fec (fecQuery kind field s)).ok = false) :
    protect env kind true field s =
      { good := false
        content := field.map DbEntry.d
        after := fecTranscript (fecQuery kind field s) (env.fec (fecQuery kind field s)) s } := by
  simp [protect, h]

@[simp] theorem length_readField (P : Params) (s : State) (w : BitVec 10) : (readField P s w).length = w.toNat := by
  simp [readField]

@[simp] theorem length_correctedDibits (answer : FecAnswer) (n : Nat) : (correctedDibits answer n).length = n := by
  simp [correctedDibits]

/-- What a turn can come to: a whole step, an instruction, or a reserved descriptor. -/
theorem step_cases (s : State) :
    (∃ t, fetch Config.env s = .done t ∧ step s = .next t)
      ∨ (∃ i t, fetch Config.env s = .instr i t ∧ step s = exec i t)
      ∨ (∃ w, fetch Config.env s = .reserved w ∧ step s = .fault (.reservedDescriptor w)) := by
  unfold step
  cases h : fetch Config.env s with
  | done t => exact .inl ⟨t, rfl, rfl⟩
  | instr i t => exact .inr (.inl ⟨i, t, rfl, rfl⟩)
  | reserved w => exact .inr (.inr ⟨w, rfl, rfl⟩)

/-- Every instruction answers a next state: no meaning stops. -/
theorem exec_next (i : Instr) (s : State) : ∃ t, exec i s = .next t := by
  cases i <;> exact ⟨_, rfl⟩

end Sys2Proof.Machine
end

