-- ==== Sys2Proof/Laws/Frames.lean ====
section
/-!
SUPPORT. One lemma per field that training and `Protect` leave as it was (rules R193, R227).
-/
namespace Sys2Proof.Machine

/-- `TrainField` writes only the classifier, the BER accumulators and the count of draws (rule R193). -/
theorem trainField_frame (env : Env) (field : List DbEntry) (c : List Dibit) (s : State) :
    trainField env field c s =
      { s with
        ht := (trainField env field c s).ht
        bitCnt := (trainField env field c s).bitCnt
        bitErr := (trainField env field c s).bitErr
        nanDraws := (trainField env field c s).nanDraws } := trainFrom_frame env none _ s

@[simp] theorem trainField_run (env : Env) (field : List DbEntry) (c : List Dibit) (s : State) : (trainField env field c s).run = s.run :=
  (congrArg State.run (trainField_frame env field c s) :)
@[simp] theorem trainField_halted (env : Env) (field : List DbEntry) (c : List Dibit) (s : State) : (trainField env field c s).halted = s.halted :=
  (congrArg State.halted (trainField_frame env field c s) :)
@[simp] theorem trainField_locked (env : Env) (field : List DbEntry) (c : List Dibit) (s : State) : (trainField env field c s).locked = s.locked :=
  (congrArg State.locked (trainField_frame env field c s) :)
@[simp] theorem trainField_gvalid (env : Env) (field : List DbEntry) (c : List Dibit) (s : State) : (trainField env field c s).gvalid = s.gvalid :=
  (congrArg State.gvalid (trainField_frame env field c s) :)
@[simp] theorem trainField_fault (env : Env) (field : List DbEntry) (c : List Dibit) (s : State) : (trainField env field c s).fault = s.fault :=
  (congrArg State.fault (trainField_frame env field c s) :)
@[simp] theorem trainField_j (env : Env) (field : List DbEntry) (c : List Dibit) (s : State) : (trainField env field c s).j = s.j :=
  (congrArg State.j (trainField_frame env field c s) :)
@[simp] theorem trainField_f (env : Env) (field : List DbEntry) (c : List Dibit) (s : State) : (trainField env field c s).f = s.f :=
  (congrArg State.f (trainField_frame env field c s) :)
@[simp] theorem trainField_kidx (env : Env) (field : List DbEntry) (c : List Dibit) (s : State) : (trainField env field c s).kidx = s.kidx :=
  (congrArg State.kidx (trainField_frame env field c s) :)
@[simp] theorem trainField_dbuf (env : Env) (field : List DbEntry) (c : List Dibit) (s : State) : (trainField env field c s).dbuf = s.dbuf :=
  (congrArg State.dbuf (trainField_frame env field c s) :)
@[simp] theorem trainField_wp (env : Env) (field : List DbEntry) (c : List Dibit) (s : State) : (trainField env field c s).wp = s.wp :=
  (congrArg State.wp (trainField_frame env field c s) :)
@[simp] theorem trainField_rp (env : Env) (field : List DbEntry) (c : List Dibit) (s : State) : (trainField env field c s).rp = s.rp :=
  (congrArg State.rp (trainField_frame env field c s) :)
@[simp] theorem trainField_dbValid (env : Env) (field : List DbEntry) (c : List Dibit) (s : State) : (trainField env field c s).dbValid = s.dbValid :=
  (congrArg State.dbValid (trainField_frame env field c s) :)
@[simp] theorem trainField_lastDibit (env : Env) (field : List DbEntry) (c : List Dibit) (s : State) : (trainField env field c s).lastDibit = s.lastDibit :=
  (congrArg State.lastDibit (trainField_frame env field c s) :)
@[simp] theorem trainField_curslot (env : Env) (field : List DbEntry) (c : List Dibit) (s : State) : (trainField env field c s).curslot = s.curslot :=
  (congrArg State.curslot (trainField_frame env field c s) :)
@[simp] theorem trainField_lastsync (env : Env) (field : List DbEntry) (c : List Dibit) (s : State) : (trainField env field c s).lastsync = s.lastsync :=
  (congrArg State.lastsync (trainField_frame env field c s) :)
@[simp] theorem trainField_slotst0 (env : Env) (field : List DbEntry) (c : List Dibit) (s : State) : (trainField env field c s).slotst0 = s.slotst0 :=
  (congrArg State.slotst0 (trainField_frame env field c s) :)
@[simp] theorem trainField_slotst1 (env : Env) (field : List DbEntry) (c : List Dibit) (s : State) : (trainField env field c s).slotst1 = s.slotst1 :=
  (congrArg State.slotst1 (trainField_frame env field c s) :)
@[simp] theorem trainField_muted (env : Env) (field : List DbEntry) (c : List Dibit) (s : State) : (trainField env field c s).muted = s.muted :=
  (congrArg State.muted (trainField_frame env field c s) :)
@[simp] theorem trainField_firstframe (env : Env) (field : List DbEntry) (c : List Dibit) (s : State) : (trainField env field c s).firstframe = s.firstframe :=
  (congrArg State.firstframe (trainField_frame env field c s) :)
@[simp] theorem trainField_hdrErr (env : Env) (field : List DbEntry) (c : List Dibit) (s : State) : (trainField env field c s).hdrErr = s.hdrErr :=
  (congrArg State.hdrErr (trainField_frame env field c s) :)
@[simp] theorem trainField_audErr (env : Env) (field : List DbEntry) (c : List Dibit) (s : State) : (trainField env field c s).audErr = s.audErr :=
  (congrArg State.audErr (trainField_frame env field c s) :)
@[simp] theorem trainField_syncMiss (env : Env) (field : List DbEntry) (c : List Dibit) (s : State) : (trainField env field c s).syncMiss = s.syncMiss :=
  (congrArg State.syncMiss (trainField_frame env field c s) :)
@[simp] theorem trainField_algid (env : Env) (field : List DbEntry) (c : List Dibit) (s : State) : (trainField env field c s).algid = s.algid :=
  (congrArg State.algid (trainField_frame env field c s) :)
@[simp] theorem trainField_keyid (env : Env) (field : List DbEntry) (c : List Dibit) (s : State) : (trainField env field c s).keyid = s.keyid :=
  (congrArg State.keyid (trainField_frame env field c s) :)
@[simp] theorem trainField_encPres (env : Env) (field : List DbEntry) (c : List Dibit) (s : State) : (trainField env field c s).encPres = s.encPres :=
  (congrArg State.encPres (trainField_frame env field c s) :)
@[simp] theorem trainField_disc (env : Env) (field : List DbEntry) (c : List Dibit) (s : State) : (trainField env field c s).disc = s.disc :=
  (congrArg State.disc (trainField_frame env field c s) :)
@[simp] theorem trainField_discValid (env : Env) (field : List DbEntry) (c : List Dibit) (s : State) : (trainField env field c s).discValid = s.discValid :=
  (congrArg State.discValid (trainField_frame env field c s) :)
@[simp] theorem trainField_sigw (env : Env) (field : List DbEntry) (c : List Dibit) (s : State) : (trainField env field c s).sigw = s.sigw :=
  (congrArg State.sigw (trainField_frame env field c s) :)
@[simp] theorem trainField_sigc (env : Env) (field : List DbEntry) (c : List Dibit) (s : State) : (trainField env field c s).sigc = s.sigc :=
  (congrArg State.sigc (trainField_frame env field c s) :)
@[simp] theorem trainField_sigbad (env : Env) (field : List DbEntry) (c : List Dibit) (s : State) : (trainField env field c s).sigbad = s.sigbad :=
  (congrArg State.sigbad (trainField_frame env field c s) :)
@[simp] theorem trainField_vm (env : Env) (field : List DbEntry) (c : List Dibit) (s : State) : (trainField env field c s).vm = s.vm :=
  (congrArg State.vm (trainField_frame env field c s) :)
@[simp] theorem trainField_vbad (env : Env) (field : List DbEntry) (c : List Dibit) (s : State) : (trainField env field c s).vbad = s.vbad :=
  (congrArg State.vbad (trainField_frame env field c s) :)
@[simp] theorem trainField_inBuf (env : Env) (field : List DbEntry) (c : List Dibit) (s : State) : (trainField env field c s).inBuf = s.inBuf :=
  (congrArg State.inBuf (trainField_frame env field c s) :)
@[simp] theorem trainField_rdyLen (env : Env) (field : List DbEntry) (c : List Dibit) (s : State) : (trainField env field c s).rdyLen = s.rdyLen :=
  (congrArg State.rdyLen (trainField_frame env field c s) :)
@[simp] theorem trainField_inOff (env : Env) (field : List DbEntry) (c : List Dibit) (s : State) : (trainField env field c s).inOff = s.inOff :=
  (congrArg State.inOff (trainField_frame env field c s) :)
@[simp] theorem trainField_outRec (env : Env) (field : List DbEntry) (c : List Dibit) (s : State) : (trainField env field c s).outRec = s.outRec :=
  (congrArg State.outRec (trainField_frame env field c s) :)
@[simp] theorem trainField_outLen (env : Env) (field : List DbEntry) (c : List Dibit) (s : State) : (trainField env field c s).outLen = s.outLen :=
  (congrArg State.outLen (trainField_frame env field c s) :)
@[simp] theorem trainField_outOff (env : Env) (field : List DbEntry) (c : List Dibit) (s : State) : (trainField env field c s).outOff = s.outOff :=
  (congrArg State.outOff (trainField_frame env field c s) :)
@[simp] theorem trainField_ctrl (env : Env) (field : List DbEntry) (c : List Dibit) (s : State) : (trainField env field c s).ctrl = s.ctrl :=
  (congrArg State.ctrl (trainField_frame env field c s) :)
@[simp] theorem trainField_thCenter (env : Env) (field : List DbEntry) (c : List Dibit) (s : State) : (trainField env field c s).thCenter = s.thCenter :=
  (congrArg State.thCenter (trainField_frame env field c s) :)
@[simp] theorem trainField_thUmid (env : Env) (field : List DbEntry) (c : List Dibit) (s : State) : (trainField env field c s).thUmid = s.thUmid :=
  (congrArg State.thUmid (trainField_frame env field c s) :)
@[simp] theorem trainField_thLmid (env : Env) (field : List DbEntry) (c : List Dibit) (s : State) : (trainField env field c s).thLmid = s.thLmid :=
  (congrArg State.thLmid (trainField_frame env field c s) :)
@[simp] theorem trainField_thBand (env : Env) (field : List DbEntry) (c : List Dibit) (s : State) : (trainField env field c s).thBand = s.thBand :=
  (congrArg State.thBand (trainField_frame env field c s) :)
@[simp] theorem trainField_sliceMap (env : Env) (field : List DbEntry) (c : List Dibit) (s : State) : (trainField env field c s).sliceMap = s.sliceMap :=
  (congrArg State.sliceMap (trainField_frame env field c s) :)
@[simp] theorem trainField_gm (env : Env) (field : List DbEntry) (c : List Dibit) (s : State) : (trainField env field c s).gm = s.gm :=
  (congrArg State.gm (trainField_frame env field c s) :)
@[simp] theorem trainField_turns (env : Env) (field : List DbEntry) (c : List Dibit) (s : State) : (trainField env field c s).turns = s.turns :=
  (congrArg State.turns (trainField_frame env field c s) :)
@[simp] theorem trainField_portP (env : Env) (field : List DbEntry) (c : List Dibit) (s : State) : (trainField env field c s).portP = s.portP :=
  (congrArg State.portP (trainField_frame env field c s) :)
@[simp] theorem trainField_portQ (env : Env) (field : List DbEntry) (c : List Dibit) (s : State) : (trainField env field c s).portQ = s.portQ :=
  (congrArg State.portQ (trainField_frame env field c s) :)
@[simp] theorem trainField_qOut (env : Env) (field : List DbEntry) (c : List Dibit) (s : State) : (trainField env field c s).qOut = s.qOut :=
  (congrArg State.qOut (trainField_frame env field c s) :)
@[simp] theorem trainField_fecOut (env : Env) (field : List DbEntry) (c : List Dibit) (s : State) : (trainField env field c s).fecOut = s.fecOut :=
  (congrArg State.fecOut (trainField_frame env field c s) :)
@[simp] theorem trainField_fecIn (env : Env) (field : List DbEntry) (c : List Dibit) (s : State) : (trainField env field c s).fecIn = s.fecIn :=
  (congrArg State.fecIn (trainField_frame env field c s) :)

@[simp] theorem protect_after_run (env : Env) (k : BitVec 4) (p : Bool) (field : List DbEntry) (s : State) : (protect env k p field s).after.run = s.run :=
  (congrArg State.run (protect_frame env k p field s) :)
@[simp] theorem protect_after_halted (env : Env) (k : BitVec 4) (p : Bool) (field : List DbEntry) (s : State) : (protect env k p field s).after.halted = s.halted :=
  (congrArg State.halted (protect_frame env k p field s) :)
@[simp] theorem protect_after_locked (env : Env) (k : BitVec 4) (p : Bool) (field : List DbEntry) (s : State) : (protect env k p field s).after.locked = s.locked :=
  (congrArg State.locked (protect_frame env k p field s) :)
@[simp] theorem protect_after_gvalid (env : Env) (k : BitVec 4) (p : Bool) (field : List DbEntry) (s : State) : (protect env k p field s).after.gvalid = s.gvalid :=
  (congrArg State.gvalid (protect_frame env k p field s) :)
@[simp] theorem protect_after_fault (env : Env) (k : BitVec 4) (p : Bool) (field : List DbEntry) (s : State) : (protect env k p field s).after.fault = s.fault :=
  (congrArg State.fault (protect_frame env k p field s) :)
@[simp] theorem protect_after_j (env : Env) (k : BitVec 4) (p : Bool) (field : List DbEntry) (s : State) : (protect env k p field s).after.j = s.j :=
  (congrArg State.j (protect_frame env k p field s) :)
@[simp] theorem protect_after_f (env : Env) (k : BitVec 4) (p : Bool) (field : List DbEntry) (s : State) : (protect env k p field s).after.f = s.f :=
  (congrArg State.f (protect_frame env k p field s) :)
@[simp] theorem protect_after_kidx (env : Env) (k : BitVec 4) (p : Bool) (field : List DbEntry) (s : State) : (protect env k p field s).after.kidx = s.kidx :=
  (congrArg State.kidx (protect_frame env k p field s) :)
@[simp] theorem protect_after_dbuf (env : Env) (k : BitVec 4) (p : Bool) (field : List DbEntry) (s : State) : (protect env k p field s).after.dbuf = s.dbuf :=
  (congrArg State.dbuf (protect_frame env k p field s) :)
@[simp] theorem protect_after_wp (env : Env) (k : BitVec 4) (p : Bool) (field : List DbEntry) (s : State) : (protect env k p field s).after.wp = s.wp :=
  (congrArg State.wp (protect_frame env k p field s) :)
@[simp] theorem protect_after_rp (env : Env) (k : BitVec 4) (p : Bool) (field : List DbEntry) (s : State) : (protect env k p field s).after.rp = s.rp :=
  (congrArg State.rp (protect_frame env k p field s) :)
@[simp] theorem protect_after_dbValid (env : Env) (k : BitVec 4) (p : Bool) (field : List DbEntry) (s : State) : (protect env k p field s).after.dbValid = s.dbValid :=
  (congrArg State.dbValid (protect_frame env k p field s) :)
@[simp] theorem protect_after_lastDibit (env : Env) (k : BitVec 4) (p : Bool) (field : List DbEntry) (s : State) : (protect env k p field s).after.lastDibit = s.lastDibit :=
  (congrArg State.lastDibit (protect_frame env k p field s) :)
@[simp] theorem protect_after_curslot (env : Env) (k : BitVec 4) (p : Bool) (field : List DbEntry) (s : State) : (protect env k p field s).after.curslot = s.curslot :=
  (congrArg State.curslot (protect_frame env k p field s) :)
@[simp] theorem protect_after_lastsync (env : Env) (k : BitVec 4) (p : Bool) (field : List DbEntry) (s : State) : (protect env k p field s).after.lastsync = s.lastsync :=
  (congrArg State.lastsync (protect_frame env k p field s) :)
@[simp] theorem protect_after_slotst0 (env : Env) (k : BitVec 4) (p : Bool) (field : List DbEntry) (s : State) : (protect env k p field s).after.slotst0 = s.slotst0 :=
  (congrArg State.slotst0 (protect_frame env k p field s) :)
@[simp] theorem protect_after_slotst1 (env : Env) (k : BitVec 4) (p : Bool) (field : List DbEntry) (s : State) : (protect env k p field s).after.slotst1 = s.slotst1 :=
  (congrArg State.slotst1 (protect_frame env k p field s) :)
@[simp] theorem protect_after_muted (env : Env) (k : BitVec 4) (p : Bool) (field : List DbEntry) (s : State) : (protect env k p field s).after.muted = s.muted :=
  (congrArg State.muted (protect_frame env k p field s) :)
@[simp] theorem protect_after_firstframe (env : Env) (k : BitVec 4) (p : Bool) (field : List DbEntry) (s : State) : (protect env k p field s).after.firstframe = s.firstframe :=
  (congrArg State.firstframe (protect_frame env k p field s) :)
@[simp] theorem protect_after_hdrErr (env : Env) (k : BitVec 4) (p : Bool) (field : List DbEntry) (s : State) : (protect env k p field s).after.hdrErr = s.hdrErr :=
  (congrArg State.hdrErr (protect_frame env k p field s) :)
@[simp] theorem protect_after_audErr (env : Env) (k : BitVec 4) (p : Bool) (field : List DbEntry) (s : State) : (protect env k p field s).after.audErr = s.audErr :=
  (congrArg State.audErr (protect_frame env k p field s) :)
@[simp] theorem protect_after_syncMiss (env : Env) (k : BitVec 4) (p : Bool) (field : List DbEntry) (s : State) : (protect env k p field s).after.syncMiss = s.syncMiss :=
  (congrArg State.syncMiss (protect_frame env k p field s) :)
@[simp] theorem protect_after_algid (env : Env) (k : BitVec 4) (p : Bool) (field : List DbEntry) (s : State) : (protect env k p field s).after.algid = s.algid :=
  (congrArg State.algid (protect_frame env k p field s) :)
@[simp] theorem protect_after_keyid (env : Env) (k : BitVec 4) (p : Bool) (field : List DbEntry) (s : State) : (protect env k p field s).after.keyid = s.keyid :=
  (congrArg State.keyid (protect_frame env k p field s) :)
@[simp] theorem protect_after_encPres (env : Env) (k : BitVec 4) (p : Bool) (field : List DbEntry) (s : State) : (protect env k p field s).after.encPres = s.encPres :=
  (congrArg State.encPres (protect_frame env k p field s) :)
@[simp] theorem protect_after_disc (env : Env) (k : BitVec 4) (p : Bool) (field : List DbEntry) (s : State) : (protect env k p field s).after.disc = s.disc :=
  (congrArg State.disc (protect_frame env k p field s) :)
@[simp] theorem protect_after_discValid (env : Env) (k : BitVec 4) (p : Bool) (field : List DbEntry) (s : State) : (protect env k p field s).after.discValid = s.discValid :=
  (congrArg State.discValid (protect_frame env k p field s) :)
@[simp] theorem protect_after_sigw (env : Env) (k : BitVec 4) (p : Bool) (field : List DbEntry) (s : State) : (protect env k p field s).after.sigw = s.sigw :=
  (congrArg State.sigw (protect_frame env k p field s) :)
@[simp] theorem protect_after_sigc (env : Env) (k : BitVec 4) (p : Bool) (field : List DbEntry) (s : State) : (protect env k p field s).after.sigc = s.sigc :=
  (congrArg State.sigc (protect_frame env k p field s) :)
@[simp] theorem protect_after_sigbad (env : Env) (k : BitVec 4) (p : Bool) (field : List DbEntry) (s : State) : (protect env k p field s).after.sigbad = s.sigbad :=
  (congrArg State.sigbad (protect_frame env k p field s) :)
@[simp] theorem protect_after_vm (env : Env) (k : BitVec 4) (p : Bool) (field : List DbEntry) (s : State) : (protect env k p field s).after.vm = s.vm :=
  (congrArg State.vm (protect_frame env k p field s) :)
@[simp] theorem protect_after_vbad (env : Env) (k : BitVec 4) (p : Bool) (field : List DbEntry) (s : State) : (protect env k p field s).after.vbad = s.vbad :=
  (congrArg State.vbad (protect_frame env k p field s) :)
@[simp] theorem protect_after_inBuf (env : Env) (k : BitVec 4) (p : Bool) (field : List DbEntry) (s : State) : (protect env k p field s).after.inBuf = s.inBuf :=
  (congrArg State.inBuf (protect_frame env k p field s) :)
@[simp] theorem protect_after_rdyLen (env : Env) (k : BitVec 4) (p : Bool) (field : List DbEntry) (s : State) : (protect env k p field s).after.rdyLen = s.rdyLen :=
  (congrArg State.rdyLen (protect_frame env k p field s) :)
@[simp] theorem protect_after_inOff (env : Env) (k : BitVec 4) (p : Bool) (field : List DbEntry) (s : State) : (protect env k p field s).after.inOff = s.inOff :=
  (congrArg State.inOff (protect_frame env k p field s) :)
@[simp] theorem protect_after_outRec (env : Env) (k : BitVec 4) (p : Bool) (field : List DbEntry) (s : State) : (protect env k p field s).after.outRec = s.outRec :=
  (congrArg State.outRec (protect_frame env k p field s) :)
@[simp] theorem protect_after_outLen (env : Env) (k : BitVec 4) (p : Bool) (field : List DbEntry) (s : State) : (protect env k p field s).after.outLen = s.outLen :=
  (congrArg State.outLen (protect_frame env k p field s) :)
@[simp] theorem protect_after_outOff (env : Env) (k : BitVec 4) (p : Bool) (field : List DbEntry) (s : State) : (protect env k p field s).after.outOff = s.outOff :=
  (congrArg State.outOff (protect_frame env k p field s) :)
@[simp] theorem protect_after_ctrl (env : Env) (k : BitVec 4) (p : Bool) (field : List DbEntry) (s : State) : (protect env k p field s).after.ctrl = s.ctrl :=
  (congrArg State.ctrl (protect_frame env k p field s) :)
@[simp] theorem protect_after_thCenter (env : Env) (k : BitVec 4) (p : Bool) (field : List DbEntry) (s : State) : (protect env k p field s).after.thCenter = s.thCenter :=
  (congrArg State.thCenter (protect_frame env k p field s) :)
@[simp] theorem protect_after_thUmid (env : Env) (k : BitVec 4) (p : Bool) (field : List DbEntry) (s : State) : (protect env k p field s).after.thUmid = s.thUmid :=
  (congrArg State.thUmid (protect_frame env k p field s) :)
@[simp] theorem protect_after_thLmid (env : Env) (k : BitVec 4) (p : Bool) (field : List DbEntry) (s : State) : (protect env k p field s).after.thLmid = s.thLmid :=
  (congrArg State.thLmid (protect_frame env k p field s) :)
@[simp] theorem protect_after_thBand (env : Env) (k : BitVec 4) (p : Bool) (field : List DbEntry) (s : State) : (protect env k p field s).after.thBand = s.thBand :=
  (congrArg State.thBand (protect_frame env k p field s) :)
@[simp] theorem protect_after_sliceMap (env : Env) (k : BitVec 4) (p : Bool) (field : List DbEntry) (s : State) : (protect env k p field s).after.sliceMap = s.sliceMap :=
  (congrArg State.sliceMap (protect_frame env k p field s) :)
@[simp] theorem protect_after_gm (env : Env) (k : BitVec 4) (p : Bool) (field : List DbEntry) (s : State) : (protect env k p field s).after.gm = s.gm :=
  (congrArg State.gm (protect_frame env k p field s) :)
@[simp] theorem protect_after_turns (env : Env) (k : BitVec 4) (p : Bool) (field : List DbEntry) (s : State) : (protect env k p field s).after.turns = s.turns :=
  (congrArg State.turns (protect_frame env k p field s) :)
@[simp] theorem protect_after_portP (env : Env) (k : BitVec 4) (p : Bool) (field : List DbEntry) (s : State) : (protect env k p field s).after.portP = s.portP :=
  (congrArg State.portP (protect_frame env k p field s) :)
@[simp] theorem protect_after_portQ (env : Env) (k : BitVec 4) (p : Bool) (field : List DbEntry) (s : State) : (protect env k p field s).after.portQ = s.portQ :=
  (congrArg State.portQ (protect_frame env k p field s) :)
@[simp] theorem protect_after_qOut (env : Env) (k : BitVec 4) (p : Bool) (field : List DbEntry) (s : State) : (protect env k p field s).after.qOut = s.qOut :=
  (congrArg State.qOut (protect_frame env k p field s) :)

end Sys2Proof.Machine
end

