-- ==== Sys2Proof/Laws/PerInstr.lean ====
section
/-!
SUPPORT. Statements for all instructions, one lemma per constructor. `EncodedLength`: an instruction is sent as one word and
exactly the data words that word asks for (rule R103); a descriptor is one word.
-/
namespace Sys2Proof

/-- The encoding of a well-formed instruction has the length its first word says (rule R103). -/
def Laws.EncodedLength.Statement (i : Instr) : Prop :=
  i.wf = true → ∃ w ws, encode i = w :: ws ∧ ws.length = (if i.isDescriptor then 0 else dataWords w)

theorem Laws.EncodedLength.reset : Laws.EncodedLength.Statement .reset :=
  fun _ => ⟨_, _, rfl, by simp [Instr.isDescriptor, dataWords]⟩

theorem Laws.EncodedLength.start : Laws.EncodedLength.Statement .start :=
  fun _ => ⟨_, _, rfl, by simp [Instr.isDescriptor, dataWords]⟩

theorem Laws.EncodedLength.stop : Laws.EncodedLength.Statement .stop :=
  fun _ => ⟨_, _, rfl, by simp [Instr.isDescriptor, dataWords]⟩

theorem Laws.EncodedLength.lock (st : BitVec 4) : Laws.EncodedLength.Statement (.lock st) :=
  fun _ => ⟨_, _, rfl, by simp [Instr.isDescriptor, dataWords]⟩

theorem Laws.EncodedLength.unlock : Laws.EncodedLength.Statement .unlock :=
  fun _ => ⟨_, _, rfl, by simp [Instr.isDescriptor, dataWords]⟩

theorem Laws.EncodedLength.submit (samples : List Word) : Laws.EncodedLength.Statement (.submit samples) := by
  intro h
  refine ⟨_, _, rfl, ?_⟩
  simp only [Instr.wf, decide_eq_true_eq] at h
  simp only [Instr.isDescriptor, dataWords, bits_commandWord_opc, bits_commandWord_low _ _ 16 (by decide)]
  simp [BitVec.setWidth_setWidth_of_le]
  omega

theorem Laws.EncodedLength.wrcr (a : BitVec 8) (v : Word) : Laws.EncodedLength.Statement (.wrcr a v) :=
  fun _ => ⟨_, _, rfl, by simp [Instr.isDescriptor, dataWords]⟩

theorem Laws.EncodedLength.wrgm (a : BitVec 10) (v : Word) : Laws.EncodedLength.Statement (.wrgm a v) :=
  fun _ => ⟨_, _, rfl, by simp [Instr.isDescriptor, dataWords]⟩

theorem Laws.EncodedLength.consume : Laws.EncodedLength.Statement .consume :=
  fun _ => ⟨_, _, rfl, by simp [Instr.isDescriptor, dataWords]⟩

theorem Laws.EncodedLength.rdsr (a : BitVec 8) : Laws.EncodedLength.Statement (.rdsr a) :=
  fun _ => ⟨_, _, rfl, by simp [Instr.isDescriptor, dataWords]⟩

theorem Laws.EncodedLength.skip (w : BitVec 10) : Laws.EncodedLength.Statement (.skip w) := fun _ => ⟨_, _, rfl, rfl⟩

theorem Laws.EncodedLength.cach (prot : Bool) (slotIdx : BitVec 6) (slotHalf : Bool) (w : BitVec 10) :
    Laws.EncodedLength.Statement (.cach prot slotIdx slotHalf w) := fun _ => ⟨_, _, rfl, rfl⟩

theorem Laws.EncodedLength.voice (prot last : Bool) (base : BitVec 6) (w : BitVec 10) :
    Laws.EncodedLength.Statement (.voice prot last base w) := fun _ => ⟨_, _, rfl, rfl⟩

theorem Laws.EncodedLength.sync (prot : Bool) (w : BitVec 10) : Laws.EncodedLength.Statement (.sync prot w) :=
  fun _ => ⟨_, _, rfl, rfl⟩

end Sys2Proof
end

