-- ==== Sys2Proof/Tests/Slice0.lean ====
section
/-!
SUPPORT. Tests: refusals of ill-formed terms and words, decoding of words written out from the spec's encodings, single steps on
the spec's vectors (95_test_vectors.md), and a witness for the hypotheses of each statement.
-/
set_option Elab.async false

namespace Sys2Proof.Tests

open Sys2Proof Sys2Proof.Machine

/-! ### WellFormed: each check refuses an ill-formed term (rules R103, R107) -/

theorem test_wf_refuses_skip_width_0 : (Instr.skip 0).wf = false := by decide
theorem test_wf_refuses_cach_width_0 : (Instr.cach false 0 false 0).wf = false := by decide
theorem test_wf_refuses_cach_width_65 : (Instr.cach false 0 false 65).wf = false := by decide
theorem test_wf_refuses_cach_slotidx_at_width : (Instr.cach false 2 false 2).wf = false := by decide
theorem test_wf_refuses_voice_width_0 : (Instr.voice false false 0 0).wf = false := by decide
theorem test_wf_refuses_voice_width_49 : (Instr.voice false false 0 49).wf = false := by decide
theorem test_wf_refuses_sync_width_0 : (Instr.sync false 0).wf = false := by decide
theorem test_wf_refuses_long_submit (l : List Word) (h : l.length = 65536) : (Instr.submit l).wf = false := by
  simp [Instr.wf, h]
theorem test_fits_refuses_voice_past_vlen : (Instr.voice false true 1 3).fits 3 4 = false := by decide
theorem test_fits_refuses_sync_width : (Instr.sync true 5).fits 3 4 = false := by decide

/-! ### Decoding of written-out words: every constructor (rules R102, R106, R107) -/

theorem test_decode_reset : decodeCommand .p [0x01000000#32] = .command .reset [] := by decide
theorem test_decode_start : decodeCommand .p [0x02000000#32] = .command .start [] := by decide
theorem test_decode_stop : decodeCommand .p [0x03000000#32] = .command .stop [] := by decide
theorem test_decode_lock : decodeCommand .p [0x04000003#32] = .command (.lock 3) [] := by decide
theorem test_decode_unlock : decodeCommand .p [0x05000000#32] = .command .unlock [] := by decide
theorem test_decode_submit :
    decodeCommand .p [0x06000002#32, 0x3F800000#32, 0xC0400000#32, 0x03000000#32]
      = .command (.submit [0x3F800000#32, 0xC0400000#32]) [0x03000000#32] := by decide
theorem test_decode_wrcr :
    decodeCommand .p [0x07000005#32, 0x40000000#32] = .command (.wrcr 0x05#8 0x40000000#32) [] := by decide
theorem test_decode_wrgm :
    decodeCommand .p [0x080003F0#32, 0x2028000C#32] = .command (.wrgm 0x3F0#10 0x2028000C#32) [] := by decide
theorem test_decode_consume : decodeCommand .q [0x10000000#32] = .command .consume [] := by decide
theorem test_decode_rdsr : decodeCommand .q [0x110000BF#32] = .command (.rdsr 0xBF#8) [] := by decide
/-- `SKIP 144` (rule R229): kind 0001 in bits 31:28, width 0010010000 in bits 9:0. -/
theorem test_decode_skip : decodeDescriptor 0b00010000000000000000000010010000#32 = .ok (.skip 144) := by decide
/-- `CACH 12, 2, hi` (rule R230): kind 0010, SLOTIDX 000010 in bits 25:20, SLOTHALF 1 in bit 19. -/
theorem test_decode_cach : decodeDescriptor 0b00100000001010000000000000001100#32 = .ok (.cach false 2 true 12) := by decide
/-- `VOICE 18, 18, last` (rule R231): kind 0011, LAST in bit 26, BASE 010010 in bits 25:20. -/
theorem test_decode_voice : decodeDescriptor 0b00110101001000000000000000010010#32 = .ok (.voice false true 18 18) := by decide
/-- `SYNC 24, prot` (rule R235): kind 0100, PROT in bit 27. -/
theorem test_decode_sync : decodeDescriptor 0b01001000000000000000000000011000#32 = .ok (.sync true 24) := by decide

/-- The illegal words of section 2.1 on port P. -/
theorem test_decode_refuses_illegal_p :
    ([0x00000000#32, 0x09000000#32, 0x0F000000#32, 0x12000000#32, 0xFF000000#32, 0x02000100#32, 0x04000010#32,
        0x07000100#32, 0x08000400#32, 0x06010000#32, 0x11000002#32].all fun w =>
      match decodeCommand .p [w, 1#32] with
      | .illegal _ rest => rest == [1#32]
      | _ => false) = true := by decide
theorem test_decode_refuses_start_on_q :
    decodeCommand .q [0x02000000#32] = .illegal (.wrongPort 0x02#8) [] := by decide
/-- The reserved descriptor words of section 2.1 (V4 to V7) and a zero width (rule R109). -/
theorem test_decode_refuses_reserved :
    ([0x00000000#32, 0x18000002#32, 0x20200002#32, 0x3C001003#32, 0x10000000#32, 0x50000001#32].all fun w =>
      match decodeDescriptor w with
      | .error _ => true
      | .ok _ => false) = true := by decide
theorem test_table_word_cach : decodeTableWord 32 0x2828000C = some (.cach true 2 true 12) := by decide
theorem test_table_word_submit : decodeTableWord 32 0x06000002 = some (.submit [0, 0]) := by decide

/-! ### Single steps -/

/-- A component of the next state, if there is one. -/
def got {α : Type} (f : State → α) (o : Host.Outcome State Fault Refusal) : Option α :=
  match o with
  | .next t => some (f t)
  | _ => none

/-- The sample that stands for a dibit, as the vectors have it. -/
def nominal (d : Dibit) : Word :=
  if d = 0 then 0x3F800000#32 else if d = 1 then 0x40400000#32 else if d = 2 then 0xBF800000#32 else 0xC0400000#32

/-- A dibit buffer that holds the given dibits from entry 0 on. -/
def buffered (ds : List Dibit) : Mem DbEntry := memLoad [] (ds.map fun d => { d := d, a := nominal d })

/-- A running, locked engine with the given grammar words and dibits buffered from pointer 0. -/
def running (gm : Mem Word) (ds : List Dibit) : State :=
  { State.reset with
    run := true, halted := false, locked := true, gvalid := true, gm := gm, dbuf := buffered ds
    wp := BitVec.ofNat 32 ds.length, dbValid := BitVec.ofNat 32 ds.length, turns := [.engine] }

/-- `G_TINY` of 95_test_vectors.md section 3.1. -/
def tiny : Mem Word :=
  [(0x000, 0x01030203#32), (0x001, 0x00050006#32), (0x002, 0x40020491#32), (0x003, 0x000000F5#32),
    (0x010, 0x28100002#32), (0x011, 0x48000004#32), (0x012, 0x3C000003#32),
    (0x050, 0x0000007D#32), (0x051, 0#32), (0x052, 0x00000010#32), (0x053, 0#32),
    (0x054, 0x000000D7#32), (0x055, 0#32), (0x056, 0x00000021#32), (0x057, 0#32),
    (0x080, 0x00000100#32), (0x081, 0x00005F5E#32), (0x082, 0x00000504#32),
    (0x100, 0x0000B111#32), (0x101, 0x000FC192#32), (0x102, 0x00004091#32), (0x103, 0x00075012#32),
    (0x104, 0x00039189#32)]

/-- `G_TINY` with the protection bits of its three fields off, so that no FEC answer is asked for. -/
def tinyOpen : Mem Word :=
  memWrite (memWrite (memWrite tiny 0x010 0x20100002#32) 0x011 0x40000004#32) 0x012 0x34000003#32

/-- The thresholds of the vectors: -2, 0, +2. -/
def levels (s : State) : State := { s with thCenter := 0#32, thUmid := 0x40000000#32, thLmid := 0xC0000000#32 }

/-- K20. -/
theorem test_reset :
    got (fun t => (t.wp, t.rp, t.fault, t.run)) (exec .reset { State.reset with wp := 5, rp := 5, fault := 0x7B, run := true })
      = some (0, 0, 0x7B, true) := by decide
/-- V0. -/
theorem test_start_tiny :
    got statusWord (exec .start (levels { State.reset with gm := tiny })) = some 0x00000039#32 := by decide +kernel
/-- T2: band -1.0. -/
theorem test_start_bad_band :
    got (fun t => (t.fault, t.halted)) (exec .start (levels { State.reset with gm := tiny, thBand := 0xBF800000#32 }))
      = some (0x08, true) := by decide +kernel
/-- V3: six bursts. -/
theorem test_start_bad_grammar :
    got (fun t => (t.fault, statusWord t)) (exec .start (levels { State.reset with gm := memWrite tiny 2 0x400204A8#32 }))
      = some (0x04, 0x32) := by decide +kernel
theorem test_stop : got (fun t => (t.run, t.halted)) (exec .stop { State.reset with run := true, halted := false })
    = some (false, false) := by decide
/-- K12. -/
theorem test_lock :
    got (fun t => (t.locked, t.rp, t.lastsync))
      (exec (.lock 1) { State.reset with gvalid := true, wp := 300, dbValid := 300, gm := [(1, 90#32)] })
      = some (true, 210, 1) := by decide
/-- K14. -/
theorem test_lock_early :
    got (fun t => (t.locked, t.fault)) (exec (.lock 1) { State.reset with gvalid := true, dbValid := 3, gm := [(1, 6#32)] })
      = some (false, 0x40) := by decide
/-- K16. -/
theorem test_unlock :
    got (fun t => (t.locked, t.rp, t.muted)) (exec .unlock { State.reset with locked := true, wp := 500, rp := 470 })
      = some (false, 500, true) := by decide
/-- K9. -/
theorem test_submit :
    got (fun t => (t.inBuf, t.rdyLen, t.inOff)) (exec (.submit [0x3F800000#32, 0xC0400000#32, 0x40400000#32]) State.reset)
      = some ([(0, 0x3F800000#32), (1, 0xC0400000#32), (2, 0x40400000#32)], 3, 0) := by decide
/-- K10. -/
theorem test_submit_overrun :
    got (fun t => (t.fault, t.rdyLen)) (exec (.submit [0xBF800000#32, 0xBF800000#32]) { State.reset with rdyLen := 3 })
      = some (0x02, 3) := by decide
/-- K7. -/
theorem test_wrcr_ctrl :
    got (fun t => (t.ctrl, t.gvalid)) (exec (.wrcr 0x01 0xFFFFFFFF#32) { State.reset with gvalid := true })
      = some (0x00000003#32, false) := by decide
/-- K5. -/
theorem test_wrcr_busy :
    got (fun t => (t.fault, t.thUmid)) (exec (.wrcr 0x05 0x40200000#32) { State.reset with halted := false })
      = some (0x20, 0) := by decide
theorem test_wrgm :
    got (fun t => (t.gm, t.gvalid)) (exec (.wrgm 0x010 0x2028000C#32) { State.reset with gvalid := true })
      = some ([(0x010, 0x2028000C#32)], false) := by decide
theorem test_wrgm_busy :
    got (fun t => (t.gm, t.fault)) (exec (.wrgm 0x010 1#32) { State.reset with halted := false }) = some ([], 0x20) := by decide
/-- K19. -/
theorem test_consume :
    got (fun t => (t.qOut, t.outLen))
      (exec .consume { State.reset with outLen := 1, outRec := [(0, 3#32), (1, 3#32), (2, 1#32), (3, 0#32), (4, 0x00800000#32)] })
      = some ([1#32, 3#32, 3#32, 1#32, 0#32, 0x00800000#32], 0) := by decide
/-- K18. -/
theorem test_consume_empty : got State.qOut (exec .consume State.reset) = some [0#32, 0#32, 0#32, 0#32, 0#32, 0#32] := by decide
/-- K1. -/
theorem test_rdsr_status : got State.qOut (exec (.rdsr 0x02) State.reset) = some [0x00000032#32] := by decide
/-- Rule R192: (5, 2) reads 40.0. -/
theorem test_rdsr_ber :
    got State.qOut (exec (.rdsr 0x12) { State.reset with bitCnt := 5, bitErr := 2 }) = some [0x42200000#32] := by decide
/-- Rule R229: `SKIP 144` at `RP = 1000`. -/
theorem test_skip : got State.rp (exec (.skip 144) { State.reset with rp := 1000, gm := [(0, 3#32)] }) = some 1144 := by decide
/-- Rule R230: raw dibits 0, 1, 2. -/
theorem test_cach :
    got State.curslot (exec (.cach false 2 true 12) (running [(0, 3#32)] [0, 1, 2, 3, 0, 1, 2, 3, 0, 1, 2, 3])) = some 1 := by
  decide
/-- Program A's kind of record: dibits 3, 1, 2 through the table of `G_TINY`. -/
theorem test_voice :
    got (fun t => (t.outLen, t.outRec, t.kidx, t.j))
      (exec (.voice false true 0 3)
        { running tinyOpen [3, 0, 1] with f := 2, j := 1, curslot := 1, muted := false, firstframe := false })
      = some (1, [(0, 0x3#32), (1, 0x1#32), (2, 0x3#32), (3, 0#32), (4, 0#32)], 0, 2) := by
  decide
/-- Rule R234: a muted sub-frame is dropped, and `KIDX` moves. -/
theorem test_voice_muted :
    got (fun t => (t.outLen, t.kidx)) (exec (.voice false true 0 3) (running tinyOpen [3, 0, 1])) = some (0, 1) := by decide
/-- Rule R236: a VOICE-class sync word. -/
theorem test_sync_voice :
    got (fun t => (t.muted, t.slotst0, t.lastsync)) (exec (.sync false 4) (running tinyOpen [1, 3, 3, 1]))
      = some (false, 1, 1) := by decide
/-- Rule R237: an unmatched field in burst 0, where a sync word is expected. -/
theorem test_sync_miss :
    got (fun t => (t.muted, t.slotst0, t.syncMiss, t.hdrErr)) (exec (.sync false 4) (running tinyOpen [3, 3, 3, 3]))
      = some (true, 0, 1, 0) := by decide
/-- Rule R170: 2.5 is pushed as dibit 1. -/
theorem test_sym :
    got (fun t => (t.dbuf, t.wp, t.rp, t.rdyLen))
      (step (levels { State.reset with
        halted := false, run := true, inBuf := [(0, 0x40200000#32)], rdyLen := 1, turns := [.engine] }))
      = some ([(0, { d := 1, a := 0x40200000#32 })], 1, 1, 0) := by decide
/-- Section 2.2: 2.0 and 0.0 fall on the inner side, NaN in region 2. -/
theorem test_static_slice :
    ([0x40400000#32, 0x40000000#32, 0x00000000#32, 0x80000000#32, 0xC0000000#32, 0xC0200000#32, 0x7FC00000#32].map
      (staticSlice (levels State.reset))) = [1, 0, 2, 2, 2, 3, 2] := by decide
/-- Section 2.3: e = 1, 1, 0, 1, 2, 2. -/
theorem test_ber_fold :
    ([1, 1, 0, 1, 2, 2].foldl (fun p e => berPair Config.params e p.1 p.2) ((0 : Word), (0 : Word))) = (7, 5) := by decide
/-- M1. -/
theorem test_model_insert :
    (let m := [0x3F800000#32, 0x40000000#32, 0x40400000#32].foldl (modelInsert fun _ => 0) SymModel.empty
     (m.cnt, m.idx, m.sum, m.vsum, m.mean.map Prod.snd))
      = (3, 3, 0x40C00000#32, 0x3FA00000#32, [0x3F800000#32, 0x3FC00000#32, 0x40000000#32]) := by decide +kernel
/-- A table word runs as the very next step. -/
theorem test_fetch_word_cach :
    got (fun t => t.rp) (step (State.reset.withFetchWord 32 0x2028000C)) = some 12 := by decide

/-! ### Witnesses: states and operands that meet the hypotheses of the statements, one for each clause -/

theorem witness_CommandDecodeEncode :
    (Instr.wrgm 0x3FF 5).wf = true ∧ (Instr.wrgm 0x3FF 5).port = some .p ∧ (Instr.rdsr 0xFF).port = some .q := by decide
theorem witness_DescriptorDecodeEncode :
    (Instr.cach true 63 true 64).wf = true ∧ (Instr.cach true 63 true 64).isDescriptor = true := by decide
theorem witness_InstructionEncodeDecode :
    decodeCommand .p [0x040000FF#32 &&& 0xFFFFFF0F#32] = .command (.lock 15) []
      ∧ decodeDescriptor 0x3FF00030#32 = .ok (.voice true true 63 48) := by decide
theorem witness_CommandLength :
    LegalCommandWord .p 0x0600FFFF#32 ∧ LegalCommandWord .q 0x10000000#32 ∧ ¬ LegalCommandWord .p 0x10000000#32 := by
  simp only [LegalCommandWord]; decide
theorem witness_PortPStepRunsCommand :
    decodeCommand .p [0x08000010#32, 7#32, 1#32] = .command (.wrgm 0x010 7) [1#32] := by decide
theorem witness_PortQStepRunsCommand :
    decodeCommand .q [0x10000000#32] = .command .consume [] ∧ State.reset.run = false
      ∧ State.reset.outLen = 0 := by decide
theorem witness_EngineStepRunsDescriptor :
    let s := running tinyOpen [0, 0]
    s.halted = false ∧ s.locked = true ∧ decodeDescriptor (gmRead s.gm (0x010 + s.f.toNat)) = .ok (.cach false 1 false 2)
      ∧ ((gmRead s.gm (0x010 + s.f.toNat)).extractLsb' 0 10).toNat ≤ (s.wp - s.rp).toNat := by decide
theorem witness_IllegalWordOnlyRaises :
    ¬ LegalCommandWord .p 0x11000002#32 ∧ ¬ LegalCommandWord .q 0x02000000#32 := by
  simp only [LegalCommandWord]; decide
/-- A held VOICE of a running engine, and of one that was stopped. -/
def heldVoice : State :=
  { running tinyOpen [3, 0, 1] with f := 2, muted := false, firstframe := false, outLen := 1 }
theorem witness_EngineSelection_held :
    heldVoice.halted = false ∧ heldVoice.locked = true ∧ heldVoice.run = true
      ∧ decodeDescriptor (gmRead heldVoice.gm (0x010 + heldVoice.f.toNat)) = .ok (.voice false true 0 3)
      ∧ ((gmRead heldVoice.gm (0x010 + heldVoice.f.toNat)).extractLsb' 0 10).toNat
          ≤ (heldVoice.wp - heldVoice.rp).toNat
      ∧ heldVoice.muted = false ∧ heldVoice.firstframe = false ∧ heldVoice.outLen ≠ 0
      ∧ engineChoice Config.params heldVoice = .hold ∧ engineChoice Config.params { heldVoice with run := false } = .halt := by decide
theorem witness_EngineSelection_incomplete :
    engineChoice Config.params { running tinyOpen [0] with rdyLen := 1 } = .sym ∧ engineChoice Config.params (running tinyOpen [0]) = .hold
      ∧ engineChoice Config.params { running tinyOpen [0] with run := false } = .halt ∧ engineChoice Config.params State.reset = .hold := by decide
theorem witness_ResetCommand : engineChoice Config.params heldVoice = .hold := by decide
theorem witness_StartCommand_running : (running tiny []).halted = false := by decide
theorem witness_StartCommand_valid :
    let s := levels { State.reset with gm := tiny }
    s.halted = true ∧ grammarOk Config.params s.gm = true ∧ configOk s.thCenter s.thUmid s.thLmid s.thBand = true
      ∧ s.gvalid = false := by decide +kernel
theorem witness_StartCommand_resumes :
    let s := levels { State.reset with gm := tiny, gvalid := true }
    s.halted = true ∧ grammarOk Config.params s.gm = true ∧ configOk s.thCenter s.thUmid s.thLmid s.thBand = true
      ∧ s.gvalid = true := by decide +kernel
theorem witness_StartCommand_fails : grammarOk Config.params (memWrite tiny 0x010 0#32) = false := by decide +kernel
theorem witness_StopCommand :
    engineChoice Config.params { State.reset with run := true, halted := false, rdyLen := 1 } = .sym
      ∧ engineChoice Config.params { State.reset with run := true, halted := false } = .hold := by decide
theorem witness_LockCommand :
    (let s := { State.reset with gvalid := true, dbValid := 6, gm := tiny }
     ¬ (s.gvalid = false ∨ s.dbValid.toNat < gLookback s.gm))
      ∧ (let s := { State.reset with gvalid := true, dbValid := 5, gm := tiny }
         s.dbValid.toNat < gLookback s.gm) := by decide
theorem witness_SubmitCommand :
    (4096 < (List.replicate 4097 0#32).length) ∧ ¬ (4096 < (List.replicate 4096 0#32).length)
      ∧ State.reset.rdyLen = 0 := by
  simp only [List.length_replicate]; decide
theorem witness_data_words_taken :
    let s : State := { State.reset with turns := [.producer], portP := encode (.wrcr 0x09 1#32) ++ [0x03000000#32] }
    got (fun t => (t.portP, t.fault)) (step s) = some ([0x03000000#32], 0x01) := by decide
theorem witness_WrcrCommand :
    (0x09#8 ∉ [0x01#8, 0x04#8, 0x05#8, 0x06#8, 0x07#8, 0x08#8]) ∧ (0x08#8 ∈ [0x01#8, 0x04#8, 0x05#8, 0x06#8, 0x07#8, 0x08#8])
      ∧ State.reset.halted = true ∧ heldVoice.halted = false := by decide
theorem witness_WrgmCommand :
    (let s : State := { State.reset with turns := [.producer], portP := encode (.wrgm 0x3FF 7#32) ++ [0x03000000#32] }
     got (fun t => (t.portP, t.gm)) (step s) = some ([0x03000000#32], [(0x3FF, 7#32)]))
      ∧ State.reset.halted = true ∧ heldVoice.halted = false := by decide
theorem witness_RdsrCommand :
    gTgW tiny ≤ 24 ∧ gTgLo tiny + gTgW tiny ≤ 128 ∧ (0x20 + 4 * 7 + 3 = (0x3F#8).toNat) ∧ (0x50 + 3 = (0x53#8).toNat)
      ∧ (0x80 + 4 * (4 * (3#2).toNat + (3#2).toNat) + 3 = (0xBF#8).toNat) := by decide
theorem witness_ConsumeCommand : heldVoice.outLen ≠ 0 ∧ State.reset.outLen = 0 ∧ State.reset.run = false := by decide
theorem witness_CachDescriptor : (Instr.cach true 0 false 1).wf = true ∧ (Instr.cach false 63 true 64).wf = true := by decide
theorem witness_VoiceDescriptor :
    (let s := { heldVoice with outLen := 0 }
     ¬ (s.muted = false ∧ s.firstframe = false ∧ s.outLen ≠ 0)) ∧ (running tiny []).muted = true := by decide
theorem witness_VoiceHeldWaits :
    heldVoice.muted = false ∧ heldVoice.firstframe = false ∧ heldVoice.outLen ≠ 0 := by decide
theorem witness_SyncMatchedDescriptor :
    LowestMatch (running tinyOpen [1, 3, 3, 1]).gm (4 : BitVec 10).toNat (rawDibit (running tinyOpen [1, 3, 3, 1])) 0 := by
  refine ⟨by decide, ?_, fun l hl => absurd hl (by omega)⟩
  simp only [MatchesSync]; decide
theorem witness_SyncMatchedDescriptor_second :
    LowestMatch (running tinyOpen [3, 1, 1, 3]).gm (4 : BitVec 10).toNat (rawDibit (running tinyOpen [3, 1, 1, 3])) 1 := by
  refine ⟨by decide, ?_, ?_⟩ <;> simp only [MatchesSync] <;> decide
theorem witness_SyncUnmatchedOutsideSpan :
    let s := running tinyOpen [3, 3, 3, 3]
    NoMatch s.gm (4 : BitVec 10).toNat (rawDibit s)
      ∧ ¬ ((gDiscBurst s.gm).toNat ≤ s.j.toNat ∧ s.j.toNat ≤ (gSigLast s.gm).toNat) := by
  simp only [NoMatch, MatchesSync]; decide
theorem witness_SyncUnmatchedInSpan :
    let s := { running tinyOpen [3, 3, 3, 3] with j := 1 }
    NoMatch s.gm (4 : BitVec 10).toNat (rawDibit s)
      ∧ (gDiscBurst s.gm).toNat ≤ s.j.toNat ∧ s.j.toNat ≤ (gSigLast s.gm).toNat := by
  simp only [NoMatch, MatchesSync]; decide
theorem witness_VoicePlacementBits :
    (vtabPositions tiny 0 3)[3]? = some (3, 23) ∧ (segmentBits [0, 1, 0])[3]? = some true ∧ (2, 22) ∉ vtabPositions tiny 0 3
      ∧ ∀ n : Fin 6, 3 < n.val → (vtabPositions tiny 0 3)[n.val]? ≠ some (3, 23) := by decide
theorem witness_SignallingWiringBits :
    (gWires tiny)[0]? = some 0x0000B111#32 ∧ WiresTo Config.params 1 1 0x0000B111#32 5 0 ∧ ¬ WiresTo Config.params 1 1 0x000FC192#32 5 0 := by
  simp only [WiresTo]; decide
theorem witness_SampleStep :
    let s := { running tinyOpen [0] with rdyLen := 1, inBuf := [(0, 0x40200000#32)] }
    s.halted = false ∧ (s.wp - s.rp).toNat < ((gmRead s.gm (0x010 + s.f.toNat)).extractLsb' 0 10).toNat
      ∧ s.rdyLen ≠ 0 ∧ memRead s.inBuf s.inOff.toNat = some 0x40200000#32 := by decide
/-- An unlocked engine whose last four dibits are the first sync word of `G_TINY`. -/
def searching (ds : List Dibit) : State := { running tinyOpen ds with locked := false, ctrl := 2 }
theorem witness_AutoLockDetector :
    let s := searching [0, 0, 1, 3, 3, 1]
    Config.params.wPtr = 32 ∧ s.locked = false ∧ s.ctrl.getLsbD 1 = true ∧ (gField s.gm 1).extractLsb' 28 4 = 0x4#4 ∧ 1 < gNfield s.gm
      ∧ gNsync s.gm ≠ 0 ∧ gLookback s.gm = s.dbValid.toNat
      ∧ LowestMatch s.gm (gSyncw s.gm)
          (fun i => (dbRead Config.params s (s.wp - BitVec.ofNat 32 (gSyncw s.gm) + BitVec.ofNat 32 i)).d) 0 := by
  simp only [LowestMatch, MatchesSync]; decide
theorem witness_AutoLockDetector_no_match :
    let s := searching [0, 0, 1, 3, 3, 2]
    NoMatch s.gm (gSyncw s.gm) (fun i => (dbRead Config.params s (s.wp - BitVec.ofNat 32 (gSyncw s.gm) + BitVec.ofNat 32 i)).d) := by
  simp only [NoMatch, MatchesSync]; decide
/-- A narrower build: a 10-bit pointer wraps, a 16-bit counter stops at its top, a word past grammar memory is not stored, a
wiring entry for a register that does not exist writes nothing. -/
theorem test_smaller_parameters :
    let P : Params := { wPtr := 10, wCnt := 16, gmWords := 768, nsigreg := 7 }
    P.legal = true ∧ ptrWrap P 1024 = 0 ∧ satInc P 0xFFFF = 0xFFFF ∧ gmWrite P [] 0x300 1 = []
      ∧ wireOne P 1 1 [3#2] (Vector.replicate 8 0) 0x0000E011#32 = Vector.replicate 8 0
      ∧ wireOne Config.params 1 1 [3#2] (Vector.replicate 8 0) 0x0000E011#32 ≠ Vector.replicate 8 0 := by decide
theorem witness_StaticSlicer :
    let s := levels State.reset
    configOk s.thCenter s.thUmid s.thLmid s.thBand = true ∧ f32IsNaN 0x7FC00000#32 = true
      ∧ flt s.thUmid 0x40000001#32 = true ∧ fle 0x40000000#32 s.thUmid = true ∧ flt s.thCenter 0x00000001#32 = true
      ∧ fle 0x80000000#32 s.thCenter = true ∧ fle s.thLmid 0xC0000000#32 = true ∧ flt 0xC0000001#32 s.thLmid = true
      ∧ feq State.reset.thLmid State.reset.thCenter = true ∧ feq State.reset.thCenter State.reset.thUmid = true := by
  decide
/-- Four models of ten values, mean 1. -/
def trained (vsum : Word) : State :=
  { State.reset with ht := Vector.replicate 16 { SymModel.empty with cnt := 10, idx := 10, sum := 0x41200000#32, vsum := vsum } }
theorem witness_EstimateAnswer_usable :
    ∀ c : Dibit, 10 ≤ (htGet (trained 0x41200000#32) 0 c).cnt.toNat
      ∧ f32IsFinite (htGet (trained 0x41200000#32) 0 c).sum = true
      ∧ f32IsFinite (htGet (trained 0x41200000#32) 0 c).vsum = true
      ∧ fgt (htGet (trained 0x41200000#32) 0 c).vsum 0#32 = true := by decide
theorem witness_EstimateAnswer_no_nan :
    ∀ c : Dibit, f32IsNaN (pdfOf Config.env 0 (htGet (trained 0x41200000#32) 0 c) 0x3F800000#32) = false := by decide +kernel
theorem witness_EstimateAnswer_nan :
    (∀ c : Dibit, fgt (htGet (trained 0x00000001#32) 0 c).vsum 0#32 = true)
      ∧ ∀ c : Dibit, f32IsNaN (pdfOf Config.env 0 (htGet (trained 0x00000001#32) 0 c) 0x40000000#32) = true := by
  decide +kernel
theorem witness_EstimateAnswer_untrained : ¬ 10 ≤ (htGet State.reset 0 0).cnt.toNat := by decide
theorem witness_UpdateEffect :
    Config.env.params.legal = true ∧ (2 ^ 32 - 3 < (0xFFFFFFFE#32).toNat) ∧ (0xFFFFFFFD#32).toNat ≤ 2 ^ 32 - 3
      ∧ (0xFFFFFFFD#32).toNat ≤ (0xFFFFFFFD#32).toNat := by decide
theorem witness_ModelInsertEffect_empty : ModelLegal SymModel.empty := by
  refine ⟨by decide, by decide, by decide, ?_, ?_, ?_, ?_⟩ <;> simp [SymModel.empty, Mem.wf]
/-- A full model. -/
def fullModel : SymModel :=
  { SymModel.empty with
    cnt := 200, val := memLoad [] (List.replicate 200 0x3F800000#32), mean := memLoad [] (List.replicate 200 0x3F800000#32) }
/-- What a run of equal entries from address 0 on reads as. -/
theorem isSome_memLoad_replicate (n a : Nat) (x : Word) :
    (memRead (memLoad ([] : Mem Word) (List.replicate n x)) a).isSome = decide (a < n) := by
  rw [memRead_memLoad, List.length_replicate, List.getElem?_replicate]
  by_cases h : a < n <;> simp [h]
theorem witness_ModelInsertEffect_full : ModelLegal fullModel ∧ fullModel.cnt.toNat = 200 := by
  have hlen : (List.replicate 200 0x3F800000#32).length ≤ 200 := Nat.le_of_eq List.length_replicate
  exact ⟨⟨by decide, by decide, by decide, memLoad_wf (nil_wf 200) hlen, memLoad_wf (nil_wf 200) hlen,
    fun a => isSome_memLoad_replicate 200 a _, fun a => isSome_memLoad_replicate 200 a _⟩, by decide⟩
theorem witness_IntegerSumsExact : ∀ x ∈ [(83886 : Int), -83886, 0], x.natAbs * 200 < 2 ^ 24 := by decide
theorem witness_ArithmeticRoundsToNearestEven :
    f32IsFinite 0x7F7FFFFF#32 = true ∧ f32IsFinite 0x80000001#32 = true ∧ f32Int 0x80000001#32 ≠ 0
      ∧ 0 ≤ f32Int 0x80000000#32 := by decide +kernel
/-- 1 + 2^-24 and 1 + 3 * 2^-24 lie midway between two values: each goes to the even one. -/
theorem test_add_ties_to_even :
    fadd 0 0x3F800000#32 0x33800000#32 = 0x3F800000#32 ∧ fadd 0 0x3F800001#32 0x33800000#32 = 0x3F800002#32 := by
  decide +kernel
theorem witness_TrainFieldEffect :
    ([0#2, 3#2] : List Dibit).length = ([{ d := 1, a := 5 }, { d := 3, a := 6 }] : List DbEntry).length
      ∧ State.reset.ctrl.getLsbD 0 = false ∧ ({ State.reset with ctrl := 1 } : State).ctrl.getLsbD 0 = true
      ∧ ([0#2, 3#2] : List Dibit)[1 - 1]? = some 0 ∧ (1#2 ∉ [0#2, 3#2]) := by decide
theorem witness_FecQueryMessage :
    (FecQuery.mk 0x2#4 1 0 [0, 1, 2]).raw.length < 1024
      ∧ queryWords (FecQuery.mk 0x2#4 1 0 [0, 1, 2]) = [0x22000003#32, 0x00000024#32] := by decide
/-- Every invariant holds of the reset state, and a step from it answers: the witness of the statements that say what every
step keeps. -/
theorem witness_StepKeeps : ∃ t, step State.reset = .next t := ⟨_, rfl⟩
theorem witness_GrammarBounds : grammarOk Config.params tiny = true ∧ grammarOk Config.params tinyOpen = true ∧ gNfield tiny = 3 := by decide +kernel
theorem witness_GrammarLegal : GrammarLegal (levels (running tiny [0, 1])) := by
  simp only [GrammarLegal]; decide +kernel
theorem witness_BufferLegal : BufferLegal (running tinyOpen [0, 1]) ∧ engineChoice Config.params (running tinyOpen [0, 1])
    = .field (.cach false 1 false 2) := by
  refine ⟨⟨by decide, by decide, by decide, fun k h1 h2 => ?_⟩, by decide⟩
  have h3 : k ≤ 2 := h2
  have : k = 1 ∨ k = 2 := by omega
  rcases this with rfl | rfl <;> decide
/-- An unlocked engine with the detector on and five dibits pushed: its next sample is the sixth, which `LOOKBACK` asks for. -/
def detecting : State :=
  { levels (running tinyOpen [0, 0, 1, 3, 3]) with
    locked := false, rp := 5, ctrl := 2, rdyLen := 1, inBuf := [(0, 0x40400000#32)] }
theorem witness_NoUnwrittenEntryRead_detector :
    GrammarLegal detecting ∧ BufferLegal detecting ∧ engineChoice Config.params detecting = .sym
      ∧ (let u := symPush Config.env detecting
         u.locked = false ∧ u.ctrl.getLsbD 1 = true ∧ 1 < gNfield u.gm ∧ (gField u.gm 1).extractLsb' 28 4 = 0x4#4
           ∧ gLookback u.gm = u.dbValid.toNat ∧ 3 < gSyncw u.gm) := by
  refine ⟨?_, ⟨by decide, by decide, by decide, fun k h1 h2 => ?_⟩, by decide, by decide +kernel⟩
  · simp only [GrammarLegal]; decide +kernel
  · have h3 : k ≤ 5 := h2
    have : k = 1 ∨ k = 2 ∨ k = 3 ∨ k = 4 ∨ k = 5 := by omega
    rcases this with rfl | rfl | rfl | rfl | rfl <;> decide
theorem witness_ChannelsLegal :
    ChannelsLegal { State.reset with halted := false, rdyLen := 1, inBuf := [(0, 5#32)] }
      ∧ engineChoice Config.params { State.reset with halted := false, rdyLen := 1, inBuf := [(0, 5#32)] } = .sym := by
  refine ⟨⟨by decide, by decide, by decide, fun i h => ?_, by decide⟩, by decide⟩
  have h' : i < 1 := h
  have : i = 0 := by omega
  subst this; decide
theorem witness_ClassifierLegal : ClassifierLegal { State.reset with ht := Vector.replicate 16 fullModel } := by
  refine ⟨fun p c => ?_, by decide⟩
  have : htGet { State.reset with ht := Vector.replicate 16 fullModel } p c = fullModel := by simp [htGet]
  rw [this]
  exact witness_ModelInsertEffect_full.1
theorem witness_FaultBitsSticky :
    nextAgent Config.params { heldVoice with fault := 2 } ≠ .por ∧ (2#8).getLsbD 1 = true
      ∧ (got State.fault (step { heldVoice with fault := 2 })).isSome = true := by decide
theorem witness_GrammarFixedWhileRunning :
    nextAgent Config.params (running tinyOpen [0, 1]) ≠ .por ∧ (running tinyOpen [0, 1]).halted = false
      ∧ (got State.rp (step (running tinyOpen [0, 1]))) = some 2 := by decide
/-- One word of each ignored range of `G_TINY`, and the word a stopped engine's WRGM goes to. -/
theorem witness_IgnoredWordsNeverRead :
    (∀ a ∈ [0x004, 0x00F, 0x013, 0x04F, 0x058, 0x06F, 0x070, 0x083, 0x0B0, 0x105, 0x300, 0x3FF], IgnoredWord tiny a)
      ∧ (∀ a ∈ [0x003, 0x010, 0x012, 0x050, 0x057, 0x080, 0x082, 0x100, 0x104], ¬ IgnoredWord tiny a)
      ∧ nextAgent Config.params (levels (running tiny [0, 1])) ≠ .por := by
  simp only [IgnoredWord]; decide
theorem witness_StartChecksAccept :
    grammarOk Config.params tiny = true ∧ configOk 0#32 0x40000000#32 0xC0000000#32 0x7F800000#32 = true
      ∧ configOk 0#32 0#32 0x80000000#32 0x80000000#32 = true ∧ configOk 0#32 0#32 1#32 0#32 = false := by decide +kernel
theorem witness_EngineNeverUnlocks :
    nextAgent Config.params (running tinyOpen [0, 1]) = .engine ∧ (running tinyOpen [0, 1]).locked = true := by decide
theorem witness_PortQWritesNothingElse :
    let s := { heldVoice with portQ := [0x10000000#32], turns := [.consumer] }
    nextAgent Config.params s = .consumer ∧ got State.outLen (step s) = some 0 ∧ s.outLen = 1 := by decide
theorem witness_OnlyVoiceSyncUnmutes :
    let s := { running tinyOpen [1, 3, 3, 1] with f := 1 }
    s.muted = true ∧ got State.muted (step s) = some false := by decide
theorem witness_OnlyGoodVoiceFramesForwarded :
    let s := { heldVoice with outLen := 0 }
    s.outLen = 0 ∧ got State.outLen (step s) = some 1 := by decide
theorem witness_WaitingRecordKept : heldVoice.outLen = 1 ∧ got State.outLen (step heldVoice) = some 1 := by decide
theorem witness_PowerOnReset : got State.halted (step { heldVoice with turns := [.por] }) = some true := by decide

end Sys2Proof.Tests
end

section
/-!
SUPPORT. The BER accumulators of `Update` as numbers (rules R186 to R189), and the statement about `Update`.
-/
namespace Sys2Proof.Machine

/-- The table of rule R186 is the Hamming distance of the two dibits (rule R187). -/
theorem errCount_eq_hamming (raw corr : Dibit) :
    errCount raw corr = ((raw ^^^ corr).getLsbD 0).toNat + ((raw ^^^ corr).getLsbD 1).toNat := by
  revert raw corr; decide

theorem errCount_le_two (raw corr : Dibit) : errCount raw corr ≤ 2 := by
  revert raw corr; decide

theorem not_getLsbD_zero {n : Nat} (x : BitVec n) : (!x.getLsbD 0) = decide (x.toNat % 2 = 0) := by
  rw [BitVec.getLsbD, Nat.testBit_zero, ← decide_not, decide_eq_decide]
  omega

/-- Above the freeze of rule R189 the accumulators keep their values. -/
theorem berPair_frozen {P : Params} {cnt : Counter} (h : 2 ^ P.wCnt - 3 < cnt.toNat) (e : Nat) (err : Counter) :
    berPair P e cnt err = (cnt, err) := if_pos h

/-- Up to the freeze the accumulators add, and both are halved where both sums are even (rule R188). -/
theorem berPair_folds {P : Params} {cnt : Counter} (h : cnt.toNat ≤ 2 ^ P.wCnt - 3) (e : Nat) (err : Counter) :
    berPair P e cnt err =
      if (cnt + 2).toNat % 2 = 0 ∧ (err + BitVec.ofNat 32 e).toNat % 2 = 0 then
        ((cnt + 2) >>> 1, (err + BitVec.ofNat 32 e) >>> 1)
      else (cnt + 2, err + BitVec.ofNat 32 e) := by
  rw [berPair, if_neg (Nat.not_lt.mpr h), not_getLsbD_zero, not_getLsbD_zero]
  simp only [Bool.and_eq_true, decide_eq_true_eq]

/-- Neither sum wraps up to the freeze, so the accumulators follow rule R188 as numbers. -/
theorem toNat_berPair {P : Params} {cnt err : Counter} {e : Nat} (hw : P.wCnt ≤ 32) (hcnt : cnt.toNat ≤ 2 ^ P.wCnt - 3)
    (herr : err.toNat ≤ cnt.toNat) (he : e ≤ 2) :
    if (cnt.toNat + 2) % 2 = 0 ∧ (err.toNat + e) % 2 = 0 then
      (berPair P e cnt err).1.toNat = (cnt.toNat + 2) / 2 ∧ (berPair P e cnt err).2.toNat = (err.toNat + e) / 2
    else (berPair P e cnt err).1.toNat = cnt.toNat + 2 ∧ (berPair P e cnt err).2.toNat = err.toNat + e := by
  have hpow : 2 ^ P.wCnt ≤ 2 ^ 32 := Nat.pow_le_pow_right (by decide) hw
  have hc : (cnt + 2).toNat = cnt.toNat + 2 := BitVec.toNat_add_of_lt (show cnt.toNat + 2 < 2 ^ 32 by omega)
  have hr : (err + BitVec.ofNat 32 e).toNat = err.toNat + e := by
    rw [BitVec.toNat_add, BitVec.toNat_ofNat]; omega
  rw [berPair_folds hcnt, ← hc, ← hr]
  split
  next => exact ⟨BitVec.toNat_ushiftRight .., BitVec.toNat_ushiftRight ..⟩
  next => exact ⟨rfl, rfl⟩

end Sys2Proof.Machine

open Sys2Proof Sys2Proof.Machine

/-- Settles O37: the accumulators by `toNat_berPair`, the one model by `htGet_update`, the rest by `update_frame`. -/
theorem updateEffect : Obligations.UpdateEffect := by
  intro env p raw corr a s hlegal
  have hw : env.params.wCnt ≤ 32 := by
    simp only [Params.legal, Bool.and_eq_true, decide_eq_true_eq] at hlegal
    omega
  refine ⟨fun hfrozen => ?_, fun hcnt herr => ?_, fun p' c' hother => ?_, ⟨drawNan env s.nanDraws, ?_⟩, ?_⟩
  · rw [update_bitCnt, update_bitErr, berPair_frozen hfrozen]
    exact ⟨rfl, rfl⟩
  · rw [update_bitCnt, update_bitErr, ← errCount_eq_hamming]
    exact toNat_berPair hw hcnt herr (errCount_le_two raw corr)
  · rw [htGet_update]
    exact if_neg hother
  · rw [htGet_update]
    exact if_pos ⟨rfl, rfl⟩
  · exact update_frame env p raw corr a s
end

section
/-!
SUPPORT. Rounding to nearest even (rules R10, R196). `magUnits` reads magnitude bits as if the exponent had no bound; it is
strictly increasing, so the nearest magnitude is one of two neighbours. `f32Round` finds it and then cuts at infinity.
-/
namespace Sys2Proof.Machine

/-! ### Magnitude bits and their values -/

/-- The value of magnitude bits in units of 2^-149, the exponent unbounded: `f32Units` without the word. -/
def magUnits (m : Nat) : Nat :=
  if m / 2 ^ 23 = 0 then m % 2 ^ 23 else (2 ^ 23 + m % 2 ^ 23) * 2 ^ (m / 2 ^ 23 - 1)

theorem f32Units_eq (x : Word) : f32Units x = magUnits (f32Mag x) := rfl

/-- A significand and its exponent: subnormal or normal, and the carry out of the significand is the next exponent. -/
theorem magUnits_scaled {k m : Nat} (hlow : k = 0 ∨ 2 ^ 23 ≤ m) (hhigh : m ≤ 2 ^ 24) :
    magUnits (k * 2 ^ 23 + m) = m * 2 ^ k := by
  rcases Nat.lt_or_ge m (2 ^ 23) with hsub | hnormal
  · obtain rfl : k = 0 := by omega
    rw [magUnits, if_pos (by omega)]
    omega
  rcases Nat.lt_or_eq_of_le hhigh with hlt | rfl
  · have hexp : (k * 2 ^ 23 + m) / 2 ^ 23 = k + 1 := by omega
    have hsig : 2 ^ 23 + (k * 2 ^ 23 + m) % 2 ^ 23 = m := by omega
    rw [magUnits, if_neg (by omega), hexp, hsig, Nat.add_sub_cancel]
  · have hexp : (k * 2 ^ 23 + 2 ^ 24) / 2 ^ 23 = k + 1 + 1 := by omega
    have hsig : 2 ^ 23 + (k * 2 ^ 23 + 2 ^ 24) % 2 ^ 23 = 2 ^ 23 := by omega
    rw [magUnits, if_neg (by omega), hexp, hsig, Nat.add_sub_cancel, pow_succ]
    ring

/-- A significand below 2^24 and the next one. -/
theorem magUnits_neighbours {k m : Nat} (hlow : k = 0 ∨ 2 ^ 23 ≤ m) (hhigh : m < 2 ^ 24) :
    (magUnits (k * 2 ^ 23 + m) : ℝ) = m * 2 ^ k ∧ (magUnits (k * 2 ^ 23 + m + 1) : ℝ) = (m + 1) * 2 ^ k := by
  rw [Nat.add_assoc, magUnits_scaled hlow hhigh.le, magUnits_scaled (by omega) hhigh]
  push_cast
  exact ⟨rfl, rfl⟩

/-- Every magnitude is a significand below 2^24 with an exponent. -/
theorem exists_scaled (M : Nat) : ∃ k m, M = k * 2 ^ 23 + m ∧ (k = 0 ∨ 2 ^ 23 ≤ m) ∧ m < 2 ^ 24 := by
  rcases Nat.lt_or_ge M (2 ^ 23) with hsub | hnormal
  · exact ⟨0, M, by omega, .inl rfl, by omega⟩
  · exact ⟨M / 2 ^ 23 - 1, 2 ^ 23 + M % 2 ^ 23, by omega, .inr (by omega), by omega⟩

theorem magUnits_strictMono : StrictMono magUnits := by
  refine strictMono_nat_of_lt_succ fun M => ?_
  obtain ⟨k, m, rfl, hlow, hhigh⟩ := exists_scaled M
  rw [magUnits_scaled hlow hhigh.le, Nat.add_assoc, magUnits_scaled (by omega) hhigh]
  exact Nat.mul_lt_mul_of_pos_right (Nat.lt_succ_self m) (Nat.two_pow_pos k)

@[simp] theorem magUnits_zero : magUnits 0 = 0 := rfl

/-- The value past the largest finite one. -/
theorem magUnits_infMag : (magUnits f32InfMag : ℝ) = 2 ^ 25 * 2 ^ 252 := by
  have h : magUnits (254 * 2 ^ 23 + 2 ^ 23) = 2 ^ 23 * 2 ^ 254 := magUnits_scaled (.inr le_rfl) (by norm_num)
  have hInf : f32InfMag = 254 * 2 ^ 23 + 2 ^ 23 := by decide
  rw [hInf, h]
  push_cast
  ring

/-- The largest finite value. -/
theorem magUnits_maxFinite : (magUnits (f32InfMag - 1) : ℝ) = (2 ^ 25 - 2) * 2 ^ 252 := by
  have h : magUnits (253 * 2 ^ 23 + (2 ^ 24 - 1)) = (2 ^ 24 - 1) * 2 ^ 253 :=
    magUnits_scaled (.inr (by norm_num)) (by norm_num)
  have hMax : f32InfMag - 1 = 253 * 2 ^ 23 + (2 ^ 24 - 1) := by decide
  rw [hMax, h]
  push_cast
  ring

/-! ### The nearest magnitude -/

/-- `M` is the magnitude nearest to `y`, and the even one of two equally near. -/
def MagNearest (y : ℝ) (M : Nat) : Prop :=
  ∀ c : Nat, |(magUnits M : ℝ) - y| ≤ |(magUnits c : ℝ) - y|
    ∧ (|(magUnits M : ℝ) - y| = |(magUnits c : ℝ) - y| → c ≠ M → M % 2 = 0)

theorem magUnits_cast_lt {a b : Nat} (h : a < b) : (magUnits a : ℝ) < magUnits b := by
  exact_mod_cast magUnits_strictMono h

theorem magUnits_cast_le {a b : Nat} (h : a ≤ b) : (magUnits a : ℝ) ≤ magUnits b := by
  exact_mod_cast magUnits_strictMono.monotone h

/-- Of two neighbours with `y` between them the lower is nearest when it is no farther. -/
theorem magNearest_lower {y : ℝ} {M : Nat} (hlow : (magUnits M : ℝ) ≤ y) (hnear : 2 * y ≤ magUnits M + magUnits (M + 1))
    (htie : 2 * y = magUnits M + magUnits (M + 1) → M % 2 = 0) : MagNearest y M := by
  intro c
  rw [abs_of_nonpos (sub_nonpos.mpr hlow)]
  rcases lt_trichotomy c M with hc | rfl | hc
  · have hval := magUnits_cast_lt hc
    rw [abs_of_nonpos (by linarith)]
    exact ⟨by linarith, fun heq => by linarith⟩
  · rw [abs_of_nonpos (sub_nonpos.mpr hlow)]
    exact ⟨le_rfl, fun _ hne => absurd rfl hne⟩
  · have hval := magUnits_cast_le (Nat.succ_le_of_lt hc)
    rw [abs_of_nonneg (by linarith)]
    exact ⟨by linarith, fun heq _ => htie (by linarith)⟩

/-- Of two neighbours with `y` between them the upper is nearest when it is no farther. -/
theorem magNearest_upper {y : ℝ} {M : Nat} (hhigh : y ≤ magUnits (M + 1)) (hnear : magUnits M + magUnits (M + 1) ≤ 2 * y)
    (htie : 2 * y = magUnits M + magUnits (M + 1) → (M + 1) % 2 = 0) : MagNearest y (M + 1) := by
  intro c
  rw [abs_of_nonneg (sub_nonneg.mpr hhigh)]
  rcases lt_trichotomy c (M + 1) with hc | rfl | hc
  · have hval := magUnits_cast_le (Nat.le_of_lt_succ hc)
    rw [abs_of_nonpos (by linarith)]
    exact ⟨by linarith, fun heq _ => htie (by linarith)⟩
  · rw [abs_of_nonneg (sub_nonneg.mpr hhigh)]
    exact ⟨le_rfl, fun _ hne => absurd rfl hne⟩
  · have hval := magUnits_cast_lt hc
    rw [abs_of_nonneg (by linarith)]
    exact ⟨by linarith, fun heq => by linarith⟩

theorem magNearest_zero : MagNearest 0 0 :=
  magNearest_lower (by simp) (by simp) fun _ => rfl

/-- From the midpoint past the largest finite value on, the nearest magnitude is past it too: that value is odd. -/
theorem infMag_le_iff_of_magNearest {y : ℝ} {M : Nat} (h : MagNearest y M) :
    f32InfMag ≤ M ↔ (2 ^ 25 - 1) * 2 ^ 252 ≤ y := by
  have hInf := magUnits_infMag
  have hMax := magUnits_maxFinite
  have hpos : (0 : ℝ) < 2 ^ 252 := by positivity
  constructor
  · intro hM
    by_contra hy
    have hval := magUnits_cast_le hM
    have hdist := (h (f32InfMag - 1)).1
    rw [abs_of_nonneg (by linarith), le_abs] at hdist
    rcases hdist with hdist | hdist <;> linarith
  · intro hy
    by_contra hM
    have hval : (magUnits M : ℝ) ≤ magUnits (f32InfMag - 1) := magUnits_cast_le (by omega)
    obtain ⟨hle, htie⟩ := h f32InfMag
    rw [abs_of_nonpos (by linarith : (magUnits M : ℝ) - y ≤ 0)] at hle htie
    rcases le_total (magUnits f32InfMag : ℝ) y with hpast | hpast
    · rw [abs_of_nonpos (by linarith)] at hle
      linarith
    · rw [abs_of_nonneg (by linarith)] at hle htie
      have hmax : M = f32InfMag - 1 := by
        by_contra hne
        have := magUnits_cast_lt (by omega : M < f32InfMag - 1)
        linarith
      have hodd : M % 2 = 1 := by rw [hmax]; rfl
      have heven : M % 2 = 0 := htie (by linarith) (by omega)
      omega

/-! ### `f32Round` -/

/-- The exponent, above the least, that `f32Round` gives a quotient. -/
def roundExp (num den : Nat) : Nat := Nat.log2 (num / den) - 23

/-- `num / den` stands for `y` at the rounding: on the same side of every value and of every midpoint of the result's
exponent. -/
def StandsFor (num den : Nat) (y : ℝ) : Prop :=
  ∀ j : Nat, ((j : ℝ) * 2 ^ roundExp num den < 2 * y ↔ j * (den * 2 ^ roundExp num den) < 2 * num)
    ∧ (2 * y < j * 2 ^ roundExp num den ↔ 2 * num < j * (den * 2 ^ roundExp num den))

/-- A quotient stands for itself. -/
theorem standsFor_div {num den : Nat} (hden : 0 < den) : StandsFor num den (num / den) := by
  intro j
  have hden' : (0 : ℝ) < den := by exact_mod_cast hden
  have hy : 2 * ((num : ℝ) / den) = 2 * num / den := by ring
  rw [hy, lt_div_iff₀ hden', div_lt_iff₀ hden', mul_assoc, mul_comm _ (den : ℝ)]
  constructor <;> norm_cast

/-- The significand at that exponent is below 2^24, and normal where the exponent is not the least. -/
theorem significand_bounds (num den : Nat) :
    (roundExp num den = 0 ∨ 2 ^ 23 ≤ num / (den * 2 ^ roundExp num den))
      ∧ num / (den * 2 ^ roundExp num den) < 2 ^ 24 := by
  have hlt : num / den < 2 ^ (Nat.log2 (num / den) + 1) := Nat.lt_log2_self
  rw [← Nat.div_div_eq_div_mul, Nat.div_lt_iff_lt_mul (Nat.two_pow_pos _), Nat.le_div_iff_mul_le (Nat.two_pow_pos _),
    ← pow_add, ← pow_add]
  rcases Nat.eq_zero_or_pos (roundExp num den) with hk | hk
  · exact ⟨.inl hk, hlt.trans_le (Nat.pow_le_pow_right (by decide) (by unfold roundExp at *; omega))⟩
  · have hlog : 23 + roundExp num den = Nat.log2 (num / den) := by unfold roundExp at *; omega
    have hne : num / den ≠ 0 := fun h0 => by simp [roundExp, h0] at hk
    refine ⟨.inr ?_, ?_⟩
    · rw [hlog]
      exact Nat.log2_self_le hne
    · rwa [show 24 + roundExp num den = 23 + roundExp num den + 1 by omega, hlog]

/-- Rounding down up to the midpoint. -/
theorem magNearest_roundDown {k m : Nat} {y : ℝ} (hlow : k = 0 ∨ 2 ^ 23 ≤ m) (hhigh : m < 2 ^ 24)
    (hval : (m : ℝ) * 2 ^ k ≤ y) (hmid : 2 * y ≤ (2 * m + 1) * 2 ^ k) (htie : 2 * y = (2 * m + 1) * 2 ^ k → m % 2 = 0) :
    MagNearest y (k * 2 ^ 23 + m) := by
  obtain ⟨hM, hM1⟩ := magUnits_neighbours hlow hhigh
  refine magNearest_lower (by linarith) (by linarith) fun heq => ?_
  have := htie (by linarith)
  omega

/-- Rounding up from the midpoint on. -/
theorem magNearest_roundUp {k m : Nat} {y : ℝ} (hlow : k = 0 ∨ 2 ^ 23 ≤ m) (hhigh : m < 2 ^ 24)
    (hval : y ≤ (m + 1) * 2 ^ k) (hmid : (2 * m + 1) * 2 ^ k ≤ 2 * y) (htie : 2 * y = (2 * m + 1) * 2 ^ k → m % 2 = 1) :
    MagNearest y (k * 2 ^ 23 + m + 1) := by
  obtain ⟨hM, hM1⟩ := magUnits_neighbours hlow hhigh
  refine magNearest_upper (by linarith) (by linarith) fun heq => ?_
  have := htie (by linarith)
  omega

/-- `f32Round` with its exponent named. -/
theorem f32Round_eq (num den : Nat) :
    f32Round num den =
      let d := den * 2 ^ roundExp num den
      min (roundExp num den * 2 ^ 23 + num / d
        + if d < 2 * (num % d) ∨ (2 * (num % d) = d ∧ num / d % 2 = 1) then 1 else 0) f32InfMag := rfl

/-- `f32Round` rounds to the nearest magnitude, ties to even, and cuts at infinity. -/
theorem f32Round_nearest {num den : Nat} {y : ℝ} (hden : 0 < den) (hy : StandsFor num den y) :
    ∃ M, f32Round num den = min M f32InfMag ∧ MagNearest y M := by
  obtain ⟨hlow, hhigh⟩ := significand_bounds num den
  refine ⟨_, f32Round_eq num den, ?_⟩
  unfold StandsFor at hy
  generalize roundExp num den = k at *
  have hd : 0 < den * 2 ^ k := Nat.mul_pos hden (Nat.two_pow_pos k)
  generalize den * 2 ^ k = d at *
  have hnum := Nat.div_add_mod' num d
  have hrem := Nat.mod_lt num hd
  generalize num / d = m at *
  generalize num % d = r at *
  obtain ⟨-, hval⟩ := hy (2 * m)
  obtain ⟨hpast, hbefore⟩ := hy (2 * m + 1)
  obtain ⟨hnext, -⟩ := hy (2 * m + 2)
  have hm0 : 2 * m * d = 2 * (m * d) := by ring
  have hm1 : (2 * m + 1) * d = 2 * (m * d) + d := by ring
  have hm2 : (2 * m + 2) * d = 2 * (m * d) + 2 * d := by ring
  rw [hm0] at hval
  rw [hm1] at hpast hbefore
  rw [hm2] at hnext
  push_cast at hval hpast hbefore hnext
  split
  next hup =>
    refine magNearest_roundUp hlow hhigh ?_ ?_ fun heq => ?_
    · have hle : 2 * y ≤ (2 * m + 2) * 2 ^ k := not_lt.mp (mt hnext.mp (by omega))
      linarith
    · exact not_lt.mp (mt hbefore.mp (by omega))
    · have hnot := mt hpast.mpr heq.le.not_gt
      omega
  next hdown =>
    rw [Nat.add_zero]
    refine magNearest_roundDown hlow hhigh ?_ ?_ fun heq => ?_
    · have hle : 2 * m * 2 ^ k ≤ 2 * y := not_lt.mp (mt hval.mp (by omega))
      linarith
    · exact not_lt.mp (mt hpast.mp (by omega))
    · have hnot := mt hbefore.mpr heq.ge.not_gt
      omega

end Sys2Proof.Machine
end

section
/-!
SUPPORT. The operations of binary32 (rules R10, R196): the sign and magnitude of a word, from the nearest magnitude to
`RoundsTo`, the integer square root, and each operation, which meets `f32Round` at an exact quotient or, for `fsqrt`, at one
that stands for the root.
-/
namespace Sys2Proof.Machine

/-! ### Words -/

theorem f32Sign_f32Make {neg : Bool} {m : Nat} (h : m < 2 ^ 31) : f32Sign (f32Make neg m) = neg := by
  cases neg <;> simp [f32Sign, f32Make, BitVec.msb_eq_decide] <;> omega

theorem f32Mag_f32Make {neg : Bool} {m : Nat} (h : m < 2 ^ 31) : f32Mag (f32Make neg m) = m := by
  cases neg <;> simp [f32Mag, f32Make] <;> omega

theorem f32Round_lt (num den : Nat) : f32Round num den < 2 ^ 31 :=
  (Nat.min_le_right ..).trans_lt (by decide)

theorem getLsbD_zero_of_f32Mag_even {r : Word} (h : f32Mag r % 2 = 0) : r.getLsbD 0 = false := by
  rw [BitVec.getLsbD, Nat.testBit_zero, decide_eq_false_iff_not]
  unfold f32Mag at h
  omega

theorem f32IsFinite_iff {x : Word} : f32IsFinite x = true ↔ f32Mag x < f32InfMag := decide_eq_true_iff

theorem f32IsInf_iff {x : Word} : f32IsInf x = true ↔ f32Mag x = f32InfMag := decide_eq_true_iff

theorem f32IsNaN_of_finite {x : Word} (h : f32IsFinite x = true) : f32IsNaN x = false :=
  decide_eq_false (f32IsFinite_iff.mp h).not_gt

theorem f32IsInf_of_finite {x : Word} (h : f32IsFinite x = true) : f32IsInf x = false :=
  decide_eq_false (f32IsFinite_iff.mp h).ne

theorem f32Int_of_neg {x : Word} (h : f32Sign x = true) : f32Int x = -(magUnits (f32Mag x) : Int) := if_pos h

theorem f32Int_of_nonneg {x : Word} (h : f32Sign x = false) : f32Int x = magUnits (f32Mag x) := if_neg (by simp [h])

/-- The value of a word is the value of its magnitude, up to the sign. -/
theorem f32Int_eq_or (x : Word) : f32Int x = magUnits (f32Mag x) ∨ f32Int x = -(magUnits (f32Mag x) : Int) :=
  (ite_eq_or_eq ..).symm

theorem abs_f32Int (x : Word) : |(f32Int x : ℝ)| = magUnits (f32Mag x) := by
  rcases f32Int_eq_or x with h | h <;> simp [h]

theorem f32Int_eq_zero_iff {x : Word} : f32Int x = 0 ↔ f32Mag x = 0 := by
  have h : magUnits (f32Mag x) = 0 ↔ f32Mag x = 0 := magUnits_strictMono.injective.eq_iff' magUnits_zero
  rw [← h]
  rcases f32Int_eq_or x with hx | hx <;> simp [hx]

theorem f32Sign_of_neg {x : Word} (h : (f32Int x : ℝ) < 0) : f32Sign x = true := by
  by_contra hs
  rw [f32Int_of_nonneg (by simpa using hs), Int.cast_natCast] at h
  exact h.not_ge (Nat.cast_nonneg _)

theorem f32Sign_of_pos {x : Word} (h : 0 < (f32Int x : ℝ)) : f32Sign x = false := by
  by_contra hs
  rw [f32Int_of_neg (by simpa using hs), Int.cast_neg, Int.cast_natCast] at h
  exact h.not_ge (neg_nonpos.mpr (Nat.cast_nonneg _))

/-! ### From the nearest magnitude to the rounded word -/

/-- The distance between two numbers of the same sign is that of their magnitudes. -/
theorem abs_sub_of_same_sign {r x : ℝ} (hneg : x < 0 → r ≤ 0) (hpos : 0 < x → 0 ≤ r) : |r - x| = |(|r|) - (|x|)| := by
  rcases lt_trichotomy x 0 with hx | rfl | hx
  · rw [abs_of_neg hx, abs_of_nonpos (hneg hx), abs_sub_comm]
    congr 1
    ring
  · simp
  · rw [abs_of_pos hx, abs_of_nonneg (hpos hx)]

/-- A word with the sign of `x` and the magnitude nearest to `|x|`, cut at infinity, is `x` rounded. -/
theorem roundsTo_of_magNearest {x : ℝ} {r : Word} {M : Nat} (hM : MagNearest |x| M) (hmag : f32Mag r = min M f32InfMag)
    (hneg : x < 0 → f32Sign r = true) (hpos : 0 < x → f32Sign r = false) : RoundsTo x r := by
  refine ⟨hneg, hpos, fun hbig => ?_, fun hsmall => ?_⟩
  · have := (infMag_le_iff_of_magNearest hM).mpr hbig
    rw [f32IsInf_iff]
    omega
  have hfin : M < f32InfMag := not_le.mp (mt (infMag_le_iff_of_magNearest hM).mp hsmall.not_ge)
  obtain rfl : f32Mag r = M := by omega
  refine ⟨f32IsFinite_iff.mpr hfin, fun c _ => ?_⟩
  have hr : |(f32Int r : ℝ) - x| = |(magUnits (f32Mag r) : ℝ) - (|x|)| := by
    rw [abs_sub_of_same_sign, abs_f32Int]
    · intro hx
      rw [f32Int_of_neg (hneg hx)]
      simp
    · intro hx
      rw [f32Int_of_nonneg (hpos hx)]
      simp
  have hc : |(magUnits (f32Mag c) : ℝ) - (|x|)| ≤ |(f32Int c : ℝ) - x| := by
    rw [← abs_f32Int]
    exact abs_abs_sub_abs_le ..
  obtain ⟨hle, htie⟩ := hM (f32Mag c)
  refine ⟨by linarith, fun heq hne => getLsbD_zero_of_f32Mag_even ?_⟩
  by_cases hmags : f32Mag c = f32Mag r
  · have habs : |(f32Int c : ℝ)| = |(f32Int r : ℝ)| := by rw [abs_f32Int, abs_f32Int, hmags]
    have hopp : (f32Int c : ℝ) = -f32Int r := (abs_eq_abs.mp habs).resolve_left (by exact_mod_cast hne)
    have hr0 : f32Int r = 0 := by
      rw [hopp, abs_eq_abs] at heq
      rcases heq with heq | heq
      · exact_mod_cast (by linarith : (f32Int r : ℝ) = 0)
      · obtain rfl : x = 0 := by linarith
        have hle0 := (hM 0).1
        rw [← hr] at hle0
        simpa using hle0
    rw [f32Int_eq_zero_iff.mp hr0]
  · exact htie (by linarith) hmags

/-- A word of magnitude zero is zero rounded, whatever its sign. -/
theorem roundsTo_zero {r : Word} (h : f32Mag r = 0) : RoundsTo 0 r :=
  roundsTo_of_magNearest (M := 0) (by rw [abs_zero]; exact magNearest_zero) (by rw [h]; rfl)
    (fun h => absurd h (lt_irrefl 0)) (fun h => absurd h (lt_irrefl 0))

/-- A sign with the rounded quotient is `x` rounded where the quotient stands for the magnitude of `x`. -/
theorem roundsTo_f32Make {x : ℝ} {neg : Bool} {num den : Nat} (hden : 0 < den) (hx : StandsFor num den |x|)
    (hneg : x < 0 → neg = true) (hpos : 0 < x → neg = false) : RoundsTo x (f32Make neg (f32Round num den)) := by
  have hlt := f32Round_lt num den
  obtain ⟨M, hround, hM⟩ := f32Round_nearest hden hx
  refine roundsTo_of_magNearest hM ((f32Mag_f32Make hlt).trans hround) ?_ ?_
  · rwa [f32Sign_f32Make hlt]
  · rwa [f32Sign_f32Make hlt]

/-- The same for an exact quotient. -/
theorem roundsTo_f32Make_div {x : ℝ} {neg : Bool} {num den : Nat} (hden : 0 < den) (hx : |x| = num / den)
    (hneg : x < 0 → neg = true) (hpos : 0 < x → neg = false) : RoundsTo x (f32Make neg (f32Round num den)) :=
  roundsTo_f32Make hden (hx ▸ standsFor_div hden) hneg hpos

/-! ### The integer square root -/

/-- The bits from `b - 1` down complete a lower bound of the root. -/
theorem isqrtFrom_spec (n b acc : Nat) (hlow : acc ^ 2 ≤ n) (hhigh : n < (acc + 2 ^ b) ^ 2) :
    isqrtFrom n b acc ^ 2 ≤ n ∧ n < (isqrtFrom n b acc + 1) ^ 2 := by
  induction b generalizing acc with
  | zero => exact ⟨hlow, hhigh⟩
  | succ b ih =>
    rw [isqrtFrom, ← pow_two]
    split
    next hbit => exact ih _ hbit (by rwa [add_assoc, ← two_mul, ← pow_succ'])
    next hbit => exact ih _ hlow (not_le.mp hbit)

theorem isqrt_spec (n : Nat) : isqrt n ^ 2 ≤ n ∧ n < (isqrt n + 1) ^ 2 := by
  refine isqrtFrom_spec n _ 0 (by simp) ?_
  calc n < 2 ^ (Nat.log2 n + 1) := Nat.lt_log2_self
    _ ≤ 2 ^ ((Nat.log2 n / 2 + 1) * 2) := Nat.pow_le_pow_right (by decide) (by omega)
    _ = (0 + 2 ^ (Nat.log2 n / 2 + 1)) ^ 2 := by rw [Nat.zero_add, pow_mul]

/-- Twice the integer root, and one more where the root is not exact, compares with an even number as twice the real root
does: the sticky half of `fsqrt` loses nothing. -/
theorem sq_lt_iff_of_root {n s : Nat} (hlow : s ^ 2 ≤ n) (hhigh : n < (s + 1) ^ 2) (i : Nat) :
    (i ^ 2 < n ↔ 2 * i < 2 * s + if s * s = n then 0 else 1)
      ∧ (n < i ^ 2 ↔ (2 * s + if s * s = n then 0 else 1) < 2 * i) := by
  rw [← pow_two]
  rcases lt_trichotomy i s with hi | rfl | hi
  · have hlt : i ^ 2 < s ^ 2 := Nat.pow_lt_pow_left hi (by decide)
    split <;> omega
  · split <;> omega
  · have hle : (s + 1) ^ 2 ≤ i ^ 2 := Nat.pow_le_pow_left hi 2
    split <;> omega

/-- The integer root with its sticky half stands for the root, where the result's exponent is not the least. -/
theorem standsFor_sqrt {n s : Nat} (hlow : s ^ 2 ≤ n) (hhigh : n < (s + 1) ^ 2) (hbig : 2 ^ 24 ≤ s) :
    StandsFor (2 * s + if s * s = n then 0 else 1) 2 (Real.sqrt n) := by
  have hhalf : (2 * s + if s * s = n then 0 else 1) / 2 = s := by split <;> omega
  have hlog : 24 ≤ Nat.log2 s := (Nat.le_log2 (by omega)).mpr hbig
  obtain ⟨e, he⟩ : ∃ e, roundExp (2 * s + if s * s = n then 0 else 1) 2 = e + 1 :=
    ⟨Nat.log2 s - 24, by rw [roundExp, hhalf]; omega⟩
  intro j
  rw [he]
  obtain ⟨hbelow, habove⟩ := sq_lt_iff_of_root hlow hhigh (j * 2 ^ e)
  have hreal : (j : ℝ) * 2 ^ (e + 1) = 2 * (j * 2 ^ e : Nat) := by push_cast; ring
  have hnat : j * (2 * 2 ^ (e + 1)) = 2 * (2 * (j * 2 ^ e)) := by ring
  rw [hreal, hnat]
  simp only [mul_lt_mul_iff_right₀, Nat.ofNat_pos]
  rw [Real.lt_sqrt (Nat.cast_nonneg _), Real.sqrt_lt (Nat.cast_nonneg _) (Nat.cast_nonneg _), ← hbelow, ← habove]
  exact ⟨by norm_cast, by norm_cast⟩

/-! ### The operations -/

section finiteOperands
variable (q : BitVec 23) {a b : Word}

theorem fadd_of_finite (ha : f32IsFinite a = true) (hb : f32IsFinite b = true) :
    fadd q a b =
      if f32Int a + f32Int b = 0 then f32Make (f32Sign a && f32Sign b) 0
      else f32Make (decide (f32Int a + f32Int b < 0)) (f32Round (f32Int a + f32Int b).natAbs 1) := by
  simp [fadd, f32IsNaN_of_finite, f32IsInf_of_finite, ha, hb]

theorem fmul_of_finite (ha : f32IsFinite a = true) (hb : f32IsFinite b = true) :
    fmul q a b = f32Make (f32Sign a != f32Sign b) (f32Round (f32Units a * f32Units b) (2 ^ 149)) := by
  simp only [fmul, f32IsNaN_of_finite, f32IsInf_of_finite, ha, hb, Bool.or_self, Bool.false_eq_true, if_false]

theorem fdiv_of_finite (ha : f32IsFinite a = true) (hb : f32IsFinite b = true) (hne : f32Mag b ≠ 0) :
    fdiv q a b = f32Make (f32Sign a != f32Sign b) (f32Round (f32Units a * 2 ^ 149) (f32Units b)) := by
  simp only [fdiv, f32IsNaN_of_finite, f32IsInf_of_finite, ha, hb, hne, Bool.or_self, Bool.false_eq_true, if_false]

theorem fsqrt_of_zero (h : f32Mag a = 0) : fsqrt q a = a := by
  have hnan : f32IsNaN a = false := decide_eq_false (by rw [h]; exact Nat.not_lt_zero _)
  simp only [fsqrt, hnan, h, Bool.false_eq_true, if_false, if_true]

/-- The root of a positive value in halves of a unit, the remainder kept as one half. -/
theorem fsqrt_of_pos (ha : f32IsFinite a = true) (hne : f32Mag a ≠ 0) (hsign : f32Sign a = false) :
    fsqrt q a =
      let n := f32Units a * 2 ^ 149
      f32Make false (f32Round (2 * isqrt n + if isqrt n * isqrt n = n then 0 else 1) 2) := by
  simp only [fsqrt, f32IsNaN_of_finite, f32IsInf_of_finite, ha, hne, hsign, Bool.false_eq_true, if_false]

end finiteOperands

/-- `fadd` of finite values (rule R196). -/
theorem roundsTo_fadd (q : BitVec 23) {a b : Word} (ha : f32IsFinite a = true) (hb : f32IsFinite b = true) :
    RoundsTo ((f32Int a : ℝ) + f32Int b) (fadd q a b) := by
  rw [← Int.cast_add, fadd_of_finite q ha hb]
  split
  next hzero =>
    rw [hzero, Int.cast_zero]
    exact roundsTo_zero (f32Mag_f32Make (by decide))
  next =>
    refine roundsTo_f32Make_div Nat.one_pos ?_ (fun hneg => ?_) (fun hpos => ?_)
    · rw [Nat.cast_natAbs, Nat.cast_one, div_one, Int.cast_abs]
    · exact decide_eq_true (by exact_mod_cast hneg)
    · exact decide_eq_false (by exact_mod_cast hpos.not_gt)

theorem f32Mag_fneg (a : Word) : f32Mag (fneg a) = f32Mag a := by
  rw [f32Mag, fneg, BitVec.toNat_xor, Nat.xor_mod_two_pow]
  exact Nat.xor_zero _

theorem f32Sign_fneg (a : Word) : f32Sign (fneg a) = !f32Sign a := by
  rw [f32Sign, fneg, BitVec.msb_xor]
  exact Bool.xor_true _

theorem f32Int_fneg (a : Word) : f32Int (fneg a) = -f32Int a := by
  cases h : f32Sign a
  · rw [f32Int_of_neg (by simp [f32Sign_fneg, h]), f32Int_of_nonneg h, f32Mag_fneg]
  · rw [f32Int_of_nonneg (by simp [f32Sign_fneg, h]), f32Int_of_neg h, f32Mag_fneg, neg_neg]

/-- `fsub` of finite values (rule R196). -/
theorem roundsTo_fsub (q : BitVec 23) {a b : Word} (ha : f32IsFinite a = true) (hb : f32IsFinite b = true) :
    RoundsTo ((f32Int a : ℝ) - f32Int b) (fsub q a b) := by
  have hb' : f32IsFinite (fneg b) = true := by rwa [f32IsFinite_iff, f32Mag_fneg, ← f32IsFinite_iff]
  have h := roundsTo_fadd q ha hb'
  rwa [f32Int_fneg, Int.cast_neg, ← sub_eq_add_neg] at h

/-- The signs of two operands give the sign of their product. -/
theorem sign_of_product_neg {a b : Word} (h : (f32Int a : ℝ) * f32Int b < 0) : (f32Sign a != f32Sign b) = true := by
  rcases mul_neg_iff.mp h with ⟨ha, hb⟩ | ⟨ha, hb⟩
  · rw [f32Sign_of_pos ha, f32Sign_of_neg hb]; rfl
  · rw [f32Sign_of_neg ha, f32Sign_of_pos hb]; rfl

theorem sign_of_product_pos {a b : Word} (h : 0 < (f32Int a : ℝ) * f32Int b) : (f32Sign a != f32Sign b) = false := by
  rcases mul_pos_iff.mp h with ⟨ha, hb⟩ | ⟨ha, hb⟩
  · rw [f32Sign_of_pos ha, f32Sign_of_pos hb]; rfl
  · rw [f32Sign_of_neg ha, f32Sign_of_neg hb]; rfl

/-- The product of two values in any positive unit `c`: the shape of products and of quotients. -/
theorem roundsTo_product {a b : Word} {x c : ℝ} {num den : Nat} (hc : 0 < c) (hx : x = f32Int a * f32Int b * c)
    (hden : 0 < den) (habs : |x| = num / den) : RoundsTo x (f32Make (f32Sign a != f32Sign b) (f32Round num den)) := by
  refine roundsTo_f32Make_div hden habs (fun hneg => sign_of_product_neg ?_) (fun hpos => sign_of_product_pos ?_)
  · exact neg_of_mul_neg_left (hx ▸ hneg) hc.le
  · exact (mul_pos_iff_of_pos_right hc).mp (hx ▸ hpos)

/-- `fmul` of finite values (rule R196). -/
theorem roundsTo_fmul (q : BitVec 23) {a b : Word} (ha : f32IsFinite a = true) (hb : f32IsFinite b = true) :
    RoundsTo ((f32Int a : ℝ) * f32Int b / 2 ^ 149) (fmul q a b) := by
  rw [fmul_of_finite q ha hb]
  have hpow : (0 : ℝ) < 2 ^ 149 := by positivity
  refine roundsTo_product (inv_pos.mpr hpow) (div_eq_mul_inv ..) (Nat.two_pow_pos 149) ?_
  rw [abs_div, abs_mul, abs_f32Int, abs_f32Int, abs_of_pos hpow, f32Units_eq, f32Units_eq, Nat.cast_mul, Nat.cast_pow,
    Nat.cast_ofNat]

/-- `fdiv` of finite values by one that is not zero (rule R196). -/
theorem roundsTo_fdiv (q : BitVec 23) {a b : Word} (ha : f32IsFinite a = true) (hb : f32IsFinite b = true)
    (hne : f32Int b ≠ 0) : RoundsTo ((f32Int a : ℝ) * 2 ^ 149 / f32Int b) (fdiv q a b) := by
  have hmag : f32Mag b ≠ 0 := mt f32Int_eq_zero_iff.mpr hne
  rw [fdiv_of_finite q ha hb hmag]
  have hpow : (0 : ℝ) < 2 ^ 149 := by positivity
  have hne' : (f32Int b : ℝ) ≠ 0 := by exact_mod_cast hne
  have hden : 0 < f32Units b := by
    rw [f32Units_eq, ← magUnits_zero]
    exact magUnits_strictMono (Nat.pos_of_ne_zero hmag)
  refine roundsTo_product (c := 2 ^ 149 / (f32Int b : ℝ) ^ 2) (by positivity) (by field_simp) hden ?_
  rw [abs_div, abs_mul, abs_f32Int, abs_f32Int, abs_of_pos hpow, f32Units_eq, f32Units_eq, Nat.cast_mul, Nat.cast_pow,
    Nat.cast_ofNat]

/-- `fsqrt` of a finite value that is not negative (rule R196). The root of a positive value is at least `2 ^ 74` units, so its
last bit is far above the sticky half. -/
theorem roundsTo_fsqrt (q : BitVec 23) {a : Word} (ha : f32IsFinite a = true) (hnonneg : 0 ≤ f32Int a) :
    RoundsTo (Real.sqrt ((f32Int a : ℝ) * 2 ^ 149)) (fsqrt q a) := by
  by_cases hmag : f32Mag a = 0
  · rw [f32Int_eq_zero_iff.mpr hmag, Int.cast_zero, zero_mul, Real.sqrt_zero]
    rw [fsqrt_of_zero q hmag]
    exact roundsTo_zero hmag
  have hpos : 0 < f32Int a := lt_of_le_of_ne hnonneg (Ne.symm (mt f32Int_eq_zero_iff.mp hmag))
  have hsign : f32Sign a = false := f32Sign_of_pos (by exact_mod_cast hpos)
  have hval : f32Int a = f32Units a := f32Int_of_nonneg hsign
  have hx : (f32Int a : ℝ) * 2 ^ 149 = (f32Units a * 2 ^ 149 : Nat) := by
    rw [hval, Int.cast_natCast, Nat.cast_mul, Nat.cast_pow, Nat.cast_ofNat]
  rw [fsqrt_of_pos q ha hmag hsign]
  obtain ⟨hlow, hhigh⟩ := isqrt_spec (f32Units a * 2 ^ 149)
  have hbig : 2 ^ 24 ≤ isqrt (f32Units a * 2 ^ 149) := by
    by_contra hsmall
    have hroot : (isqrt (f32Units a * 2 ^ 149) + 1) ^ 2 ≤ (2 ^ 24) ^ 2 := Nat.pow_le_pow_left (by omega) 2
    omega
  rw [hx]
  refine roundsTo_f32Make two_pos ?_ (fun hneg => absurd hneg (Real.sqrt_nonneg _).not_gt) fun _ => rfl
  rw [abs_of_nonneg (Real.sqrt_nonneg _)]
  exact standsFor_sqrt hlow hhigh hbig

/-- `cvt_u32_f32` of an integer (rule R196). -/
theorem roundsTo_cvtU32F32 (n : Nat) : RoundsTo ((n : ℝ) * 2 ^ 149) (cvtU32F32 n) := by
  have hnonneg : (0 : ℝ) ≤ (n : ℝ) * 2 ^ 149 := by positivity
  refine roundsTo_f32Make_div Nat.one_pos ?_ (fun hneg => absurd hneg hnonneg.not_gt) fun _ => rfl
  rw [abs_of_nonneg hnonneg]
  push_cast
  ring

end Sys2Proof.Machine

open Sys2Proof Sys2Proof.Machine

/-- Settles O40, operation by operation. -/
theorem arithmeticRoundsToNearestEven : Obligations.ArithmeticRoundsToNearestEven :=
  ⟨fun q _ _ ha hb => ⟨roundsTo_fadd q ha hb, roundsTo_fsub q ha hb, roundsTo_fmul q ha hb, roundsTo_fdiv q ha hb,
    roundsTo_fsqrt q ha⟩, roundsTo_cvtU32F32⟩
end

section
/-!
SUPPORT. What one step can do, said once: what the engine's selection answers, what a port command writes, what a field
descriptor leaves alone (rules R16, R89, R140, R210, R211). Every invariant and safety statement is derived from these cases.
-/
namespace Sys2Proof.Machine

/-! ### The engine's selection -/

/-- What holds of a state whose engine runs the descriptor `i` (rule R210). -/
structure FieldRuns (s : State) (i : Instr) : Prop where
  notHalted : s.halted = false
  locked : s.locked = true
  available : descW (gField s.gm s.f.toNat) ≤ avail Config.params s
  decoded : decodeDescriptor (gField s.gm s.f.toNat) = .ok i
  notHeld : descriptorHeld i s = false

/-- What holds of a state whose engine takes a sample (rule R210). -/
structure SampleRuns (s : State) : Prop where
  notHalted : s.halted = false
  ready : s.rdyLen ≠ 0
  short : s.locked = true → avail Config.params s < descW (gField s.gm s.f.toNat)

theorem sampleChoice_eq_sym {s : State} (h : sampleChoice s = .sym) : s.rdyLen ≠ 0 := by
  intro hready
  rw [sampleChoice, if_neg (not_not.mpr hready)] at h
  split at h <;> cases h

theorem sampleChoice_ne_field (s : State) (i : Instr) : sampleChoice s ≠ .field i := by
  unfold sampleChoice
  split
  · simp
  · split <;> simp

theorem fieldRuns_of_engineChoice {s : State} {i : Instr} (h : engineChoice Config.params s = .field i) : FieldRuns s i := by
  unfold engineChoice at h
  split at h
  · cases h
  next hrun =>
    split at h
    · next hfield =>
      simp only [Bool.and_eq_true, decide_eq_true_eq] at hfield
      split at h
      · cases h
      · next j hdecoded =>
        split at h
        · split at h <;> cases h
        · next hheld =>
          cases h
          exact ⟨by simpa using hrun, hfield.1, hfield.2, hdecoded, by simpa using hheld⟩
    · exact absurd h (sampleChoice_ne_field s i)

theorem sampleRuns_of_engineChoice {s : State} (h : engineChoice Config.params s = .sym) : SampleRuns s := by
  unfold engineChoice at h
  split at h
  · cases h
  next hrun =>
    split at h
    · split at h
      · cases h
      · split at h
        · split at h <;> cases h
        · cases h
    · next hfield =>
      refine ⟨by simpa using hrun, sampleChoice_eq_sym h, fun hlocked => ?_⟩
      simpa [hlocked] using hfield

/-! ### Descriptors -/

/-- The `W` operand of a descriptor (rule R107). -/
def descriptorWidth : Instr → BitVec 10
  | .skip w => w
  | .cach _ _ _ w => w
  | .voice _ _ _ w => w
  | .sync _ w => w
  | _ => 0

/-- What a descriptor word decodes to is a descriptor of the word's own width (rule R106). -/
theorem decodeDescriptor_ok {w : Word} {i : Instr} (h : decodeDescriptor w = .ok i) :
    i.isDescriptor = true ∧ (descriptorWidth i).toNat = descW w := by
  unfold decodeDescriptor at h
  repeat' split at h
  all_goals cases h
  all_goals exact ⟨rfl, rfl⟩

/-- A word of kind SYNC decodes to nothing but a SYNC descriptor (rule R106). -/
theorem decodeDescriptor_sync {w : Word} {i : Instr} (h : decodeDescriptor w = .ok i) (hk : bits w 28 4 = 0x4#4) :
    i = .sync (w.getLsbD 27) (bits w 0 10) := by
  unfold decodeDescriptor at h
  rw [hk] at h
  simp only [if_true, if_false, BitVec.reduceEq] at h
  split at h
  · cases h
  · split at h <;> cases h
    rfl

/-- The whole step of each descriptor that runs (rules R229, R230, R231, R235). -/
inductive FieldStep (s : State) : Instr → State → Prop
  | skip (w) : FieldStep s (.skip w) (skipField Config.params w s)
  | cach (prot slotIdx slotHalf w) :
      FieldStep s (.cach prot slotIdx slotHalf w) (cachField Config.env prot slotIdx slotHalf w s)
  | voice (prot last base w) : FieldStep s (.voice prot last base w) (voiceField Config.env prot last base w s)
  | sync (prot w) : FieldStep s (.sync prot w) (syncField Config.env prot w s)

theorem fieldStep_of_exec {s t : State} {i : Instr} (hr : FieldRuns s i) (h : exec i s = .next t) : FieldStep s i t := by
  have hi := (decodeDescriptor_ok hr.decoded).1
  cases i with
  | skip w => cases h; exact .skip w
  | cach prot slotIdx slotHalf w => cases h; exact .cach prot slotIdx slotHalf w
  | sync prot w => cases h; exact .sync prot w
  | voice prot last base w =>
    have hheld : emitHeld last s = false := hr.notHeld
    have hexec : exec (.voice prot last base w) s = .next (voiceField Config.env prot last base w s) := by
      simp [exec, execVoice, hheld]
    rw [hexec] at h
    cases h
    exact .voice prot last base w
  | _ => cases hi

/-- The state with everything that a descriptor's body may write put back to its reset value: two states with the same frame
differ in the session, the classifier, the output slot and port F's transcript alone. -/
def fieldFrame (s : State) : State :=
  { s with
    kidx := 0
    ht := State.reset.ht
    bitCnt := 0
    bitErr := 0
    curslot := 0
    lastsync := 0
    slotst0 := 0
    slotst1 := 0
    muted := false
    hdrErr := 0
    audErr := 0
    syncMiss := 0
    algid := 0
    keyid := 0
    encPres := false
    disc := 0
    discValid := false
    sigw := State.reset.sigw
    sigc := State.reset.sigc
    sigbad := false
    vm := State.reset.vm
    vbad := false
    outRec := []
    outLen := 0
    outOff := 0
    fecOut := []
    fecIn := []
    nanDraws := 0 }

theorem fieldFrame_protect (env : Env) (kind : BitVec 4) (prot : Bool) (field : List DbEntry) (s : State) :
    fieldFrame (protect env kind prot field s).after = fieldFrame s :=
  (congrArg fieldFrame (protect_frame env kind prot field s)).trans rfl

theorem fieldFrame_emitVoice (s : State) : fieldFrame (emitVoice s) = fieldFrame s := by
  unfold emitVoice
  split <;> rfl

theorem fieldFrame_voiceBegin (base : BitVec 6) (s : State) : fieldFrame (voiceBegin base s) = fieldFrame s := by
  unfold voiceBegin
  split <;> rfl

theorem fieldFrame_voicePlace (env : Env) (prot : Bool) (base : BitVec 6) (field : List DbEntry) (s : State) :
    fieldFrame (voicePlace env prot base field s) = fieldFrame s := by
  unfold voicePlace
  dsimp only
  split <;> exact fieldFrame_protect env 0x3#4 prot field s

theorem fieldFrame_setSlotStatus (code : BitVec 2) (s : State) : fieldFrame (setSlotStatus code s) = fieldFrame s := by
  unfold setSlotStatus
  split <;> rfl

theorem fieldFrame_syncMatched (k : Nat) (s : State) : fieldFrame (syncMatched k s) = fieldFrame s := by
  unfold syncMatched
  split
  · exact fieldFrame_setSlotStatus 2#2 s
  · exact fieldFrame_setSlotStatus 1#2 s

theorem fieldFrame_sigWire (P : Params) (content : List Dibit) (s : State) :
    fieldFrame (sigWire P content s) = fieldFrame s := by
  unfold sigWire
  split <;> rfl

theorem fieldFrame_sigBurst (env : Env) (prot : Bool) (field : List DbEntry) (s : State) :
    fieldFrame (sigBurst env prot field s) = fieldFrame s := by
  have hask := fieldFrame_protect env 0x4#4 prot field s
  unfold sigBurst
  dsimp only
  split
  · rw [fieldFrame_sigWire]
    split
    · exact hask
    · exact hask
  · exact hask

theorem fieldFrame_sigComplete (s : State) : fieldFrame (sigComplete s) = fieldFrame s := by
  unfold sigComplete
  split
  · split <;> rfl
  · rfl

theorem fieldFrame_syncBody (env : Env) (prot : Bool) (field : List DbEntry) (s : State) :
    fieldFrame (syncBody env prot field s) = fieldFrame s := by
  have hmiss : fieldFrame (if gSyncExpect s.gm s.j then { s with syncMiss := satInc env.params s.syncMiss } else s)
      = fieldFrame s := by
    split <;> rfl
  unfold syncBody
  split
  · next k _ => split <;> exact fieldFrame_syncMatched k s
  · dsimp only
    split
    · rw [fieldFrame_sigBurst, hmiss]
    · exact hmiss

/-- A descriptor advances the sequencer by its width from a state that its body left as it was, but for the frame (rules
R211, R240). -/
theorem FieldStep.advances {s t : State} {i : Instr} (h : FieldStep s i t) :
    ∃ b, fieldFrame b = fieldFrame s ∧ t = advance Config.params (descriptorWidth i) b := by
  cases h with
  | skip w => exact ⟨s, rfl, rfl⟩
  | cach prot slotIdx slotHalf w =>
    refine ⟨_, ?_, rfl⟩
    split <;> exact fieldFrame_protect ..
  | voice prot last base w =>
    refine ⟨_, ?_, rfl⟩
    have hplace := (fieldFrame_voicePlace Config.env prot base (readField Config.params s w) (voiceBegin base s)).trans
      (fieldFrame_voiceBegin base s)
    split
    · exact (fieldFrame_emitVoice _).trans hplace
    · exact hplace
  | sync prot w =>
    refine ⟨_, ?_, rfl⟩
    have hstart : fieldFrame (if s.j = gDiscBurst s.gm then sigStart s else s) = fieldFrame s := by
      split <;> rfl
    have hbody := (fieldFrame_syncBody Config.env prot (readField Config.params s w) _).trans hstart
    split
    · exact (fieldFrame_sigComplete _).trans hbody
    · exact hbody

/-! ### The sample step -/

/-- No fault code has bit 7 (rule R297). -/
theorem setBitTo_faultBit_getLsbD_seven (x : BitVec 8) (c : FaultCode) :
    (setBitTo x (faultBit c) true).getLsbD 7 = x.getLsbD 7 := by
  cases c <;> exact getLsbD_setBitTo _ _ _ _ (by decide)

/-- Up to the push, SYM takes the sample, may set a fault bit below bit 7, and pushes one dibit (rule R170). -/
theorem symPush_eq_dbPush (env : Env) (s : State) :
    ∃ (d : Dibit) (fault : BitVec 8), fault.getLsbD 7 = s.fault.getLsbD 7 ∧
      symPush env s = dbPush env.params d (inHead s) { inAdvance s with fault := fault } := by
  unfold symPush
  dsimp only
  split
  · exact ⟨_, s.fault, rfl, rfl⟩
  · exact ⟨_, _, setBitTo_faultBit_getLsbD_seven s.fault .badsample, rfl⟩

/-- The sync detector leaves the state alone, or locks an unlocked engine whose buffer reaches back far enough (rule R218). -/
theorem autoLockCheck_cases (P : Params) (s : State) :
    autoLockCheck P s = s
      ∨ s.locked = false ∧ gLookback s.gm ≤ s.dbValid.toNat ∧ ∃ st, autoLockCheck P s = lockOn P st s := by
  unfold autoLockCheck
  split
  · exact .inl rfl
  next hon =>
    split
    · exact .inl rfl
    split
    · exact .inl rfl
    next hreach =>
      split
      · next k _ =>
        simp only [Bool.or_eq_true, not_or, Bool.not_eq_true] at hon
        exact .inr ⟨hon.1, Nat.not_lt.mp hreach, _, rfl⟩
      · exact .inl rfl

/-! ### Port commands -/

/-- The opcodes that have a row are those of rule R102. -/
theorem opcodeRow_eq_none_or_mem (opc : BitVec 8) :
    opcodeRow opc = none ∨ opc ∈ [0x01#8, 0x02#8, 0x03#8, 0x04#8, 0x05#8, 0x06#8, 0x07#8, 0x08#8, 0x10#8, 0x11#8] := by
  revert opc
  decide

/-- The command a legal command word begins is one of the port that owns its opcode (rule R102). -/
theorem takeCommand_port {w : Word} {ws rest : List Word} {i : Instr} {owner : Port} {used : Word}
    (hrow : opcodeRow (bits w 24 8) = some (owner, used)) (h : takeCommand w ws = .command i rest) :
    i.port = some owner := by
  unfold takeCommand at h
  generalize bits w 24 8 = opc at hrow h
  have hmem := (opcodeRow_eq_none_or_mem opc).resolve_left (by simp [hrow])
  simp only [List.mem_cons, List.not_mem_nil, or_false] at hmem
  obtain rfl | rfl | rfl | rfl | rfl | rfl | rfl | rfl | rfl | rfl := hmem
  -- the opcode picks the row and the command; SUBMIT, WRCR and WRGM still ask whether their data words are there
  all_goals
    cases hrow
    simp only [BitVec.reduceEq, if_true, if_false] at h
    repeat' split at h
  all_goals cases h
  all_goals rfl

theorem decodeCommand_port {port : Port} {ws rest : List Word} {i : Instr} (h : decodeCommand port ws = .command i rest) :
    i.port = some port := by
  cases ws with
  | nil => cases h
  | cons w ws =>
    simp only [decodeCommand] at h
    split at h
    · cases h
    next owner used hrow =>
      split at h
      · cases h
      next howner =>
        split at h
        · cases h
        · rw [takeCommand_port hrow h, not_not.mp howner]

/-- What a port's turn can write beside the port's words (rules R105, R141 to R160). -/
inductive CommandEffect (s : State) : State → Prop
  | nothing : CommandEffect s s
  | raised (c : FaultCode) : CommandEffect s (raise c s)
  | reset : CommandEffect s (resetProc s)
  | started : s.halted = true → grammarOk Config.params s.gm = true →
      configOk s.thCenter s.thUmid s.thLmid s.thBand = true →
      CommandEffect s { (if s.gvalid then s else unlockProc s) with gvalid := true, run := true, halted := false }
  | startFailed (fault : BitVec 8) : s.halted = true → fault.getLsbD 7 = s.fault.getLsbD 7 →
      CommandEffect s { s with gvalid := false, fault := fault }
  | runSet (run : Bool) : CommandEffect s { s with run := run }
  | locked (st : BitVec 4) : gLookback s.gm ≤ s.dbValid.toNat → CommandEffect s (lockOn Config.params st s)
  | unlocked : CommandEffect s (unlockProc s)
  | submitted (samples : List Word) : samples.length ≤ 4096 → samples.length ≠ 0 →
      CommandEffect s
        { s with inBuf := memLoad s.inBuf samples, inOff := 0, rdyLen := BitVec.ofNat 16 samples.length }
  | registerWritten (ctrl thCenter thUmid thLmid thBand : Word) (sliceMap : BitVec 8) : s.halted = true →
      ctrl = s.ctrl ∨ ctrl &&& 0xFFFFFFFC#32 = 0#32 →
      CommandEffect s
        { s with
          gvalid := false
          ctrl := ctrl
          thCenter := thCenter
          thUmid := thUmid
          thLmid := thLmid
          thBand := thBand
          sliceMap := sliceMap }
  | grammarWritten (a : BitVec 10) (v : Word) : s.halted = true →
      CommandEffect s { s with gm := memWrite s.gm a.toNat v, gvalid := false }
  | answered (ws : List Word) : CommandEffect s { s with qOut := s.qOut ++ ws }
  | drained (ws : List Word) : CommandEffect s { s with qOut := s.qOut ++ ws, outLen := 0, outOff := 0 }

/-- A register write reaches the configuration alone, and keeps the zeros of `CTRL` (rules R57, R152). -/
theorem writeReg_eq (a : BitVec 8) (v : Word) (s : State) :
    ∃ (ctrl thCenter thUmid thLmid thBand : Word) (sliceMap : BitVec 8),
      (ctrl = s.ctrl ∨ ctrl &&& 0xFFFFFFFC#32 = 0#32) ∧
        writeReg a v s =
          { s with
            ctrl := ctrl
            thCenter := thCenter
            thUmid := thUmid
            thLmid := thLmid
            thBand := thBand
            sliceMap := sliceMap } := by
  have hzero : v &&& 0x00000003#32 &&& 0xFFFFFFFC#32 = 0#32 := by
    rw [BitVec.and_assoc]
    exact BitVec.and_zero
  unfold writeReg
  split
  · exact ⟨_, _, _, _, _, _, .inr hzero, rfl⟩
  · repeat' split
    all_goals exact ⟨_, _, _, _, _, _, .inl rfl, rfl⟩

theorem commandEffect_startFail {s : State} (h : s.halted = true) (okG okC : Bool) :
    CommandEffect s (startFail okG okC s) := by
  have hbit := setBitTo_faultBit_getLsbD_seven
  unfold startFail
  cases okG <;> cases okC
  · exact .startFailed _ h ((hbit _ _).trans (hbit _ _))
  · exact .startFailed _ h (hbit _ _)
  · exact .startFailed _ h (hbit _ _)
  · exact .startFailed _ h rfl

/-- A command of a port has one of the effects of `CommandEffect`. -/
theorem commandEffect_of_exec {s t : State} {i : Instr} {port : Port} (hi : i.port = some port) (h : exec i s = .next t) :
    CommandEffect s t := by
  cases i with
  | skip w => cases hi
  | cach prot slotIdx slotHalf w => cases hi
  | voice prot last base w => cases hi
  | sync prot w => cases hi
  | reset => cases h; exact .reset
  | stop => cases h; exact .runSet false
  | unlock => cases h; exact .unlocked
  | rdsr a => cases h; exact .answered _
  | start =>
    cases h
    split
    · next hhalted =>
      unfold startHalted
      split
      · next hok =>
        simp only [Bool.and_eq_true] at hok
        exact .started hhalted hok.1 hok.2
      · exact commandEffect_startFail hhalted _ _
    · exact .runSet true
  | lock st =>
    cases h
    split
    · exact .raised _
    · next hok =>
      simp only [Bool.or_eq_true, decide_eq_true_eq, not_or, Nat.not_lt] at hok
      exact .locked st hok.2
  | submit samples =>
    cases h
    unfold submitSamples
    split
    · exact .nothing
    next hsome =>
      split
      · exact .raised _
      next hfits =>
        split
        · exact .raised _
        · exact .submitted samples (Nat.not_lt.mp hfits) hsome
  | wrcr a v =>
    cases h
    split
    · exact .raised _
    · split
      · exact .raised _
      · next hhalted =>
        obtain ⟨ctrl, thCenter, thUmid, thLmid, thBand, sliceMap, hctrl, hwrite⟩ := writeReg_eq a v s
        rw [hwrite]
        exact .registerWritten ctrl thCenter thUmid thLmid thBand sliceMap (by simpa using hhalted) hctrl
  | wrgm a v =>
    cases h
    split
    · exact .raised _
    · next hhalted =>
      rw [gmWrite_params]
      exact .grammarWritten a v (by simpa using hhalted)
  | consume =>
    cases h
    split
    · exact .nothing
    · split
      · exact .answered _
      · exact .drained _

/-! ### Turns -/

/-- What an engine turn can come to (rule R210). -/
inductive EngineStep (s : State) : State → Prop
  | hold : EngineStep s s
  | halt : EngineStep s (haltStep s)
  | sym : SampleRuns s → EngineStep s (symStep Config.env s)
  | field {i : Instr} {t : State} : FieldRuns s i → FieldStep s i t → EngineStep s t

/-- A turn that was fetched comes to the next state `t`. -/
def FetchedNext (x : Fetched) (t : State) : Prop :=
  match x with
  | .done u => u = t
  | .instr i u => exec i u = .next t
  | .reserved _ => False

theorem fetchedNext_of_step {s t : State} (h : step s = .next t) : FetchedNext (fetch Config.env s) t := by
  obtain ⟨u, hf, hs⟩ | ⟨i, u, hf, hs⟩ | ⟨w, hf, hs⟩ := step_cases s <;> rw [hs] at h <;> rw [hf]
  · cases h; rfl
  · exact h
  · cases h

theorem engineStep_of_fetch {s t : State} (h : FetchedNext (fetchEngine Config.env s) t) : EngineStep s t := by
  unfold fetchEngine at h
  rw [Config.env_params] at h
  split at h
  · cases h; exact .hold
  · cases h; exact .halt
  · next hc => cases h; exact .sym (sampleRuns_of_engineChoice hc)
  · next i hc =>
    have hr := fieldRuns_of_engineChoice hc
    exact .field hr (fieldStep_of_exec hr h)
  · cases h

theorem commandEffect_of_fetchP {s t : State} (h : FetchedNext (fetchP s) t) :
    ∃ ws, CommandEffect { s with portP := ws } t := by
  unfold fetchP at h
  split at h
  · cases h; exact ⟨s.portP, .nothing⟩
  · cases h; exact ⟨_, .raised _⟩
  · next hd => exact ⟨_, commandEffect_of_exec (decodeCommand_port hd) h⟩

theorem commandEffect_of_fetchQ {s t : State} (h : FetchedNext (fetchQ s) t) :
    ∃ ws, CommandEffect { s with portQ := ws } t := by
  unfold fetchQ at h
  split at h
  · cases h; exact ⟨s.portQ, .nothing⟩
  · cases h; exact ⟨_, .raised _⟩
  · next hd =>
    split at h
    · cases h; exact ⟨s.portQ, .nothing⟩
    · exact ⟨_, commandEffect_of_exec (decodeCommand_port hd) h⟩

/-- What a step can do: an engine turn, a port's turn, or power-on reset, each after the turn was taken (rules R16, R89). -/
theorem step_turns {s t : State} (h : step s = .next t) :
    (nextAgent Config.params s = .engine ∧ EngineStep (takeTurn s) t)
      ∨ (∃ wsP wsQ, CommandEffect { takeTurn s with portP := wsP, portQ := wsQ } t)
      ∨ (nextAgent Config.params s = .por ∧ t = porProc (takeTurn s)) := by
  have hf := fetchedNext_of_step h
  unfold fetch at hf
  rw [Config.env_params] at hf
  cases ha : nextAgent Config.params s with
  | engine =>
    rw [ha] at hf
    exact .inl ⟨rfl, engineStep_of_fetch hf⟩
  | producer =>
    rw [ha] at hf
    obtain ⟨ws, he⟩ := commandEffect_of_fetchP hf
    exact .inr (.inl ⟨ws, s.portQ, he⟩)
  | consumer =>
    rw [ha] at hf
    obtain ⟨ws, he⟩ := commandEffect_of_fetchQ hf
    exact .inr (.inl ⟨s.portP, ws, he⟩)
  | por =>
    rw [ha] at hf
    exact .inr (.inr ⟨rfl, hf.symm⟩)

/-- A predicate that does not speak of the turns and the ports' words is kept by every step if the engine's turns, the
commands' effects and power-on reset keep it. -/
theorem step_keeps {I : State → Prop}
    (hports : ∀ s wsP wsQ, I s → I { takeTurn s with portP := wsP, portQ := wsQ })
    (hengine : ∀ s t, I s → EngineStep s t → I t)
    (hcommand : ∀ s t, I s → CommandEffect s t → I t)
    (hpor : ∀ s, I (porProc s)) {s t : State} (hs : I s) (h : step s = .next t) : I t := by
  obtain ⟨-, he⟩ | ⟨wsP, wsQ, hc⟩ | ⟨-, rfl⟩ := step_turns h
  · exact hengine _ t (hports s s.portP s.portQ hs) he
  · exact hcommand _ t (hports s wsP wsQ hs) hc
  · exact hpor _

end Sys2Proof.Machine
end

section
/-!
SUPPORT. `ModelInsert` on a model of legal form (rules R36, R37, R190), training as a run of Updates (rule R193), and the
classifier's invariant.
-/
namespace Sys2Proof.Machine

/-! ### ModelInsert -/

section modelEvictFields
variable (q : Nat → BitVec 23) (m : SymModel)

@[simp] theorem modelEvict_val : (modelEvict q m).val = m.val := by unfold modelEvict; split <;> rfl
@[simp] theorem modelEvict_mean : (modelEvict q m).mean = m.mean := by unfold modelEvict; split <;> rfl
@[simp] theorem modelEvict_idx : (modelEvict q m).idx = m.idx := by unfold modelEvict; split <;> rfl
@[simp] theorem modelEvict_cnt : (modelEvict q m).cnt = m.cnt := by unfold modelEvict; split <;> rfl

/-- A model that is not full evicts nothing. -/
theorem modelEvict_of_lt (h : m.cnt.toNat < 200) : modelEvict q m = m := if_neg (Nat.ne_of_lt h)

/-- A full model takes the oldest value and its deviation out of the running sums (rule R190). -/
theorem modelEvict_of_full {ov om : Word} (h : m.cnt.toNat = 200) (hov : memRead m.val m.idx.toNat = some ov)
    (hom : memRead m.mean m.idx.toNat = some om) :
    modelEvict q m =
      { m with
        sum := fsub (q 0) m.sum ov
        vsum := fsub (q 3) m.vsum (fmul (q 2) (fsub (q 1) ov om) (fsub (q 1) ov om)) } := by
  rw [modelEvict, if_pos (show m.cnt.toNat = Config.hcap from h), hov, hom]
  rfl

end modelEvictFields

section modelInsertFields
variable (q : Nat → BitVec 23) (m : SymModel) (a : Word)

/-- The mean that `ModelInsert` stores with the sample (rule R190). -/
def insertedMean : Word := fdiv (q 5) (modelInsert q m a).sum (cvtU32F32 (modelInsert q m a).cnt.toNat)

@[simp] theorem modelInsert_val : (modelInsert q m a).val = memWrite m.val m.idx.toNat a := by simp [modelInsert]

@[simp] theorem modelInsert_mean :
    (modelInsert q m a).mean = memWrite m.mean m.idx.toNat (insertedMean q m a) := by
  simp [insertedMean, modelInsert]

theorem modelInsert_sum : (modelInsert q m a).sum = fadd (q 4) (modelEvict q m).sum a := rfl

theorem modelInsert_vsum :
    (modelInsert q m a).vsum =
      fadd (q 8) (modelEvict q m).vsum
        (fmul (q 7) (fsub (q 6) a (insertedMean q m a)) (fsub (q 6) a (insertedMean q m a))) := rfl

theorem toNat_modelInsert_idx : (modelInsert q m a).idx.toNat = (m.idx.toNat + 1) % 200 := by
  have hlt : (m.idx.toNat + 1) % 200 < 200 := Nat.mod_lt _ (by decide)
  simp only [modelInsert, modelEvict_idx, Config.hcap, BitVec.toNat_ofNat]
  omega

theorem toNat_modelInsert_cnt (h : m.cnt.toNat ≤ 200) :
    (modelInsert q m a).cnt.toNat = min (m.cnt.toNat + 1) 200 := by
  simp only [modelInsert, modelEvict_cnt, Config.hcap]
  split
  · have hcount : (m.cnt + 1).toNat = m.cnt.toNat + 1 := BitVec.toNat_add_of_lt (show m.cnt.toNat + 1 < 2 ^ 8 by omega)
    omega
  · omega

end modelInsertFields

/-- The slots below `CNT` are the filled ones after a write to the slot `IDX` of a legal model. -/
theorem isSome_memRead_insert {x : Mem Word} {cnt idx k : Nat} (v : Word) (hcnt : cnt ≤ 200) (hidx : idx < 200)
    (hnext : cnt < 200 → idx = cnt) (hx : (memRead x k).isSome = decide (k < cnt)) :
    (memRead (memWrite x idx v) k).isSome = decide (k < min (cnt + 1) 200) := by
  rw [memRead_memWrite]
  split
  · simp only [Option.isSome_some, Eq.comm (a := true), decide_eq_true_eq]
    omega
  · rw [hx, decide_eq_decide]
    omega

/-- `ModelInsert` keeps a model's legal form (rules R36, R37). -/
theorem modelInsert_legal {m : SymModel} (h : ModelLegal m) (q : Nat → BitVec 23) (a : Word) :
    ModelLegal (modelInsert q m a) := by
  obtain ⟨hcnt, hidx, hnext, hvalwf, hmeanwf, hval, hmean⟩ := h
  have hfill : m.cnt.toNat < 200 → m.idx.toNat = m.cnt.toNat := fun hlt => congrArg BitVec.toNat (hnext hlt)
  have hcnt' := toNat_modelInsert_cnt q m a hcnt
  have hidx' := toNat_modelInsert_idx q m a
  refine ⟨by omega, by omega, fun hlt => BitVec.eq_of_toNat_eq (by omega), ?_, ?_, fun k => ?_, fun k => ?_⟩
  · rw [modelInsert_val]
    exact memWrite_wf _ hvalwf hidx
  · rw [modelInsert_mean]
    exact memWrite_wf _ hmeanwf hidx
  · rw [modelInsert_val, hcnt']
    exact isSome_memRead_insert _ hcnt hidx hfill (hval k)
  · rw [modelInsert_mean, hcnt']
    exact isSome_memRead_insert _ hcnt hidx hfill (hmean k)

theorem empty_modelLegal : ModelLegal SymModel.empty := by
  refine ⟨by decide, by decide, fun _ => rfl, nil_wf 200, nil_wf 200, fun a => ?_, fun a => ?_⟩ <;>
    simp [SymModel.empty]

/-! ### TrainField -/

@[simp] theorem ctxEn_update (env : Env) (p raw corr : Dibit) (a : Word) (s : State) :
    ctxEn (update env p raw corr a s) = ctxEn s := rfl

/-- The context that rule R193 gives a dibit: without conditioning 0, with it the dibit before it in the field, if any. -/
def trainContext (s : State) (before : Option Dibit) : Option Dibit := if ctxEn s then before else some 0

/-- One dibit of a training run: an Update in the context of rule R193, or nothing where there is none. -/
def trainOne (env : Env) (before : Option Dibit) (e : Dibit × Dibit × Word) (s : State) : State :=
  match trainContext s before with
  | none => s
  | some p => update env p e.1 e.2.1 e.2.2 s

theorem trainFrom_cons (env : Env) (before : Option Dibit) (e : Dibit × Dibit × Word) (l : List (Dibit × Dibit × Word))
    (s : State) : trainFrom env before (e :: l) s = trainFrom env (some e.2.1) l (trainOne env before e s) := by
  obtain ⟨raw, corr, a⟩ := e
  cases hctx : ctxEn s <;> cases before <;> simp [trainFrom, trainOne, trainContext, hctx]

/-- A training run over one dibit more trains that dibit last, with the corrected dibit before it as its predecessor. -/
theorem trainFrom_concat (env : Env) (before : Option Dibit) (l : List (Dibit × Dibit × Word)) (e : Dibit × Dibit × Word)
    (s : State) :
    trainFrom env before (l ++ [e]) s =
      trainOne env ((l.getLast?.map fun x => x.2.1).or before) e (trainFrom env before l s) := by
  induction l generalizing before s with
  | nil => simp [trainFrom_cons, trainFrom]
  | cons x l ih =>
    rw [List.cons_append, trainFrom_cons, trainFrom_cons, ih]
    cases l using List.reverseRecOn <;> simp [List.getLast?_cons]

@[simp] theorem ctxEn_trainFrom (env : Env) (before : Option Dibit) (l : List (Dibit × Dibit × Word)) (s : State) :
    ctxEn (trainFrom env before l s) = ctxEn s :=
  trainFrom_keeps env (fun t => ctxEn t = ctxEn s) (fun p raw corr a t h => (ctxEn_update env p raw corr a t).trans h)
    before l s rfl

/-- A model of another row than 0 keeps its content through a run without conditioning (rule R35). -/
theorem htGet_trainFrom_row (env : Env) (before : Option Dibit) (l : List (Dibit × Dibit × Word)) {s : State}
    (hctx : ctxEn s = false) {p : Dibit} (hp : p ≠ 0) (c : Dibit) :
    htGet (trainFrom env before l s) p c = htGet s p c := by
  refine (trainFrom_keeps env (fun t => ctxEn t = false ∧ htGet t p c = htGet s p c) ?_ before l s ⟨hctx, rfl⟩).2
  rintro p' raw corr a t ⟨ht, hm⟩
  refine ⟨ht, ?_⟩
  rw [htGet_update, if_neg fun hrow => hp (by simpa [ht] using hrow.1), hm]

/-- A column that no corrected dibit names keeps its content through a run (rule R35). -/
theorem htGet_trainFrom_column (env : Env) (before : Option Dibit) (l : List (Dibit × Dibit × Word)) (s : State)
    {c : Dibit} (hc : ∀ e ∈ l, e.2.1 ≠ c) (p : Dibit) : htGet (trainFrom env before l s) p c = htGet s p c := by
  induction l generalizing before s with
  | nil => rfl
  | cons e l ih =>
    rw [List.forall_mem_cons] at hc
    rw [trainFrom_cons, ih _ _ hc.2, trainOne]
    split
    · rfl
    · rw [htGet_update, if_neg fun hcol => hc.1 hcol.2.symm]

/-- What training sees of one field dibit: the raw dibit, the corrected one, the sample. -/
def trainItem (e : DbEntry × Dibit) : Dibit × Dibit × Word := (e.1.d, e.2, e.1.a)

theorem trainField_eq_trainFrom (env : Env) (field : List DbEntry) (corrected : List Dibit) (s : State) :
    trainField env field corrected s = trainFrom env none ((field.zip corrected).map trainItem) s := rfl

/-- The state when the first `i` dibits of a field are trained. -/
def trainedUpTo (env : Env) (field : List DbEntry) (corrected : List Dibit) (s : State) (i : Nat) : State :=
  trainFrom env none (((field.zip corrected).take i).map trainItem) s

@[simp] theorem ctxEn_trainedUpTo (env : Env) (field : List DbEntry) (corrected : List Dibit) (s : State) (i : Nat) :
    ctxEn (trainedUpTo env field corrected s i) = ctxEn s := ctxEn_trainFrom ..

/-- Dibit `i` is trained on what the dibits below it left, with corrected dibit `i - 1` as its predecessor (rule R193). -/
theorem trainedUpTo_succ (env : Env) {field : List DbEntry} {corrected : List Dibit} (s : State) {i : Nat} {e : DbEntry}
    {c : Dibit} (hlen : corrected.length = field.length) (he : field[i]? = some e) (hc : corrected[i]? = some c) :
    trainedUpTo env field corrected s (i + 1) =
      trainOne env (if i = 0 then none else corrected[i - 1]?) (e.d, c, e.a) (trainedUpTo env field corrected s i) := by
  have hzip : (field.zip corrected)[i]? = some (e, c) := List.getElem?_zip_eq_some.mpr ⟨he, hc⟩
  have hi : i < corrected.length := (List.getElem?_eq_some_iff.mp hc).1
  have hlast : ((((field.zip corrected).take i).map trainItem).getLast?.map fun x => x.2.1)
      = if i = 0 then none else corrected[i - 1]? := by
    cases i with
    | zero => rfl
    | succ k =>
      have hk : k < corrected.length := by omega
      have hkf : k < field.length := by omega
      rw [List.getLast?_map, List.getLast?_take]
      simp [hk, hkf, trainItem]
  rw [trainedUpTo, List.take_add_one, hzip, List.map_append]
  refine (trainFrom_concat ..).trans ?_
  rw [hlast, Option.or_none]
  rfl

/-! ### The classifier's invariant -/

/-- The classifier's invariant speaks of the models and the BER accumulators alone. -/
theorem ClassifierLegal.congr {s t : State} (h : ClassifierLegal s) (hht : t.ht = s.ht) (hcnt : t.bitCnt = s.bitCnt)
    (herr : t.bitErr = s.bitErr) : ClassifierLegal t :=
  ⟨fun p c => by rw [htGet_congr hht]; exact h.1 p c, by rw [hcnt, herr]; exact h.2⟩

/-- A cleared classifier is legal. -/
theorem classifierLegal_of_cleared {s : State} (hht : s.ht = Vector.replicate 16 SymModel.empty) (herr : s.bitErr = 0) :
    ClassifierLegal s := by
  refine ⟨fun p c => ?_, by simp [herr]⟩
  have hempty : htGet s p c = SymModel.empty := by simp [htGet, hht]
  rw [hempty]
  exact empty_modelLegal

/-- `BerFold` keeps `BIT_ERR <= BIT_CNT` (rules R188, R189). -/
theorem berPair_le {cnt err : Counter} {e : Nat} (herr : err.toNat ≤ cnt.toNat) (he : e ≤ 2) :
    (berPair Config.params e cnt err).2.toNat ≤ (berPair Config.params e cnt err).1.toNat := by
  by_cases hcnt : cnt.toNat ≤ 2 ^ Config.params.wCnt - 3
  · have hsums := toNat_berPair (P := Config.params) (by decide) hcnt herr he
    split at hsums <;> omega
  · rw [berPair_frozen (Nat.lt_of_not_le hcnt)]
    exact herr

theorem update_classifierLegal {s : State} (h : ClassifierLegal s) (p raw corr : Dibit) (a : Word) :
    ClassifierLegal (update Config.env p raw corr a s) := by
  refine ⟨fun p' c' => ?_, berPair_le h.2 (errCount_le_two raw corr)⟩
  rw [htGet_update]
  generalize (if ctxEn s then p else 0#2) = row
  split
  · exact modelInsert_legal (h.1 row corr) _ a
  · exact h.1 p' c'

theorem protect_classifierLegal {s : State} (h : ClassifierLegal s) (kind : BitVec 4) (prot : Bool)
    (field : List DbEntry) : ClassifierLegal (protect Config.env kind prot field s).after := by
  cases prot with
  | false => exact h
  | true =>
    cases hok : (Config.env.fec (fecQuery kind field s)).ok with
    | false =>
      rw [protect_failed _ _ _ _ hok]
      exact h
    | true =>
      rw [protect_confirmed _ _ _ _ hok]
      exact trainFrom_keeps Config.env ClassifierLegal (fun p raw corr a t ht => update_classifierLegal ht p raw corr a)
        none _ _ h

theorem sigBurst_classifierLegal {s : State} (h : ClassifierLegal s) (prot : Bool) (field : List DbEntry) :
    ClassifierLegal (sigBurst Config.env prot field s) := by
  have hask := protect_classifierLegal h 0x4#4 prot field
  unfold sigBurst
  dsimp only
  split
  · refine ClassifierLegal.congr (s := (protect Config.env 0x4#4 prot field s).after) hask ?_ ?_ ?_ <;>
      simp only [sigWire_ht, sigWire_bitCnt, sigWire_bitErr] <;> split <;> rfl
  · exact hask

theorem syncBody_classifierLegal {s : State} (h : ClassifierLegal s) (prot : Bool) (field : List DbEntry) :
    ClassifierLegal (syncBody Config.env prot field s) := by
  have hmiss : ClassifierLegal
      (if gSyncExpect s.gm s.j then { s with syncMiss := satInc Config.params s.syncMiss } else s) := by
    split <;> exact h
  unfold syncBody
  split
  · next k _ =>
    have hk := h.congr (syncMatched_ht k s) (syncMatched_bitCnt k s) (syncMatched_bitErr k s)
    split <;> exact hk
  · dsimp only
    split
    · exact sigBurst_classifierLegal hmiss prot field
    · exact hmiss

/-- Every descriptor keeps the classifier's invariant: it trains through `Protect` alone (rule R227). -/
theorem FieldStep.keeps_classifierLegal {s t : State} {i : Instr} (h : FieldStep s i t) (hs : ClassifierLegal s) :
    ClassifierLegal t := by
  cases h with
  | skip w => exact hs
  | cach prot slotIdx slotHalf w =>
    have hask := protect_classifierLegal hs 0x2#4 prot (readField Config.params s w)
    unfold cachField
    dsimp only
    split <;> exact hask
  | voice prot last base w =>
    have hbegin := hs.congr (voiceBegin_ht base s) (voiceBegin_bitCnt base s) (voiceBegin_bitErr base s)
    have hask := protect_classifierLegal hbegin 0x3#4 prot (readField Config.params s w)
    have hplace : ClassifierLegal (voicePlace Config.env prot base (readField Config.params s w) (voiceBegin base s)) := by
      unfold voicePlace
      dsimp only
      split <;> exact hask
    unfold voiceField
    dsimp only
    split
    · exact hplace.congr (emitVoice_ht _) (emitVoice_bitCnt _) (emitVoice_bitErr _)
    · exact hplace
  | sync prot w =>
    have hstart : ClassifierLegal (if s.j = gDiscBurst s.gm then sigStart s else s) := by
      split <;> exact hs
    have hbody := syncBody_classifierLegal hstart prot (readField Config.params s w)
    unfold syncField
    dsimp only
    split
    · exact hbody.congr (sigComplete_ht _) (sigComplete_bitCnt _) (sigComplete_bitErr _)
    · exact hbody

theorem autoLockCheck_classifierLegal {s : State} (h : ClassifierLegal s) :
    ClassifierLegal (autoLockCheck Config.params s) := by
  obtain heq | ⟨-, -, st, heq⟩ := autoLockCheck_cases Config.params s <;> rw [heq]
  · exact h
  · exact classifierLegal_of_cleared rfl rfl

theorem EngineStep.keeps_classifierLegal {s t : State} (h : EngineStep s t) (hs : ClassifierLegal s) :
    ClassifierLegal t := by
  cases h with
  | hold => exact hs
  | halt => exact hs
  | field _ hf => exact hf.keeps_classifierLegal hs
  | sym _ =>
    obtain ⟨d, fault, -, hpush⟩ := symPush_eq_dbPush Config.env s
    rw [symStep, hpush]
    exact autoLockCheck_classifierLegal hs

theorem CommandEffect.keeps_classifierLegal {s t : State} (h : CommandEffect s t) (hs : ClassifierLegal s) :
    ClassifierLegal t := by
  cases h with
  | reset => exact classifierLegal_of_cleared rfl rfl
  | locked st _ => exact classifierLegal_of_cleared rfl rfl
  | unlocked => exact classifierLegal_of_cleared rfl rfl
  | started _ _ _ =>
    split
    · exact hs
    · exact classifierLegal_of_cleared rfl rfl
  | _ => exact hs

end Sys2Proof.Machine

open Sys2Proof Sys2Proof.Machine

/-- Settles O44: Updates insert into legal models, everything else clears the classifier or leaves it. -/
theorem stepKeepsClassifier : Obligations.StepKeepsClassifier := fun _ _ hs h =>
  step_keeps (I := ClassifierLegal) (fun _ _ _ hs => hs) (fun _ _ hs he => he.keeps_classifierLegal hs)
    (fun _ _ hs hc => hc.keeps_classifierLegal hs) (fun _ => classifierLegal_of_cleared rfl rfl) hs h

/-- Settles O38: the legal form by `modelInsert_legal`, the running sums by what `modelEvict` leaves of them. -/
theorem modelInsertEffect : Obligations.ModelInsertEffect := by
  intro q m a hm
  refine ⟨modelInsert_legal hm q a, toNat_modelInsert_cnt q m a hm.1, toNat_modelInsert_idx q m a, fun k => ?_, fun k hk => ?_,
    q 0, q 1, q 2, q 3, q 4, q 5, q 6, q 7, q 8, insertedMean q m a, rfl, ?_, fun hlt => ?_, fun ov om hfull hov hom => ?_⟩
  · rw [modelInsert_val, memRead_memWrite]
  · rw [modelInsert_mean, memRead_memWrite_other _ _ hk]
  · rw [modelInsert_mean, memRead_memWrite_same]
  · rw [modelInsert_sum, modelInsert_vsum, modelEvict_of_lt q m hlt]
    exact ⟨rfl, rfl⟩
  · rw [modelInsert_sum, modelInsert_vsum, modelEvict_of_full q m hfull hov hom]
    exact ⟨rfl, rfl⟩

/-- Settles O41: the states between are `trainedUpTo`, the clauses on rows and columns hold of every run of Updates. -/
theorem trainFieldEffect : Obligations.TrainFieldEffect := by
  intro env field corrected s hlen
  refine ⟨⟨trainedUpTo env field corrected s, ?_, ?_, fun i e c he hc => ?_⟩, fun hctx p c hp => ?_, fun hctx hshort => ?_,
    fun c hc p => ?_⟩
  · simp [trainedUpTo, trainFrom]
  · rw [trainedUpTo, List.take_of_length_le (by simp [hlen])]
    rfl
  · have hone := trainedUpTo_succ env s hlen he hc
    refine ⟨fun hctx => ?_, fun hctx hi => ?_, fun hctx p hi hp => ?_⟩ <;>
      rw [hone, trainOne, trainContext, ctxEn_trainedUpTo, ctxEn, hctx]
    · rfl
    · rw [if_pos hi]; rfl
    · rw [if_neg hi, hp]; rfl
  · exact htGet_trainFrom_row env none _ hctx hp c
  · cases field with
    | nil => rfl
    | cons e field =>
      have hnil : field = [] := by simpa using hshort
      obtain ⟨c, rfl⟩ := List.length_eq_one_iff.mp (by simpa [hnil] using hlen)
      have hone : ctxEn s = true := hctx
      simp [hnil, trainField, trainFrom, hone]
  · refine htGet_trainFrom_column env none _ s (fun e he => ?_) p
    obtain ⟨x, hx, rfl⟩ := List.mem_map.mp he
    rintro rfl
    exact hc (List.of_mem_zip hx).2
end

section
/-!
SUPPORT. What a field descriptor writes to the output slot, the muting state and the slot status (rules R234, R236), and the
two safety statements on muting and forwarding with the invariants of the channels and of the unused codes.
-/
namespace Sys2Proof.Machine

/-! ### Sync entries that match -/

theorem patMatches_iff (gm : Mem Word) (n : Nat) (raw : Nat → Dibit) (k : Nat) :
    patMatches gm ((List.range n).map raw) k = true ↔ MatchesSync gm n raw k := by
  simp only [patMatches, MatchesSync, List.all_eq_true, beq_iff_eq, List.mem_zipIdx_iff_getElem?, Prod.forall]
  constructor
  · exact fun h i hi => h (raw i) i (by simp [hi])
  · intro h d i hd
    obtain ⟨j, hj, rfl⟩ := Option.map_eq_some_iff.mp ((List.getElem?_map ..).symm.trans hd)
    obtain ⟨hi, rfl⟩ := List.getElem?_eq_some_iff.mp hj
    rw [List.length_range] at hi
    simpa using h i hi

/-- The entry that the sync test answers is the lowest that matches (rule R235). -/
theorem syncMatch_eq_some (gm : Mem Word) (n : Nat) (raw : Nat → Dibit) (k : Nat) :
    syncMatch gm ((List.range n).map raw) = some k ↔ LowestMatch gm n raw k := by
  simp only [syncMatch, LowestMatch, List.find?_range_eq_some, List.mem_range, patMatches_iff, Bool.not_eq_true',
    ← Bool.not_eq_true]
  tauto

/-- The raw dibits of the field at `RP` (rules R82 b, R211). -/
theorem readField_dibits (s : State) (w : BitVec 10) :
    (readField Config.params s w).map DbEntry.d = (List.range w.toNat).map (rawDibit s) := by
  simp [readField, rawDibit, Function.comp_def]

/-! ### The output slot, muting and the slot status -/

/-- The output slot, the muting state and the slot status of a state. -/
def gateView (s : State) : Mem Word × BitVec 1 × BitVec 1 × Bool × BitVec 2 × BitVec 2 :=
  (s.outRec, s.outLen, s.outOff, s.muted, s.slotst0, s.slotst1)

theorem gateView_eq_iff (s t : State) :
    gateView t = gateView s ↔ t.outRec = s.outRec ∧ t.outLen = s.outLen ∧ t.outOff = s.outOff ∧ t.muted = s.muted
      ∧ t.slotst0 = s.slotst0 ∧ t.slotst1 = s.slotst1 := by
  simp [gateView]

theorem gateView_protect (env : Env) (kind : BitVec 4) (prot : Bool) (field : List DbEntry) (s : State) :
    gateView (protect env kind prot field s).after = gateView s := by
  simp [gateView]

theorem gateView_voicePlace (env : Env) (prot : Bool) (base : BitVec 6) (field : List DbEntry) (s : State) :
    gateView (voicePlace env prot base field s) = gateView s := by
  unfold voicePlace
  dsimp only
  split <;> exact gateView_protect env 0x3#4 prot field s

theorem gateView_sigWire (P : Params) (content : List Dibit) (s : State) :
    gateView (sigWire P content s) = gateView s := by
  simp [gateView]

theorem gateView_sigBurst (env : Env) (prot : Bool) (field : List DbEntry) (s : State) :
    gateView (sigBurst env prot field s) = gateView s := by
  have hask := gateView_protect env 0x4#4 prot field s
  unfold sigBurst
  dsimp only
  split
  · rw [gateView_sigWire]
    split <;> exact hask
  · exact hask

/-- Entering a matched sync word codes the status of the current slot by the word's class (rules R42, R236). -/
@[simp] theorem syncMatched_slotst0 (k : Nat) (s : State) :
    (syncMatched k s).slotst0 = if s.curslot = 0#1 then (if gClassData s.gm k then 2#2 else 1#2) else s.slotst0 := by
  unfold syncMatched setSlotStatus
  split <;> split <;> rfl

@[simp] theorem syncMatched_slotst1 (k : Nat) (s : State) :
    (syncMatched k s).slotst1 = if s.curslot = 0#1 then s.slotst1 else (if gClassData s.gm k then 2#2 else 1#2) := by
  unfold syncMatched setSlotStatus
  split <;> split <;> rfl

theorem gateView_syncMatched {s b : State} (hgm : b.gm = s.gm) (hcurslot : b.curslot = s.curslot)
    (h : gateView b = gateView s) (k : Nat) : gateView (syncMatched k b) = gateView (syncMatched k s) := by
  obtain ⟨hrec, hlen, hoff, -, hslot0, hslot1⟩ := (gateView_eq_iff s b).mp h
  simp [gateView, *]

/-- SYNC up to its completion: a field that matches sets muting and the slot status, a field that does not leaves them (rules
R235 to R237). -/
theorem gateView_syncBody (env : Env) (prot : Bool) (field : List DbEntry) (s : State) :
    (syncMatch s.gm (field.map DbEntry.d) = none ∧ gateView (syncBody env prot field s) = gateView s)
      ∨ ∃ k, syncMatch s.gm (field.map DbEntry.d) = some k
          ∧ gateView (syncBody env prot field s) = gateView (syncMatched k s) := by
  have hmiss : gateView (if gSyncExpect s.gm s.j then { s with syncMiss := satInc env.params s.syncMiss } else s)
      = gateView s := by
    split <;> rfl
  unfold syncBody
  split
  · next k hk =>
    refine .inr ⟨k, hk, ?_⟩
    split <;> rfl
  · next hk =>
    refine .inl ⟨hk, ?_⟩
    dsimp only
    split
    · rw [gateView_sigBurst, hmiss]
    · exact hmiss

/-- A voice frame is forwarded: the frame is good and neither muted nor of the first burst, and the output slot takes a record
whose rows are the matrix (rules R130, R234). -/
structure Forwards (s t : State) : Prop where
  unmuted : s.muted = false
  notFirst : s.firstframe = false
  good : t.vbad = false
  record : ∃ b : State, b.vm = t.vm ∧ gateView t = gateView (outWrite (voiceRecord b) s)

theorem forwards_or_gateView_emitVoice {s b : State} (hframe : fieldFrame b = fieldFrame s) (hgate : gateView b = gateView s)
    (P : Params) (w : BitVec 10) :
    gateView (advance P w (emitVoice b)) = gateView s ∨ Forwards s (advance P w (emitVoice b)) := by
  have hfirst : b.firstframe = s.firstframe := (congrArg State.firstframe hframe :)
  obtain ⟨hrec, -, -, hmuted, hslot0, hslot1⟩ := (gateView_eq_iff s b).mp hgate
  unfold emitVoice
  split
  · next hemit =>
    simp only [Bool.and_eq_true, Bool.not_eq_true', hmuted, hfirst] at hemit
    obtain ⟨⟨hunmuted, hnotFirst⟩, hgood⟩ := hemit
    refine .inr ⟨hunmuted, hnotFirst, hgood, b, rfl, ?_⟩
    simp [gateView, hrec, hmuted, hslot0, hslot1]
  · exact .inl hgate

/-- What a descriptor that runs can do to the output slot, muting and the slot status: nothing, forward a voice frame with
`LAST = 1`, or note the sync word that its field matches. -/
theorem FieldStep.gate {s t : State} {i : Instr} (h : FieldStep s i t) :
    gateView t = gateView s
      ∨ (∃ prot base w, i = .voice prot true base w ∧ Forwards s t)
      ∨ ∃ prot w k, i = .sync prot w ∧ LowestMatch s.gm w.toNat (rawDibit s) k
          ∧ gateView t = gateView (syncMatched k s) := by
  cases h with
  | skip w => exact .inl rfl
  | cach prot slotIdx slotHalf w =>
    left
    unfold cachField
    dsimp only
    split <;> exact gateView_protect Config.env 0x2#4 prot (readField Config.params s w) s
  | voice prot last base w =>
    have hframe := (fieldFrame_voicePlace Config.env prot base (readField Config.params s w) (voiceBegin base s)).trans
      (fieldFrame_voiceBegin base s)
    have hgate : gateView (voicePlace Config.env prot base (readField Config.params s w) (voiceBegin base s)) = gateView s := by
      rw [gateView_voicePlace]
      simp [gateView]
    cases last with
    | false => exact .inl hgate
    | true =>
      obtain hsame | hforward := forwards_or_gateView_emitVoice hframe hgate Config.params w
      · exact .inl hsame
      · exact .inr (.inl ⟨prot, base, w, rfl, hforward⟩)
  | sync prot w =>
    have hcomplete : ∀ b : State, gateView (advance Config.params w (if s.j = gSigLast s.gm then sigComplete b else b))
        = gateView b := by
      intro b
      split <;> simp [gateView]
    have hstart : ∃ b : State, (if s.j = gDiscBurst s.gm then sigStart s else s) = b ∧ b.gm = s.gm
        ∧ b.curslot = s.curslot ∧ gateView b = gateView s := by
      refine ⟨_, rfl, ?_⟩
      split <;> exact ⟨rfl, rfl, rfl⟩
    obtain ⟨b, hb, hgm, hcurslot, hsame⟩ := hstart
    unfold syncField
    rw [hb]
    dsimp only
    rw [Config.env_params, hcomplete]
    obtain ⟨-, hnone⟩ | ⟨k, hk, hsome⟩ := gateView_syncBody Config.env prot (readField Config.params s w) b
    · exact .inl (hnone.trans hsame)
    · refine .inr (.inr ⟨prot, w, k, rfl, ?_, hsome.trans (gateView_syncMatched hgm hcurslot hsame k)⟩)
      rwa [hgm, readField_dibits, syncMatch_eq_some] at hk

/-- The sample step leaves the output slot; muting it can only begin (rules R170, R323). -/
theorem symStep_outLen (env : Env) (s : State) : (symStep env s).outLen = s.outLen := by
  obtain ⟨d, fault, -, hpush⟩ := symPush_eq_dbPush env s
  rw [symStep, hpush]
  obtain heq | ⟨-, -, st, heq⟩ := autoLockCheck_cases env.params _ <;> rw [heq] <;> rfl

theorem symStep_muted (env : Env) {s : State} (h : s.muted = true) : (symStep env s).muted = true := by
  obtain ⟨d, fault, -, hpush⟩ := symPush_eq_dbPush env s
  rw [symStep, hpush]
  obtain heq | ⟨-, -, st, heq⟩ := autoLockCheck_cases env.params _ <;> rw [heq]
  · exact h
  · rfl

/-- No command ends muting (rule R43). -/
theorem CommandEffect.muted {s t : State} (h : CommandEffect s t) (hs : s.muted = true) : t.muted = true := by
  cases h with
  | reset => rfl
  | locked st _ => rfl
  | unlocked => rfl
  | started _ _ _ =>
    split
    · exact hs
    · rfl
  | _ => exact hs

/-- No command fills the output slot (rule R234). -/
theorem CommandEffect.outLen {s t : State} (h : CommandEffect s t) (hs : s.outLen = 0) : t.outLen = 0 := by
  cases h with
  | reset => rfl
  | drained ws => rfl
  | started _ _ _ => split <;> exact hs
  | _ => exact hs

/-- A record in the output slot holds its five words (rules R56, R130). -/
theorem isSome_memRead_voiceRecord (m : Mem Word) (b : State) {i : Nat} (hi : i < 5) :
    (memRead (memLoad m (voiceRecord b)) i).isSome = true := by
  have hlen : i < (voiceRecord b).length := hi
  rw [memRead_memLoad, if_pos hlen, List.getElem?_eq_getElem hlen]
  rfl

/-- Word `1 + r` of a record is row `r` of the matrix (rule R130). -/
theorem memRead_voiceRecord_row (m : Mem Word) (b : State) (r : Fin 4) :
    memRead (memLoad m (voiceRecord b)) (1 + r.val) = some ((b.vm[r]).setWidth 32) := by
  have hlen : 1 + r.val < (voiceRecord b).length := by
    simp only [voiceRecord, List.length_cons, List.length_nil]
    omega
  rw [memRead_memLoad, if_pos hlen]
  fin_cases r <;> rfl

/-! ### The channels' invariant -/

/-- A descriptor leaves the input channel alone. -/
theorem FieldStep.input {s t : State} {i : Instr} (h : FieldStep s i t) :
    t.inBuf = s.inBuf ∧ t.rdyLen = s.rdyLen ∧ t.inOff = s.inOff := by
  obtain ⟨b, hb, rfl⟩ := h.advances
  exact ⟨(congrArg State.inBuf hb :), (congrArg State.rdyLen hb :), (congrArg State.inOff hb :)⟩

theorem ChannelsLegal.congr {s t : State} (h : ChannelsLegal s)
    (hin : t.inBuf = s.inBuf ∧ t.rdyLen = s.rdyLen ∧ t.inOff = s.inOff)
    (hout : t.outRec = s.outRec ∧ t.outLen = s.outLen ∧ t.outOff = s.outOff) : ChannelsLegal t := by
  obtain ⟨hbuf, hrdy, hoff⟩ := hin
  obtain ⟨hrec, hlen, hout⟩ := hout
  unfold ChannelsLegal
  rw [hbuf, hrdy, hoff, hrec, hlen, hout]
  exact h

/-- Empty channels ask nothing of their entries. -/
theorem channelsLegal_of_empty {s : State} (hready : s.rdyLen = 0) (hin : s.inOff = 0) (hlen : s.outLen = 0)
    (hout : s.outOff = 0) : ChannelsLegal s := by
  refine ⟨.inr ⟨hready, hin⟩, by simp [hready], hout, fun i hi => ?_, fun hfull => ?_⟩
  · simp [hready] at hi
  · simp [hlen] at hfull

theorem outWrite_channelsLegal {s : State} (h : ChannelsLegal s) (b : State) :
    ChannelsLegal (outWrite (voiceRecord b) s) := by
  obtain ⟨hoff, hcap, -, hin, -⟩ := h
  exact ⟨hoff, hcap, rfl, hin, fun _ _ hi => isSome_memRead_voiceRecord s.outRec b hi⟩

theorem FieldStep.keeps_channelsLegal {s t : State} {i : Instr} (h : FieldStep s i t) (hs : ChannelsLegal s) :
    ChannelsLegal t := by
  obtain hsame | ⟨-, -, -, -, hforward⟩ | ⟨-, -, k, -, -, hmatched⟩ := h.gate
  · obtain ⟨hrec, hlen, hoff, -⟩ := (gateView_eq_iff s t).mp hsame
    exact hs.congr h.input ⟨hrec, hlen, hoff⟩
  · obtain ⟨b, -, hview⟩ := hforward.record
    obtain ⟨hrec, hlen, hoff, -⟩ := (gateView_eq_iff _ t).mp hview
    exact (outWrite_channelsLegal hs b).congr h.input ⟨hrec, hlen, hoff⟩
  · obtain ⟨hrec, hlen, hoff, -⟩ := (gateView_eq_iff _ t).mp hmatched
    exact hs.congr h.input ⟨hrec.trans (syncMatched_outRec k s), hlen.trans (syncMatched_outLen k s),
      hoff.trans (syncMatched_outOff k s)⟩

/-- `InRead` of a ready batch moves to its next sample, or drains it at its last (rules R55, R76). -/
theorem inAdvance_channelsLegal {s : State} (h : ChannelsLegal s) (hready : s.rdyLen ≠ 0) : ChannelsLegal (inAdvance s) := by
  obtain ⟨hoff, hcap, hout, hin, hrec⟩ := h
  have hlt : s.inOff.toNat < s.rdyLen.toNat := hoff.resolve_right fun hempty => hready hempty.1
  rw [Config.params_inCap] at hcap
  have hnext : (s.inOff + 1).toNat = s.inOff.toNat + 1 :=
    BitVec.toNat_add_of_lt (show s.inOff.toNat + 1 < 2 ^ 16 by omega)
  unfold ChannelsLegal
  rw [inAdvance_rdyLen, inAdvance_inOff]
  split
  · exact ⟨.inr ⟨rfl, rfl⟩, Nat.zero_le _, hout, fun i hi => absurd hi (Nat.not_lt_zero i), hrec⟩
  · next hmore =>
    have hne : (s.inOff + 1).toNat ≠ s.rdyLen.toNat := fun heq => hmore (BitVec.eq_of_toNat_eq heq)
    exact ⟨.inl (by omega), hcap, hout, hin, hrec⟩

theorem autoLockCheck_channelsLegal {s : State} (h : ChannelsLegal s) : ChannelsLegal (autoLockCheck Config.params s) := by
  obtain heq | ⟨-, -, st, heq⟩ := autoLockCheck_cases Config.params s <;> rw [heq] <;> exact h

theorem EngineStep.keeps_channelsLegal {s t : State} (h : EngineStep s t) (hs : ChannelsLegal s) : ChannelsLegal t := by
  cases h with
  | hold => exact hs
  | halt => exact hs
  | field _ hf => exact hf.keeps_channelsLegal hs
  | sym hr =>
    obtain ⟨d, fault, -, hpush⟩ := symPush_eq_dbPush Config.env s
    have hadvance := inAdvance_channelsLegal hs hr.ready
    rw [symStep, hpush]
    exact autoLockCheck_channelsLegal hadvance

theorem CommandEffect.keeps_channelsLegal {s t : State} (h : CommandEffect s t) (hs : ChannelsLegal s) :
    ChannelsLegal t := by
  obtain ⟨hoff, hcap, hout, hin, hrec⟩ := hs
  cases h with
  | reset => exact channelsLegal_of_empty rfl rfl rfl rfl
  | started _ _ _ => split <;> exact ⟨hoff, hcap, hout, hin, hrec⟩
  | drained ws => exact ⟨hoff, hcap, rfl, hin, fun hfull => nomatch hfull⟩
  | submitted samples hfits hsome =>
    have hlen : (BitVec.ofNat 16 samples.length).toNat = samples.length := by
      rw [BitVec.toNat_ofNat]
      omega
    refine ⟨.inl ?_, ?_, hout, fun i hi => ?_, hrec⟩
    · rw [hlen]
      exact Nat.pos_of_ne_zero hsome
    · rw [hlen]
      exact hfits
    · rw [hlen] at hi
      rw [memRead_memLoad, if_pos hi, List.getElem?_eq_getElem hi]
      rfl
  | _ => exact ⟨hoff, hcap, hout, hin, hrec⟩

theorem reset_channelsLegal : ChannelsLegal State.reset := channelsLegal_of_empty rfl rfl rfl rfl

/-! ### The hard-wired zeros and the unused codes -/

/-- Entering a slot status writes the codes 1 and 2 alone (rules R42, R236). -/
theorem syncMatched_slotst_ne {s : State} (h0 : s.slotst0 ≠ 3#2) (h1 : s.slotst1 ≠ 3#2) (k : Nat) :
    (syncMatched k s).slotst0 ≠ 3#2 ∧ (syncMatched k s).slotst1 ≠ 3#2 := by
  have hcode : (if gClassData s.gm k then 2#2 else 1#2) ≠ 3#2 := by split <;> decide
  rw [syncMatched_slotst0, syncMatched_slotst1]
  split
  · exact ⟨hcode, h1⟩
  · exact ⟨h0, hcode⟩

theorem FieldStep.keeps_codesLegal {s t : State} {i : Instr} (h : FieldStep s i t) (hs : CodesLegal s) : CodesLegal t := by
  obtain ⟨hctrl, h0, h1, hfault⟩ := hs
  have hframe : t.ctrl = s.ctrl ∧ t.fault = s.fault := by
    obtain ⟨b, hb, rfl⟩ := h.advances
    exact ⟨(congrArg State.ctrl hb :), (congrArg State.fault hb :)⟩
  have hslots : t.slotst0 ≠ 3#2 ∧ t.slotst1 ≠ 3#2 := by
    obtain hsame | ⟨-, -, -, -, hforward⟩ | ⟨-, -, k, -, -, hmatched⟩ := h.gate
    · obtain ⟨-, -, -, -, ht0, ht1⟩ := (gateView_eq_iff s t).mp hsame
      exact ⟨ht0 ▸ h0, ht1 ▸ h1⟩
    · obtain ⟨b, -, hview⟩ := hforward.record
      obtain ⟨-, -, -, -, ht0, ht1⟩ := (gateView_eq_iff _ t).mp hview
      exact ⟨ht0 ▸ h0, ht1 ▸ h1⟩
    · obtain ⟨-, -, -, -, ht0, ht1⟩ := (gateView_eq_iff _ t).mp hmatched
      rw [ht0, ht1]
      exact syncMatched_slotst_ne h0 h1 k
  exact ⟨hframe.1 ▸ hctrl, hslots.1, hslots.2, hframe.2 ▸ hfault⟩

/-- A cleared session has both slots in status 0. -/
theorem sessionClear_codesLegal (s : State) (h : CodesLegal s) : CodesLegal (sessionClear s) := by
  obtain ⟨hctrl, -, -, hfault⟩ := h
  have hclear : 0#2 ≠ 3#2 := by decide
  exact ⟨hctrl, hclear, hclear, hfault⟩

theorem raise_codesLegal {s : State} (h : CodesLegal s) (c : FaultCode) : CodesLegal (raise c s) := by
  obtain ⟨hctrl, h0, h1, hfault⟩ := h
  exact ⟨hctrl, h0, h1, (setBitTo_faultBit_getLsbD_seven s.fault c).trans hfault⟩

theorem EngineStep.keeps_codesLegal {s t : State} (h : EngineStep s t) (hs : CodesLegal s) : CodesLegal t := by
  cases h with
  | hold => exact hs
  | halt => exact hs
  | field _ hf => exact hf.keeps_codesLegal hs
  | sym _ =>
    obtain ⟨d, fault, hbit, hpush⟩ := symPush_eq_dbPush Config.env s
    have hpushed : CodesLegal (symPush Config.env s) := by
      obtain ⟨hctrl, h0, h1, hfault⟩ := hs
      rw [hpush]
      exact ⟨hctrl, h0, h1, hbit.trans hfault⟩
    rw [symStep]
    obtain heq | ⟨-, -, st, heq⟩ := autoLockCheck_cases Config.env.params (symPush Config.env s) <;> rw [heq]
    · exact hpushed
    · exact sessionClear_codesLegal (symPush Config.env s) hpushed

theorem CommandEffect.keeps_codesLegal {s t : State} (h : CommandEffect s t) (hs : CodesLegal s) : CodesLegal t := by
  cases h with
  | raised c => exact raise_codesLegal hs c
  | reset => exact sessionClear_codesLegal s hs
  | locked st _ => exact sessionClear_codesLegal s hs
  | unlocked => exact sessionClear_codesLegal s hs
  | started _ _ _ =>
    split
    · exact hs
    · exact sessionClear_codesLegal s hs
  | startFailed fault _ hbit =>
    obtain ⟨hctrl, h0, h1, hfault⟩ := hs
    exact ⟨hctrl, h0, h1, hbit.trans hfault⟩
  | registerWritten ctrl _ _ _ _ _ _ hctrl =>
    obtain ⟨hzero, h0, h1, hfault⟩ := hs
    exact ⟨hctrl.elim (fun hsame => hsame ▸ hzero) id, h0, h1, hfault⟩
  | _ => exact hs

theorem reset_codesLegal : CodesLegal State.reset := ⟨rfl, by decide, by decide, rfl⟩

end Sys2Proof.Machine

open Sys2Proof Sys2Proof.Machine

/-- Settles O45, by what each engine step and each command writes to the two channels. -/
theorem stepKeepsChannels : Obligations.StepKeepsChannels := fun _ _ hs h =>
  step_keeps (I := ChannelsLegal) (fun _ _ _ hs => hs) (fun _ _ hs he => he.keeps_channelsLegal hs)
    (fun _ _ hs hc => hc.keeps_channelsLegal hs) (fun _ => reset_channelsLegal) hs h

/-- Settles O48: `CTRL` is written masked, `SLOTST` with codes 1 and 2, and no fault code is bit 7. -/
theorem stepKeepsCodes : Obligations.StepKeepsCodes := fun _ _ hs h =>
  step_keeps (I := CodesLegal) (fun _ _ _ hs => hs) (fun _ _ hs he => he.keeps_codesLegal hs)
    (fun _ _ hs hc => hc.keeps_codesLegal hs) (fun _ => reset_codesLegal) hs h

/-- Settles O58: of all steps only a descriptor can end muting, and of its three effects only a matched sync word does. -/
theorem onlyVoiceSyncUnmutes : Obligations.OnlyVoiceSyncUnmutes := by
  intro s t h hs ht
  have hkept : t.muted ≠ true := by simp [ht]
  obtain ⟨hagent, he⟩ | ⟨wsP, wsQ, hc⟩ | ⟨-, rfl⟩ := step_turns h
  · refine ⟨hagent, ?_⟩
    cases he with
    | hold => exact absurd hs hkept
    | halt => exact absurd hs hkept
    | sym _ => exact absurd (symStep_muted Config.env (s := takeTurn s) hs) hkept
    | field hr hf =>
      refine ⟨hr.locked, ?_⟩
      obtain hsame | ⟨-, -, -, -, hforward⟩ | ⟨prot, w, k, rfl, hk, hmatched⟩ := hf.gate
      · obtain ⟨-, -, -, hmuted, -⟩ := (gateView_eq_iff _ t).mp hsame
        exact absurd (hmuted.trans hs) hkept
      · exact absurd (hforward.unmuted.symm.trans hs) (by decide)
      · obtain ⟨-, -, -, hmuted, -⟩ := (gateView_eq_iff _ t).mp hmatched
        rw [syncMatched_muted] at hmuted
        exact ⟨prot, w, k, hr.decoded, hk, hmuted.symm.trans ht⟩
  · exact absurd (hc.muted hs) hkept
  · exact absurd rfl hkept

/-- Settles O59: of all steps only a descriptor can fill the output slot, and of its three effects only a forwarded frame
does. -/
theorem onlyGoodVoiceFramesForwarded : Obligations.OnlyGoodVoiceFramesForwarded := by
  intro s t h hs ht
  have hfilled : t.outLen ≠ 0 := by simp [ht]
  obtain ⟨hagent, he⟩ | ⟨wsP, wsQ, hc⟩ | ⟨-, rfl⟩ := step_turns h
  · refine ⟨hagent, ?_⟩
    cases he with
    | hold => exact absurd hs hfilled
    | halt => exact absurd hs hfilled
    | sym _ => exact absurd ((symStep_outLen Config.env (takeTurn s)).trans hs) hfilled
    | field hr hf =>
      obtain hsame | ⟨prot, base, w, rfl, hforward⟩ | ⟨-, -, k, -, -, hmatched⟩ := hf.gate
      · obtain ⟨-, hlen, -⟩ := (gateView_eq_iff _ t).mp hsame
        exact absurd (hlen.trans hs) hfilled
      · obtain ⟨hunmuted, hnotFirst, hgood, b, hvm, hview⟩ := hforward
        obtain ⟨hrec, -⟩ := (gateView_eq_iff _ t).mp hview
        refine ⟨hunmuted, hnotFirst, hgood, ⟨prot, base, w, hr.decoded⟩, fun r => ?_⟩
        rw [hrec, ← hvm]
        exact memRead_voiceRecord_row _ b r
      · obtain ⟨-, hlen, -⟩ := (gateView_eq_iff _ t).mp hmatched
        exact absurd ((hlen.trans (syncMatched_outLen k _)).trans hs) hfilled
  · exact absurd (hc.outLen hs) hfilled
  · exact absurd rfl hfilled
end

section
/-!
SUPPORT. The grammar's and the dibit buffer's invariants (rules R22 to R33, R72, R74, R92), what holds where they do, and the
reset state.
-/
namespace Sys2Proof.Machine

/-! ### What the START checks give -/

theorem gField_mem_gFields {gm : Mem Word} {f : Nat} (h : f < gNfield gm) : gField gm f ∈ gFields gm :=
  List.mem_map.mpr ⟨f, List.mem_range.mpr h, rfl⟩

section checksPassed
variable {P : Params} {gm : Mem Word} (h : grammarOk P gm = true)
include h

theorem checkG1_of_grammarOk : checkG1 P gm = true := by
  simp only [grammarOk, Bool.and_eq_true] at h
  tauto

theorem checkG3_of_grammarOk : checkG3 gm = true := by
  simp only [grammarOk, Bool.and_eq_true] at h
  tauto

theorem checkG5_of_grammarOk : checkG5 gm = true := by
  simp only [grammarOk, Bool.and_eq_true] at h
  tauto

theorem checkG7_of_grammarOk : checkG7 P gm = true := by
  simp only [grammarOk, Bool.and_eq_true] at h
  tauto

/-- A validated grammar has a descriptor (check G1). -/
theorem gNfield_pos_of_grammarOk : 0 < gNfield gm := by
  have hG1 := checkG1_of_grammarOk h
  simp only [checkG1, Bool.and_eq_true, decide_eq_true_eq] at hG1
  tauto

/-- Every field of a validated grammar fits the dibit buffer (check G7). -/
theorem descW_le_of_grammarOk {f : Nat} (hf : f < gNfield gm) : descW (gField gm f) ≤ P.dbufCap := by
  have hG7 := checkG7_of_grammarOk h
  rw [checkG7, List.all_eq_true] at hG7
  exact of_decide_eq_true (hG7 _ (gField_mem_gFields hf))

/-- A SYNC descriptor of a validated grammar is as wide as a sync word (check G3). -/
theorem descW_of_isSyncWord {w : Word} (hw : w ∈ gFields gm) (hsync : isSyncWord w = true) : descW w = gSyncw gm := by
  have hG3 := checkG3_of_grammarOk h
  rw [checkG3, List.all_eq_true] at hG3
  have hlegal := hG3 w hw
  unfold legalDescriptor at hlegal
  split at hlegal
  · next i hi =>
    rw [decodeDescriptor_sync hi (by simpa [isSyncWord, descKind] using hsync), Instr.fits, decide_eq_true_eq] at hlegal
    exact hlegal
  · cases hlegal

end checksPassed

/-- The widths up to the first SYNC descriptor hold at least that descriptor's own. -/
theorem le_widthToSync {ws : List Word} {c : Nat} (hwidth : ∀ w ∈ ws, isSyncWord w = true → descW w = c)
    (hsync : ∃ w ∈ ws, isSyncWord w = true) : ∃ n, widthToSync ws = some n ∧ c ≤ n := by
  induction ws with
  | nil => simp at hsync
  | cons w ws ih =>
    rw [List.forall_mem_cons] at hwidth
    unfold widthToSync
    split
    · next hw => exact ⟨_, rfl, (hwidth.1 hw).ge⟩
    · next hw =>
      rw [List.exists_mem_cons_iff, or_iff_right hw] at hsync
      obtain ⟨n, hn, hle⟩ := ih hwidth.2 hsync
      exact ⟨descW w + n, by rw [hn]; rfl, by omega⟩

/-- Where a validated grammar has a SYNC descriptor, `LOOKBACK` covers a sync word (checks G3, G5). -/
theorem gSyncw_le_gLookback {P : Params} {gm : Mem Word} (h : grammarOk P gm = true)
    (hsync : ∃ f, f < gNfield gm ∧ isSyncWord (gField gm f) = true) : gSyncw gm ≤ gLookback gm := by
  obtain ⟨f, hf, hw⟩ := hsync
  obtain ⟨n, hn, hle⟩ := le_widthToSync (fun w hmem => descW_of_isSyncWord h hmem) ⟨_, gField_mem_gFields hf, hw⟩
  have hG5 := checkG5_of_grammarOk h
  rw [checkG5, hn] at hG5
  exact (of_decide_eq_true hG5).symm ▸ hle

/-! ### The grammar's invariant -/

/-- A halted engine without a validated grammar asks only for a legal burst index. -/
theorem grammarLegal_of_unvalidated {s : State} (hhalted : s.halted = true) (hgvalid : s.gvalid = false)
    (hj : s.j.toNat < 6) : GrammarLegal s := by
  refine ⟨fun hrun => ?_, fun hvalid => ?_, hj⟩
  · rw [hhalted] at hrun
    cases hrun
  · rw [hgvalid] at hvalid
    cases hvalid

/-- A cleared session starts the pass at descriptor 0 of burst 0. -/
theorem sessionClear_grammarLegal (s : State) (h : GrammarLegal s) : GrammarLegal (sessionClear s) := by
  obtain ⟨hrun, hvalid, -⟩ := h
  refine ⟨hrun, fun hgvalid => ?_, show 0 < 6 by decide⟩
  obtain ⟨hgrammar, hconfig, -⟩ := hvalid hgvalid
  exact ⟨hgrammar, hconfig, gNfield_pos_of_grammarOk hgrammar⟩

/-- `Advance` stays within the pass and the six bursts (rules R26, R27, R240). -/
theorem advance_grammarLegal {s : State} (h : GrammarLegal s) (P : Params) (w : BitVec 10) :
    GrammarLegal (advance P w s) := by
  obtain ⟨hrun, hvalid, hj⟩ := h
  refine ⟨hrun, fun hgvalid => ?_, ?_⟩
  · obtain ⟨hgrammar, hconfig, hf⟩ := hvalid hgvalid
    refine ⟨hgrammar, hconfig, ?_⟩
    rw [advance_f, advance_gm]
    split
    · exact gNfield_pos_of_grammarOk hgrammar
    · next hlast =>
      have hnot : s.f.toNat + 1 ≠ gNfield s.gm := by simpa [lastField] using hlast
      have hwidth : gNfield s.gm < 2 ^ 7 := BitVec.isLt _
      have hnext : (s.f + 1).toNat = s.f.toNat + 1 := BitVec.toNat_add_of_lt (show s.f.toNat + 1 < 2 ^ 7 by omega)
      omega
  · rw [advance_j]
    split
    · rw [BitVec.toNat_ofNat]
      omega
    · exact hj

theorem FieldStep.keeps_grammarLegal {s t : State} {i : Instr} (h : FieldStep s i t) (hs : GrammarLegal s) :
    GrammarLegal t := by
  obtain ⟨b, hb, rfl⟩ := h.advances
  have hframe : GrammarLegal (fieldFrame b) := hb ▸ hs
  exact advance_grammarLegal (s := b) hframe Config.params (descriptorWidth i)

theorem autoLockCheck_grammarLegal (s : State) (h : GrammarLegal s) : GrammarLegal (autoLockCheck Config.params s) := by
  obtain heq | ⟨-, -, st, heq⟩ := autoLockCheck_cases Config.params s <;> rw [heq]
  · exact h
  · exact sessionClear_grammarLegal s h

theorem EngineStep.keeps_grammarLegal {s t : State} (h : EngineStep s t) (hs : GrammarLegal s) : GrammarLegal t := by
  cases h with
  | hold => exact hs
  | halt =>
    obtain ⟨-, hvalid, hj⟩ := hs
    exact ⟨fun hrun => (by cases hrun), hvalid, hj⟩
  | field _ hf => exact hf.keeps_grammarLegal hs
  | sym _ =>
    obtain ⟨d, fault, -, hpush⟩ := symPush_eq_dbPush Config.env s
    rw [symStep, hpush]
    exact autoLockCheck_grammarLegal _ hs

theorem CommandEffect.keeps_grammarLegal {s t : State} (h : CommandEffect s t) (hs : GrammarLegal s) :
    GrammarLegal t := by
  cases h with
  | reset => exact sessionClear_grammarLegal s hs
  | locked st _ => exact sessionClear_grammarLegal s hs
  | unlocked => exact sessionClear_grammarLegal s hs
  | startFailed fault hhalted _ => exact grammarLegal_of_unvalidated hhalted rfl hs.2.2
  | registerWritten ctrl _ _ _ _ _ hhalted _ => exact grammarLegal_of_unvalidated hhalted rfl hs.2.2
  | grammarWritten a v hhalted => exact grammarLegal_of_unvalidated hhalted rfl hs.2.2
  | started hhalted hgrammar hconfig =>
    obtain ⟨-, hvalid, hj⟩ := hs
    split
    · next hgvalid => exact ⟨fun _ => rfl, fun _ => hvalid hgvalid, hj⟩
    · exact ⟨fun _ => rfl, fun _ => ⟨hgrammar, hconfig, gNfield_pos_of_grammarOk hgrammar⟩, show 0 < 6 by decide⟩
  | _ => exact hs

theorem reset_grammarLegal : GrammarLegal State.reset := grammarLegal_of_unvalidated rfl rfl (by decide)

/-! ### The configuration -/

/-- Grammar memory and the configuration registers of a state. -/
def configView (s : State) : Mem Word × Word × Word × Word × Word × Word × BitVec 8 :=
  (s.gm, s.ctrl, s.thCenter, s.thUmid, s.thLmid, s.thBand, s.sliceMap)

/-- The engine writes neither grammar memory nor a configuration register (rule R92). -/
theorem EngineStep.configView_eq {s t : State} (h : EngineStep s t) : configView t = configView s := by
  cases h with
  | hold => rfl
  | halt => rfl
  | field _ hf =>
    obtain ⟨b, hb, rfl⟩ := hf.advances
    exact (congrArg configView hb :)
  | sym _ =>
    obtain ⟨d, fault, -, hpush⟩ := symPush_eq_dbPush Config.env s
    rw [symStep, hpush]
    obtain heq | ⟨-, -, st, heq⟩ := autoLockCheck_cases Config.env.params _ <;> rw [heq] <;> rfl

/-- The commands that write grammar memory or a configuration register write nothing unless the engine is halted (rules R92,
R152, R154). -/
theorem CommandEffect.configView_eq {s t : State} (h : CommandEffect s t) (hrun : s.halted = false) :
    configView t = configView s := by
  cases h with
  | registerWritten _ _ _ _ _ _ hhalted _ => exact absurd (hrun.symm.trans hhalted) (by decide)
  | grammarWritten _ _ hhalted => exact absurd (hrun.symm.trans hhalted) (by decide)
  | started hhalted _ _ => exact absurd (hrun.symm.trans hhalted) (by decide)
  | _ => rfl

/-! ### The dibit buffer's invariant -/

/-- At this hardware's pointer width the count of buffered dibits is the plain difference of the pointers. -/
@[simp] theorem avail_params (s : State) : avail Config.params s = (s.wp - s.rp).toNat := by simp [avail]

theorem toNat_sub_sub_self (p q : Pointer) : (p - (p - q)).toNat = q.toNat := by
  rw [sub_sub_cancel]

/-- A push keeps the buffer's invariant where a locked engine's buffer has room (rules R73, R74). -/
theorem dbPush_bufferLegal {s : State} (h : BufferLegal s) (hroom : s.locked = true → (s.wp - s.rp).toNat < 512)
    (d : Dibit) (a : Word) : BufferLegal (dbPush Config.params d a s) := by
  obtain ⟨hcap, havail, hunlocked, hwritten⟩ := h
  rw [avail_params] at havail
  rw [Config.params_dbufCap] at hcap
  have hvalid : (dbPush Config.params d a s).dbValid.toNat = min (s.dbValid.toNat + 1) 512 := by
    rw [dbPush_dbValid, BitVec.toNat_ofNat, Config.params_dbufCap]
    omega
  refine ⟨?_, ?_, fun hlocked => ?_, fun k hk hle => ?_⟩
  · rw [hvalid]
    exact Nat.min_le_right ..
  · rw [avail_params, hvalid, dbPush_wp, dbPush_rp]
    cases hlocked : s.locked with
    | false => simp
    | true =>
      have hlt := hroom hlocked
      have hmore : (s.wp + 1 - s.rp).toNat = (s.wp - s.rp).toNat + 1 := by
        rw [add_sub_right_comm]
        exact BitVec.toNat_add_of_lt (show (s.wp - s.rp).toNat + 1 < 2 ^ 32 by omega)
      rw [if_pos rfl, ptrWrap_params, hmore]
      omega
  · rw [dbPush_locked] at hlocked
    rw [dbPush_rp, dbPush_wp, hlocked]
    rfl
  · obtain ⟨m, rfl⟩ : ∃ m, k = m + 1 := ⟨k - 1, by omega⟩
    have hback : s.wp + 1 - BitVec.ofNat 32 (m + 1) = s.wp - BitVec.ofNat 32 m := by
      rw [BitVec.ofNat_add]
      exact add_sub_add_right_eq_sub ..
    rw [dbPush_wp, ptrWrap_params, hback, dbPush_dbuf, memRead_memWrite]
    split
    · rfl
    · next hother =>
      have hm : m ≠ 0 := by
        rintro rfl
        simp at hother
      exact hwritten m (by omega) (by omega)

/-- Locking keeps the buffer's invariant where the buffer reaches back over `LOOKBACK` (rules R145, R323). -/
theorem lockOn_bufferLegal {s : State} (h : BufferLegal s) (hreach : gLookback s.gm ≤ s.dbValid.toNat) (st : BitVec 4) :
    BufferLegal (lockOn Config.params st s) := by
  obtain ⟨hcap, -, -, hwritten⟩ := h
  refine ⟨hcap, ?_, fun hunlocked => (by cases hunlocked), hwritten⟩
  rw [avail_params, lockOn_wp, lockOn_rp, ptrWrap_params, toNat_sub_sub_self, BitVec.toNat_ofNat]
  exact (Nat.mod_le _ _).trans hreach

/-- Unlocking drops what was buffered, so that the pointers agree (rules R32, R322). -/
theorem unlockProc_bufferLegal {s : State} (h : BufferLegal s) : BufferLegal (unlockProc s) := by
  obtain ⟨hcap, -, -, hwritten⟩ := h
  refine ⟨hcap, ?_, fun _ => rfl, hwritten⟩
  simp

/-- An emptied buffer asks nothing of its entries. -/
theorem bufferLegal_of_empty {s : State} (hvalid : s.dbValid = 0) (hptr : s.rp = s.wp) : BufferLegal s := by
  refine ⟨by simp [hvalid], by simp [hptr], fun _ => hptr, fun k hk hle => ?_⟩
  rw [hvalid] at hle
  exact absurd (hk.trans hle) (by decide)

/-- `Advance` takes the dibits of its field from what was buffered (rules R32, R240). -/
theorem advance_bufferLegal {s : State} (h : BufferLegal s) (hlocked : s.locked = true) {w : BitVec 10}
    (hw : w.toNat ≤ (s.wp - s.rp).toNat) : BufferLegal (advance Config.params w s) := by
  obtain ⟨hcap, havail, -, hwritten⟩ := h
  rw [avail_params] at havail
  refine ⟨hcap, ?_, fun hunlocked => ?_, hwritten⟩
  · rw [avail_params, advance_wp, advance_rp, ptrWrap_params, advance_dbValid, ← sub_sub]
    have hle : w.setWidth 32 ≤ s.wp - s.rp := by
      rw [BitVec.le_def, BitVec.toNat_setWidth]
      omega
    rw [BitVec.toNat_sub_of_le hle]
    omega
  · rw [advance_locked, hlocked] at hunlocked
    cases hunlocked

theorem FieldStep.keeps_bufferLegal {s t : State} {i : Instr} (hr : FieldRuns s i) (h : FieldStep s i t)
    (hs : BufferLegal s) : BufferLegal t := by
  obtain ⟨b, hb, rfl⟩ := h.advances
  have hframe : BufferLegal (fieldFrame b) := hb ▸ hs
  have hlocked : (fieldFrame b).locked = true := hb ▸ hr.locked
  have hwidth : (descriptorWidth i).toNat ≤ ((fieldFrame b).wp - (fieldFrame b).rp).toNat := by
    rw [(decodeDescriptor_ok hr.decoded).2, hb]
    exact hr.available.trans (avail_params s).le
  exact advance_bufferLegal (s := b) hframe hlocked hwidth

/-- An engine that takes a sample while it is locked has room for it: its field, which the buffer holds, is not yet complete
(rules R74, R210, check G7). -/
theorem SampleRuns.room {s : State} (hr : SampleRuns s) (h : GrammarLegal s) (hlocked : s.locked = true) :
    (s.wp - s.rp).toNat < 512 := by
  obtain ⟨hrun, hvalid, -⟩ := h
  obtain ⟨hgrammar, -, hf⟩ := hvalid (hrun hr.notHalted)
  have hshort := hr.short hlocked
  rw [avail_params] at hshort
  exact hshort.trans_le (descW_le_of_grammarOk hgrammar hf)

theorem symPush_bufferLegal {s : State} (hr : SampleRuns s) (hg : GrammarLegal s) (h : BufferLegal s) :
    BufferLegal (symPush Config.env s) := by
  obtain ⟨d, fault, -, hpush⟩ := symPush_eq_dbPush Config.env s
  rw [hpush]
  exact dbPush_bufferLegal (s := { inAdvance s with fault := fault }) h (hr.room hg) d (inHead s)

theorem EngineStep.keeps_bufferLegal {s t : State} (h : EngineStep s t) (hg : GrammarLegal s) (hs : BufferLegal s) :
    BufferLegal t := by
  cases h with
  | hold => exact hs
  | halt => exact hs
  | field hr hf => exact hf.keeps_bufferLegal hr hs
  | sym hr =>
    have hpushed := symPush_bufferLegal hr hg hs
    rw [symStep]
    obtain heq | ⟨-, hreach, st, heq⟩ := autoLockCheck_cases Config.env.params (symPush Config.env s) <;> rw [heq]
    · exact hpushed
    · exact lockOn_bufferLegal hpushed hreach st

theorem CommandEffect.keeps_bufferLegal {s t : State} (h : CommandEffect s t) (hs : BufferLegal s) : BufferLegal t := by
  cases h with
  | reset => exact bufferLegal_of_empty rfl rfl
  | locked st hreach => exact lockOn_bufferLegal hs hreach st
  | unlocked => exact unlockProc_bufferLegal hs
  | started _ _ _ =>
    split
    · exact hs
    · exact unlockProc_bufferLegal hs
  | _ => exact hs

theorem reset_bufferLegal : BufferLegal State.reset := bufferLegal_of_empty rfl rfl

/-- The last `n` entries of the buffer, from the oldest on, hold values where `n` of them are valid (rules R33, R72). -/
theorem BufferLegal.isSome_lastEntries {s : State} (h : BufferLegal s) {n k : Nat} (hn : n ≤ s.dbValid.toNat) (hk : k < n) :
    (memRead s.dbuf (dbIndex Config.params (s.wp - BitVec.ofNat 32 n + BitVec.ofNat 32 k))).isSome = true := by
  have hback : s.wp - BitVec.ofNat 32 n + BitVec.ofNat 32 k = s.wp - BitVec.ofNat 32 (n - k) := by
    obtain ⟨m, rfl⟩ := Nat.exists_eq_add_of_le hk.le
    rw [Nat.add_sub_cancel_left, BitVec.ofNat_add, sub_add_eq_sub_sub_swap, sub_add_cancel]
  obtain ⟨-, -, -, hwritten⟩ := h
  rw [hback]
  exact hwritten (n - k) (by omega) (by omega)

end Sys2Proof.Machine

open Sys2Proof Sys2Proof.Machine

/-- Settles O46: START validates, a write to grammar or configuration invalidates, `Advance` stays within the pass. -/
theorem stepKeepsGrammar : Obligations.StepKeepsGrammar := fun _ _ hs h =>
  step_keeps (I := GrammarLegal) (fun _ _ _ hs => hs) (fun _ _ hs he => he.keeps_grammarLegal hs)
    (fun _ _ hs hc => hc.keeps_grammarLegal hs) (fun _ => reset_grammarLegal) hs h

/-- Settles O47, together with the grammar's invariant, which bounds the field a locked engine waits for. -/
theorem stepKeepsBuffer : Obligations.StepKeepsBuffer := fun _ _ hg hs h =>
  (step_keeps (I := fun s => GrammarLegal s ∧ BufferLegal s) (fun _ _ _ hs => hs)
    (fun _ _ hs he => ⟨he.keeps_grammarLegal hs.1, he.keeps_bufferLegal hs.1 hs.2⟩)
    (fun _ _ hs hc => ⟨hc.keeps_grammarLegal hs.1, hc.keeps_bufferLegal hs.2⟩)
    (fun _ => ⟨reset_grammarLegal, reset_bufferLegal⟩) ⟨hg, hs⟩ h).2

/-- Settles O52: each entry that a step reads lies where an invariant says that the storage holds a value. -/
theorem noUnwrittenEntryRead : Obligations.NoUnwrittenEntryRead := by
  intro s
  refine ⟨fun i hs hchoice k hk => ?_, fun hs hchoice => ?_, fun hg hs hchoice hunlocked hauto hsync hreach k hk => ?_,
    fun p c hs hfull => ?_⟩
  · have hrange := (fieldRuns_of_engineChoice hchoice).available
    have hstart : s.rp = s.wp - BitVec.ofNat 32 (s.wp - s.rp).toNat := by
      rw [BitVec.ofNat_toNat, BitVec.setWidth_eq, sub_sub_cancel]
    rw [avail_params] at hrange
    rw [hstart]
    exact hs.isSome_lastEntries ((avail_params s).ge.trans hs.2.1) (hk.trans_le hrange)
  · obtain ⟨hoff, -, -, hin, -⟩ := hs
    exact hin _ (hoff.resolve_right fun hempty => (sampleRuns_of_engineChoice hchoice).ready hempty.1)
  · have hr := sampleRuns_of_engineChoice hchoice
    obtain ⟨hgrammar, -, -⟩ := hg.2.1 (hg.1 hr.notHalted)
    have hgm : (symPush Config.env s).gm = s.gm := by
      obtain ⟨d, fault, -, hpush⟩ := symPush_eq_dbPush Config.env s
      rw [hpush]
      rfl
    have hword : gSyncw (symPush Config.env s).gm ≤ gLookback (symPush Config.env s).gm := by
      obtain ⟨f, hf, hkind⟩ := hsync
      refine gSyncw_le_gLookback (P := Config.params) (hgm.symm ▸ hgrammar) ⟨f, hf, ?_⟩
      simpa [isSyncWord, descKind, bits] using hkind
    exact (symPush_bufferLegal hr hg hs).isSome_lastEntries (hword.trans hreach) hk
  · obtain ⟨-, hidx, -, -, -, hval, hmean⟩ := hs.1 p c
    rw [hval, hmean, hfull, decide_eq_true_eq]
    exact ⟨hidx, hidx⟩

/-- Settles O54: the engine never writes them, and the commands that do need a halted engine. -/
theorem grammarFixedWhileRunning : Obligations.GrammarFixedWhileRunning := by
  intro s t h hagent hrun
  have hview : configView t = configView s := by
    obtain ⟨-, he⟩ | ⟨wsP, wsQ, hc⟩ | ⟨hpor, -⟩ := step_turns h
    · exact he.configView_eq
    · exact hc.configView_eq hrun
    · exact absurd hpor hagent
  simpa only [configView, Prod.mk.injEq] using hview

/-- Settles O49: the reset state lists no entry, clears the classifier, halts the engine and empties the channels. -/
theorem resetMeetsInvariants : Obligations.ResetMeetsInvariants :=
  ⟨⟨nil_wf _, nil_wf _, nil_wf _, nil_wf _⟩, classifierLegal_of_cleared rfl rfl, reset_channelsLegal, reset_grammarLegal,
    reset_bufferLegal, reset_codesLegal⟩
end

section
/-!
SUPPORT. The storages' invariant (rules R70, R73, R148, R154) and the record that waits (rules R78, R212): which storage each
engine step and each command writes, and under which conditions.
-/
namespace Sys2Proof.Machine

/-! ### What writes which storage -/

/-- A descriptor writes neither the dibit buffer, nor the input buffer, nor grammar memory. -/
theorem FieldStep.storages {s t : State} {i : Instr} (h : FieldStep s i t) :
    t.dbuf = s.dbuf ∧ t.inBuf = s.inBuf ∧ t.gm = s.gm := by
  obtain ⟨b, hb, rfl⟩ := h.advances
  exact ⟨(congrArg State.dbuf hb :), (congrArg State.inBuf hb :), (congrArg State.gm hb :)⟩

/-- The output slot's storage after a descriptor: as it was, or a voice record written to it by a VOICE with `LAST = 1` of an
engine that forwards (rule R234). -/
theorem FieldStep.outRec_cases {s t : State} {i : Instr} (h : FieldStep s i t) :
    (t.outRec = s.outRec ∧ t.outOff = s.outOff)
      ∨ (∃ prot base w, i = .voice prot true base w) ∧ s.muted = false ∧ s.firstframe = false
        ∧ ∃ b, t.outRec = memLoad s.outRec (voiceRecord b) := by
  obtain hsame | ⟨prot, base, w, hi, hforward⟩ | ⟨-, -, k, -, -, hmatched⟩ := h.gate
  · obtain ⟨hrec, -, hoff, -⟩ := (gateView_eq_iff s t).mp hsame
    exact .inl ⟨hrec, hoff⟩
  · obtain ⟨b, -, hview⟩ := hforward.record
    obtain ⟨hrec, -⟩ := (gateView_eq_iff _ t).mp hview
    exact .inr ⟨⟨prot, base, w, hi⟩, hforward.unmuted, hforward.notFirst, b, hrec⟩
  · obtain ⟨hrec, -, hoff, -⟩ := (gateView_eq_iff _ t).mp hmatched
    exact .inl ⟨hrec.trans (syncMatched_outRec k s), hoff.trans (syncMatched_outOff k s)⟩

/-- The sample step writes one entry of the dibit buffer and no other storage (rule R170). -/
theorem symStep_storages (s : State) :
    (∃ e, (symStep Config.env s).dbuf = memWrite s.dbuf (dbIndex Config.params s.wp) e)
      ∧ (symStep Config.env s).inBuf = s.inBuf ∧ (symStep Config.env s).outRec = s.outRec
      ∧ (symStep Config.env s).outOff = s.outOff ∧ (symStep Config.env s).gm = s.gm := by
  obtain ⟨d, fault, -, hpush⟩ := symPush_eq_dbPush Config.env s
  rw [symStep, hpush]
  obtain heq | ⟨-, -, st, heq⟩ := autoLockCheck_cases Config.env.params _ <;> rw [heq] <;>
    exact ⟨⟨_, rfl⟩, rfl, rfl, rfl, rfl⟩

/-! ### The storages' invariant -/

/-- A pointer names an entry of the dibit buffer (rule R71). -/
theorem dbIndex_params_lt (p : Pointer) : dbIndex Config.params p < Config.params.dbufCap := Nat.mod_lt _ (by decide)

theorem EngineStep.keeps_storagesCanonical {s t : State} (h : EngineStep s t) (hs : StoragesCanonical s) :
    StoragesCanonical t := by
  cases h with
  | hold => exact hs
  | halt => exact hs
  | sym _ =>
    obtain ⟨hdbuf, hin, hout, hgm⟩ := hs
    obtain ⟨⟨e, hpushed⟩, hin', hout', -, hgm'⟩ := symStep_storages s
    unfold StoragesCanonical
    rw [hpushed, hin', hout', hgm']
    exact ⟨memWrite_wf e hdbuf (dbIndex_params_lt s.wp), hin, hout, hgm⟩
  | field _ hf =>
    obtain ⟨hdbuf, hin, hout, hgm⟩ := hs
    obtain ⟨hdbuf', hin', hgm'⟩ := hf.storages
    have hrec : Mem.wf 5 t.outRec := by
      obtain ⟨hsame, -⟩ | ⟨-, -, -, b, hloaded⟩ := hf.outRec_cases
      · exact hsame ▸ hout
      · exact hloaded ▸ memLoad_wf hout (le_refl (voiceRecord b).length)
    exact ⟨hdbuf' ▸ hdbuf, hin' ▸ hin, hrec, hgm' ▸ hgm⟩

theorem CommandEffect.keeps_storagesCanonical {s t : State} (h : CommandEffect s t) (hs : StoragesCanonical s) :
    StoragesCanonical t := by
  obtain ⟨hdbuf, hin, hout, hgm⟩ := hs
  cases h with
  | reset => exact ⟨nil_wf _, nil_wf _, nil_wf _, hgm⟩
  | started _ _ _ => split <;> exact ⟨hdbuf, hin, hout, hgm⟩
  | submitted samples hfits _ => exact ⟨hdbuf, memLoad_wf hin hfits, hout, hgm⟩
  | grammarWritten a v _ => exact ⟨hdbuf, hin, hout, memWrite_wf v hgm a.isLt⟩
  | _ => exact ⟨hdbuf, hin, hout, hgm⟩

theorem reset_storagesCanonical : StoragesCanonical State.reset := ⟨nil_wf _, nil_wf _, nil_wf _, nil_wf _⟩

/-! ### The waiting record -/

/-- A VOICE that would forward a frame waits while a record stands in the output slot, so an engine's turn never overwrites
one (rule R212). -/
theorem EngineStep.keeps_waiting_record {s t : State} (h : EngineStep s t) (hs : s.outLen = 1) :
    t.outRec = s.outRec ∧ t.outOff = s.outOff := by
  cases h with
  | hold => exact ⟨rfl, rfl⟩
  | halt => exact ⟨rfl, rfl⟩
  | sym _ =>
    obtain ⟨-, -, hrec, hoff, -⟩ := symStep_storages s
    exact ⟨hrec, hoff⟩
  | field hr hf =>
    obtain hsame | ⟨⟨prot, base, w, rfl⟩, hunmuted, hnotFirst, -⟩ := hf.outRec_cases
    · exact hsame
    · have hheld : descriptorHeld (.voice prot true base w) s = true := by
        simp [descriptorHeld, emitHeld, hunmuted, hnotFirst, hs]
      exact absurd (hr.notHeld.symm.trans hheld) (by decide)

/-- A command that leaves a record in the output slot leaves the record (rules R141, R157). -/
theorem CommandEffect.keeps_waiting_record {s t : State} (h : CommandEffect s t) (ht : t.outLen = 1) :
    t.outRec = s.outRec ∧ t.outOff = s.outOff := by
  cases h with
  | reset => cases ht
  | drained ws => cases ht
  | started _ _ _ => split <;> exact ⟨rfl, rfl⟩
  | _ => exact ⟨rfl, rfl⟩

end Sys2Proof.Machine

open Sys2Proof Sys2Proof.Machine

/-- Settles O43: a push writes below `DBUF_CAP`, a record has five words, a batch and a grammar write are within their
bounds, and everything else keeps or empties the storages. -/
theorem stepKeepsStorages : Obligations.StepKeepsStorages := fun _ _ hs h =>
  step_keeps (I := StoragesCanonical) (fun _ _ _ hs => hs) (fun _ _ hs he => he.keeps_storagesCanonical hs)
    (fun _ _ hs hc => hc.keeps_storagesCanonical hs) (fun _ => reset_storagesCanonical) hs h

/-- Settles O60: the engine holds before it would overwrite a record, the commands drain it or leave it, and power-on reset
empties the slot. -/
theorem waitingRecordKept : Obligations.WaitingRecordKept := by
  intro s t h hs ht
  obtain ⟨-, he⟩ | ⟨wsP, wsQ, hc⟩ | ⟨-, rfl⟩ := step_turns h
  · exact he.keeps_waiting_record hs
  · exact hc.keeps_waiting_record ht
  · cases ht
end

section
/-!
SUPPORT. The FEC query message (rules R82 c, R127): the fields of its first word and the packing of dibits into words.
-/
namespace Sys2Proof.Machine

/-- Dibit `i` of a packed word stands at bits `2i + 1` and `2i`; past the last dibit packed the bits are 0 (rule R82 c). -/
theorem extractLsb'_packWord (ds : List Dibit) {i : Nat} (hi : i < 16) :
    (packWord ds).extractLsb' (2 * i) 2 = ds.getD i 0#2 := by
  induction ds generalizing i with
  | nil => simp [packWord]
  | cons d ds ih =>
    have hcons : packWord (d :: ds) = (packWord ds <<< 2) ||| d.setWidth 32 := rfl
    rw [hcons]
    apply BitVec.eq_of_getLsbD_eq
    intro b hb
    cases i with
    | zero =>
      have hword : b < 32 := by omega
      simp [hb, hword]
    | succ i =>
      have hpast : 2 ≤ 2 * (i + 1) + b := by omega
      have hword : 2 * (i + 1) + b < 32 := by omega
      have hback : 2 * (i + 1) + b - 2 = 2 * i + b := by omega
      rw [List.getD_cons_succ, ← ih (by omega)]
      simp only [BitVec.getLsbD_extractLsb', BitVec.getLsbD_or, BitVec.getLsbD_shiftLeft, BitVec.getLsbD_setWidth,
        BitVec.getLsbD_of_ge d _ hpast, hback, hb, hword, hpast.not_gt, decide_true, decide_false, Bool.not_false,
        Bool.true_and, Bool.and_false, Bool.or_false]

theorem length_packDibits (ds : List Dibit) : (packDibits ds).length = (ds.length + 15) / 16 := by
  simp [packDibits]

/-- Dibit `i` of packed dibits stands at place `i mod 16` of word `i / 16` (rule R82 c). -/
theorem packDibits_dibit (ds : List Dibit) {i : Nat} (hi : i < 16 * (packDibits ds).length) :
    ∃ w, (packDibits ds)[i / 16]? = some w ∧ w.extractLsb' (2 * (i % 16)) 2 = ds.getD i 0#2 := by
  have hword : i / 16 < (ds.length + 15) / 16 := by
    rw [length_packDibits] at hi
    omega
  have hplace : i % 16 < 16 := Nat.mod_lt i (by decide)
  refine ⟨packWord ((ds.drop (16 * (i / 16))).take 16), ?_, ?_⟩
  · simp [packDibits, hword]
  · rw [extractLsb'_packWord _ hplace, List.getD_eq_getElem?_getD, List.getElem?_take_of_lt hplace, List.getElem?_drop,
      Nat.div_add_mod, List.getD_eq_getElem?_getD]

/-- The six bit groups of a query's first word, each read back where it stands (rule R127). -/
theorem queryHeader_fields (kind : BitVec 4) (j : BitVec 3) (f : BitVec 7) (w : BitVec 10) :
    let h : Word := kind ++ j ++ 0#2 ++ f ++ 0#6 ++ w
    h.extractLsb' 28 4 = kind ∧ h.extractLsb' 25 3 = j ∧ h.extractLsb' 23 2 = 0#2 ∧ h.extractLsb' 16 7 = f
      ∧ h.extractLsb' 10 6 = 0#6 ∧ h.extractLsb' 0 10 = w := by
  -- each group lies above the groups it drops and fills the lowest bits of what is left
  refine ⟨?_, ?_, ?_, ?_, ?_, ?_⟩ <;>
    simp (disch := decide) only [BitVec.extractLsb'_append_eq_of_le, BitVec.extractLsb'_append_eq_of_add_le,
      Nat.reduceSub, BitVec.extractLsb'_eq_self]

end Sys2Proof.Machine

open Sys2Proof Sys2Proof.Machine

/-- Settles O42: the first word's fields one by one, the words after it by `packDibits_dibit`. -/
theorem fecQueryMessage : Obligations.FecQueryMessage := by
  intro q hlen
  obtain ⟨hkind, hj, hzero, hf, hzero', hw⟩ := queryHeader_fields q.kind q.j q.f (BitVec.ofNat 10 q.raw.length)
  refine ⟨_, _, rfl, hkind, hj, hzero, hf, hzero', ?_, length_packDibits q.raw, fun i hi => packDibits_dibit q.raw hi⟩
  rw [hw, BitVec.toNat_ofNat]
  exact Nat.mod_eq_of_lt hlen
end

section
/-!
SUPPORT. The sample step (rules R73, R76, R170 to R176): when the engine selects it, which dibit it pushes, and the state up to
the sync detector.
-/
namespace Sys2Proof.Machine

/-- The engine takes a sample in every state that `SampleRuns` describes (rule R210). -/
theorem engineChoice_eq_sym {s : State} (h : SampleRuns s) : engineChoice Config.params s = .sym := by
  have hfield : (s.locked && decide (descW (gField s.gm s.f.toNat) ≤ avail Config.params s)) = false := by
    cases hlocked : s.locked with
    | false => rfl
    | true => simpa using h.short hlocked
  rw [engineChoice, h.notHalted, hfield]
  exact if_pos h.ready

/-- The step of an engine's turn that takes a sample (rule R170). -/
theorem step_of_sampleRuns {s : State} {ts : List Agent} (hturn : s.turns = .engine :: ts) (h : SampleRuns s) :
    step s = .next (autoLockCheck Config.params (symPush Config.env (takeTurn s))) := by
  have hagent : nextAgent Config.params s = .engine := by rw [nextAgent, hturn]
  have hchoice : engineChoice Config.params (takeTurn s) = .sym :=
    engineChoice_eq_sym (s := takeTurn s) ⟨h.notHalted, h.ready, h.short⟩
  have hfetch : fetch Config.env s = .done (symStep Config.env (takeTurn s)) := by
    rw [fetch, Config.env_params, hagent, fetchFor, fetchEngine, Config.env_params, hchoice]
  rw [step, hfetch]
  rfl

/-- A sample is ambiguous where the band is infinite or holds one of the thresholds (rule R174). -/
theorem ambiguous_iff (q : BitVec 23) (s : State) (v : Word) :
    ambiguous q s v = true ↔
      s.thBand = 0x7F800000#32 ∨ flt (fabs (fsub q v s.thLmid)) s.thBand = true
        ∨ flt (fabs (fsub q v s.thCenter)) s.thBand = true ∨ flt (fabs (fsub q v s.thUmid)) s.thBand = true := by
  simp [ambiguous]

/-- `FAULT` after a sample: BADSAMPLE is set where the sample is a NaN or an infinity (rules R170, R171). -/
def sampleFault (s : State) (v : Word) : BitVec 8 :=
  if f32IsFinite v then s.fault else setBitTo s.fault (faultBit .badsample) true

theorem getLsbD_sampleFault (s : State) (v : Word) (k : Nat) :
    (sampleFault s v).getLsbD k = (s.fault.getLsbD k || (decide (k = 4) && !f32IsFinite v)) := by
  unfold sampleFault
  split
  · next hfinite => simp [hfinite]
  · next hbad =>
    rw [getLsbD_setBitTo _ _ _ _ (by decide)]
    by_cases hk : k = 4 <;> simp [faultBit, hk, hbad]

/-- SYM up to the detector: the classification reads nothing that taking the sample writes (rules R73, R76, R170). -/
theorem symPush_eq (env : Env) (s : State) :
    symPush env s =
      dbPush env.params (classify env s (inHead s)) (inHead s)
        { inAdvance s with fault := sampleFault s (inHead s) } := by
  unfold symPush sampleFault
  dsimp only
  split <;> rfl

/-- `DbPush` at this hardware's widths (rule R73). -/
theorem dbPush_params (d : Dibit) (a : Word) (s : State) :
    dbPush Config.params d a s =
      { s with
        dbuf := memWrite s.dbuf (s.wp.toNat % 512) { d := d, a := a }
        wp := s.wp + 1
        dbValid := BitVec.ofNat 32 (min (s.dbValid.toNat + 1) 512)
        lastDibit := d
        rp := if s.locked then s.rp else s.wp + 1 } := by
  simp [dbPush, dbIndex]

theorem inHead_of_memRead {s : State} {v : Word} (h : memRead s.inBuf s.inOff.toNat = some v) : inHead s = v := by
  simp [inHead, h]

end Sys2Proof.Machine

open Sys2Proof Sys2Proof.Machine

/-- Settles O33: the selection by `step_of_sampleRuns`, the state before the detector by `symPush_eq` and `dbPush_params`. -/
theorem sampleStep : Obligations.SampleStep := by
  intro s ts v hturn hrun hfield hready hv
  have hsample : SampleRuns s := by
    refine ⟨hrun, hready, fun hlocked => ?_⟩
    rw [avail_params]
    exact hfield.resolve_left (by simp [hlocked])
  have hhead : inHead (takeTurn s) = v := inHead_of_memRead hv
  have hturns : (takeTurn s).turns = ts := by rw [takeTurn_turns, hturn]; rfl
  have hpush := symPush_eq Config.env (takeTurn s)
  rw [hhead, Config.env_params, dbPush_params] at hpush
  refine ⟨symPush Config.env (takeTurn s), classify Config.env (takeTurn s) v, drawNan Config.env s.nanDraws 15,
    step_of_sampleRuns hturn hsample, ?_, fun a => ?_, ?_, fun k _ => ?_, ?_⟩
  · rw [hpush, ← hturns]
    rfl
  · rw [hpush]
    exact memRead_memWrite ..
  · rw [hpush]
    exact Nat.mod_eq_of_lt (by omega)
  · rw [hpush]
    exact getLsbD_sampleFault (takeTurn s) v k
  · split
    · next h => exact if_pos ((ambiguous_iff _ s v).mpr h)
    · next h => exact if_neg (mt (ambiguous_iff _ s v).mp h)
end

section
/-!
SUPPORT. Masked words bit by bit, and the words of commands and descriptors taken apart into their fields (rules R101, R102,
R106): what makes a word the encoder's word.
-/
namespace Sys2Proof.Machine

/-! ### Masks -/

/-- A mask test asks for zeros in the bits that the mask has. -/
theorem and_eq_zero_iff (w m : Word) : w &&& m = 0#32 ↔ ∀ i < 32, m.getLsbD i = true → w.getLsbD i = false := by
  constructor
  · intro h i _ hm
    have hbit := congrArg (BitVec.getLsbD · i) h
    simpa [hm] using hbit
  · intro h
    apply BitVec.eq_of_getLsbD_eq
    intro i hi
    cases hm : m.getLsbD i with
    | false => simp [hm]
    | true => simp [h i hi hm]

/-- A mask that covers ranges of bits asks for zeros in those ranges. -/
theorem and_eq_zero_iff_zeroBits {w m : Word} (ranges : List (Nat × Nat))
    (hm : ∀ i < 32, m.getLsbD i = ranges.any fun r => decide (r.1 ≤ i ∧ i ≤ r.2)) :
    w &&& m = 0#32 ↔ ranges.Forall fun r => ZeroBits w r.1 r.2 := by
  rw [and_eq_zero_iff, List.forall_iff_forall_mem]
  constructor
  · intro h r hr i hlo hhi
    by_cases hi : i < 32
    · refine h i hi ?_
      rw [hm i hi, List.any_eq_true]
      exact ⟨r, hr, decide_eq_true ⟨hlo, hhi⟩⟩
    · exact BitVec.getLsbD_of_ge w i (Nat.not_lt.mp hi)
  · intro h i hi hbit
    rw [hm i hi, List.any_eq_true] at hbit
    obtain ⟨r, hr, hin⟩ := hbit
    obtain ⟨hlo, hhi⟩ := of_decide_eq_true hin
    exact h r hr i hlo hhi

/-- A match and mask pair that fixes the bits from `lo` on asks for those bits and for zeros where the rest of the mask is
set. -/
theorem and_eq_shiftLeft_iff {w m z : Word} {lo n : Nat} (k : BitVec n) (hlo : lo + n = 32)
    (hm : ∀ i < 32, m.getLsbD i = (decide (lo ≤ i) || z.getLsbD i))
    (hz : ∀ i < 32, lo ≤ i → z.getLsbD i = false) :
    w &&& m = k.setWidth 32 <<< lo ↔ bits w lo n = k ∧ w &&& z = 0#32 := by
  have hbit (h : w &&& m = k.setWidth 32 <<< lo) : ∀ i < 32,
      (w.getLsbD i && (decide (lo ≤ i) || z.getLsbD i)) = (!decide (i < lo) && k.getLsbD (i - lo)) := by
    intro i hi
    have hword := congrArg (BitVec.getLsbD · i) h
    simp only [BitVec.getLsbD_and, hm i hi] at hword
    simpa [hi, show i - lo < 32 by omega] using hword
  constructor
  · intro h
    refine ⟨BitVec.eq_of_getLsbD_eq fun i hi => ?_, (and_eq_zero_iff w z).mpr fun i hi hzi => ?_⟩
    · simpa [bits, hi] using hbit h (lo + i) (by omega)
    · have hlow : i < lo := by
        by_contra hge
        rw [hz i hi (Nat.not_lt.mp hge)] at hzi
        cases hzi
      simpa [hzi, hlow] using hbit h i hi
  · rintro ⟨rfl, hzero⟩
    rw [and_eq_zero_iff] at hzero
    apply BitVec.eq_of_getLsbD_eq
    intro i hi
    by_cases hge : lo ≤ i
    · simp [hm i hi, hi, hge, bits, show i - lo < n by omega, Nat.not_lt.mpr hge]
    · cases hzi : z.getLsbD i with
      | false => simp [hm i hi, hge, hzi, Nat.not_le.mp hge]
      | true => simp [hzero i hi hzi, Nat.not_le.mp hge]

theorem zeroBits_iff_bits {w : Word} {lo hi : Nat} (n : Nat) (h : hi + 1 = lo + n) :
    ZeroBits w lo hi ↔ bits w lo n = 0#n := by
  constructor
  · intro hzero
    apply BitVec.eq_of_getLsbD_eq
    intro i hi
    simpa [bits, hi] using hzero (lo + i) (by omega) (by omega)
  · intro hzero i hlo hhi
    have hbit := congrArg (BitVec.getLsbD · (i - lo)) hzero
    simpa [bits, show i - lo < n by omega, Nat.add_sub_cancel' hlo] using hbit

theorem zeroBits_single (w : Word) (i : Nat) : ZeroBits w i i ↔ w.getLsbD i = false :=
  ⟨fun h => h i le_rfl le_rfl, fun h _ hlo hhi => Nat.le_antisymm hhi hlo ▸ h⟩

/-! ### Fields -/

/-- A word is the command word of an opcode and an `n`-bit operand where its fields are these and the bits between are 0 (rule
R101). -/
theorem eq_commandWord_iff (w : Word) (opc : BitVec 8) {n : Nat} (hn : n ≤ 24) (x : BitVec n) :
    w = commandWord opc (x.setWidth 24) ↔ bits w 24 8 = opc ∧ ZeroBits w n 23 ∧ bits w 0 n = x := by
  constructor
  · rintro rfl
    refine ⟨bits_commandWord_opc .., fun i hlo hhi => ?_, ?_⟩
    · rw [commandWord, BitVec.getLsbD_append, if_pos (by omega), BitVec.getLsbD_setWidth, BitVec.getLsbD_of_ge x i hlo,
        Bool.and_false]
    · rw [bits_commandWord_low _ _ n hn, BitVec.setWidth_setWidth_of_le _ hn, BitVec.setWidth_eq]
  · rintro ⟨rfl, hzero, rfl⟩
    apply BitVec.eq_of_getLsbD_eq
    intro i hi
    rw [commandWord, BitVec.getLsbD_append]
    split
    next hlow =>
      by_cases hin : i < n
      · simp [bits, hin, hlow]
      · simpa [bits, hin] using hzero i (by omega) (by omega)
    next hhigh => simp [bits, show i - 24 < 8 by omega, show 24 + (i - 24) = i by omega]

/-- A word is the descriptor word of the given fields where its fields are these and the nine bits below `AUXH` are 0 (rule
R106). -/
theorem eq_descriptorWord_iff (w : Word) (kind : BitVec 4) (prot last : Bool) (aux : BitVec 6) (auxh : Bool) (x : BitVec 10) :
    w = descriptorWord kind prot last aux auxh x ↔
      bits w 28 4 = kind ∧ w.getLsbD 27 = prot ∧ w.getLsbD 26 = last ∧ bits w 20 6 = aux ∧ w.getLsbD 19 = auxh
        ∧ ZeroBits w 10 18 ∧ bits w 0 10 = x := by
  constructor
  · rintro rfl
    refine ⟨bits_descriptorWord_kind .., ?_, ?_, bits_descriptorWord_aux .., ?_, fun i hlo hhi => ?_,
      bits_descriptorWord_w ..⟩
    · exact descriptorWord_getLsbD ..
    · exact descriptorWord_getLsbD ..
    · exact descriptorWord_getLsbD ..
    · rw [descriptorWord_getLsbD, if_neg (by omega), if_pos (by omega)]
  · rintro ⟨rfl, rfl, rfl, rfl, rfl, hzero, rfl⟩
    apply BitVec.eq_of_getLsbD_eq
    intro i hi
    rw [descriptorWord_getLsbD]
    split
    next hw => simp [bits, hw]
    split
    next hgap => exact hzero i (by omega) (by omega)
    split
    next hauxh => rw [show i = 19 by omega]
    split
    next haux => simp [bits, show i - 20 < 6 by omega, show 20 + (i - 20) = i by omega]
    split
    next hlast => rw [show i = 26 by omega]
    split
    next hprot => rw [show i = 27 by omega]
    next hkind => simp [bits, show i - 28 < 4 by omega, show 28 + (i - 28) = i by omega]

end Sys2Proof.Machine
end

section
/-!
SUPPORT. Decoding of a port's words (rules R101 to R105): which words are command words, which command a command word begins and
how many words it takes; and decoding of descriptor words (rules R106, R107, R109). The statements on the encoding follow.
-/
namespace Sys2Proof.Machine

/-! ### Command words -/

/-- A row of the opcode map: an opcode, its port, and how many operand bits it uses, the lowest ones (rule R102). -/
structure CommandRow where
  opc : BitVec 8
  port : Port
  used : Nat

/-- The opcode map (rule R102). -/
def commandRows : List CommandRow :=
  [⟨0x01#8, .p, 0⟩, ⟨0x02#8, .p, 0⟩, ⟨0x03#8, .p, 0⟩, ⟨0x04#8, .p, 4⟩, ⟨0x05#8, .p, 0⟩, ⟨0x06#8, .p, 16⟩,
    ⟨0x07#8, .p, 8⟩, ⟨0x08#8, .p, 10⟩, ⟨0x10#8, .q, 0⟩, ⟨0x11#8, .q, 8⟩]

theorem opcodeRow_of_mem_commandRows :
    ∀ r ∈ commandRows, r.used ≤ 24 ∧ opcodeRow r.opc = some (r.port, ~~~(BitVec.allOnes 32 <<< r.used)) := by
  decide

theorem opcodeRow_eq_none_of_not_mem {opc : BitVec 8} (h : ∀ r ∈ commandRows, r.opc ≠ opc) : opcodeRow opc = none := by
  refine (opcodeRow_eq_none_or_mem opc).resolve_right fun hmem => ?_
  obtain ⟨r, hr, heq⟩ := List.mem_map.mp (show opc ∈ commandRows.map CommandRow.opc from hmem)
  exact h r hr heq

/-- A word has the opcode of a row and zeros in the operand bits that the row does not use (rules R102, R105). -/
def FitsRow (w : Word) (r : CommandRow) : Prop := bits w 24 8 = r.opc ∧ ZeroBits w r.used 23

theorem getLsbD_upperMask (n i : Nat) : (BitVec.allOnes 32 <<< n).getLsbD i = (decide (i < 32) && decide (n ≤ i)) := by
  rw [BitVec.getLsbD_shiftLeft, BitVec.getLsbD_allOnes, ← decide_not, ← Bool.decide_and, ← Bool.decide_and,
    ← Bool.decide_and, decide_eq_decide]
  omega

/-- The unused operand bits of a row are tested by one mask. -/
theorem unusedBits_eq_zero_iff (w : Word) (n : Nat) :
    w &&& (0x00FFFFFF#32 &&& BitVec.allOnes 32 <<< n) = 0#32 ↔ ZeroBits w n 23 := by
  have hmask : ∀ i < 32, (0x00FFFFFF#32).getLsbD i = decide (i ≤ 23) := by decide
  refine and_eq_zero_iff_zeroBits [(n, 23)] fun i hi => ?_
  rw [BitVec.getLsbD_and, hmask i hi, getLsbD_upperMask]
  simp [hi, Bool.and_comm]

/-- The match and mask pairs of the opcode table say the same as its rows (rules R102, R105). -/
theorem legalCommandWord_iff (port : Port) (w : Word) :
    LegalCommandWord port w ↔ ∃ r ∈ commandRows, r.port = port ∧ FitsRow w r := by
  have htable : commandTable =
      commandRows.map fun r => (r.port, BitVec.setWidth 32 r.opc <<< 24, BitVec.allOnes 32 <<< r.used) := by decide
  have hrow : ∀ r ∈ commandRows,
      (w &&& BitVec.allOnes 32 <<< r.used = BitVec.setWidth 32 r.opc <<< 24 ↔ FitsRow w r) := by
    intro r hr
    have hn := (opcodeRow_of_mem_commandRows r hr).1
    have hmask : ∀ i < 32, (0x00FFFFFF#32).getLsbD i = decide (i < 24) := by decide
    rw [FitsRow, ← unusedBits_eq_zero_iff]
    refine and_eq_shiftLeft_iff r.opc rfl (fun i hi => ?_) fun i hi hge => ?_
    · rw [BitVec.getLsbD_and, hmask i hi, getLsbD_upperMask]
      simp only [hi, decide_true, Bool.true_and, ← Bool.decide_and, ← Bool.decide_or, decide_eq_decide]
      omega
    · rw [BitVec.getLsbD_and, hmask i hi, decide_eq_false (Nat.not_lt.mpr hge), Bool.false_and]
  simp only [LegalCommandWord, htable, List.mem_map, exists_exists_and_eq_and]
  exact exists_congr fun r => and_congr_right fun hr => and_congr_right fun _ => hrow r hr

/-- Decoding of a word whose opcode has a row (rules R102, R105). -/
theorem decodeCommand_of_row (port : Port) {w : Word} (ws : List Word) {r : CommandRow} (hr : r ∈ commandRows)
    (hopc : bits w 24 8 = r.opc) :
    decodeCommand port (w :: ws) =
      if r.port ≠ port then .illegal (.wrongPort r.opc) ws
      else if w &&& (0x00FFFFFF#32 &&& BitVec.allOnes 32 <<< r.used) ≠ 0#32 then .illegal (.operandBitsSet r.opc) ws
      else takeCommand w ws := by
  simp only [decodeCommand, hopc, (opcodeRow_of_mem_commandRows r hr).2, BitVec.not_not, BitVec.and_assoc]

/-- A legal command word alone selects its command (rule R105). -/
theorem decodeCommand_of_fits {w : Word} {r : CommandRow} (hr : r ∈ commandRows) (hw : FitsRow w r)
    (ws : List Word) : decodeCommand r.port (w :: ws) = takeCommand w ws := by
  rw [decodeCommand_of_row _ ws hr hw.1, if_neg (not_not.mpr rfl), if_neg (not_not.mpr ((unusedBits_eq_zero_iff ..).mpr hw.2))]

/-- A word that is no command word of the port is illegal and taken alone (rules R103, R105). -/
theorem decodeCommand_of_not_legal {port : Port} {w : Word} (h : ¬ LegalCommandWord port w) (ws : List Word) :
    ∃ e, decodeCommand port (w :: ws) = .illegal e ws := by
  by_cases hrow : ∃ r ∈ commandRows, r.opc = bits w 24 8
  · obtain ⟨r, hr, hopc⟩ := hrow
    rw [decodeCommand_of_row port ws hr hopc.symm]
    split
    next => exact ⟨_, rfl⟩
    next hport =>
      rw [if_pos]
      · exact ⟨_, rfl⟩
      · intro hzero
        exact h ((legalCommandWord_iff port w).mpr
          ⟨r, hr, not_not.mp hport, hopc.symm, (unusedBits_eq_zero_iff ..).mp hzero⟩)
  · simp only [not_exists, not_and] at hrow
    rw [decodeCommand, opcodeRow_eq_none_of_not_mem hrow]
    exact ⟨_, rfl⟩

/-! ### Commands -/

/-- What decoding answers for a legal command word that asks for `dataWords w` data words: the command that is encoded as the
word and its data words, or, where they have not all arrived, nothing yet (rule R103, log 2). -/
def TakesCommand (port : Port) (w : Word) (ws : List Word) : Prop :=
  if dataWords w ≤ ws.length then
    ∃ i, i.wf = true ∧ i.port = some port ∧ encode i = w :: ws.take (dataWords w)
      ∧ takeCommand w ws = .command i (ws.drop (dataWords w))
  else takeCommand w ws = .incomplete

/-- A command of one word. -/
theorem takesCommand_of_oneWord {port : Port} {w : Word} {ws : List Word} (hdata : dataWords w = 0) (i : Instr)
    (hwf : i.wf = true) (hport : i.port = some port) (hencode : encode i = [w])
    (htake : takeCommand w ws = .command i ws) :
    TakesCommand port w ws := by
  rw [TakesCommand, hdata, if_pos (Nat.zero_le _)]
  exact ⟨i, hwf, hport, hencode, htake⟩

/-- A command of two words, which waits for the second. -/
theorem takesCommand_of_twoWords {port : Port} {w : Word} {ws : List Word} (hdata : dataWords w = 1) (f : Word → Instr)
    (hwf : ∀ v, (f v).wf = true) (hport : ∀ v, (f v).port = some port) (hencode : ∀ v, encode (f v) = [w, v])
    (hwait : takeCommand w [] = .incomplete) (htake : ∀ v rest, takeCommand w (v :: rest) = .command (f v) rest) :
    TakesCommand port w ws := by
  rw [TakesCommand, hdata]
  cases ws with
  | nil => exact hwait
  | cons v rest =>
    rw [if_pos (by simp)]
    exact ⟨f v, hwf v, hport v, hencode v, htake v rest⟩

/-- A SUBMIT, whose word says how many data words it takes. -/
theorem takesCommand_submit {w : Word} {ws : List Word} (hopc : bits w 24 8 = 0x06#8)
    (hword : commandWord 0x06#8 ((bits w 0 16).setWidth 24) = w) : TakesCommand .p w ws := by
  have hdata : dataWords w = (bits w 0 16).toNat := by rw [dataWords, if_pos hopc]
  rw [TakesCommand, hdata]
  split
  next hall =>
    have hlen : (ws.take (bits w 0 16).toNat).length = (bits w 0 16).toNat := List.length_take_of_le hall
    refine ⟨.submit (ws.take (bits w 0 16).toNat), ?_, rfl, ?_, by simp [takeCommand, hopc, hall]⟩
    · rw [Instr.wf, hlen]
      exact decide_eq_true (bits w 0 16).isLt
    · rw [encode, hlen, BitVec.ofNat_toNat, BitVec.setWidth_eq, hword]
  next hwait => simp [takeCommand, hopc, hwait]

/-- Decoding of a legal command word, row by row (rules R102, R103). -/
theorem takesCommand_of_fits {w : Word} {r : CommandRow} (hr : r ∈ commandRows) (hw : FitsRow w r)
    (ws : List Word) : TakesCommand r.port w ws := by
  have hn := (opcodeRow_of_mem_commandRows r hr).1
  obtain ⟨opc, port, n⟩ := r
  obtain ⟨hopc, hzero⟩ := hw
  dsimp only at hn hopc hzero ⊢
  have hword : commandWord opc ((bits w 0 n).setWidth 24) = w :=
    ((eq_commandWord_iff w opc hn _).mpr ⟨hopc, hzero, rfl⟩).symm
  have hnone : n = 0 → commandWord opc 0#24 = w := by
    rintro rfl
    rw [← hword, BitVec.eq_nil (bits w 0 0)]
    rfl
  simp only [commandRows, List.mem_cons, List.not_mem_nil, or_false, CommandRow.mk.injEq] at hr
  obtain ⟨rfl, rfl, rfl⟩ | ⟨rfl, rfl, rfl⟩ | ⟨rfl, rfl, rfl⟩ | ⟨rfl, rfl, rfl⟩ | ⟨rfl, rfl, rfl⟩ | ⟨rfl, rfl, rfl⟩
    | ⟨rfl, rfl, rfl⟩ | ⟨rfl, rfl, rfl⟩ | ⟨rfl, rfl, rfl⟩ | ⟨rfl, rfl, rfl⟩ := hr
  · exact takesCommand_of_oneWord (by simp [dataWords, hopc]) .reset rfl rfl (by rw [encode, hnone rfl])
      (by simp [takeCommand, hopc])
  · exact takesCommand_of_oneWord (by simp [dataWords, hopc]) .start rfl rfl (by rw [encode, hnone rfl])
      (by simp [takeCommand, hopc])
  · exact takesCommand_of_oneWord (by simp [dataWords, hopc]) .stop rfl rfl (by rw [encode, hnone rfl])
      (by simp [takeCommand, hopc])
  · exact takesCommand_of_oneWord (by simp [dataWords, hopc]) (.lock (bits w 0 4)) rfl rfl (by rw [encode, hword])
      (by simp [takeCommand, hopc])
  · exact takesCommand_of_oneWord (by simp [dataWords, hopc]) .unlock rfl rfl (by rw [encode, hnone rfl])
      (by simp [takeCommand, hopc])
  · exact takesCommand_submit hopc (hword)
  · exact takesCommand_of_twoWords (by simp [dataWords, hopc]) (.wrcr (bits w 0 8)) (fun _ => rfl) (fun _ => rfl)
      (fun _ => by rw [encode, hword]) (by simp [takeCommand, hopc]) (fun _ _ => by simp [takeCommand, hopc])
  · exact takesCommand_of_twoWords (by simp [dataWords, hopc]) (.wrgm (bits w 0 10)) (fun _ => rfl) (fun _ => rfl)
      (fun _ => by rw [encode, hword]) (by simp [takeCommand, hopc]) (fun _ _ => by simp [takeCommand, hopc])
  · exact takesCommand_of_oneWord (by simp [dataWords, hopc]) .consume rfl rfl (by rw [encode, hnone rfl])
      (by simp [takeCommand, hopc])
  · exact takesCommand_of_oneWord (by simp [dataWords, hopc]) (.rdsr (bits w 0 8)) rfl rfl (by rw [encode, hword])
      (by simp [takeCommand, hopc])

/-- The command that a command word begins is the one it was written for (rules R101, R105). -/
theorem decodeCommand_commandWord {opc : BitVec 8} {port : Port} {n : Nat} (hr : ⟨opc, port, n⟩ ∈ commandRows)
    (x : BitVec n) (ws : List Word) :
    decodeCommand port (commandWord opc (x.setWidth 24) :: ws) = takeCommand (commandWord opc (x.setWidth 24)) ws := by
  obtain ⟨hopc, hzero, -⟩ := (eq_commandWord_iff _ opc (opcodeRow_of_mem_commandRows _ hr).1 x).mp rfl
  exact decodeCommand_of_fits hr ⟨hopc, hzero⟩ ws

/-- The same for a command without an operand. -/
theorem decodeCommand_bareWord {opc : BitVec 8} {port : Port} (hr : ⟨opc, port, 0⟩ ∈ commandRows) (ws : List Word) :
    decodeCommand port (commandWord opc 0#24 :: ws) = takeCommand (commandWord opc 0#24) ws :=
  decodeCommand_commandWord hr 0#0 ws

theorem bits_commandWord_operand (opc : BitVec 8) {n : Nat} (hn : n ≤ 24) (x : BitVec n) :
    bits (commandWord opc (x.setWidth 24)) 0 n = x := by
  obtain ⟨-, -, hx⟩ := (eq_commandWord_iff _ opc hn x).mp rfl
  exact hx

/-! ### Descriptors -/

section descriptorMasks
variable (w : Word)

/-- The zero bits of a SKIP word (rules R106, R107). -/
theorem skip_zeroBits : w &&& 0x0FFFFC00#32 = 0#32 ↔
    w.getLsbD 27 = false ∧ w.getLsbD 26 = false ∧ bits w 20 6 = 0#6 ∧ w.getLsbD 19 = false ∧ ZeroBits w 10 18 := by
  rw [and_eq_zero_iff_zeroBits [(27, 27), (26, 26), (20, 25), (19, 19), (10, 18)] (by decide)]
  simp [zeroBits_single, zeroBits_iff_bits 6 (show 25 + 1 = 20 + 6 from rfl)]

/-- The zero bits of a CACH word (rules R106, R107). -/
theorem cach_zeroBits : w &&& 0x0407FC00#32 = 0#32 ↔ w.getLsbD 26 = false ∧ ZeroBits w 10 18 := by
  rw [and_eq_zero_iff_zeroBits [(26, 26), (10, 18)] (by decide)]
  simp [zeroBits_single]

/-- The zero bits of a VOICE word (rules R106, R107). -/
theorem voice_zeroBits : w &&& 0x000FFC00#32 = 0#32 ↔ w.getLsbD 19 = false ∧ ZeroBits w 10 18 := by
  rw [and_eq_zero_iff_zeroBits [(19, 19), (10, 18)] (by decide)]
  simp [zeroBits_single]

/-- The zero bits of a SYNC word (rules R106, R107). -/
theorem sync_zeroBits : w &&& 0x07FFFC00#32 = 0#32 ↔
    w.getLsbD 26 = false ∧ bits w 20 6 = 0#6 ∧ w.getLsbD 19 = false ∧ ZeroBits w 10 18 := by
  rw [and_eq_zero_iff_zeroBits [(26, 26), (20, 25), (19, 19), (10, 18)] (by decide)]
  simp [zeroBits_single, zeroBits_iff_bits 6 (show 25 + 1 = 20 + 6 from rfl)]

end descriptorMasks

/-- A guard of the decoder passes where its condition fails. -/
theorem guard_eq_ok {ε α : Type} {c : Prop} [Decidable c] {e : ε} {x : Except ε α} {i : α} :
    (if c then .error e else x) = .ok i ↔ ¬ c ∧ x = .ok i := by
  by_cases h : c <;> simp [h]

theorem width_ne_zero_iff (x : BitVec 10) : x ≠ 0#10 ↔ 1 ≤ x.toNat := by
  rw [Ne, ← BitVec.toNat_inj, BitVec.toNat_ofNat]
  omega

section decodeByKind
variable {w : Word} {i : Instr}

/-- Decoding of a word of kind SKIP (rules R106, R107, R109). -/
theorem decodeDescriptor_skip_iff (hk : bits w 28 4 = 0x1#4) :
    decodeDescriptor w = .ok i ↔ w &&& 0x0FFFFC00#32 = 0#32 ∧ 1 ≤ (bits w 0 10).toNat ∧ i = .skip (bits w 0 10) := by
  simp only [decodeDescriptor, hk, if_true, guard_eq_ok, not_not, ← width_ne_zero_iff, Except.ok.injEq, eq_comm (b := i)]

/-- Decoding of a word of kind CACH (rules R106, R107, R109). -/
theorem decodeDescriptor_cach_iff (hk : bits w 28 4 = 0x2#4) :
    decodeDescriptor w = .ok i ↔ w &&& 0x0407FC00#32 = 0#32 ∧ (1 ≤ (bits w 0 10).toNat ∧ (bits w 0 10).toNat ≤ 64)
      ∧ (bits w 20 6).toNat < (bits w 0 10).toNat
      ∧ i = .cach (w.getLsbD 27) (bits w 20 6) (w.getLsbD 19) (bits w 0 10) := by
  simp only [decodeDescriptor, hk, if_true, BitVec.reduceEq, if_false, guard_eq_ok, not_not, not_or, not_lt, not_le,
    ← width_ne_zero_iff, Except.ok.injEq, eq_comm (b := i), ne_eq]

/-- Decoding of a word of kind VOICE (rules R106, R107, R109). -/
theorem decodeDescriptor_voice_iff (hk : bits w 28 4 = 0x3#4) :
    decodeDescriptor w = .ok i ↔ w &&& 0x000FFC00#32 = 0#32 ∧ (1 ≤ (bits w 0 10).toNat ∧ (bits w 0 10).toNat ≤ 48)
      ∧ i = .voice (w.getLsbD 27) (w.getLsbD 26) (bits w 20 6) (bits w 0 10) := by
  simp only [decodeDescriptor, hk, if_true, BitVec.reduceEq, if_false, guard_eq_ok, not_not, not_or, not_lt,
    ← width_ne_zero_iff, Except.ok.injEq, eq_comm (b := i), ne_eq]

/-- Decoding of a word of kind SYNC (rules R106, R107, R109). -/
theorem decodeDescriptor_sync_iff (hk : bits w 28 4 = 0x4#4) :
    decodeDescriptor w = .ok i ↔ w &&& 0x07FFFC00#32 = 0#32 ∧ 1 ≤ (bits w 0 10).toNat
      ∧ i = .sync (w.getLsbD 27) (bits w 0 10) := by
  simp only [decodeDescriptor, hk, if_true, BitVec.reduceEq, if_false, guard_eq_ok, not_not, ← width_ne_zero_iff,
    Except.ok.injEq, eq_comm (b := i)]

end decodeByKind

/-- The kinds that are not reserved (rule R107). -/
theorem kind_of_decodeDescriptor {w : Word} {i : Instr} (h : decodeDescriptor w = .ok i) :
    bits w 28 4 = 0x1#4 ∨ bits w 28 4 = 0x2#4 ∨ bits w 28 4 = 0x3#4 ∨ bits w 28 4 = 0x4#4 := by
  by_contra hkind
  simp only [not_or] at hkind
  obtain ⟨h1, h2, h3, h4⟩ := hkind
  rw [decodeDescriptor, if_neg h1, if_neg h2, if_neg h3, if_neg h4] at h
  cases h

/-- A word that decodes to a descriptor is that descriptor's encoding (rules R106, R107, R109). -/
theorem encode_of_decodeDescriptor {w : Word} {i : Instr} (h : decodeDescriptor w = .ok i) :
    i.wf = true ∧ encode i = [w] := by
  obtain hk | hk | hk | hk := kind_of_decodeDescriptor h
  · obtain ⟨hzero, hw, rfl⟩ := (decodeDescriptor_skip_iff hk).mp h
    obtain ⟨hprot, hlast, haux, hauxh, hgap⟩ := (skip_zeroBits w).mp hzero
    refine ⟨by simpa [Instr.wf] using hw, congrArg (List.cons · []) ?_⟩
    exact ((eq_descriptorWord_iff ..).mpr ⟨hk, hprot, hlast, haux, hauxh, hgap, rfl⟩).symm
  · obtain ⟨hzero, hw, hidx, rfl⟩ := (decodeDescriptor_cach_iff hk).mp h
    obtain ⟨hlast, hgap⟩ := (cach_zeroBits w).mp hzero
    refine ⟨by simpa [Instr.wf, hidx] using hw, congrArg (List.cons · []) ?_⟩
    exact ((eq_descriptorWord_iff ..).mpr ⟨hk, rfl, hlast, rfl, rfl, hgap, rfl⟩).symm
  · obtain ⟨hzero, hw, rfl⟩ := (decodeDescriptor_voice_iff hk).mp h
    obtain ⟨hauxh, hgap⟩ := (voice_zeroBits w).mp hzero
    refine ⟨by simpa [Instr.wf] using hw, congrArg (List.cons · []) ?_⟩
    exact ((eq_descriptorWord_iff ..).mpr ⟨hk, rfl, rfl, rfl, hauxh, hgap, rfl⟩).symm
  · obtain ⟨hzero, hw, rfl⟩ := (decodeDescriptor_sync_iff hk).mp h
    obtain ⟨hlast, haux, hauxh, hgap⟩ := (sync_zeroBits w).mp hzero
    refine ⟨by simpa [Instr.wf] using hw, congrArg (List.cons · []) ?_⟩
    exact ((eq_descriptorWord_iff ..).mpr ⟨hk, rfl, hlast, haux, hauxh, hgap, rfl⟩).symm

/-! ### Legal descriptors of a grammar -/

theorem legalDescriptor_iff (gm : Mem Word) (w : Word) :
    legalDescriptor gm w = true ↔ ∃ i, decodeDescriptor w = .ok i ∧ i.fits (gVlen gm) (gSyncw gm) = true := by
  unfold legalDescriptor
  split
  next i hi => simp [hi]
  next e he => simp [he]

/-- A descriptor's match and mask pair asks for the kind and the zero bits. -/
theorem kindMask_iff (w : Word) {m z : Word} (k : BitVec 4)
    (hm : ∀ i < 32, m.getLsbD i = (decide (28 ≤ i) || z.getLsbD i))
    (hz : ∀ i < 32, 28 ≤ i → z.getLsbD i = false) :
    w &&& m = k.setWidth 32 <<< 28 ↔ bits w 28 4 = k ∧ w &&& z = 0#32 := and_eq_shiftLeft_iff k rfl hm hz

end Sys2Proof.Machine

open Sys2Proof Sys2Proof.Machine

/-- Settles O1: the encoder's word selects its command, and its operand and data words are read back, opcode by opcode. -/
theorem commandDecodeEncode : Obligations.CommandDecodeEncode := by
  intro port i rest hwf hport
  cases i with
  | skip w => cases hport
  | cach prot slotIdx slotHalf w => cases hport
  | voice prot last base w => cases hport
  | sync prot w => cases hport
  | reset => cases hport; exact (decodeCommand_bareWord (by simp [commandRows]) rest).trans (by simp [takeCommand])
  | start => cases hport; exact (decodeCommand_bareWord (by simp [commandRows]) rest).trans (by simp [takeCommand])
  | stop => cases hport; exact (decodeCommand_bareWord (by simp [commandRows]) rest).trans (by simp [takeCommand])
  | unlock => cases hport; exact (decodeCommand_bareWord (by simp [commandRows]) rest).trans (by simp [takeCommand])
  | consume => cases hport; exact (decodeCommand_bareWord (by simp [commandRows]) rest).trans (by simp [takeCommand])
  | lock st =>
    cases hport
    exact (decodeCommand_commandWord (by simp [commandRows]) st rest).trans
      (by simp [takeCommand, bits_commandWord_operand])
  | rdsr a =>
    cases hport
    exact (decodeCommand_commandWord (by simp [commandRows]) a rest).trans
      (by simp [takeCommand, bits_commandWord_operand])
  | wrcr a v =>
    cases hport
    exact (decodeCommand_commandWord (by simp [commandRows]) a (v :: rest)).trans
      (by simp [takeCommand, bits_commandWord_operand])
  | wrgm a v =>
    cases hport
    exact (decodeCommand_commandWord (by simp [commandRows]) a (v :: rest)).trans
      (by simp [takeCommand, bits_commandWord_operand])
  | submit samples =>
    cases hport
    have hlen : (BitVec.ofNat 16 samples.length).toNat = samples.length := Nat.mod_eq_of_lt (of_decide_eq_true hwf)
    exact (decodeCommand_commandWord (by simp [commandRows]) _ (samples ++ rest)).trans
      (by simp [takeCommand, bits_commandWord_operand, -BitVec.toNat_ofNat, hlen])

/-- Settles O2: the fields of the encoder's word pass every test of its kind. -/
theorem descriptorDecodeEncode : Obligations.DescriptorDecodeEncode := by
  intro i hwf hdesc
  cases i with
  | skip w =>
    obtain ⟨hk, hprot, hlast, haux, hauxh, hgap, hw⟩ := (eq_descriptorWord_iff _ 0x1#4 false false 0#6 false w).mp rfl
    refine ⟨_, rfl, (decodeDescriptor_skip_iff hk).mpr ⟨(skip_zeroBits _).mpr ⟨hprot, hlast, haux, hauxh, hgap⟩, ?_, ?_⟩⟩
    · simpa [hw, Instr.wf] using hwf
    · rw [hw]
  | cach prot slotIdx slotHalf w =>
    obtain ⟨hk, hprot, hlast, haux, hauxh, hgap, hw⟩ := (eq_descriptorWord_iff _ 0x2#4 prot false slotIdx slotHalf w).mp rfl
    simp only [Instr.wf, Bool.and_eq_true, decide_eq_true_eq] at hwf
    refine ⟨_, rfl, (decodeDescriptor_cach_iff hk).mpr ⟨(cach_zeroBits _).mpr ⟨hlast, hgap⟩, ?_, ?_, ?_⟩⟩
    · rw [hw]; exact hwf.1
    · rw [hw, haux]; exact hwf.2
    · rw [hw, haux, hprot, hauxh]
  | voice prot last base w =>
    obtain ⟨hk, hprot, hlast, haux, hauxh, hgap, hw⟩ := (eq_descriptorWord_iff _ 0x3#4 prot last base false w).mp rfl
    simp only [Instr.wf, Bool.and_eq_true, decide_eq_true_eq] at hwf
    refine ⟨_, rfl, (decodeDescriptor_voice_iff hk).mpr ⟨(voice_zeroBits _).mpr ⟨hauxh, hgap⟩, ?_, ?_⟩⟩
    · rw [hw]; exact hwf
    · rw [hw, haux, hprot, hlast]
  | sync prot w =>
    obtain ⟨hk, hprot, hlast, haux, hauxh, hgap, hw⟩ := (eq_descriptorWord_iff _ 0x4#4 prot false 0#6 false w).mp rfl
    refine ⟨_, rfl, (decodeDescriptor_sync_iff hk).mpr ⟨(sync_zeroBits _).mpr ⟨hlast, haux, hauxh, hgap⟩, ?_, ?_⟩⟩
    · simpa [hw, Instr.wf] using hwf
    · rw [hw, hprot]
  | _ => cases hdesc

/-- Settles O3: a command is decoded from a legal word only, and `takesCommand_of_fits` says which; for descriptors see
`encode_of_decodeDescriptor`. -/
theorem instructionEncodeDecode : Obligations.InstructionEncodeDecode := by
  refine ⟨fun port ws rest i h => ?_, fun w i h => ?_⟩
  · cases ws with
    | nil => cases h
    | cons w ws =>
      by_cases hlegal : LegalCommandWord port w
      · obtain ⟨r, hr, rfl, hw⟩ := (legalCommandWord_iff port w).mp hlegal
        have htake := takesCommand_of_fits hr hw ws
        rw [decodeCommand_of_fits hr hw] at h
        unfold TakesCommand at htake
        split at htake
        next =>
          obtain ⟨j, hwf, hport, hencode, hj⟩ := htake
          obtain ⟨rfl, rfl⟩ := Decoded.command.inj (hj.symm.trans h)
          exact ⟨hwf, hport, by rw [hencode, List.cons_append, List.take_append_drop]⟩
        next => cases htake.symm.trans h
      · obtain ⟨e, he⟩ := decodeCommand_of_not_legal hlegal ws
        cases he.symm.trans h
  · obtain ⟨hwf, hencode⟩ := encode_of_decodeDescriptor h
    exact ⟨hwf, (decodeDescriptor_ok h).1, hencode⟩

/-- Settles O4: legality by the opcode table's rows, the command and its length by `takesCommand_of_fits`. -/
theorem commandLength : Obligations.CommandLength := by
  intro port w ws
  refine ⟨fun hillegal => decodeCommand_of_not_legal hillegal ws, fun hlegal => ?_⟩
  obtain ⟨r, hr, rfl, hw⟩ := (legalCommandWord_iff port w).mp hlegal
  have htake := takesCommand_of_fits hr hw ws
  rw [decodeCommand_of_fits hr hw]
  unfold TakesCommand at htake
  show if dataWords w ≤ ws.length then _ else _
  split at htake
  next hall =>
    obtain ⟨i, -, hport, -, hi⟩ := htake
    rw [if_pos hall]
    exact ⟨i, hport, hi⟩
  next hwait =>
    rw [if_neg hwait]
    exact htake

/-- Settles O5: each match and mask pair asks for a kind and its zero bits, and the decoder and `Instr.fits` ask for the
bounds. -/
theorem legalDescriptorWords : Obligations.LegalDescriptorWords := by
  intro gm w
  have hskip : w &&& 0xFFFFFC00#32 = 0x10000000#32 ↔ bits w 28 4 = 0x1#4 ∧ w &&& 0x0FFFFC00#32 = 0#32 :=
    kindMask_iff w 0x1#4 (by decide) (by decide)
  have hcach : w &&& 0xF407FC00#32 = 0x20000000#32 ↔ bits w 28 4 = 0x2#4 ∧ w &&& 0x0407FC00#32 = 0#32 :=
    kindMask_iff w 0x2#4 (by decide) (by decide)
  have hvoice : w &&& 0xF00FFC00#32 = 0x30000000#32 ↔ bits w 28 4 = 0x3#4 ∧ w &&& 0x000FFC00#32 = 0#32 :=
    kindMask_iff w 0x3#4 (by decide) (by decide)
  have hsync : w &&& 0xF7FFFC00#32 = 0x40000000#32 ↔ bits w 28 4 = 0x4#4 ∧ w &&& 0x07FFFC00#32 = 0#32 :=
    kindMask_iff w 0x4#4 (by decide) (by decide)
  dsimp only
  rw [legalDescriptor_iff, hskip, hcach, hvoice, hsync]
  constructor
  · rintro ⟨i, hi, hfits⟩
    obtain hk | hk | hk | hk := kind_of_decodeDescriptor hi
    · obtain ⟨hzero, hw, -⟩ := (decodeDescriptor_skip_iff hk).mp hi
      exact .inl ⟨⟨hk, hzero⟩, hw⟩
    · obtain ⟨hzero, ⟨hmin, hmax⟩, hidx, -⟩ := (decodeDescriptor_cach_iff hk).mp hi
      exact .inr (.inl ⟨⟨hk, hzero⟩, hmin, hmax, hidx⟩)
    · obtain ⟨hzero, ⟨hmin, hmax⟩, rfl⟩ := (decodeDescriptor_voice_iff hk).mp hi
      exact .inr (.inr (.inl ⟨⟨hk, hzero⟩, hmin, hmax, of_decide_eq_true hfits⟩))
    · obtain ⟨hzero, hw, rfl⟩ := (decodeDescriptor_sync_iff hk).mp hi
      exact .inr (.inr (.inr ⟨⟨hk, hzero⟩, hw, of_decide_eq_true hfits⟩))
  · rintro (⟨⟨hk, hzero⟩, hw⟩ | ⟨⟨hk, hzero⟩, hmin, hmax, hidx⟩ | ⟨⟨hk, hzero⟩, hmin, hmax, hvlen⟩
      | ⟨⟨hk, hzero⟩, hw, hsyncw⟩)
    · exact ⟨_, (decodeDescriptor_skip_iff hk).mpr ⟨hzero, hw, rfl⟩, rfl⟩
    · exact ⟨_, (decodeDescriptor_cach_iff hk).mpr ⟨hzero, ⟨hmin, hmax⟩, hidx, rfl⟩, rfl⟩
    · exact ⟨_, (decodeDescriptor_voice_iff hk).mpr ⟨hzero, ⟨hmin, hmax⟩, rfl⟩, decide_eq_true hvlen⟩
    · exact ⟨_, (decodeDescriptor_sync_iff hk).mpr ⟨hzero, hw, rfl⟩, decide_eq_true hsyncw⟩
end

section
/-!
SUPPORT. A listed turn of a port (rules R89, R103, R105, R140): the command at the port's front is run, an illegal word only
raises ILLCMD.
-/
namespace Sys2Proof.Machine

theorem fetch_of_turn {s : State} {a : Agent} {ts : List Agent} (hturn : s.turns = a :: ts) :
    fetch Config.env s = fetchFor Config.env a { s with turns := ts } := by
  rw [fetch, nextAgent, takeTurn, hturn]
  rfl

/-- ILLCMD is the only change of a raised illegal command (rules R105, R297). -/
theorem faultRaised_illcmd (s : State) : FaultRaised 0 s (raise .illcmd s) := by
  refine ⟨rfl, fun k _ => ?_⟩
  rw [raise_fault, getLsbD_setBitTo _ _ _ _ (by decide)]
  by_cases hk : k = 0 <;> simp [faultBit, hk]

end Sys2Proof.Machine

open Sys2Proof Sys2Proof.Machine

/-- Settles O7: the fetch of port P's turn takes the command and its words. -/
theorem portPStepRunsCommand : Obligations.PortPStepRunsCommand := by
  intro s ts i rest hturn hdecode
  have hfetch : fetch Config.env s = .instr i { s with turns := ts, portP := rest } := by
    rw [fetch_of_turn hturn, fetchFor, fetchP, hdecode]
  rw [step, hfetch]

/-- Settles O10: the decoder refuses the word alone (`decodeCommand_of_not_legal`), and the fetch raises ILLCMD. -/
theorem illegalWordOnlyRaises : Obligations.IllegalWordOnlyRaises := by
  intro s ts w ws
  refine ⟨fun hturn hport hillegal => ?_, fun hturn hport hillegal => ?_, ?_, ?_, ?_, ?_⟩
  · obtain ⟨e, he⟩ := decodeCommand_of_not_legal hillegal ws
    have hfetch : fetch Config.env s = .done (raise .illcmd { s with turns := ts, portP := ws }) := by
      rw [fetch_of_turn hturn, fetchFor, fetchP, hport, he]
    exact ⟨_, by rw [step, hfetch], faultRaised_illcmd _⟩
  · obtain ⟨e, he⟩ := decodeCommand_of_not_legal hillegal ws
    have hfetch : fetch Config.env s = .done (raise .illcmd { s with turns := ts, portQ := ws }) := by
      rw [fetch_of_turn hturn, fetchFor, fetchQ, hport, he]
    exact ⟨_, by rw [step, hfetch], faultRaised_illcmd _⟩
  all_goals
    unfold LegalCommandWord
    decide
end

section
/-!
SUPPORT. Voice placement and signalling wiring bit by bit (rules R118, R119, R232, R233, R257): both are a run of writes, of
which the last that reaches a bit decides it.
-/
namespace Sys2Proof.Machine

/-- A run of writes seen through one reading: the last write that reaches the reading decides it, and where none does, it
stays. -/
theorem foldl_last_write {σ ε β : Type} (write : σ → ε → σ) (read : σ → β) (reaches : ε → Prop) (value : ε → β)
    (hhit : ∀ s e, reaches e → read (write s e) = value e)
    (hmiss : ∀ s e, ¬ reaches e → read (write s e) = read s)
    (es : List ε) (s : σ) :
    (∀ (m : Nat) (e : ε), es[m]? = some e → reaches e →
      (∀ (n : Nat) (e' : ε), m < n → es[n]? = some e' → ¬ reaches e') → read (es.foldl write s) = value e) ∧
    ((∀ e ∈ es, ¬ reaches e) → read (es.foldl write s) = read s) := by
  induction es generalizing s with
  | nil => simp
  | cons x es ih =>
    obtain ⟨ihlast, ihnone⟩ := ih (write s x)
    refine ⟨fun m e hm hreach hlater => ?_, fun hnone => ?_⟩
    · cases m with
      | zero =>
        cases hm
        refine (ihnone fun e' he' => ?_).trans (hhit s x hreach)
        obtain ⟨n, hn⟩ := List.mem_iff_getElem?.mp he'
        exact hlater (n + 1) e' (Nat.succ_pos n) hn
      | succ m => exact ihlast m e hm hreach fun n e' hn he' => hlater (n + 1) e' (Nat.succ_lt_succ hn) he'
    · rw [List.forall_mem_cons] at hnone
      exact (ihnone hnone.2).trans (hmiss s x hnone.1)

/-- One bit inside a vector after a bit was set, which may lie past its width. -/
theorem getLsbD_setBitTo_inside {n : Nat} (x : BitVec n) (i : Nat) {k : Nat} (b : Bool) (hk : k < n) :
    (setBitTo x i b).getLsbD k = if k = i then b else x.getLsbD k := by
  by_cases hi : i < n
  · exact getLsbD_setBitTo x i k b hi
  · have hlow : k < i := by omega
    cases b <;> simp [setBitTo, hk, hlow, hlow.ne]

/-! ### Voice placement -/

/-- A cell of the voice matrix after a cell was set (rule R53). -/
theorem vmBit_vmSet (vm : Vector (BitVec 24) 4) (row r : BitVec 2) (col : Nat) {c : Nat} (b : Bool) (hc : c < 24) :
    vmBit (vmSet vm row col b) r c = if (row, col) = (r, c) then b else vmBit vm r c := by
  unfold vmBit vmSet
  by_cases hrow : row = r
  · subst hrow
    simp [getLsbD_setBitTo_inside _ _ _ hc, eq_comm]
  · have hne : row.toNat ≠ r.toNat := fun h => hrow (BitVec.eq_of_toNat_eq h)
    simp [hne, hrow]

theorem vtabPositions_succ (gm : Mem Word) (base n : Nat) :
    vtabPositions gm base (n + 1) =
      (gVtabWr gm base, gVtabXc gm base) :: (gVtabYr gm base, gVtabZc gm base) :: vtabPositions gm (base + 1) n := by
  simp [vtabPositions, List.range_succ_eq_map, List.flatMap_map, Nat.add_assoc, Nat.add_comm 1]

/-- A segment's placement is a run of writes of its bits to the positions of its table entries, in order (rules R231 to
R233). -/
theorem placeDibits_eq_foldl (gm : Mem Word) (base : Nat) (ds : List Dibit) (vm : Vector (BitVec 24) 4) :
    placeDibits gm base ds vm =
      ((vtabPositions gm base ds.length).zip (segmentBits ds)).foldl (fun vm e => vmSet vm e.1.1 e.1.2 e.2) vm := by
  induction ds generalizing base vm with
  | nil => rfl
  | cons d ds ih =>
    rw [placeDibits, ih, List.length_cons, vtabPositions_succ]
    rfl

theorem length_vtabPositions (gm : Mem Word) (base : Nat) (ds : List Dibit) :
    (vtabPositions gm base ds.length).length = (segmentBits ds).length := by
  simp [vtabPositions, segmentBits, List.length_flatMap]

/-! ### Signalling wiring -/

theorem dibitBit_eq (d : Dibit) (h : Bool) : dibitBit d h = d.getLsbD (if h then 1 else 0) := by
  cases h <;> rfl

section wiringEntry
variable {P : Params} {j : BitVec 3} {disc : Dibit} {e : Word} {r : Fin 8} {b : Nat} (content : List Dibit) (regs : SigFile)

/-- A bit that a wiring entry names, after the entry (rules R119, R257). -/
theorem getLsbD_wireOne_of_wires (h : WiresTo P j disc e r b) :
    ((wireOne P j disc content regs e)[r]).getLsbD b
      = (dibitAt content (wireSrc e)).getLsbD (if wireHalf e then 1 else 0) := by
  obtain ⟨hj, hsel, hr, rfl, hreg, hwidth⟩ := h
  have hbit : wireBit e < 128 := (bits e 16 7).isLt
  obtain rfl : r = ⟨(wireDst e).toNat, (wireDst e).isLt⟩ := Fin.ext hr.symm
  rw [wireOne, if_pos ⟨hj, hsel, hreg, hwidth⟩, Fin.getElem_fin, Vector.getElem_set_self,
    getLsbD_setBitTo _ _ _ _ hbit, if_pos rfl, dibitBit_eq]

/-- A bit that a wiring entry does not name keeps its value (rules R119, R257). -/
theorem getLsbD_wireOne_of_not_wires (h : ¬ WiresTo P j disc e r b) :
    ((wireOne P j disc content regs e)[r]).getLsbD b = (regs[r]).getLsbD b := by
  have hbit : wireBit e < 128 := (bits e 16 7).isLt
  unfold wireOne
  split
  next happlies =>
    obtain ⟨hj, hsel, hreg, hwidth⟩ := happlies
    by_cases hr : (wireDst e).toNat = r.val
    · have hother : b ≠ wireBit e := by
        rintro rfl
        exact h ⟨hj, hsel, hr, rfl, hr ▸ hreg, hwidth⟩
      obtain rfl : r = ⟨(wireDst e).toNat, (wireDst e).isLt⟩ := Fin.ext hr.symm
      rw [Fin.getElem_fin, Vector.getElem_set_self, getLsbD_setBitTo _ _ _ _ hbit, if_neg hother]
      rfl
    · rw [Fin.getElem_fin, Vector.getElem_set_ne _ _ hr]
      rfl
  next => rfl

end wiringEntry

end Sys2Proof.Machine

open Sys2Proof Sys2Proof.Machine

/-- Settles O31: the placement is a run of writes (`placeDibits_eq_foldl`), of which the last to a cell decides it. -/
theorem voicePlacementBits : Obligations.VoicePlacementBits := by
  intro gm base ds vm r c hc
  dsimp only
  have hlen := length_vtabPositions gm base ds
  obtain ⟨hlast, hnone⟩ := foldl_last_write (fun vm (e : (BitVec 2 × Nat) × Bool) => vmSet vm e.1.1 e.1.2 e.2)
    (fun vm => vmBit vm r c) (fun e => e.1 = (r, c)) (fun e => e.2)
    (fun vm e he => (vmBit_vmSet vm _ r _ _ hc).trans (if_pos he))
    (fun vm e he => (vmBit_vmSet vm _ r _ _ hc).trans (if_neg he))
    ((vtabPositions gm base ds.length).zip (segmentBits ds)) vm
  rw [← placeDibits_eq_foldl] at hlast hnone
  refine ⟨fun m b hpos hbit hlater => ?_, fun hnamed => ?_⟩
  · refine hlast m ((r, c), b) (List.getElem?_zip_eq_some.mpr ⟨hpos, hbit⟩) rfl fun n e hn he hcell => ?_
    exact hlater n hn (hcell ▸ (List.getElem?_zip_eq_some.mp he).1)
  · exact hnone fun e he hcell => hnamed (hcell ▸ (List.of_mem_zip he).1)

/-- Settles O32: the wiring is a run of writes, and `WiresTo` says which entry reaches a bit. -/
theorem signallingWiringBits : Obligations.SignallingWiringBits := by
  intro P j disc content regs es r b
  exact foldl_last_write (wireOne P j disc content) (fun regs => (regs[r]).getLsbD b) (WiresTo P j disc · r b)
    (fun e => (dibitAt content (wireSrc e)).getLsbD (if wireHalf e then 1 else 0))
    (fun regs _ he => getLsbD_wireOne_of_wires content regs he)
    (fun regs _ he => getLsbD_wireOne_of_not_wires content regs he) es regs
end

section
/-!
SUPPORT. What each START check accepts, said once for each check (rules R112 to R119, R125), and what the accepted grammars and
configurations are.
-/
namespace Sys2Proof.Machine

/-! ### Words of the grammar -/

theorem all_gFields_iff (gm : Mem Word) (p : Word → Bool) :
    (gFields gm).all p = true ↔ ∀ n < gNfield gm, p (gField gm n) = true := by
  simp [gFields]

theorem all_gWires_iff (gm : Mem Word) (p : Word → Bool) :
    (gWires gm).all p = true ↔ ∀ n < gNwire gm, p (gWire gm n) = true := by
  simp [gWires]

theorem isSyncWord_iff (w : Word) : isSyncWord w = true ↔ w.extractLsb' 28 4 = 0x4#4 := beq_iff_eq

/-! ### G1 to G3 -/

theorem checkG1_iff (P : Params) (gm : Mem Word) :
    checkG1 P gm = true ↔
      1 ≤ gNfield gm ∧ gNfield gm ≤ P.nfieldMax ∧ gNsync gm ≤ P.nsyncMax ∧ 1 ≤ gVlen gm ∧ gVlen gm ≤ P.vlenMax
        ∧ 1 ≤ gSyncw gm ∧ gSyncw gm ≤ P.syncwMax ∧ gNwire gm ≤ P.nwireMax ∧ gLookback gm ≤ P.dbufCap
        ∧ ZeroBits (gmRead gm 0x000) 7 7 ∧ ZeroBits (gmRead gm 0x000) 12 15 ∧ ZeroBits (gmRead gm 0x000) 28 31
        ∧ ZeroBits (gmRead gm 0x001) 10 15 ∧ ZeroBits (gmRead gm 0x001) 26 31 ∧ ZeroBits (gmRead gm 0x003) 8 31 := by
  simp only [checkG1, Bool.and_eq_true, decide_eq_true_eq, beq_iff_eq, and_assoc]
  rw [and_eq_zero_iff_zeroBits (m := 0xF000F080#32) [(7, 7), (12, 15), (28, 31)] (by decide),
    and_eq_zero_iff_zeroBits (m := 0xFC00FC00#32) [(10, 15), (26, 31)] (by decide),
    and_eq_zero_iff_zeroBits (m := 0xFFFFFF00#32) [(8, 31)] (by decide)]
  simp only [List.Forall, and_assoc]

theorem checkG2_iff (gm : Mem Word) :
    checkG2 gm = true ↔
      (gDiscBurst gm).toNat ≤ (gSigLast gm).toNat ∧ (gSigLast gm).toNat ≤ 5
        ∧ (gSigLast gm).toNat ≤ (gDiscBurst gm).toNat + 4 ∧ gD1Idx gm < gSyncw gm ∧ gD0Idx gm < gSyncw gm
        ∧ gTgW gm ≤ 24 ∧ gTgLo gm + gTgW gm ≤ 128 := by
  simp only [checkG2, Bool.and_eq_true, decide_eq_true_eq]
  omega

theorem checkG3_iff (gm : Mem Word) :
    checkG3 gm = true ↔ ∀ n < gNfield gm, legalDescriptor gm (gField gm n) = true := all_gFields_iff ..

/-! ### G4 and G5: the SYNC descriptor and `LOOKBACK` -/

/-- At most one index below a bound has a property where at most one is counted. -/
theorem countP_range_le_one_iff (p : Nat → Bool) (N : Nat) :
    (List.range N).countP p ≤ 1 ↔ ∀ m n, m < N → n < N → p m = true → p n = true → m = n := by
  have hcard : (List.range N).countP p = ((Finset.range N).filter (p · = true)).card := by
    rw [← Nat.count_eq_card_filter_range, Nat.count]
    simp
  rw [hcard, Finset.card_le_one]
  simp only [Finset.mem_filter, Finset.mem_range]
  exact ⟨fun h m n hm hn pm pn => h m ⟨hm, pm⟩ n ⟨hn, pn⟩, fun h m hm n hn => h m n hm.1 hn.1 hm.2 hn.2⟩

theorem checkG4_iff (gm : Mem Word) :
    checkG4 gm = true ↔ ∀ m n, m < gNfield gm → n < gNfield gm → (gField gm m).extractLsb' 28 4 = 0x4#4 →
      (gField gm n).extractLsb' 28 4 = 0x4#4 → m = n := by
  rw [checkG4, decide_eq_true_eq]
  simp only [gFields, List.countP_map, countP_range_le_one_iff, Function.comp_apply,
    isSyncWord_iff]

theorem widthToSync_append {pre : List Word} (hpre : ∀ w ∈ pre, isSyncWord w = false) {w : Word} (hw : isSyncWord w = true)
    (post : List Word) : widthToSync (pre ++ w :: post) = some ((pre ++ [w]).map descW).sum := by
  induction pre with
  | nil => simp [widthToSync, hw]
  | cons x pre ih =>
    rw [List.forall_mem_cons] at hpre
    simp [widthToSync, hpre.1, ih hpre.2]

theorem widthToSync_eq_none {ws : List Word} (h : ∀ w ∈ ws, isSyncWord w = false) : widthToSync ws = none := by
  induction ws with
  | nil => rfl
  | cons w ws ih =>
    rw [List.forall_mem_cons] at h
    simp [widthToSync, h.1, ih h.2]

/-- The words of a pass around one of its descriptors. -/
theorem gFields_split {gm : Mem Word} {n : Nat} (hn : n < gNfield gm) :
    ∃ post, gFields gm = (List.range n).map (gField gm) ++ gField gm n :: post := by
  obtain ⟨k, hk⟩ := Nat.exists_eq_add_of_lt hn
  refine ⟨(List.range k).map fun i => gField gm (n + 1 + i), ?_⟩
  rw [gFields, hk, show n + k + 1 = n + (1 + k) by omega, List.range_add, List.range_add]
  simp [Nat.add_assoc, Function.comp_def]

theorem checkG5_iff {gm : Mem Word} (hG4 : checkG4 gm = true) :
    checkG5 gm = true ↔
      (∀ n, n < gNfield gm → (gField gm n).extractLsb' 28 4 = 0x4#4 →
        gLookback gm = ((List.range (n + 1)).map fun m => descW (gField gm m)).sum)
      ∧ ((∀ n, n < gNfield gm → ¬ (gField gm n).extractLsb' 28 4 = 0x4#4) → gNsync gm = 0 ∧ gNwire gm = 0) := by
  have hunique := (checkG4_iff gm).mp hG4
  by_cases hsync : ∃ n, n < gNfield gm ∧ (gField gm n).extractLsb' 28 4 = 0x4#4
  · obtain ⟨n, hn, hkind⟩ := hsync
    have hbefore : ∀ w ∈ (List.range n).map (gField gm), isSyncWord w = false := by
      intro w hw
      obtain ⟨m, hm, rfl⟩ := List.mem_map.mp hw
      have hmn := List.mem_range.mp hm
      rw [← Bool.not_eq_true, isSyncWord_iff]
      exact fun hk => hmn.ne (hunique m n (hmn.trans hn) hn hk hkind)
    obtain ⟨post, hpost⟩ := gFields_split hn
    have hwidth : widthToSync (gFields gm) = some ((List.range (n + 1)).map fun m => descW (gField gm m)).sum := by
      rw [hpost, widthToSync_append hbefore ((isSyncWord_iff _).mpr hkind), List.range_succ]
      simp [Function.comp_def]
    rw [checkG5, hwidth]
    simp only [decide_eq_true_eq]
    constructor
    · intro h
      refine ⟨fun m hm hk => ?_, fun hnone => absurd hkind (hnone n hn)⟩
      rw [hunique m n hm hn hk hkind, h]
    · exact fun h => h.1 n hn hkind
  · simp only [not_exists, not_and] at hsync
    have hwidth : widthToSync (gFields gm) = none := by
      refine widthToSync_eq_none fun w hw => ?_
      obtain ⟨m, hm, rfl⟩ := List.mem_map.mp hw
      rw [← Bool.not_eq_true, isSyncWord_iff]
      exact hsync m (List.mem_range.mp hm)
    rw [checkG5, hwidth]
    simp only [Bool.and_eq_true, decide_eq_true_eq]
    exact ⟨fun h => ⟨fun n hn hk => absurd hk (hsync n hn), fun _ => h⟩, fun h => h.2 hsync⟩

/-! ### G6: voice segments -/

/-- One descriptor takes the expected base of the next voice segment from `a` to `b` (check G6). -/
def VoiceStep (vlen : Nat) (w : Word) (a b : Nat) : Prop :=
  (¬ w.extractLsb' 28 4 = 0x3#4 → b = a)
    ∧ (w.extractLsb' 28 4 = 0x3#4 → (w.extractLsb' 20 6).toNat = a
      ∧ if w.getLsbD 26 then (w.extractLsb' 20 6).toNat + descW w = vlen ∧ b = 0
        else b = (w.extractLsb' 20 6).toNat + descW w)

theorem voiceNested_cons (vlen a : Nat) (w : Word) (ws : List Word) :
    voiceNested vlen a (w :: ws) = true ↔ ∃ b, VoiceStep vlen w a b ∧ voiceNested vlen b ws = true := by
  unfold VoiceStep
  by_cases hk : w.extractLsb' 28 4 = 0x3#4
  · have hkind : (descKind w == 0x3#4) = true := beq_iff_eq.mpr hk
    simp only [voiceNested, hkind, if_true, Bool.and_eq_true, decide_eq_true_eq, hk, not_true_eq_false, false_implies,
      true_implies, true_and, and_assoc, exists_and_left]
    refine and_congr_right fun _ => ?_
    cases w.getLsbD 26 with
    | false =>
      simp only [Bool.false_eq_true, if_false, exists_eq_left]
      rfl
    | true =>
      simp only [if_true, Bool.and_eq_true, decide_eq_true_eq, and_assoc, exists_and_left, exists_eq_left]
      rfl
  · have hkind : (descKind w == 0x3#4) = false := beq_eq_false_iff_ne.mpr hk
    simp [voiceNested, hkind, hk]

theorem voiceNested_iff (vlen a : Nat) (ws : List Word) :
    voiceNested vlen a ws = true ↔
      ∃ next : Nat → Nat, next 0 = a ∧ next ws.length = 0
        ∧ ∀ n (hn : n < ws.length), VoiceStep vlen ws[n] (next n) (next (n + 1)) := by
  induction ws generalizing a with
  | nil =>
    simp only [voiceNested, decide_eq_true_eq, List.length_nil, Nat.not_lt_zero, IsEmpty.forall_iff, implies_true, and_true]
    exact ⟨fun h => ⟨fun _ => 0, h.symm, rfl⟩, fun ⟨next, h0, hend⟩ => h0.symm.trans hend⟩
  | cons w ws ih =>
    simp only [voiceNested_cons, ih]
    constructor
    · rintro ⟨b, hstep, next, rfl, hend, hrest⟩
      refine ⟨fun n => n.casesOn a next, rfl, hend, fun n hn => ?_⟩
      cases n with
      | zero => exact hstep
      | succ n => exact hrest n (Nat.lt_of_succ_lt_succ hn)
    · rintro ⟨next, rfl, hend, hsteps⟩
      exact ⟨next 1, hsteps 0 (Nat.succ_pos _), fun n => next (n + 1), rfl, hend,
        fun n hn => hsteps (n + 1) (Nat.succ_lt_succ hn)⟩

theorem checkG6_iff (gm : Mem Word) :
    checkG6 gm = true ↔
      ∃ next : Nat → Nat, next 0 = 0 ∧ next (gNfield gm) = 0
        ∧ ∀ n, n < gNfield gm → VoiceStep (gVlen gm) (gField gm n) (next n) (next (n + 1)) := by
  simp [checkG6, voiceNested_iff, gFields]

/-! ### G7 to G10 -/

theorem checkG7_iff (P : Params) (gm : Mem Word) :
    checkG7 P gm = true ↔ ∀ n, n < gNfield gm → descW (gField gm n) ≤ P.dbufCap := by
  simp only [checkG7, all_gFields_iff, decide_eq_true_eq]

theorem checkG8_iff (gm : Mem Word) :
    checkG8 gm = true ↔
      ∀ k, k < gNsync gm → (∀ i, gSyncw gm ≤ i → i < 32 → gPat gm k i = 0) ∧ 1 ≤ (gType gm k).toNat
        ∧ ZeroBits (gmRead gm (0x052 + 4 * k)) 1 3 ∧ ZeroBits (gmRead gm (0x052 + 4 * k)) 8 31
        ∧ gmRead gm (0x053 + 4 * k) = 0 := by
  simp only [checkG8, legalSyncEntry, List.all_eq_true, List.mem_range, Bool.and_eq_true, Bool.or_eq_true, decide_eq_true_eq,
    beq_iff_eq]
  refine forall_congr' fun k => imp_congr_right fun _ => ?_
  rw [and_eq_zero_iff_zeroBits (m := 0xFFFFFF0E#32) [(1, 3), (8, 31)] (by decide)]
  simp only [List.Forall]
  have hpat : (∀ i < 32, i < gSyncw gm ∨ gPat gm k i = 0#2) ↔ ∀ i, gSyncw gm ≤ i → i < 32 → gPat gm k i = 0 := by
    refine forall_congr' fun i => ⟨fun h hge hi => (h hi).resolve_left hge.not_gt, fun h hi => ?_⟩
    exact (Nat.lt_or_ge i (gSyncw gm)).imp_right fun hge => h hge hi
  rw [hpat]
  tauto

theorem checkG9_iff (gm : Mem Word) :
    checkG9 gm = true ↔
      ∀ k, k < gVlen gm → gVtabXc gm k ≤ 23 ∧ gVtabZc gm k ≤ 23
        ∧ ZeroBits (gmRead gm (0x080 + k)) 7 7 ∧ ZeroBits (gmRead gm (0x080 + k)) 15 31 := by
  simp only [checkG9, List.all_eq_true, List.mem_range, Bool.and_eq_true, decide_eq_true_eq, beq_iff_eq, and_assoc]
  refine forall_congr' fun k => imp_congr_right fun _ => ?_
  rw [and_eq_zero_iff_zeroBits (m := 0xFFFF8080#32) [(7, 7), (15, 31)] (by decide)]
  simp only [List.Forall]

theorem checkG10_iff {gm : Mem Word} (hspan : (gSigLast gm).toNat ≤ 5) :
    checkG10 gm = true ↔
      ∀ n, n < gNwire gm → (gDiscBurst gm).toNat ≤ (wireJw (gWire gm n)).toNat
        ∧ (wireJw (gWire gm n)).toNat ≤ (gSigLast gm).toNat ∧ wireSrc (gWire gm n) < gSyncw gm
        ∧ ZeroBits (gWire gm n) 23 31 := by
  simp only [checkG10, all_gWires_iff, Bool.and_eq_true, decide_eq_true_eq, beq_iff_eq]
  refine forall_congr' fun n => imp_congr_right fun _ => ?_
  rw [and_eq_zero_iff_zeroBits (m := 0xFF800000#32) [(23, 31)] (by decide)]
  constructor
  · rintro ⟨⟨⟨⟨-, hlo⟩, hhi⟩, hsrc⟩, hzero⟩
    exact ⟨hlo, hhi, hsrc, hzero⟩
  · rintro ⟨hlo, hhi, hsrc, hzero⟩
    exact ⟨⟨⟨⟨hhi.trans hspan, hlo⟩, hhi⟩, hsrc⟩, hzero⟩

/-- The ten checks pass exactly for the grammars that keep the bounds of rule R125. -/
theorem grammarOk_iff (P : Params) (gm : Mem Word) : grammarOk P gm = true ↔ GrammarAccepted P gm := by
  have hsplit : grammarOk P gm = true ↔ checkG1 P gm = true ∧ checkG2 gm = true ∧ checkG3 gm = true ∧ checkG4 gm = true
      ∧ checkG5 gm = true ∧ checkG6 gm = true ∧ checkG7 P gm = true ∧ checkG8 gm = true ∧ checkG9 gm = true
      ∧ checkG10 gm = true := by
    simp only [grammarOk, Bool.and_eq_true, and_assoc]
  rw [hsplit]
  constructor
  · rintro ⟨h1, h2, h3, h4, h5, h6, h7, h8, h9, h10⟩
    have hG2 := (checkG2_iff gm).mp h2
    have ⟨_, hspan, _⟩ := hG2
    obtain ⟨hlookback, hnosync⟩ := (checkG5_iff h4).mp h5
    exact ⟨(checkG1_iff P gm).mp h1, hG2, (checkG3_iff gm).mp h3, (checkG4_iff gm).mp h4, hlookback, hnosync,
      (checkG6_iff gm).mp h6, (checkG7_iff P gm).mp h7, (checkG8_iff gm).mp h8, (checkG9_iff gm).mp h9,
      (checkG10_iff hspan).mp h10⟩
  · rintro ⟨h1, h2, h3, h4, hlookback, hnosync, h6, h7, h8, h9, h10⟩
    have hG4 := (checkG4_iff gm).mpr h4
    have ⟨_, hspan, _⟩ := h2
    exact ⟨(checkG1_iff P gm).mpr h1, (checkG2_iff gm).mpr h2, (checkG3_iff gm).mpr h3, hG4,
      (checkG5_iff hG4).mpr ⟨hlookback, hnosync⟩, (checkG6_iff gm).mpr h6, (checkG7_iff P gm).mpr h7,
      (checkG8_iff gm).mpr h8, (checkG9_iff gm).mpr h9, (checkG10_iff hspan).mpr h10⟩

/-! ### G11 -/

/-- The order of the finite values is the order of their magnitude bits, signed. -/
theorem f32Key_le_iff (a b : Word) : f32Key a ≤ f32Key b ↔ f32Int a ≤ f32Int b := by
  have hmono := magUnits_strictMono.le_iff_le (a := f32Mag a) (b := f32Mag b)
  have hmono' := magUnits_strictMono.le_iff_le (a := f32Mag b) (b := f32Mag a)
  have hzero : ∀ m, magUnits m = 0 ↔ m = 0 := fun m => magUnits_strictMono.injective.eq_iff' magUnits_zero
  have ha := hzero (f32Mag a)
  have hb := hzero (f32Mag b)
  unfold f32Key f32Int
  rw [f32Units_eq, f32Units_eq]
  split <;> split <;> omega

theorem fle_iff_of_finite {a b : Word} (ha : f32IsFinite a = true) (hb : f32IsFinite b = true) :
    fle a b = true ↔ f32Int a ≤ f32Int b := by
  simp [fle, f32IsNaN_of_finite ha, f32IsNaN_of_finite hb, f32Key_le_iff]

theorem configOk_iff (center umid lmid band : Word) :
    configOk center umid lmid band = true ↔ ConfigAccepted center umid lmid band := by
  have hzero : f32IsFinite 0#32 = true := by decide
  have hint : f32Int 0#32 = 0 := by decide
  simp only [configOk, ConfigAccepted, Bool.and_eq_true, Bool.or_eq_true, beq_iff_eq, and_assoc]
  refine and_congr_right fun hcenter => and_congr_right fun humid => and_congr_right fun hlmid => ?_
  rw [fle_iff_of_finite hlmid hcenter, fle_iff_of_finite hcenter humid]
  refine and_congr_right fun _ => and_congr_right fun _ => or_congr_right (and_congr_right fun hband => ?_)
  rw [fle_iff_of_finite hzero hband, hint]


/-! ### What the accepted grammars give -/

/-- Every word of a validated pass decodes to a descriptor that fits the grammar (check G3). -/
theorem decodes_of_grammarOk {P : Params} {gm : Mem Word} (hok : grammarOk P gm = true) {f : Nat} (hf : f < gNfield gm) :
    ∃ i, decodeDescriptor (gField gm f) = .ok i ∧ i.fits (gVlen gm) (gSyncw gm) = true :=
  (legalDescriptor_iff gm _).mp ((checkG3_iff gm).mp (checkG3_of_grammarOk hok) f hf)

theorem engineChoice_eq_reserved {s : State} {w : Word} (h : engineChoice Config.params s = .reserved w) :
    s.halted = false ∧ ∃ e, decodeDescriptor (gField s.gm s.f.toNat) = .error e := by
  unfold engineChoice at h
  split at h
  · cases h
  next hrun =>
    refine ⟨by simpa using hrun, ?_⟩
    split at h
    · split at h
      next e he => exact ⟨e, he⟩
      next =>
        split at h
        · split at h <;> cases h
        · cases h
    · unfold sampleChoice at h
      split at h
      · cases h
      · split at h <;> cases h

/-- A legal state fetches no reserved descriptor: check G3 has decoded every word of the pass (rule R109). -/
theorem engineChoice_ne_reserved {s : State} (hs : GrammarLegal s) (w : Word) :
    engineChoice Config.params s ≠ .reserved w := by
  intro h
  obtain ⟨hrun, e, he⟩ := engineChoice_eq_reserved h
  obtain ⟨hvalid, hgrammar, -⟩ := hs
  obtain ⟨hok, -, hf⟩ := hgrammar (hvalid hrun)
  obtain ⟨i, hi, -⟩ := decodes_of_grammarOk hok hf
  cases he.symm.trans hi

/-- Only the engine's turn can come to a reserved descriptor. -/
theorem engineChoice_of_fetch_reserved {s : State} {w : Word} (h : fetch Config.env s = .reserved w) :
    engineChoice Config.params (takeTurn s) = .reserved w := by
  rw [fetch, Config.env_params] at h
  cases hagent : nextAgent Config.params s <;> rw [hagent] at h
  case por => cases h
  case producer =>
    rw [fetchFor, fetchP] at h
    split at h <;> cases h
  case consumer =>
    rw [fetchFor, fetchQ] at h
    split at h
    · cases h
    · cases h
    · split at h <;> cases h
  case engine =>
    rw [fetchFor, fetchEngine, Config.env_params] at h
    split at h <;> cases h
    assumption

end Sys2Proof.Machine

open Sys2Proof Sys2Proof.Machine

/-- Settles O15: `grammarOk_iff` check by check, `configOk_iff` by the order of the finite values. -/
theorem startChecksAccept : Obligations.StartChecksAccept := ⟨grammarOk_iff, configOk_iff⟩

/-- Settles O50: the one fault needs an engine that fetches a reserved descriptor, which a legal state does not. -/
theorem neverStuck : Obligations.NeverStuck := by
  intro s hs
  obtain ⟨t, -, ht⟩ | ⟨i, t, -, ht⟩ | ⟨w, hw, -⟩ := step_cases s
  · exact ⟨t, ht⟩
  · exact ht ▸ exec_next i t
  · exact absurd (engineChoice_of_fetch_reserved hw) (engineChoice_ne_reserved (s := takeTurn s) hs w)

/-- Settles O51: the bounds are those of checks G1, G2, G3, G5, G7, G9 and G10. -/
theorem grammarBounds : Obligations.GrammarBounds := by
  intro P gm hok
  obtain ⟨hG1, hG2, -, -, -, -, -, -, -, hG9, hG10⟩ := (grammarOk_iff P gm).mp hok
  obtain ⟨-, -, -, -, -, -, -, -, hlookback, -⟩ := hG1
  obtain ⟨-, -, -, hd1, hd0, -, -⟩ := hG2
  refine ⟨hlookback, fun f hf => ?_⟩
  obtain ⟨i, hi, hfits⟩ := decodes_of_grammarOk hok hf
  obtain ⟨hwf, hencode⟩ := encode_of_decodeDescriptor hi
  refine ⟨i, hi, descW_le_of_grammarOk hok hf, ?_, ?_, ?_⟩
  · rintro prot idx half w rfl
    simp only [Instr.wf, Bool.and_eq_true, decide_eq_true_eq] at hwf
    exact hwf.2
  · rintro prot last base w rfl k hlow hhigh
    have hk : k < gVlen gm := hhigh.trans_le (of_decide_eq_true hfits)
    obtain ⟨hxc, hzc, -⟩ := hG9 k hk
    exact ⟨hk, hxc, hzc⟩
  · rintro prot w rfl
    have hw : w.toNat = gSyncw gm := of_decide_eq_true hfits
    rw [hw]
    refine ⟨rfl, gSyncw_le_gLookback hok ⟨f, hf, ?_⟩, hd1, hd0, fun e he => ?_⟩
    · obtain ⟨hkind, -⟩ := (eq_descriptorWord_iff ..).mp (List.cons.inj hencode).1.symm
      exact (isSyncWord_iff _).mpr hkind
    · obtain ⟨n, hn, rfl⟩ := List.mem_map.mp he
      obtain ⟨-, -, hsrc, -⟩ := hG10 n (List.mem_range.mp hn)
      exact hsrc
end

section
/-!
SUPPORT. Which words of grammar memory the machine reads (rules R111 to R120): every operation gives the same for two grammar
memories that agree on the words that are not ignored, and leaves grammar memory as it is, WRGM apart.
-/
namespace Sys2Proof.Machine

/-! ### Grammars that agree on the words that are read -/

/-- Two grammar memories agree but for the words that the first ignores (rule R120). -/
def SameGrammar (gm g : Mem Word) : Prop := ∀ c, ¬ IgnoredWord gm c → gmRead g c = gmRead gm c

theorem SameGrammar.refl (gm : Mem Word) : SameGrammar gm gm := fun _ _ => rfl

theorem sameGrammar_memWrite {gm : Mem Word} {a : Nat} (ha : IgnoredWord gm a) (v : Word) :
    SameGrammar gm (memWrite gm a v) := by
  intro c hc
  rw [gmRead_memWrite, if_neg]
  rintro rfl
  exact hc ha

/-- The tables of a grammar stay within their places in the map (rule R111, check G1). -/
structure TablesFit (gm : Mem Word) : Prop where
  nfield : gNfield gm ≤ 64
  nsync : gNsync gm ≤ 8
  vlen : gVlen gm ≤ 48
  syncw : gSyncw gm ≤ 32
  nwire : gNwire gm ≤ 512

theorem tablesFit_of_checkG1 {gm : Mem Word} (h : checkG1 Config.params gm = true) : TablesFit gm := by
  obtain ⟨-, hnfield, hnsync, -, hvlen, -, hsyncw, hnwire, -⟩ := (checkG1_iff Config.params gm).mp h
  exact ⟨hnfield, hnsync, hvlen, hsyncw, hnwire⟩

theorem all_congr_of_mem {α : Type} {l : List α} {p q : α → Bool} (h : ∀ x ∈ l, p x = q x) : l.all p = l.all q := by
  rw [Bool.eq_iff_iff, List.all_eq_true, List.all_eq_true]
  exact forall₂_congr fun x hx => by rw [h x hx]

section sameGrammar
variable {gm g : Mem Word} (h : SameGrammar gm g)
include h

/-! #### The header -/

theorem SameGrammar.header {c : Nat} (hc : c < 4) : gmRead g c = gmRead gm c := h c (by unfold IgnoredWord; omega)

theorem SameGrammar.word0 : gmRead g 0x000 = gmRead gm 0x000 := h.header (by decide)
theorem SameGrammar.word1 : gmRead g 0x001 = gmRead gm 0x001 := h.header (by decide)
theorem SameGrammar.word2 : gmRead g 0x002 = gmRead gm 0x002 := h.header (by decide)
theorem SameGrammar.word3 : gmRead g 0x003 = gmRead gm 0x003 := h.header (by decide)

theorem SameGrammar.nfield : gNfield g = gNfield gm := by rw [gNfield, gNfield, h.word0]
theorem SameGrammar.nsync : gNsync g = gNsync gm := by rw [gNsync, gNsync, h.word0]
theorem SameGrammar.vlen : gVlen g = gVlen gm := by rw [gVlen, gVlen, h.word0]
theorem SameGrammar.syncw : gSyncw g = gSyncw gm := by rw [gSyncw, gSyncw, h.word0]
theorem SameGrammar.lookback : gLookback g = gLookback gm := by rw [gLookback, gLookback, h.word1]
theorem SameGrammar.nwire : gNwire g = gNwire gm := by rw [gNwire, gNwire, h.word1]
theorem SameGrammar.discBurst : gDiscBurst g = gDiscBurst gm := by rw [gDiscBurst, gDiscBurst, h.word2]
theorem SameGrammar.sigLast : gSigLast g = gSigLast gm := by rw [gSigLast, gSigLast, h.word2]
theorem SameGrammar.encMask (v : Dibit) : gEncMask g v = gEncMask gm v := by rw [gEncMask, gEncMask, h.word2]
theorem SameGrammar.syncExpect (j : BitVec 3) : gSyncExpect g j = gSyncExpect gm j := by
  rw [gSyncExpect, gSyncExpect, h.word2]
theorem SameGrammar.fold (d : Dibit) : gFold g d = gFold gm d := by rw [gFold, gFold, h.word3]

theorem SameGrammar.d1Idx : gD1Idx g = gD1Idx gm := by rw [gD1Idx, gD1Idx, h.word2]
theorem SameGrammar.d1Half : gD1Half g = gD1Half gm := by rw [gD1Half, gD1Half, h.word2]
theorem SameGrammar.d0Idx : gD0Idx g = gD0Idx gm := by rw [gD0Idx, gD0Idx, h.word2]
theorem SameGrammar.d0Half : gD0Half g = gD0Half gm := by rw [gD0Half, gD0Half, h.word2]
theorem SameGrammar.tgLo : gTgLo g = gTgLo gm := by rw [gTgLo, gTgLo, h.word2]
theorem SameGrammar.tgW : gTgW g = gTgW gm := by rw [gTgW, gTgW, h.word2]

theorem SameGrammar.tgid (payload : BitVec 128) : tgidView g payload = tgidView gm payload := by
  rw [tgidView, tgidView, h.tgW, h.tgLo]

theorem SameGrammar.legalDescriptor (w : Word) : legalDescriptor g w = legalDescriptor gm w := by
  simp only [Machine.legalDescriptor, h.vlen, h.syncw]

/-! #### The tables -/

variable (fit : TablesFit gm)
include fit

theorem SameGrammar.field {f : Nat} (hf : f < gNfield gm) : gField g f = gField gm f := by
  have := fit.nfield
  exact h _ (by unfold IgnoredWord; omega)

theorem SameGrammar.syncWord {k i : Nat} (hk : k < gNsync gm) (hi : i < 4) :
    gmRead g (0x050 + i + 4 * k) = gmRead gm (0x050 + i + 4 * k) := by
  have := fit.nsync
  exact h _ (by unfold IgnoredWord; omega)

theorem SameGrammar.pat {k i : Nat} (hk : k < gNsync gm) (hi : i < 32) : gPat g k i = gPat gm k i := by
  have hword := h.syncWord fit hk (i := i / 16) (by omega)
  rw [show 0x050 + i / 16 + 4 * k = 0x050 + 4 * k + i / 16 by omega] at hword
  rw [gPat, gPat, hword]

theorem SameGrammar.classData {k : Nat} (hk : k < gNsync gm) : gClassData g k = gClassData gm k :=
  congrArg (BitVec.getLsbD · 0) (h.syncWord fit hk (i := 2) (by decide))

theorem SameGrammar.type {k : Nat} (hk : k < gNsync gm) : gType g k = gType gm k :=
  congrArg (bits · 4 4) (h.syncWord fit hk (i := 2) (by decide))

theorem SameGrammar.vtabWord {k : Nat} (hk : k < gVlen gm) : gmRead g (0x080 + k) = gmRead gm (0x080 + k) := by
  have := fit.vlen
  exact h _ (by unfold IgnoredWord; omega)

theorem SameGrammar.wire {n : Nat} (hn : n < gNwire gm) : gWire g n = gWire gm n := by
  have := fit.nwire
  exact h _ (by unfold IgnoredWord; omega)

theorem SameGrammar.fields : gFields g = gFields gm := by
  rw [gFields, gFields, h.nfield]
  exact List.map_congr_left fun f hf => h.field fit (List.mem_range.mp hf)

theorem SameGrammar.wires : gWires g = gWires gm := by
  rw [gWires, gWires, h.nwire]
  exact List.map_congr_left fun n hn => h.wire fit (List.mem_range.mp hn)

/-- The sync test reads no more than the patterns of the entries below `NSYNC` (rules R117, R122). -/
theorem SameGrammar.syncMatch {r : List Dibit} (hr : r.length ≤ 32) : syncMatch g r = syncMatch gm r := by
  rw [Machine.syncMatch, Machine.syncMatch, h.nsync]
  refine List.find?_congr fun k hk => all_congr_of_mem fun e he => ?_
  have hi : e.2 < r.length := (List.mem_zipIdx' he).1
  rw [h.fold, h.pat fit (List.mem_range.mp hk) (hi.trans_le hr)]

/-- Placement reads no more than the voice table's entries of the segment (rule R118). -/
theorem SameGrammar.placeDibits {k : Nat} {ds : List Dibit} (hk : k + ds.length ≤ gVlen gm)
    (vm : Vector (BitVec 24) 4) : placeDibits g k ds vm = placeDibits gm k ds vm := by
  induction ds generalizing k vm with
  | nil => rfl
  | cons d ds ih =>
    rw [List.length_cons] at hk
    have hword := h.vtabWord fit (show k < gVlen gm by omega)
    have hplace : placeDibit g k d vm = placeDibit gm k d vm := by
      simp only [placeDibit, gVtabWr, gVtabXc, gVtabYr, gVtabZc, hword]
    rw [Machine.placeDibits, Machine.placeDibits, hplace, ih (by omega)]

theorem SameGrammar.legalSyncEntry {k : Nat} (hk : k < gNsync gm) : legalSyncEntry g k = legalSyncEntry gm k := by
  have hpat : ((List.range 32).all fun i => decide (i < gSyncw g) || gPat g k i == 0#2)
      = (List.range 32).all fun i => decide (i < gSyncw gm) || gPat gm k i == 0#2 :=
    all_congr_of_mem fun i hi => by rw [h.syncw, h.pat fit hk (List.mem_range.mp hi)]
  have hword2 : gmRead g (0x052 + 4 * k) = gmRead gm (0x052 + 4 * k) := h.syncWord fit hk (i := 2) (by decide)
  have hword3 : gmRead g (0x053 + 4 * k) = gmRead gm (0x053 + 4 * k) := h.syncWord fit hk (i := 3) (by decide)
  rw [Machine.legalSyncEntry, Machine.legalSyncEntry, hpat, hword2, hword3, h.type fit hk]

end sameGrammar

/-! #### The START checks -/

/-- The checks read no ignored word, whatever they answer (rules R120, R125). -/
theorem SameGrammar.grammarOk {gm g : Mem Word} (h : SameGrammar gm g) :
    grammarOk Config.params g = grammarOk Config.params gm := by
  have hG1 : checkG1 Config.params g = checkG1 Config.params gm := by
    simp only [checkG1, h.nfield, h.nsync, h.vlen, h.syncw, h.nwire, h.lookback, h.word0, h.word1, h.word3]
  cases hok : checkG1 Config.params gm with
  | false => simp [Machine.grammarOk, hG1, hok]
  | true =>
    have fit := tablesFit_of_checkG1 hok
    have hG2 : checkG2 g = checkG2 gm := by
      simp only [checkG2, h.discBurst, h.sigLast, h.syncw, h.d1Idx, h.d0Idx, h.tgW, h.tgLo]
    have hG3 : checkG3 g = checkG3 gm := by
      rw [checkG3, checkG3, h.fields fit]
      exact all_congr_of_mem fun w _ => h.legalDescriptor w
    have hG5 : checkG5 g = checkG5 gm := by
      simp only [checkG5, h.fields fit, h.lookback, h.nsync, h.nwire]
    have hG8 : checkG8 g = checkG8 gm := by
      rw [checkG8, checkG8, h.nsync]
      exact all_congr_of_mem fun k hk => h.legalSyncEntry fit (List.mem_range.mp hk)
    have hG9 : checkG9 g = checkG9 gm := by
      rw [checkG9, checkG9, h.vlen]
      refine all_congr_of_mem fun k hk => ?_
      rw [gVtabXc, gVtabXc, gVtabZc, gVtabZc, h.vtabWord fit (List.mem_range.mp hk)]
    have hG10 : checkG10 g = checkG10 gm := by
      simp only [checkG10, h.wires fit, h.discBurst, h.sigLast, h.syncw]
    simp only [Machine.grammarOk, hG1, hG2, hG3, hG5, hG8, hG9, hG10, checkG4, checkG6, checkG7, h.fields fit, h.vlen]

end Sys2Proof.Machine
end

section
/-!
SUPPORT. What grammar memory's ignored words have no part in: each operation, each instruction, each turn (rule R120).
-/
namespace Sys2Proof.Machine

/-! ### Operations that do not depend on the ignored words -/

/-- The state with its grammar memory replaced. -/
def withGm (g : Mem Word) (s : State) : State := { s with gm := g }

/-- An operation does the same whatever the ignored words of the grammar are, and leaves grammar memory as it is. -/
def GrammarBlind (op : State → State) (s : State) : Prop :=
  ∀ g, SameGrammar s.gm g → op (withGm g s) = withGm g (op s)

theorem GrammarBlind.gm_eq {op : State → State} {s : State} (h : GrammarBlind op s) : (op s).gm = s.gm :=
  (congrArg State.gm (h s.gm (.refl _)) :)

theorem GrammarBlind.comp {f op : State → State} {s : State} (hf : GrammarBlind f s) (hop : GrammarBlind op (f s)) :
    GrammarBlind (fun s => op (f s)) s := by
  intro g hg
  dsimp only
  rw [hf g hg, hop g (hf.gm_eq ▸ hg)]

theorem GrammarBlind.id (s : State) : GrammarBlind (fun s => s) s := fun _ _ => rfl

/-- A choice that the grammar has no part in. -/
theorem GrammarBlind.ite {f op : State → State} {s : State} (c : Prop) [Decidable c] (hf : GrammarBlind f s)
    (hop : GrammarBlind op s) : GrammarBlind (fun s => if c then f s else op s) s := by
  intro g hg
  dsimp only
  rw [hf g hg, hop g hg, apply_ite (withGm g)]

/-! #### Training and `Protect` -/

theorem trainFrom_withGm (env : Env) (before : Option Dibit) (l : List (Dibit × Dibit × Word)) (g : Mem Word) (s : State) :
    trainFrom env before l (withGm g s) = withGm g (trainFrom env before l s) := by
  induction l generalizing before s with
  | nil => rfl
  | cons e l ih =>
    obtain ⟨raw, corr, a⟩ := e
    have hctx : ctxEn (withGm g s) = ctxEn s := rfl
    have hupdate : ∀ p, update env p raw corr a (withGm g s) = withGm g (update env p raw corr a s) := fun _ => rfl
    simp only [trainFrom, hctx, hupdate]
    cases ctxEn s with
    | false => exact ih _ _
    | true =>
      cases before with
      | none => exact ih _ _
      | some p => exact ih _ _

theorem trainField_withGm (env : Env) (field : List DbEntry) (c : List Dibit) (g : Mem Word) (s : State) :
    trainField env field c (withGm g s) = withGm g (trainField env field c s) := trainFrom_withGm ..

/-- `Protect` asks and trains the same whatever the grammar (rule R227). -/
theorem protect_withGm (env : Env) (kind : BitVec 4) (prot : Bool) (field : List DbEntry) (g : Mem Word) (s : State) :
    protect env kind prot field (withGm g s) =
      { protect env kind prot field s with after := withGm g (protect env kind prot field s).after } := by
  cases prot with
  | false => rfl
  | true =>
    cases hok : (env.fec (fecQuery kind field s)).ok with
    | false => rw [protect_failed env kind field s hok, protect_failed env kind field (withGm g s) hok]; rfl
    | true =>
      have hquery : fecQuery kind field (withGm g s) = fecQuery kind field s := rfl
      have hask : ∀ q answer, fecTranscript q answer (withGm g s) = withGm g (fecTranscript q answer s) := fun _ _ => rfl
      rw [protect_confirmed env kind field s hok, protect_confirmed env kind field (withGm g s) hok, hquery, hask,
        trainField_withGm]

theorem length_protect_content (env : Env) (kind : BitVec 4) (prot : Bool) (field : List DbEntry) (s : State) :
    (protect env kind prot field s).content.length = field.length := by
  cases prot with
  | false => exact List.length_map ..
  | true =>
    cases hok : (env.fec (fecQuery kind field s)).ok with
    | false => rw [protect_failed env kind field s hok]; exact List.length_map ..
    | true => rw [protect_confirmed env kind field s hok]; exact length_correctedDibits ..

/-! #### Descriptors -/

theorem advance_blind (P : Params) (w : BitVec 10) (s : State) : GrammarBlind (advance P w) s := by
  intro g hg
  have hlast : lastField (withGm g s) = lastField s := by
    rw [lastField, lastField, ← hg.nfield]
    rfl
  simp only [advance, hlast]
  rfl

theorem cachField_blind (env : Env) (prot : Bool) (slotIdx : BitVec 6) (slotHalf : Bool) (w : BitVec 10) (s : State) :
    GrammarBlind (cachField env prot slotIdx slotHalf w) s := by
  refine GrammarBlind.comp (op := advance env.params w) (fun g _ => ?_) (advance_blind _ _ _)
  have hread : readField env.params (withGm g s) w = readField env.params s w := rfl
  dsimp only
  rw [hread, protect_withGm, apply_ite (withGm g)]
  rfl

theorem voiceBegin_blind (base : BitVec 6) (s : State) : GrammarBlind (voiceBegin base) s := by
  intro g _
  rw [voiceBegin, voiceBegin, apply_ite (withGm g)]
  rfl

theorem emitVoice_blind (s : State) : GrammarBlind emitVoice s := by
  intro g _
  rw [emitVoice, emitVoice, apply_ite (withGm g)]
  rfl

theorem voicePlace_blind (env : Env) (prot : Bool) {base : BitVec 6} {field : List DbEntry} {s : State} (fit : TablesFit s.gm)
    (hfield : base.toNat + field.length ≤ gVlen s.gm) : GrammarBlind (voicePlace env prot base field) s := by
  intro g hg
  unfold voicePlace
  dsimp only
  rw [protect_withGm, apply_ite (withGm g)]
  have hplace := hg.placeDibits fit (ds := (protect env 0x3#4 prot field s).content) (k := base.toNat)
    (by rw [length_protect_content]; exact hfield) (protect env 0x3#4 prot field s).after.vm
  congr 1
  simp only [withGm, protect_after_gm, hplace]

theorem voiceField_blind (env : Env) (prot last : Bool) {base : BitVec 6} {w : BitVec 10} {s : State} (fit : TablesFit s.gm)
    (hsegment : base.toNat + w.toNat ≤ gVlen s.gm) : GrammarBlind (voiceField env prot last base w) s := by
  refine GrammarBlind.comp (op := advance env.params w) (GrammarBlind.comp (op := fun t => if last then emitVoice t else t)
    (fun g hg => ?_) ?_) (advance_blind _ _ _)
  · have hread : readField env.params (withGm g s) w = readField env.params s w := rfl
    have hbegin := (voiceBegin_blind base s).gm_eq
    have hplace := voicePlace_blind env prot (field := readField env.params s w) (hbegin.symm ▸ fit)
      (by rw [length_readField, hbegin]; exact hsegment)
    rw [hread, voiceBegin_blind base s g hg, hplace g (hbegin.symm ▸ hg)]
  · exact .ite _ (emitVoice_blind _) (.id _)

theorem setSlotStatus_blind (code : BitVec 2) (s : State) : GrammarBlind (setSlotStatus code) s := by
  intro g _
  rw [setSlotStatus, setSlotStatus, apply_ite (withGm g)]
  rfl

theorem syncMatched_blind {k : Nat} {s : State} (fit : TablesFit s.gm) (hk : k < gNsync s.gm) :
    GrammarBlind (syncMatched k) s := by
  intro g hg
  have hdata : gClassData (withGm g s).gm k = gClassData s.gm k := hg.classData fit hk
  have htype : gType (withGm g s).gm k = gType s.gm k := hg.type fit hk
  rw [syncMatched, syncMatched, apply_ite (withGm g), hdata, htype, setSlotStatus_blind _ s g hg, setSlotStatus_blind _ s g hg]
  rfl

theorem sigWire_blind (P : Params) (content : List Dibit) {s : State} (fit : TablesFit s.gm) :
    GrammarBlind (sigWire P content) s := by
  intro g hg
  have hwires : gWires (withGm g s).gm = gWires s.gm := hg.wires fit
  rw [sigWire, sigWire, apply_ite (withGm g), hwires]
  rfl

theorem sigDisc_blind (content : List Dibit) (s : State) : GrammarBlind (sigDisc content) s := by
  intro g hg
  simp only [sigDisc, withGm, hg.d1Idx, hg.d1Half, hg.d0Idx, hg.d0Half]

theorem sigBurst_blind (env : Env) (prot : Bool) (field : List DbEntry) {s : State} (fit : TablesFit s.gm) :
    GrammarBlind (sigBurst env prot field) s := by
  intro g hg
  generalize hp : protect env 0x4#4 prot field s = p
  have hgm : p.after.gm = s.gm := by rw [← hp, protect_after_gm]
  have hburst : gDiscBurst (withGm g s).gm = gDiscBurst s.gm := hg.discBurst
  have hdisc : GrammarBlind (fun t => if s.j = gDiscBurst s.gm then sigDisc p.content t else t) p.after :=
    .ite _ (sigDisc_blind _ _) (.id _)
  have hfit : TablesFit (if s.j = gDiscBurst s.gm then sigDisc p.content p.after else p.after).gm := by
    have hkept := hdisc.gm_eq.trans hgm
    rw [hkept]
    exact fit
  have hwire := GrammarBlind.comp hdisc (sigWire_blind env.params p.content hfit) g (hgm ▸ hg)
  unfold sigBurst
  dsimp only at hwire ⊢
  rw [protect_withGm, hp, hburst, apply_ite (withGm g), ← hwire]
  rfl

theorem sigComplete_blind (s : State) : GrammarBlind sigComplete s := by
  intro g hg
  have hmask : gEncMask (withGm g s).gm s.disc = gEncMask s.gm s.disc := hg.encMask s.disc
  rw [sigComplete, sigComplete, apply_ite (withGm g), apply_ite (withGm g), ← hmask]
  rfl

theorem syncMatch_lt {gm : Mem Word} {r : List Dibit} {k : Nat} (h : syncMatch gm r = some k) : k < gNsync gm :=
  List.mem_range.mp (List.mem_of_find?_eq_some h)

theorem inSpan_withGm {g : Mem Word} {s : State} (hg : SameGrammar s.gm g) : inSpan (withGm g s) = inSpan s := by
  simp only [inSpan, withGm, hg.discBurst, hg.sigLast]

/-- A SYNC field that no entry matches is counted in the bursts that expect one (rule R237). -/
def syncMissed (env : Env) (s : State) : State :=
  if gSyncExpect s.gm s.j then { s with syncMiss := satInc env.params s.syncMiss } else s

theorem syncBody_of_noMatch (env : Env) (prot : Bool) {field : List DbEntry} {s : State}
    (h : syncMatch s.gm (field.map DbEntry.d) = none) :
    syncBody env prot field s =
      if inSpan s then sigBurst env prot field (syncMissed env s) else syncMissed env s := by
  rw [syncBody, h]
  rfl

theorem syncMissed_blind (env : Env) (s : State) : GrammarBlind (syncMissed env) s := by
  intro g hg
  have hexpect : gSyncExpect (withGm g s).gm s.j = gSyncExpect s.gm s.j := hg.syncExpect s.j
  rw [syncMissed, syncMissed, apply_ite (withGm g), ← hexpect]
  rfl

theorem syncBody_blind (env : Env) (prot : Bool) {field : List DbEntry} {s : State} (fit : TablesFit s.gm)
    (hfield : field.length ≤ 32) : GrammarBlind (syncBody env prot field) s := by
  intro g hg
  have hmatch : syncMatch (withGm g s).gm (field.map DbEntry.d) = syncMatch s.gm (field.map DbEntry.d) :=
    hg.syncMatch fit (by rwa [List.length_map])
  cases hk : syncMatch s.gm (field.map DbEntry.d) with
  | some k =>
    have hmatched := syncMatched_blind fit (syncMatch_lt hk) g hg
    rw [syncBody, syncBody, hmatch, hk, inSpan_withGm hg]
    dsimp only
    rw [hmatched, apply_ite (withGm g)]
    rfl
  | none =>
    have hmiss := syncMissed_blind env s
    have hburst : GrammarBlind (sigBurst env prot field) (syncMissed env s) :=
      sigBurst_blind env prot field (hmiss.gm_eq.symm ▸ fit)
    rw [syncBody_of_noMatch env prot hk, syncBody_of_noMatch env prot (hmatch.trans hk), inSpan_withGm hg]
    exact (hmiss.comp (.ite (inSpan s = true) hburst (.id _))) g hg

/-- SYNC: signalling started, the body, signalling completed, `Advance` (rule R235). -/
theorem syncField_blind (env : Env) (prot : Bool) {w : BitVec 10} {s : State} (fit : TablesFit s.gm) (hw : w.toNat ≤ 32) :
    GrammarBlind (syncField env prot w) s := by
  intro g hg
  have hread : readField env.params (withGm g s) w = readField env.params s w := rfl
  have hburst : gDiscBurst (withGm g s).gm = gDiscBurst s.gm := hg.discBurst
  have hlast : gSigLast (withGm g s).gm = gSigLast s.gm := hg.sigLast
  have hstart : GrammarBlind (fun t => if s.j = gDiscBurst s.gm then sigStart t else t) s :=
    .ite _ (fun _ _ => rfl) (.id _)
  have hbody := hstart.comp (op := syncBody env prot (readField env.params s w))
    (syncBody_blind env prot (hstart.gm_eq.symm ▸ fit) (by rwa [length_readField]))
  have hcomplete := hbody.comp (op := fun t => if s.j = gSigLast s.gm then sigComplete t else t)
    (.ite _ (sigComplete_blind _) (.id _))
  have hwhole := hcomplete.comp (op := advance env.params w) (advance_blind _ _ _) g hg
  unfold syncField
  dsimp only at hwhole ⊢
  rw [hread, hburst, hlast]
  exact hwhole

/-! #### The sample step -/

theorem symPush_blind (env : Env) (s : State) : GrammarBlind (symPush env) s := by
  intro g _
  rw [symPush_eq, symPush_eq]
  rfl

theorem lockOn_blind (P : Params) (st : BitVec 4) (s : State) : GrammarBlind (lockOn P st) s := by
  intro g hg
  have hlookback : gLookback (withGm g s).gm = gLookback s.gm := hg.lookback
  rw [lockOn, lockOn, hlookback]
  rfl

theorem autoLockCheck_blind (P : Params) {s : State} (fit : TablesFit s.gm) : GrammarBlind (autoLockCheck P) s := by
  intro g hg
  have hsync : hasSync (withGm g s).gm = hasSync s.gm := congrArg (List.any · isSyncWord) (hg.fields fit)
  have hnsync : gNsync (withGm g s).gm = gNsync s.gm := hg.nsync
  have hlookback : gLookback (withGm g s).gm = gLookback s.gm := hg.lookback
  have hsyncw : gSyncw (withGm g s).gm = gSyncw s.gm := hg.syncw
  have hrecent : recentDibits P (withGm g s) = recentDibits P s := by
    rw [recentDibits, recentDibits, hsyncw]
    rfl
  have hmatch : syncMatch (withGm g s).gm (recentDibits P s) = syncMatch s.gm (recentDibits P s) :=
    hg.syncMatch fit (by rw [recentDibits, List.length_map, List.length_range]; exact fit.syncw)
  unfold autoLockCheck
  rw [hsync, hnsync, hlookback, hrecent, hmatch]
  cases hk : syncMatch s.gm (recentDibits P s) with
  | none =>
    simp only [apply_ite (withGm g)]
    rfl
  | some k =>
    have htype : gType (withGm g s).gm k = gType s.gm k := hg.type fit (syncMatch_lt hk)
    simp only [apply_ite (withGm g), htype, lockOn_blind P _ s g hg]
    rfl

theorem symStep_blind (env : Env) {s : State} (fit : TablesFit s.gm) : GrammarBlind (symStep env) s :=
  (symPush_blind env s).comp (autoLockCheck_blind env.params ((symPush_blind env s).gm_eq.symm ▸ fit))

/-! ### Instructions -/

/-- An instruction does the same whatever the ignored words of the grammar are, and leaves grammar memory as it is. -/
def RunsBlind (i : Instr) (s : State) : Prop :=
  ∀ g, SameGrammar s.gm g → ∃ t, exec i s = .next t ∧ exec i (withGm g s) = .next (withGm g t)

theorem runsBlind_of_grammarBlind {i : Instr} {s : State} {op : State → State} (hop : GrammarBlind op s)
    (hexec : ∀ g, exec i (withGm g s) = .next (op (withGm g s))) : RunsBlind i s :=
  fun g hg => ⟨op s, hexec s.gm, (hexec g).trans (congrArg Host.Outcome.next (hop g hg))⟩

theorem startHalted_blind (okG okC : Bool) (s : State) : GrammarBlind (startHalted okG okC) s := by
  intro g _
  unfold startHalted
  rw [apply_ite (withGm g)]
  congr 1
  · cases hv : s.gvalid <;> simp [withGm, hv]
  · cases okG <;> cases okC <;> rfl

theorem tablesFit_of_notHalted {s : State} (hs : GrammarLegal s) (hrun : s.halted = false) : TablesFit s.gm := by
  obtain ⟨hvalid, hgrammar, -⟩ := hs
  exact tablesFit_of_checkG1 (checkG1_of_grammarOk (hgrammar (hvalid hrun)).1)

/-- Every descriptor that a legal state runs (rule R211). -/
theorem runsBlind_descriptor {s : State} {i : Instr} (hs : GrammarLegal s) (hr : FieldRuns s i) : RunsBlind i s := by
  have fit := tablesFit_of_notHalted hs hr.notHalted
  obtain ⟨hvalid, hgrammar, -⟩ := hs
  obtain ⟨hok, -, hf⟩ := hgrammar (hvalid hr.notHalted)
  obtain ⟨j, hj, hfits⟩ := decodes_of_grammarOk hok hf
  cases hj.symm.trans hr.decoded
  have hdesc := (decodeDescriptor_ok hr.decoded).1
  cases i with
  | skip w => exact runsBlind_of_grammarBlind (advance_blind _ _ s) fun _ => rfl
  | cach prot slotIdx slotHalf w => exact runsBlind_of_grammarBlind (cachField_blind _ _ _ _ _ s) fun _ => rfl
  | voice prot last base w =>
    refine runsBlind_of_grammarBlind (voiceField_blind Config.env prot last fit (of_decide_eq_true hfits)) fun g => ?_
    have hheld : emitHeld last (withGm g s) = false := hr.notHeld
    rw [exec, execVoice, hheld]
    rfl
  | sync prot w =>
    have hw : w.toNat = gSyncw s.gm := of_decide_eq_true hfits
    exact runsBlind_of_grammarBlind (syncField_blind _ _ fit (hw ▸ fit.syncw)) fun _ => rfl
  | _ => cases hdesc

theorem writeReg_blind (a : BitVec 8) (v : Word) (s : State) : GrammarBlind (writeReg a v) s := by
  intro g _
  simp only [writeReg, apply_ite (withGm g)]
  rfl

theorem readReg_withGm {g : Mem Word} {s : State} (hg : SameGrammar s.gm g) (a : BitVec 8) :
    readReg (withGm g s) a = readReg s a := by
  have htgid : tgidView (withGm g s).gm (withGm g s).sigc[2] = tgidView s.gm s.sigc[2] := hg.tgid _
  unfold readReg
  rw [htgid]
  rfl

/-- Every port command but WRGM. -/
theorem runsBlind_command {s : State} {i : Instr} {port : Port} (hi : i.port = some port) (hwrgm : ∀ b v, i ≠ .wrgm b v) :
    RunsBlind i s := by
  cases i with
  | skip w => cases hi
  | cach prot slotIdx slotHalf w => cases hi
  | voice prot last base w => cases hi
  | sync prot w => cases hi
  | wrgm b v => exact absurd rfl (hwrgm b v)
  | reset => exact fun _ _ => ⟨_, rfl, rfl⟩
  | stop => exact fun _ _ => ⟨_, rfl, rfl⟩
  | unlock => exact fun _ _ => ⟨_, rfl, rfl⟩
  | start =>
    refine fun g hg => ⟨_, rfl, congrArg Host.Outcome.next ?_⟩
    have hok : grammarOk Config.params (withGm g s).gm = grammarOk Config.params s.gm := hg.grammarOk
    rw [hok, startHalted_blind _ _ s g hg, apply_ite (withGm g)]
    rfl
  | lock st =>
    refine fun g hg => ⟨_, rfl, congrArg Host.Outcome.next ?_⟩
    have hlookback : gLookback (withGm g s).gm = gLookback s.gm := hg.lookback
    rw [hlookback, lockOn_blind _ _ s g hg, apply_ite (withGm g)]
    rfl
  | submit samples =>
    refine fun g hg => ⟨_, rfl, congrArg Host.Outcome.next ?_⟩
    simp only [submitSamples, apply_ite (withGm g)]
    rfl
  | wrcr a v =>
    refine fun g hg => ⟨_, rfl, congrArg Host.Outcome.next ?_⟩
    rw [writeReg_blind a v s g hg]
    simp only [apply_ite (withGm g)]
    rfl
  | consume =>
    refine fun g hg => ⟨_, rfl, congrArg Host.Outcome.next ?_⟩
    simp only [apply_ite (withGm g)]
    rfl
  | rdsr a =>
    refine fun g hg => ⟨_, rfl, congrArg Host.Outcome.next ?_⟩
    rw [readReg_withGm hg]
    rfl

/-! ### The step -/

/-- Two outcomes are next states that agree but for one word of grammar memory. -/
def OneWordApart (a : Nat) (x x' : Host.Outcome State Fault Refusal) : Prop :=
  ∃ t g, x = .next t ∧ x' = .next (withGm g t) ∧ ∀ c, c ≠ a → memRead g c = memRead t.gm c

section oneWord
variable {s : State} {a : Nat} {g : Mem Word} (hg : SameGrammar s.gm g) (hword : ∀ c, c ≠ a → memRead g c = memRead s.gm c)
include hg hword

theorem oneWordApart_of_blind {op : State → State} (hop : GrammarBlind op s) :
    OneWordApart a (.next (op s)) (.next (op (withGm g s))) :=
  ⟨op s, g, rfl, congrArg Host.Outcome.next (hop g hg), hop.gm_eq.symm ▸ hword⟩

theorem oneWordApart_of_runsBlind {i : Instr} (hi : RunsBlind i s) : OneWordApart a (exec i s) (exec i (withGm g s)) := by
  obtain ⟨t, ht, ht'⟩ := hi g hg
  obtain ⟨u, hu, hu'⟩ := hi s.gm (.refl _)
  cases ht.symm.trans hu
  have hkept : exec i s = .next (withGm s.gm t) := hu'
  have hgm : t.gm = s.gm := (congrArg State.gm (Host.Outcome.next.inj (ht.symm.trans hkept)) :)
  exact ⟨t, g, ht, ht', hgm.symm ▸ hword⟩

/-- WRGM writes the same word to both grammar memories (rule R154). -/
theorem oneWordApart_wrgm (b : BitVec 10) (v : Word) :
    OneWordApart a (exec (.wrgm b v) s) (exec (.wrgm b v) (withGm g s)) := by
  have hexec : ∀ u : State, exec (.wrgm b v) u = .next (if !u.halted then raise .busywr u
      else { u with gm := memWrite u.gm b.toNat v, gvalid := false }) := by
    intro u
    rw [exec, execWrgm, gmWrite_params]
  have hhalted : (withGm g s).halted = s.halted := rfl
  rw [hexec, hexec, hhalted]
  split
  · exact oneWordApart_of_blind hg hword (op := raise .busywr) fun _ _ => rfl
  · refine ⟨_, memWrite g b.toNat v, rfl, rfl, fun c hc => ?_⟩
    rw [memRead_memWrite, memRead_memWrite, hword c hc]

theorem oneWordApart_command {i : Instr} {port : Port} (hi : i.port = some port) :
    OneWordApart a (exec i s) (exec i (withGm g s)) := by
  by_cases hwrgm : ∃ b v, i = .wrgm b v
  · obtain ⟨b, v, rfl⟩ := hwrgm
    exact oneWordApart_wrgm hg hword b v
  · simp only [not_exists] at hwrgm
    exact oneWordApart_of_runsBlind hg hword (runsBlind_command hi hwrgm)

end oneWord

/-- The step that a fetched turn comes to. -/
def outcomeOf (x : Fetched) : Host.Outcome State Fault Refusal :=
  match x with
  | .done t => .next t
  | .instr i t => exec i t
  | .reserved w => .fault (.reservedDescriptor w)

theorem step_eq_outcomeOf (s : State) : step s = outcomeOf (fetch Config.env s) := rfl

theorem engineChoice_withGm {s : State} {g : Mem Word} (hs : GrammarLegal s) (hg : SameGrammar s.gm g) :
    engineChoice Config.params (withGm g s) = engineChoice Config.params s := by
  cases hrun : s.halted with
  | true => rw [engineChoice, engineChoice, if_pos hrun, if_pos (show (withGm g s).halted = true from hrun)]
  | false =>
    have fit := tablesFit_of_notHalted hs hrun
    obtain ⟨hvalid, hgrammar, -⟩ := hs
    obtain ⟨-, -, hf⟩ := hgrammar (hvalid hrun)
    have hfield : gField (withGm g s).gm (withGm g s).f.toNat = gField s.gm s.f.toNat := hg.field fit hf
    unfold engineChoice
    rw [hfield]
    rfl

theorem nextAgent_withGm {s : State} {g : Mem Word} (hs : GrammarLegal s) (hg : SameGrammar s.gm g) :
    nextAgent Config.params (withGm g s) = nextAgent Config.params s := by
  have hidle : idleAgent Config.params (withGm g s) = idleAgent Config.params s := by
    rw [idleAgent, idleAgent, engineChoice_withGm hs hg]
    rfl
  unfold nextAgent
  rw [hidle]
  rfl

section turns
variable {s : State} {a : Nat} {g : Mem Word} (hs : GrammarLegal s) (hg : SameGrammar s.gm g)
  (hword : ∀ c, c ≠ a → memRead g c = memRead s.gm c)
include hg hword

theorem oneWordApart_fetchP : OneWordApart a (outcomeOf (fetchP s)) (outcomeOf (fetchP (withGm g s))) := by
  have hport : (withGm g s).portP = s.portP := rfl
  rw [fetchP, fetchP, hport]
  cases hd : decodeCommand .p s.portP with
  | incomplete => exact oneWordApart_of_blind hg hword (.id s)
  | illegal e rest =>
    exact oneWordApart_of_blind (s := { s with portP := rest }) hg hword (op := raise .illcmd) fun _ _ => rfl
  | command i rest => exact oneWordApart_command (s := { s with portP := rest }) hg hword (decodeCommand_port hd)

theorem oneWordApart_fetchQ : OneWordApart a (outcomeOf (fetchQ s)) (outcomeOf (fetchQ (withGm g s))) := by
  have hport : (withGm g s).portQ = s.portQ := rfl
  have hheld : consumeHeld (withGm g s) = consumeHeld s := rfl
  rw [fetchQ, fetchQ, hport, hheld]
  cases hd : decodeCommand .q s.portQ with
  | incomplete => exact oneWordApart_of_blind hg hword (.id s)
  | illegal e rest =>
    exact oneWordApart_of_blind (s := { s with portQ := rest }) hg hword (op := raise .illcmd) fun _ _ => rfl
  | command i rest =>
    dsimp only
    split
    · exact oneWordApart_of_blind hg hword (.id s)
    · exact oneWordApart_command (s := { s with portQ := rest }) hg hword (decodeCommand_port hd)

include hs

theorem oneWordApart_fetchEngine :
    OneWordApart a (outcomeOf (fetchEngine Config.env s)) (outcomeOf (fetchEngine Config.env (withGm g s))) := by
  rw [fetchEngine, fetchEngine, Config.env_params, engineChoice_withGm hs hg]
  cases hc : engineChoice Config.params s with
  | hold => exact oneWordApart_of_blind hg hword (.id s)
  | halt => exact oneWordApart_of_blind hg hword (op := haltStep) fun _ _ => rfl
  | sym =>
    have fit := tablesFit_of_notHalted hs (sampleRuns_of_engineChoice hc).notHalted
    exact oneWordApart_of_blind hg hword (symStep_blind Config.env fit)
  | field i => exact oneWordApart_of_runsBlind hg hword (runsBlind_descriptor hs (fieldRuns_of_engineChoice hc))
  | reserved w => exact absurd hc (engineChoice_ne_reserved hs w)

end turns

end Sys2Proof.Machine

open Sys2Proof Sys2Proof.Machine

/-- Settles O55: the two steps take the same turn, and every turn but power-on reset reads no ignored word. -/
theorem ignoredWordsNeverRead : Obligations.IgnoredWordsNeverRead := by
  intro s a v hs hpor ha
  have hg : SameGrammar s.gm (memWrite s.gm a v) := sameGrammar_memWrite ha v
  have hword : ∀ c, c ≠ a → memRead (memWrite s.gm a v) c = memRead s.gm c := fun c => memRead_memWrite_other s.gm v
  have hstep : OneWordApart a (step s) (step (withGm (memWrite s.gm a v) s)) := by
    rw [step_eq_outcomeOf, step_eq_outcomeOf, fetch, fetch, Config.env_params, nextAgent_withGm hs hg]
    cases hagent : nextAgent Config.params s with
    | engine => exact oneWordApart_fetchEngine (s := takeTurn s) hs hg hword
    | producer => exact oneWordApart_fetchP (s := takeTurn s) hg hword
    | consumer => exact oneWordApart_fetchQ (s := takeTurn s) hg hword
    | por => exact absurd hagent hpor
  obtain ⟨t, g, ht, ht', hother⟩ := hstep
  exact ⟨t, withGm g t, ht, ht', rfl, hother⟩
end

section
/-!
SUPPORT. The commands that control the engine and the session (rules R101, R141 to R147, R297, R324): the printed form of a
command word, the fault bits a raise sets, the cleared session, the engine's choice after STOP and RESET, and the state after
START.
-/
namespace Sys2Proof.Machine

/-! ### Command words -/

/-- A command word is its opcode's match word with the operand in its low bits (rules R101, R102). -/
theorem commandWord_eq_or (opc : BitVec 8) {n : Nat} (x : BitVec n) (hn : n ≤ 24) :
    commandWord opc (x.setWidth 24) = opc.setWidth 32 <<< 24 ||| x.setWidth 32 := by
  apply BitVec.eq_of_getLsbD_eq
  intro i hi
  rw [commandWord, BitVec.getLsbD_append, BitVec.getLsbD_or, BitVec.getLsbD_shiftLeft, BitVec.getLsbD_setWidth,
    BitVec.getLsbD_setWidth, BitVec.getLsbD_setWidth]
  by_cases hlow : i < 24
  · simp [hlow, hi]
  · simp [hlow, hi, show i - 24 < 32 by omega, BitVec.getLsbD_of_ge x i (by omega)]

/-! ### Faults -/

theorem faultBit_lt (c : FaultCode) : faultBit c < 8 := by cases c <;> decide

/-- The bits of `FAULT` after a raise (rule R297). -/
theorem getLsbD_raise_fault (c : FaultCode) (s : State) (k : Nat) :
    (raise c s).fault.getLsbD k = (s.fault.getLsbD k || decide (k = faultBit c)) := by
  rw [raise_fault, getLsbD_setBitTo _ _ _ _ (faultBit_lt c)]
  by_cases hk : k = faultBit c <;> simp [hk]

theorem faultRaised_raise (c : FaultCode) (s : State) : FaultRaised (faultBit c) s (raise c s) :=
  ⟨rfl, fun k _ => getLsbD_raise_fault c s k⟩

/-- A failed START sets the bit of each kind of check that failed (rules R142, R301). -/
theorem getLsbD_startFail_fault (okG okC : Bool) (s : State) (k : Nat) :
    (startFail okG okC s).fault.getLsbD k =
      (s.fault.getLsbD k || (decide (k = 2) && !okG) || (decide (k = 3) && !okC)) := by
  have hgrammar (t : State) : (raise .grammar t).fault.getLsbD k = (t.fault.getLsbD k || decide (k = 2)) :=
    getLsbD_raise_fault .grammar t k
  have hcfg (t : State) : (raise .cfg t).fault.getLsbD k = (t.fault.getLsbD k || decide (k = 3)) :=
    getLsbD_raise_fault .cfg t k
  cases okG <;> cases okC <;> simp [startFail, hgrammar, hcfg, -raise_fault]

theorem startFail_frame (okG okC : Bool) (s : State) :
    startFail okG okC s = { s with gvalid := false, fault := (startFail okG okC s).fault } := by
  cases okG <;> cases okC <;> rfl

/-! ### The cleared session -/

/-- SessionClear clears the session and the classifier; what is recorded as `LASTSYNC` after it does not matter (rule R324). -/
theorem sessionCleared_sessionClear (s : State) (st : BitVec 4) : SessionCleared { sessionClear s with lastsync := st } := by
  have hht : ∀ p c : Dibit, htGet { sessionClear s with lastsync := st } p c = SymModel.empty := htGet_sessionClear s
  refine ⟨fun p c => ?_, rfl, rfl, rfl, rfl, rfl, rfl, rfl, rfl, rfl, rfl, rfl, rfl, rfl, rfl, rfl, rfl, rfl, rfl, rfl, rfl,
    fun n => ?_, fun r => ?_, rfl⟩
  · rw [hht]
    exact ⟨rfl, rfl, rfl, rfl, fun _ => ⟨rfl, rfl⟩⟩
  · exact ⟨by simp, by simp⟩
  · simp

/-- A state that SessionClear would only change in `LASTSYNC` is one with a cleared session. -/
theorem sessionCleared_of_fixed {t : State} (h : t = { sessionClear t with lastsync := t.lastsync }) : SessionCleared t :=
  h ▸ sessionCleared_sessionClear t t.lastsync

/-- `LOOKBACK` has ten bits (rule R113), so stepping `RP` back is one subtraction modulo 2^32 (rule R323). -/
theorem toNat_sub_gLookback (p : Pointer) (gm : Mem Word) :
    (p - BitVec.ofNat 32 (gLookback gm)).toNat = (p.toNat + (2 ^ 32 - gLookback gm)) % 2 ^ 32 := by
  have hlookback : gLookback gm < 2 ^ 10 := (bits (gmRead gm 0x001) 0 10).isLt
  rw [BitVec.toNat_sub, BitVec.toNat_ofNat, Nat.mod_eq_of_lt (Nat.lt_trans hlookback (by decide)), Nat.add_comm]

/-! ### The engine's choice -/

/-- The state after a STOP (rule R144). -/
def stopped (s : State) : State := { s with run := false }

theorem exec_stop (s : State) : exec .stop s = .next (stopped s) := rfl

theorem descriptorHeld_stopped (i : Instr) (s : State) : descriptorHeld i (stopped s) = descriptorHeld i s := by
  cases i <;> rfl

theorem sampleChoice_stopped (s : State) :
    sampleChoice (stopped s) = if sampleChoice s = .hold then .halt else sampleChoice s := by
  have hrun : (stopped s).run = false := rfl
  have hready : (stopped s).rdyLen = s.rdyLen := rfl
  rw [sampleChoice, sampleChoice, hrun, hready]
  split
  · simp
  · cases s.run <;> simp

/-- With `RUN` down the engine halts where it would otherwise wait, and chooses the same step everywhere else (rules R144,
R213). -/
theorem engineChoice_stopped {P : Params} {s : State} (hhalted : s.halted = false) :
    engineChoice P (stopped s) = if engineChoice P s = .hold then .halt else engineChoice P s := by
  have hhalted' : (stopped s).halted = false := hhalted
  have hrun : (stopped s).run = false := rfl
  have hfield : gField (stopped s).gm (stopped s).f.toNat = gField s.gm s.f.toNat := rfl
  have hcomplete : ((stopped s).locked && decide (descW (gField s.gm s.f.toNat) ≤ avail P (stopped s))) =
      (s.locked && decide (descW (gField s.gm s.f.toNat) ≤ avail P s)) := rfl
  rw [engineChoice, engineChoice, hhalted, hhalted', hfield, hcomplete, sampleChoice_stopped]
  simp only [descriptorHeld_stopped, hrun, Bool.false_eq_true, if_false]
  split
  · split
    next => simp
    next i _ => cases descriptorHeld i s <;> cases s.run <;> simp
  · rfl

theorem engineChoice_of_halted {P : Params} {s : State} (h : s.halted = true) : engineChoice P s = .hold := if_pos h

/-- An engine holds only where it is halted or `RUN` is up (rules R210, R213). -/
theorem halted_or_run_of_hold {P : Params} {s : State} (h : engineChoice P s = .hold) : s.halted = true ∨ s.run = true := by
  by_contra hneither
  simp only [not_or, Bool.not_eq_true] at hneither
  obtain ⟨hhalted, hrun⟩ := hneither
  have hsame : stopped s = s := by rw [stopped, ← hrun]
  have hstop := engineChoice_stopped (P := P) hhalted
  rw [if_pos h, hsame, h] at hstop
  cases hstop

/-- After a reset nothing is buffered, so an engine with `RUN` up waits for samples (rules R141, R210). -/
theorem engineChoice_resetProc_hold {P : Params} {s : State} (h : s.halted = true ∨ s.run = true) :
    engineChoice P (resetProc s) = .hold := by
  obtain hhalted | hrun := h
  · exact engineChoice_of_halted hhalted
  · simp [engineChoice, sampleChoice, hrun]

/-! ### START -/

/-- The state after a START (rule R142). -/
def started (s : State) : State :=
  if s.halted then startHalted (grammarOk Config.params s.gm) (configOk s.thCenter s.thUmid s.thLmid s.thBand) s
  else { s with run := true }

theorem exec_start (s : State) : exec .start s = .next (started s) := rfl

theorem started_of_running {s : State} (h : s.halted = false) : started s = { s with run := true } := if_neg (by simp [h])

section haltedStart
variable {s : State} (hhalted : s.halted = true)
include hhalted

/-- A START whose checks pass unlocks first where the grammar or the configuration was written (rule R142). -/
theorem started_of_ok (hG : grammarOk Config.params s.gm = true)
    (hC : configOk s.thCenter s.thUmid s.thLmid s.thBand = true) :
    started s = { (if s.gvalid then s else unlockProc s) with gvalid := true, run := true, halted := false } := by
  rw [started, if_pos hhalted, hG, hC]
  rfl

theorem started_of_failed
    (h : ¬ (grammarOk Config.params s.gm = true ∧ configOk s.thCenter s.thUmid s.thLmid s.thBand = true)) :
    started s =
      startFail (grammarOk Config.params s.gm) (configOk s.thCenter s.thUmid s.thLmid s.thBand) s := by
  rw [started, if_pos hhalted, startHalted, if_neg (by simpa using h)]

end haltedStart

end Sys2Proof.Machine

open Sys2Proof Sys2Proof.Machine

/-- Settles O13: `resetProc` field by field, the hold by `engineChoice_resetProc_hold`. -/
theorem resetCommand : Obligations.ResetCommand := by
  refine ⟨rfl, fun s => ⟨resetProc s, rfl, ?_, rfl, fun hhold => ?_, rfl⟩⟩
  · exact ⟨sessionCleared_of_fixed rfl, rfl, rfl, rfl, rfl, rfl, rfl, rfl, rfl, rfl, fun _ => rfl, fun _ => rfl, fun _ => rfl⟩
  · exact engineChoice_resetProc_hold (halted_or_run_of_hold hhold)

/-- Settles O14: the four cases of rule R142, each by the state that START leaves there. -/
theorem startCommand : Obligations.StartCommand := by
  refine ⟨rfl, fun s => ⟨started s, exec_start s, started_of_running, fun hhalted hG hC hvalid => ?_,
    fun hhalted hG hC hvalid => ?_, fun hhalted hfails => ?_⟩⟩
  · rw [started_of_ok hhalted hG hC, if_pos hvalid, ← hvalid]
  · rw [started_of_ok hhalted hG hC, if_neg (by simp [hvalid])]
    exact ⟨sessionCleared_of_fixed rfl, rfl, rfl, rfl, rfl⟩
  · rw [started_of_failed hhalted hfails]
    exact ⟨startFail_frame .., fun k _ => getLsbD_startFail_fault ..⟩

/-- Settles O16: the choice of an engine that is not halted by `engineChoice_stopped`. -/
theorem stopCommand : Obligations.StopCommand := by
  refine ⟨rfl, fun s => ⟨stopped s, exec_stop s, rfl, fun hstep => ?_, fun hhold hrun => ?_⟩⟩
  · have hrun : s.halted = false := by
      by_contra hhalted
      exact hstep (engineChoice_of_halted (by simpa using hhalted))
    rw [engineChoice_stopped hrun, if_neg hstep]
  · rw [engineChoice_stopped hrun, if_pos hhold]

/-- Settles O17: the two branches of LOCK, BADLOCK and LockOn (rules R145, R323). -/
theorem lockCommand : Obligations.LockCommand := by
  refine ⟨fun st => congrArg (List.cons · []) (commandWord_eq_or 0x04#8 st (by decide)), fun st s => ⟨_, rfl, ?_⟩⟩
  have htest : (!s.gvalid || decide (s.dbValid.toNat < gLookback s.gm)) = true ↔
      s.gvalid = false ∨ s.dbValid.toNat < gLookback s.gm := by simp
  simp only [htest]
  split
  next => exact faultRaised_raise .badlock s
  next =>
    refine ⟨sessionCleared_of_fixed rfl, rfl, rfl, ?_, rfl⟩
    rw [lockOn_rp, ptrWrap_params, toNat_sub_gLookback]

/-- Settles O18: `unlockProc` field by field (rule R322). -/
theorem unlockCommand : Obligations.UnlockCommand :=
  ⟨rfl, fun _ => ⟨_, rfl, sessionCleared_of_fixed rfl, rfl, rfl, rfl, rfl⟩⟩

end

section
/-!
SUPPORT. The commands that move data (rules R148 to R158): SUBMIT, WRCR, WRGM, CONSUME, and port Q's turn; and the words of the
spec's examples.
-/
namespace Sys2Proof.Machine

/-- A port P command is sent as its words, and port P's turn takes all of them, whatever the command then does with them (rules
R103, R140). -/
theorem encoded_and_taken {i : Instr} {ws : List Word} (hencode : encode i = ws) (hwf : i.wf = true)
    (hport : i.port = some .p) :
    encode i = ws ∧ ∀ (s : State) (ts : List Agent) (rest : List Word), s.turns = .producer :: ts →
      s.portP = encode i ++ rest → step s = exec i { s with turns := ts, portP := rest } :=
  ⟨hencode, fun s ts rest hturn hwords =>
    portPStepRunsCommand s ts i rest hturn (hwords ▸ commandDecodeEncode .p i rest hwf hport)⟩

/-- A one-word descriptor encoding decodes to its descriptor (rules R106, R107). -/
theorem decodeDescriptor_of_encode {i : Instr} {w : Word} (hencode : encode i = [w]) (hwf : i.wf = true)
    (hdesc : i.isDescriptor = true) : decodeDescriptor w = .ok i := by
  obtain ⟨w', hw', hdecode⟩ := descriptorDecodeEncode i hwf hdesc
  cases hencode.symm.trans hw'
  exact hdecode

/-- The addresses WRCR may write (rule R152). -/
theorem writable_eq_false_iff (a : BitVec 8) :
    writable a = false ↔ a ∉ [0x01#8, 0x04#8, 0x05#8, 0x06#8, 0x07#8, 0x08#8] := by
  simp [writable, and_assoc]

/-- A register write field by field (rules R57, R61, R152). -/
theorem writeReg_fields (a : BitVec 8) (v : Word) (s : State) :
    writeReg a v s =
      { s with
        ctrl := if a = 0x01#8 then v &&& 0x00000003#32 else s.ctrl
        thCenter := if a = 0x04#8 then v else s.thCenter
        thUmid := if a = 0x05#8 then v else s.thUmid
        thLmid := if a = 0x06#8 then v else s.thLmid
        thBand := if a = 0x07#8 then v else s.thBand
        sliceMap := if a = 0x08#8 then v.extractLsb' 0 8 else s.sliceMap } := by
  unfold writeReg
  -- at each of the six addresses the record is the one written there, at any other it is `s`
  iterate 6
    split
    next h => subst h; rfl
  rfl

/-- No VOICE is held while the output slot is empty (rule R212). -/
theorem emitHeld_of_empty {s : State} (h : s.outLen = 0) (last : Bool) : emitHeld last s = false := by
  simp [emitHeld, h]

theorem consumeHeld_iff (s : State) : consumeHeld s = true ↔ s.outLen = 0 ∧ s.run = true := by
  simp [consumeHeld]

/-- On port Q's turn a command runs unless it is a CONSUME that holds (rules R140, R158). -/
theorem fetch_consumer {s : State} {ts : List Agent} {i : Instr} {rest : List Word} (hturn : s.turns = .consumer :: ts)
    (hdecode : decodeCommand .q s.portQ = .command i rest) :
    fetch Config.env s =
      if i = .consume ∧ s.outLen = 0 ∧ s.run = true then .done { s with turns := ts }
      else .instr i { s with turns := ts, portQ := rest } := by
  rw [fetch_of_turn hturn, fetchFor, fetchQ, hdecode]
  simp only [consumeHeld_iff]

end Sys2Proof.Machine

open Sys2Proof Sys2Proof.Machine

/-- Settles O19: the branches of `submitSamples` are the cases; the stored batch is read by `memRead_memLoad`. -/
theorem submitCommand : Obligations.SubmitCommand := by
  refine ⟨fun samples hlen => encoded_and_taken (congrArg (List.cons · samples) ?_) (decide_eq_true hlen) rfl,
    fun samples s => ⟨_, rfl, ?_⟩⟩
  · rw [commandWord_eq_or _ _ (by decide), BitVec.setWidth_ofNat_of_le_of_lt (by decide) hlen]
    rfl
  · unfold submitSamples
    rw [Config.params_inCap]
    split
    next => rfl
    split
    next => exact faultRaised_raise .illcmd s
    next hfits =>
      split
      next => exact faultRaised_raise .overrun s
      next => exact ⟨rfl, Nat.mod_eq_of_lt (by omega), memRead_memLoad s.inBuf samples⟩

/-- Settles O20: the branches of WRCR are the cases; the written register by `writeReg_fields`. -/
theorem wrcrCommand : Obligations.WrcrCommand := by
  refine ⟨fun a v => encoded_and_taken (congrArg (List.cons · [v]) (commandWord_eq_or 0x07#8 a (by decide))) rfl rfl,
    fun a v s => ⟨_, rfl, ?_⟩⟩
  simp only [Bool.not_eq_true', writable_eq_false_iff]
  split
  next => exact faultRaised_raise .illcmd s
  split
  next => exact faultRaised_raise .busywr s
  next => rw [writeReg_fields]

/-- Settles O21: the branches of WRGM are the cases; the written word is read by `memRead_memWrite`. -/
theorem wrgmCommand : Obligations.WrgmCommand := by
  refine ⟨fun a v => encoded_and_taken (congrArg (List.cons · [v]) (commandWord_eq_or 0x08#8 a (by decide))) rfl rfl,
    fun a v s => ⟨_, rfl, ?_⟩⟩
  simp only [gmWrite_params, Bool.not_eq_true']
  split
  next => exact faultRaised_raise .busywr s
  next => exact ⟨rfl, fun c => memRead_memWrite s.gm a.toNat c v⟩

/-- Settles O22: a CONSUME that does not hold answers the record and drains it, or answers six zero words. -/
theorem consumeCommand : Obligations.ConsumeCommand := by
  refine ⟨rfl, fun s henabled => ⟨_, rfl, ?_⟩⟩
  have hnotHeld : ¬ consumeHeld s = true := by
    rw [consumeHeld_iff]
    rintro ⟨hempty, hrun⟩
    simp [hempty, hrun] at henabled
  rw [if_neg hnotHeld]
  by_cases hempty : s.outLen = 0
  · rw [if_pos hempty, if_neg (not_not.mpr hempty), consumeAnswer, if_pos hempty]
    exact ⟨emitHeld_of_empty hempty, rfl⟩
  · rw [if_neg hempty, if_pos hempty, consumeAnswer, if_neg hempty]
    exact ⟨emitHeld_of_empty rfl, rfl⟩

/-- Settles O8: the fetch of port Q's turn by `fetch_consumer`. -/
theorem portQStepRunsCommand : Obligations.PortQStepRunsCommand := by
  intro s ts i rest hturn hdecode
  have hfetch := fetch_consumer hturn hdecode
  refine ⟨fun hruns => ?_, fun hi hempty hrun => ?_⟩
  · rw [step, hfetch, if_neg hruns]
  · rw [step, hfetch, if_pos ⟨hi, hempty, hrun⟩]

/-- Settles O6: each printed word sequence is the encoder's, which decodes to what was encoded. -/
theorem specWordsDecode : Obligations.SpecWordsDecode :=
  ⟨commandDecodeEncode .p .reset [] rfl rfl,
    commandDecodeEncode .p (.lock 3) [] rfl rfl,
    commandDecodeEncode .p (.submit [0x3F800000#32, 0xC0400000#32]) [] rfl rfl,
    commandDecodeEncode .p (.wrcr 0x05#8 0x40000000#32) [] rfl rfl,
    commandDecodeEncode .p (.wrgm 0x010#10 0x2028000C#32) [] rfl rfl,
    commandDecodeEncode .q (.rdsr 0x02#8) [] rfl rfl,
    decodeDescriptor_of_encode (i := .skip 144) rfl rfl rfl,
    decodeDescriptor_of_encode (i := .cach false 2 true 12) rfl rfl rfl,
    decodeDescriptor_of_encode (i := .voice false true 18 18) rfl rfl rfl,
    decodeDescriptor_of_encode (i := .sync true 24) rfl rfl rfl⟩
end

section
/-!
SUPPORT. RDSR (rules R61, R62, R160): the bits of STATUS and of the packed registers, TGID, and the two blocks of the register
map.
-/
namespace Sys2Proof.Machine

/-! ### Packed registers -/

theorem getLsbD_of_extractLsb'_ofBool {n : Nat} {w : BitVec n} {k : Nat} {b : Bool}
    (h : w.extractLsb' k 1 = BitVec.ofBool b) : w.getLsbD k = b := by
  have hbit := congrArg (BitVec.getLsbD · 0) h
  simpa using hbit

/-- The bit groups of STATUS, each read back where rule R62 places it. -/
theorem statusWord_fields (s : State) :
    let v := statusWord s
    v.getLsbD 0 = s.run ∧ v.getLsbD 1 = s.halted ∧ v.getLsbD 2 = s.locked ∧ v.getLsbD 3 = s.gvalid
      ∧ v.getLsbD 4 = s.muted ∧ v.getLsbD 5 = s.firstframe ∧ v.extractLsb' 6 1 = s.curslot ∧ v.extractLsb' 7 3 = s.j
      ∧ v.extractLsb' 10 7 = s.f ∧ v.extractLsb' 17 2 = s.kidx ∧ v.getLsbD 19 = s.encPres
      ∧ v.getLsbD 20 = s.discValid ∧ v.extractLsb' 21 2 = s.disc ∧ v.getLsbD 23 = s.sigbad ∧ v.getLsbD 24 = s.vbad
      ∧ v.extractLsb' 25 7 = 0#7 := by
  -- each group lies above the groups it drops and fills the lowest bits of what is left
  refine ⟨getLsbD_of_extractLsb'_ofBool ?_, getLsbD_of_extractLsb'_ofBool ?_, getLsbD_of_extractLsb'_ofBool ?_,
    getLsbD_of_extractLsb'_ofBool ?_, getLsbD_of_extractLsb'_ofBool ?_, getLsbD_of_extractLsb'_ofBool ?_, ?_, ?_, ?_, ?_,
    getLsbD_of_extractLsb'_ofBool ?_, getLsbD_of_extractLsb'_ofBool ?_, ?_, getLsbD_of_extractLsb'_ofBool ?_,
    getLsbD_of_extractLsb'_ofBool ?_, ?_⟩ <;>
    simp (disch := decide) only [statusWord, BitVec.extractLsb'_append_eq_of_le, BitVec.extractLsb'_append_eq_of_add_le,
      Nat.reduceSub, BitVec.extractLsb'_eq_self]

/-- The bit groups of the word that `ENC_PRES` shares with `ALGID` or `KEYID`: the code, zeros, the flag (rule R61). -/
theorem flaggedWord_fields {m n : Nat} (flag : Bool) (code : BitVec n) :
    let v := BitVec.ofBool flag ++ 0#m ++ code
    v.extractLsb' 0 n = code ∧ v.extractLsb' n m = 0#m ∧ v.getLsbD (n + m) = flag := by
  refine ⟨BitVec.extractLsb'_append_eq_right, ?_, getLsbD_of_extractLsb'_ofBool ?_⟩
  · rw [BitVec.extractLsb'_append_eq_of_le le_rfl, Nat.sub_self, BitVec.extractLsb'_append_eq_right]
  · rw [BitVec.extractLsb'_append_eq_of_le (Nat.le_add_right n m), Nat.add_sub_cancel_left, BitVec.extractLsb'_append_eq_left]

/-- The bit groups of the slot status word (rule R61). -/
theorem slotStatusWord_fields (st1 st0 : BitVec 2) :
    let v : Word := (st1 ++ st0).setWidth 32
    v.extractLsb' 0 2 = st0 ∧ v.extractLsb' 2 2 = st1 ∧ v.extractLsb' 4 28 = 0#28 := by
  refine ⟨?_, ?_, ?_⟩
  · rw [BitVec.extractLsb'_setWidth_of_le (by decide), BitVec.extractLsb'_append_eq_right]
  · rw [BitVec.extractLsb'_setWidth_of_le (by decide), BitVec.extractLsb'_append_eq_left]
  · apply BitVec.eq_of_getLsbD_eq
    intro i _
    simp

/-- TGID is `TG_W` bits of `SIGC[2]` from `TG_LO` on (rule R263). -/
theorem getLsbD_tgidView {gm : Mem Word} (hw : gTgW gm ≤ 24) (payload : BitVec 128) {i : Nat} (hi : i < 32) :
    ((tgidView gm payload).setWidth 32).getLsbD i = (decide (i < gTgW gm) && payload.getLsbD (gTgLo gm + i)) := by
  unfold tgidView
  split
  next hzero => simp [hzero]
  next =>
    rw [BitVec.getLsbD_setWidth, BitVec.getLsbD_setWidth, BitVec.getLsbD_and, BitVec.getLsbD_ushiftRight,
      BitVec.getLsbD_ushiftRight, BitVec.getLsbD_allOnes]
    by_cases hin : i < gTgW gm
    · simp [hi, hin, show i < 24 by omega, show 128 - gTgW gm + i < 128 by omega]
    · simp [hin, show ¬ 128 - gTgW gm + i < 128 by omega]

/-! ### The register map -/

/-- The addresses that rule R61 lists one by one. -/
def singleRegisters : List Nat :=
  [0x00, 0x01, 0x02, 0x03, 0x04, 0x05, 0x06, 0x07, 0x08, 0x10, 0x11, 0x12, 0x13, 0x14, 0x15, 0x16, 0x17, 0x18, 0x19, 0x1A,
    0x1B, 0x40, 0x41, 0x42, 0x43, 0x44, 0x45, 0x46, 0x50, 0x51, 0x52, 0x53]

theorem not_mem_singleRegisters {n : Nat}
    (h : (0x09 ≤ n ∧ n ≤ 0x0F) ∨ (0x1C ≤ n ∧ n ≤ 0x3F) ∨ (0x47 ≤ n ∧ n ≤ 0x4F) ∨ 0x54 ≤ n) : n ∉ singleRegisters := by
  simp only [singleRegisters, List.mem_cons, List.not_mem_nil, or_false, not_or]
  omega

/-- Apart from those, the register map holds the block of the committed signalling registers, the block of the models, and
zeros (rule R61). -/
theorem readReg_of_not_single {a : BitVec 8} (h : a.toNat ∉ singleRegisters) (s : State) :
    readReg s a =
      if 0x20 ≤ a.toNat ∧ a.toNat < 0x40 then
        regWord (s.sigc[(a.toNat - 0x20) / 4 % 8]'(Nat.mod_lt _ (by decide))) (a.toNat % 4)
      else if 0x80 ≤ a.toNat ∧ a.toNat < 0xC0 then
        modelWord (s.ht[(a.toNat - 0x80) / 4 % 16]'(Nat.mod_lt _ (by decide))) (a.toNat % 4)
      else 0#32 := by
  unfold readReg
  split
  -- every arm before the last is one of the listed addresses
  case h_33 => rfl
  all_goals
    next heq => simp [singleRegisters, heq] at h

theorem readReg_sigc {a : BitVec 8} {r k : Nat} (hr : r < 8) (hk : k < 4) (ha : a.toNat = 0x20 + 4 * r + k) (s : State) :
    readReg s a = regWord s.sigc[r] k := by
  have hindex : (a.toNat - 0x20) / 4 % 8 = r := by omega
  have hword : a.toNat % 4 = k := by omega
  rw [readReg_of_not_single (not_mem_singleRegisters (by omega)), if_pos (by omega)]
  simp only [hindex, hword]

theorem readReg_model {a : BitVec 8} {p c : Dibit} {k : Nat} (hk : k < 4)
    (ha : a.toNat = 0x80 + 4 * (4 * p.toNat + c.toNat) + k) (s : State) : readReg s a = modelWord (htGet s p c) k := by
  have hp := p.isLt
  have hc := c.isLt
  have hindex : (a.toNat - 0x80) / 4 % 16 = 4 * p.toNat + c.toNat := by omega
  have hword : a.toNat % 4 = k := by omega
  rw [readReg_of_not_single (not_mem_singleRegisters (by omega)), if_neg (by omega), if_pos (by omega)]
  simp only [hindex, hword, htGet]

theorem readReg_vm {a : BitVec 8} {r : Nat} (hr : r < 4) (ha : a.toNat = 0x50 + r) (s : State) :
    readReg s a = s.vm[r].setWidth 32 := by
  obtain rfl : a = BitVec.ofNat 8 (0x50 + r) := by rw [← ha, BitVec.ofNat_toNat, BitVec.setWidth_eq]
  match r, hr with
  | 0, _ => rfl
  | 1, _ => rfl
  | 2, _ => rfl
  | 3, _ => rfl

/-- The addresses that rule R61 does not list read as 0. -/
theorem readReg_unlisted {a : BitVec 8}
    (h : (0x09 ≤ a.toNat ∧ a.toNat ≤ 0x0F) ∨ (0x1C ≤ a.toNat ∧ a.toNat ≤ 0x1F) ∨ (0x47 ≤ a.toNat ∧ a.toNat ≤ 0x4F)
      ∨ (0x54 ≤ a.toNat ∧ a.toNat ≤ 0x7F) ∨ 0xC0 ≤ a.toNat) (s : State) : readReg s a = 0#32 := by
  rw [readReg_of_not_single (not_mem_singleRegisters (by omega)), if_neg (by omega), if_neg (by omega)]

theorem readReg_of_eq {s : State} {b : BitVec 8} {v : Word} (h : readReg s b = v) (a : BitVec 8) (ha : a = b) :
    readReg s a = v := ha ▸ h

end Sys2Proof.Machine

open Sys2Proof Sys2Proof.Machine

/-- Settles O23: `readReg` address by address in the statement's order; a register that stands alone at its address by
`readReg_of_eq`, the packed words, BER_PCT, TGID and the blocks by their own facts. -/
theorem rdsrCommand : Obligations.RdsrCommand := by
  refine ⟨fun a => congrArg (List.cons · []) (commandWord_eq_or 0x11#8 a (by decide)), fun a s => ⟨readReg s a, rfl, ?_⟩⟩
  have hstatus : a = 0x02#8 → readReg s a = statusWord s := readReg_of_eq rfl a
  have hber : a = 0x12#8 → readReg s a = berPercent (Config.nanBits s.nanDraws) s.bitCnt s.bitErr := readReg_of_eq rfl a
  have hslot : a = 0x17#8 → readReg s a = (s.slotst1 ++ s.slotst0).setWidth 32 := readReg_of_eq rfl a
  have halgid : a = 0x18#8 → readReg s a = BitVec.ofBool s.encPres ++ 0#23 ++ s.algid := readReg_of_eq rfl a
  have hkeyid : a = 0x19#8 → readReg s a = BitVec.ofBool s.encPres ++ 0#15 ++ s.keyid := readReg_of_eq rfl a
  have htgid : a = 0x1A#8 → readReg s a = (tgidView s.gm s.sigc[2]).setWidth 32 := readReg_of_eq rfl a
  exact ⟨readReg_of_eq rfl a, readReg_of_eq rfl a, fun h => hstatus h ▸ statusWord_fields s, readReg_of_eq rfl a,
    readReg_of_eq rfl a, readReg_of_eq rfl a, readReg_of_eq rfl a, readReg_of_eq rfl a, readReg_of_eq rfl a,
    readReg_of_eq rfl a, readReg_of_eq rfl a,
    fun h hcnt => (hber h).trans (if_pos hcnt), fun h hcnt => ⟨_, (hber h).trans (if_neg hcnt)⟩,
    readReg_of_eq rfl a, readReg_of_eq rfl a, readReg_of_eq rfl a, readReg_of_eq rfl a,
    fun h => hslot h ▸ slotStatusWord_fields s.slotst1 s.slotst0,
    fun h => halgid h ▸ flaggedWord_fields s.encPres s.algid, fun h => hkeyid h ▸ flaggedWord_fields s.encPres s.keyid,
    fun h hw _ i hi => htgid h ▸ getLsbD_tgidView hw s.sigc[2] hi, readReg_of_eq rfl a,
    fun r k hr hk ha => readReg_sigc hr hk ha s,
    readReg_of_eq rfl a, readReg_of_eq rfl a, readReg_of_eq rfl a, readReg_of_eq rfl a, readReg_of_eq rfl a,
    readReg_of_eq rfl a, readReg_of_eq rfl a,
    fun r hr ha => readReg_vm hr ha s,
    fun p c => ⟨fun ha => readReg_model (k := 0) (by decide) ha s, fun ha => readReg_model (k := 1) (by decide) ha s,
      fun ha => readReg_model (k := 2) (by decide) ha s, fun ha => readReg_model (k := 3) (by decide) ha s⟩,
    fun h => readReg_unlisted h s⟩
end

section
/-!
SUPPORT. The classifier's decisions: the order of binary32 words as the comparisons of rule R10 give it, the static slicer's
regions (rules R172, R173), and Estimate with its arg-max (rules R178, R179, R181).
-/
namespace Sys2Proof.Machine

/-! ### Comparisons -/

theorem flt_iff {a b : Word} :
    flt a b = true ↔ f32IsNaN a = false ∧ f32IsNaN b = false ∧ f32Key a < f32Key b := by
  simp [flt, and_assoc]

theorem fle_iff {a b : Word} :
    fle a b = true ↔ f32IsNaN a = false ∧ f32IsNaN b = false ∧ f32Key a ≤ f32Key b := by
  simp [fle, and_assoc]

theorem flt_nan_left {a : Word} (h : f32IsNaN a = true) (b : Word) : flt a b = false := by simp [flt, h]

theorem flt_nan_right {b : Word} (h : f32IsNaN b = true) (a : Word) : flt a b = false := by simp [flt, h]

theorem flt_irrefl (a : Word) : flt a a = false := by simp [flt]

theorem fle_of_flt {a b : Word} (h : flt a b = true) : fle a b = true := by
  obtain ⟨ha, hb, hkey⟩ := flt_iff.mp h
  exact fle_iff.mpr ⟨ha, hb, hkey.le⟩

theorem flt_of_fle_of_flt {a b c : Word} (hab : fle a b = true) (hbc : flt b c = true) : flt a c = true := by
  obtain ⟨ha, -, hkey⟩ := fle_iff.mp hab
  obtain ⟨-, hc, hkey'⟩ := flt_iff.mp hbc
  exact flt_iff.mpr ⟨ha, hc, hkey.trans_lt hkey'⟩

theorem fle_trans {a b c : Word} (hab : fle a b = true) (hbc : fle b c = true) : fle a c = true := by
  obtain ⟨ha, -, hkey⟩ := fle_iff.mp hab
  obtain ⟨-, hc, hkey'⟩ := fle_iff.mp hbc
  exact fle_iff.mpr ⟨ha, hc, hkey.trans hkey'⟩

theorem not_flt_of_fle {a b : Word} (h : fle a b = true) : flt b a = false := by
  obtain ⟨-, -, hkey⟩ := fle_iff.mp h
  simp [flt, hkey]

/-- Between values that are not NaN the order is total. -/
theorem fle_of_not_flt {a b : Word} (ha : f32IsNaN a = false) (hb : f32IsNaN b = false) (h : flt b a = false) :
    fle a b = true := by
  refine fle_iff.mpr ⟨ha, hb, ?_⟩
  simpa [flt, ha, hb] using h

theorem fle_of_feq_swapped {a b : Word} (h : feq a b = true) : fle b a = true := by
  simp only [feq, Bool.and_eq_true, Bool.not_eq_true', decide_eq_true_eq] at h
  obtain ⟨⟨ha, hb⟩, hkey⟩ := h
  exact fle_iff.mpr ⟨hb, ha, hkey.ge⟩

/-! ### The static slicer -/

section slicer
variable {s : State} {v : Word}

theorem sliceRegion_of_nan (h : f32IsNaN v = true) : sliceRegion s v = 2 := by
  simp [sliceRegion, fgt, flt_nan_left h, flt_nan_right h]

/-- Above the upper threshold, where that lies at or above the centre. -/
theorem sliceRegion_above_umid (hord : fle s.thCenter s.thUmid = true) (h : flt s.thUmid v = true) :
    sliceRegion s v = 0 := by
  simp [sliceRegion, fgt, flt_of_fle_of_flt hord h, h]

theorem sliceRegion_above_center (h : flt s.thCenter v = true) (hle : fle v s.thUmid = true) : sliceRegion s v = 1 := by
  simp [sliceRegion, fgt, h, not_flt_of_fle hle]

theorem sliceRegion_upto_center (hle : fle v s.thCenter = true) (hge : fle s.thLmid v = true) : sliceRegion s v = 2 := by
  simp [sliceRegion, fgt, not_flt_of_fle hle, not_flt_of_fle hge]

/-- Below the lower threshold, where that lies at or below the centre. -/
theorem sliceRegion_below_lmid (hord : fle s.thLmid s.thCenter = true) (h : flt v s.thLmid = true) :
    sliceRegion s v = 3 := by
  simp [sliceRegion, fgt, not_flt_of_fle (fle_trans (fle_of_flt h) hord), h]

/-- With no room between the centre and the upper threshold nothing falls into region 1 (rule R173). -/
theorem sliceRegion_ne_one (heq : feq s.thCenter s.thUmid = true) : sliceRegion s v ≠ 1 := by
  unfold sliceRegion fgt
  split
  next habove => simp [flt_of_fle_of_flt (fle_of_feq_swapped heq) habove]
  next => split <;> decide

theorem staticSlice_of_region {k : Nat} (h : sliceRegion s v = k) :
    staticSlice s v = s.sliceMap.extractLsb' (2 * k) 2 := by rw [staticSlice, h]

end slicer

/-! ### The arg-max -/

/-- Among the candidates below `n`, `d` is the first that none exceeds. -/
def IsFirstMax (pdf : Dibit → Word) (n : Nat) (d : Dibit) : Prop :=
  (∀ c : Dibit, c.toNat < n → fgt (pdf c) (pdf d) = false) ∧ ∀ c : Dibit, c.toNat < d.toNat → fgt (pdf d) (pdf c) = true

theorem isFirstMax_one (pdf : Dibit → Word) : IsFirstMax pdf 1 0#2 := by
  refine ⟨fun c hc => ?_, fun c hc => absurd hc (Nat.not_lt_zero _)⟩
  obtain rfl : c = 0#2 := BitVec.eq_of_toNat_eq (by simpa using hc)
  exact flt_irrefl _

/-- One round of the search: the next candidate replaces the best one when it exceeds it, and then it exceeds all before. -/
theorem IsFirstMax.extend {pdf : Dibit → Word} {n : Nat} {d : Dibit} (h : IsFirstMax pdf n d)
    (hnan : ∀ c, f32IsNaN (pdf c) = false) (c : Dibit) (hc : c.toNat = n) :
    IsFirstMax pdf (n + 1) (if fgt (pdf c) (pdf d) then c else d) := by
  obtain ⟨hmax, hfirst⟩ := h
  have hcases : ∀ e : Dibit, e.toNat < n + 1 → e.toNat < n ∨ e = c := fun e he =>
    (Nat.lt_succ_iff_lt_or_eq.mp he).imp_right fun heq => BitVec.eq_of_toNat_eq (heq.trans hc.symm)
  split
  next hgt =>
    have hbefore : ∀ e : Dibit, e.toNat < n → fgt (pdf c) (pdf e) = true := fun e he =>
      flt_of_fle_of_flt (fle_of_not_flt (hnan e) (hnan d) (hmax e he)) hgt
    refine ⟨fun e he => ?_, fun e he => hbefore e (hc ▸ he)⟩
    obtain he | rfl := hcases e he
    · exact not_flt_of_fle (fle_of_flt (hbefore e he))
    · exact flt_irrefl _
  next hle =>
    refine ⟨fun e he => ?_, hfirst⟩
    obtain he | rfl := hcases e he
    · exact hmax e he
    · exact Bool.eq_false_of_not_eq_true hle

theorem isFirstMax_argMax {pdf : Dibit → Word} (hnan : ∀ c, f32IsNaN (pdf c) = false) : IsFirstMax pdf 4 (argMax pdf) :=
  (((isFirstMax_one pdf).extend hnan 1#2 rfl).extend hnan 2#2 rfl).extend hnan 3#2 rfl

/-! ### Estimate -/

theorem mem_candidates (c : Dibit) : c ∈ [0#2, 1#2, 2#2, 3#2] := by revert c; decide

theorem estimable_iff (m : SymModel) :
    estimable m = true ↔
      10 ≤ m.cnt.toNat ∧ f32IsFinite m.sum = true ∧ f32IsFinite m.vsum = true ∧ fgt m.vsum 0#32 = true := by
  simp only [estimable, Bool.and_eq_true, decide_eq_true_eq, and_assoc]
  rfl

section estimate
variable {env : Env} {q : BitVec 23} {s : State} {p : Dibit} {v : Word}

theorem estimate_of_unusable (h : ¬ ∀ c, estimable (htGet s p c) = true) : estimate env q s p v = none :=
  if_neg fun hall => h fun c => List.all_eq_true.mp hall c (mem_candidates c)

theorem estimate_of_usable (h : ∀ c, estimable (htGet s p c) = true) :
    estimate env q s p v =
      if ∃ c, f32IsNaN (pdfOf env q (htGet s p c) v) = true then none
      else some (argMax fun c => pdfOf env q (htGet s p c) v) := by
  have hany : ([0#2, 1#2, 2#2, 3#2].any fun c => f32IsNaN (pdfOf env q (htGet s p c) v)) = true
      ↔ ∃ c, f32IsNaN (pdfOf env q (htGet s p c) v) = true := by
    simp only [List.any_eq_true, mem_candidates, true_and]
  rw [estimate, if_pos (List.all_eq_true.mpr fun c _ => h c)]
  exact if_congr hany rfl rfl

end estimate

end Sys2Proof.Machine

open Sys2Proof Sys2Proof.Machine

/-- Settles O35: the region by the slicer's comparisons, with the order of the thresholds that check G11 gives. -/
theorem staticSlicer : Obligations.StaticSlicer := by
  refine fun s v => ⟨fun hnan => staticSlice_of_region (sliceRegion_of_nan hnan), fun hcfg => ?_⟩
  simp only [configOk, Bool.and_eq_true] at hcfg
  obtain ⟨⟨⟨-, hlower⟩, hupper⟩, -⟩ := hcfg
  exact ⟨fun h => staticSlice_of_region (sliceRegion_above_umid hupper h),
    fun h hle => staticSlice_of_region (sliceRegion_above_center h hle),
    fun hle hge => staticSlice_of_region (sliceRegion_upto_center hle hge),
    fun h => staticSlice_of_region (sliceRegion_below_lmid hlower h),
    fun _ heq => sliceRegion_ne_one heq⟩

/-- Settles O36: the density written in the statement is `pdfOf`, and the arg-max keeps the first best candidate so far. -/
theorem estimateAnswer : Obligations.EstimateAnswer := by
  intro env q s p v pdf usable
  have husable : usable ↔ ∀ c, estimable (htGet s p c) = true := forall_congr' fun c => (estimable_iff _).symm
  rw [husable]
  refine ⟨estimate_of_unusable, fun hall hnan => ?_, fun hall hnan => ?_⟩
  · rw [estimate_of_usable hall]
    exact if_pos hnan
  · obtain ⟨hmax, hfirst⟩ := isFirstMax_argMax hnan
    refine ⟨argMax pdf, ?_, fun c => hmax c c.isLt, hfirst⟩
    rw [estimate_of_usable hall]
    exact if_neg fun ⟨c, hc⟩ => Bool.false_ne_true ((hnan c).symm.trans hc)
end

section
/-!
SUPPORT. Exact sums (rule R197): an integer below 2^24 is a binary32 value, so sums and differences of such integers are not
rounded, and a symbol model's `SUM` follows the integers that its slots hold.
-/
namespace Sys2Proof.Machine

/-! ### Integers as binary32 values -/

/-- A value of the format is not rounded. -/
theorem f32Round_magUnits {M : Nat} (h : M < f32InfMag) : f32Round (magUnits M) 1 = M := by
  obtain ⟨N, hround, hnear⟩ := f32Round_nearest Nat.one_pos (standsFor_div (num := magUnits M) Nat.one_pos)
  have hdist := (hnear M).1
  rw [Nat.cast_one, div_one, sub_self, abs_zero, abs_nonpos_iff, sub_eq_zero] at hdist
  obtain rfl : N = M := magUnits_strictMono.injective (by exact_mod_cast hdist)
  rw [hround, Nat.min_eq_left h.le]

/-- A natural number below 2^24 has magnitude bits: shifted to 24 significant bits it is a normal significand. -/
theorem exists_magUnits_eq {n : Nat} (hn : n < 2 ^ 24) : ∃ M, M < f32InfMag ∧ magUnits M = n * 2 ^ 149 := by
  rcases Nat.eq_zero_or_pos n with rfl | hpos
  · exact ⟨0, by decide, by simp⟩
  have hlog : Nat.log2 n < 24 := (Nat.log2_lt hpos.ne').mpr hn
  have hlow : 2 ^ 23 ≤ n * 2 ^ (23 - Nat.log2 n) :=
    calc 2 ^ 23 = 2 ^ Nat.log2 n * 2 ^ (23 - Nat.log2 n) := by rw [← pow_add]; congr 1; omega
      _ ≤ _ := Nat.mul_le_mul_right _ (Nat.log2_self_le hpos.ne')
  have hhigh : n * 2 ^ (23 - Nat.log2 n) ≤ 2 ^ 24 :=
    calc _ ≤ 2 ^ (Nat.log2 n + 1) * 2 ^ (23 - Nat.log2 n) := Nat.mul_le_mul_right _ Nat.lt_log2_self.le
      _ = 2 ^ 24 := by rw [← pow_add]; congr 1; omega
  refine ⟨(126 + Nat.log2 n) * 2 ^ 23 + n * 2 ^ (23 - Nat.log2 n), ?_, ?_⟩
  · unfold f32InfMag
    omega
  · rw [magUnits_scaled (.inr hlow) hhigh, mul_assoc, ← pow_add]
    congr 2
    omega

theorem f32Sign_f32OfInt (x : Int) : f32Sign (f32OfInt x) = decide (x < 0) := f32Sign_f32Make (f32Round_lt ..)

/-- An integer below 2^24 is a finite value, exactly. -/
theorem f32OfInt_exact {x : Int} (hx : x.natAbs < 2 ^ 24) :
    f32IsFinite (f32OfInt x) = true ∧ f32Int (f32OfInt x) = x * 2 ^ 149 := by
  obtain ⟨M, hM, hval⟩ := exists_magUnits_eq hx
  have hmag : f32Mag (f32OfInt x) = M := by
    rw [f32OfInt, f32Mag_f32Make (f32Round_lt ..), ← hval, f32Round_magUnits hM]
  refine ⟨f32IsFinite_iff.mpr (hmag ▸ hM), ?_⟩
  by_cases hneg : x < 0
  · rw [f32Int_of_neg ((f32Sign_f32OfInt x).trans (decide_eq_true hneg)), hmag, hval]
    push_cast
    rw [abs_of_neg hneg, neg_mul, neg_neg]
  · rw [f32Int_of_nonneg ((f32Sign_f32OfInt x).trans (decide_eq_false hneg)), hmag, hval]
    push_cast
    rw [abs_of_nonneg (not_lt.mp hneg)]

/-- Finite words of integer values add up to the word of the integers' sum; a sum of 0 is +0 unless both are negative. -/
theorem fadd_of_integers (q : BitVec 23) {a b : Word} {x y : Int} (ha : f32IsFinite a = true) (hb : f32IsFinite b = true)
    (hx : f32Int a = x * 2 ^ 149) (hy : f32Int b = y * 2 ^ 149) (hzero : x + y = 0 → (f32Sign a && f32Sign b) = false) :
    fadd q a b = f32OfInt (x + y) := by
  have hpow : (0 : Int) < 2 ^ 149 := by positivity
  rw [fadd_of_finite q ha hb, hx, hy, ← add_mul]
  by_cases hsum : x + y = 0
  · rw [if_pos (by rw [hsum, zero_mul]), hzero hsum, hsum]
    rfl
  · have hsign : decide ((x + y) * 2 ^ 149 < 0) = decide (x + y < 0) := by
      rw [decide_eq_decide]
      omega
    rw [if_neg (mul_ne_zero hsum hpow.ne'), hsign, Int.natAbs_mul]
    rfl

theorem fadd_f32OfInt (q : BitVec 23) {x y : Int} (hx : x.natAbs < 2 ^ 24) (hy : y.natAbs < 2 ^ 24) :
    fadd q (f32OfInt x) (f32OfInt y) = f32OfInt (x + y) := by
  obtain ⟨hxfin, hxval⟩ := f32OfInt_exact hx
  obtain ⟨hyfin, hyval⟩ := f32OfInt_exact hy
  refine fadd_of_integers q hxfin hyfin hxval hyval fun hsum => ?_
  rw [f32Sign_f32OfInt, f32Sign_f32OfInt, ← Bool.decide_and, decide_eq_false_iff_not]
  omega

theorem fsub_f32OfInt (q : BitVec 23) {x y : Int} (hx : x.natAbs < 2 ^ 24) (hy : y.natAbs < 2 ^ 24) :
    fsub q (f32OfInt x) (f32OfInt y) = f32OfInt (x - y) := by
  obtain ⟨hxfin, hxval⟩ := f32OfInt_exact hx
  obtain ⟨hyfin, hyval⟩ := f32OfInt_exact hy
  rw [sub_eq_add_neg]
  refine fadd_of_integers q hxfin ?_ hxval ?_ fun hsum => ?_
  · rwa [f32IsFinite_iff, f32Mag_fneg, ← f32IsFinite_iff]
  · rw [f32Int_fneg, hyval, neg_mul]
  · rw [f32Sign_fneg, f32Sign_f32OfInt, f32Sign_f32OfInt, show x = y by omega, Bool.and_not_self]

/-! ### The samples a model holds -/

/-- Integers that rule R197 admits. -/
def SmallIntegers (xs : List Int) : Prop := ∀ x ∈ xs, x.natAbs * 200 < 2 ^ 24

/-- A window of at most 200 admitted integers has an exact sum. -/
theorem SmallIntegers.sum_lt {xs : List Int} (h : SmallIntegers xs) (hlen : xs.length ≤ 200) : xs.sum.natAbs < 2 ^ 24 := by
  have hsum : xs.sum.natAbs * 200 ≤ xs.length * (2 ^ 24 - 1) := by
    clear hlen
    induction xs with
    | nil => simp
    | cons x xs ih =>
      obtain ⟨hx, hxs⟩ := List.forall_mem_cons.mp h
      have hrest := ih hxs
      rw [List.sum_cons, List.length_cons]
      omega
  omega

/-- A model after the integers `xs`, oldest first: it counts them up to 200, its slots hold the last 200 in turn, and `SUM` is
the sum of those. -/
structure SumsLast (xs : List Int) (m : SymModel) : Prop where
  legal : ModelLegal m
  cnt : m.cnt.toNat = min xs.length 200
  idx : m.idx.toNat = xs.length % 200
  slots : ∀ j x, xs.length ≤ j + 200 → xs[j]? = some x → memRead m.val (j % 200) = some (f32OfInt x)
  sum : m.sum = f32OfInt (xs.drop (xs.length - 200)).sum

theorem sumsLast_empty : SumsLast [] SymModel.empty :=
  ⟨empty_modelLegal, rfl, rfl, fun _ _ _ h => by simp at h, by decide⟩

/-- `SUM` after the eviction (rule R190): a full model loses the oldest of its 200 samples, any other model none. -/
theorem SumsLast.evict_sum {xs : List Int} {m : SymModel} (h : SumsLast xs m) (hsmall : SmallIntegers xs)
    (q : Nat → BitVec 23) : (modelEvict q m).sum = f32OfInt (xs.drop (xs.length + 1 - 200)).sum := by
  have hcnt := h.cnt
  rcases Nat.lt_or_ge xs.length 200 with hlt | hfull
  · rw [modelEvict_of_lt q m (by omega), h.sum, show xs.length - 200 = xs.length + 1 - 200 by omega]
  have hold : xs.length - 200 < xs.length := by omega
  have hwindow : xs.drop (xs.length - 200) = xs[xs.length - 200] :: xs.drop (xs.length + 1 - 200) := by
    rw [List.drop_eq_getElem_cons hold, show xs.length - 200 + 1 = xs.length + 1 - 200 by omega]
  have hslot : memRead m.val m.idx.toNat = some (f32OfInt xs[xs.length - 200]) := by
    rw [h.idx, show xs.length % 200 = (xs.length - 200) % 200 by omega]
    exact h.slots _ _ (by omega) (List.getElem?_eq_getElem hold)
  obtain ⟨-, hidx, -, -, -, -, hmean⟩ := h.legal
  obtain ⟨om, hom⟩ := Option.isSome_iff_exists.mp ((hmean m.idx.toNat).trans (decide_eq_true (by omega)))
  have hbound : (xs.drop (xs.length - 200)).sum.natAbs < 2 ^ 24 :=
    SmallIntegers.sum_lt (fun x hx => hsmall x (List.mem_of_mem_drop hx)) (by rw [List.length_drop]; omega)
  have holdest := hsmall _ (List.getElem_mem hold)
  rw [modelEvict_of_full q m (by omega) hslot hom]
  dsimp only
  rw [h.sum, fsub_f32OfInt _ hbound (by omega), hwindow, List.sum_cons, add_sub_cancel_left]

theorem SumsLast.insert {xs : List Int} {m : SymModel} (h : SumsLast xs m) {x : Int} (hsmall : SmallIntegers (xs ++ [x]))
    (q : Nat → BitVec 23) : SumsLast (xs ++ [x]) (modelInsert q m (f32OfInt x)) := by
  obtain ⟨hxs, hx⟩ := List.forall_mem_append.mp hsmall
  have hx' := hx x (List.mem_singleton_self x)
  have hcnt := h.cnt
  have hidx := h.idx
  refine ⟨modelInsert_legal h.legal q _, ?_, ?_, fun j y hj hy => ?_, ?_⟩
  · rw [toNat_modelInsert_cnt q m _ h.legal.1, List.length_append, List.length_singleton]
    omega
  · rw [toNat_modelInsert_idx, List.length_append, List.length_singleton]
    omega
  · rw [List.length_append, List.length_singleton] at hj
    rw [modelInsert_val]
    rcases Nat.lt_or_ge j xs.length with hlt | hge
    · rw [memRead_memWrite_other _ _ (by omega)]
      rw [List.getElem?_append_left hlt] at hy
      exact h.slots j y (by omega) hy
    · obtain rfl : j = xs.length := by
        have := (List.getElem?_eq_some_iff.mp hy).1
        rw [List.length_append, List.length_singleton] at this
        omega
      obtain rfl : x = y := by simpa using hy
      rw [← hidx, memRead_memWrite_same]
  · have hbound : (xs.drop (xs.length + 1 - 200)).sum.natAbs < 2 ^ 24 :=
      SmallIntegers.sum_lt (fun y hy => hxs y (List.mem_of_mem_drop hy)) (by rw [List.length_drop]; omega)
    rw [modelInsert_sum, h.evict_sum hxs q, fadd_f32OfInt _ hbound (by omega), List.length_append, List.length_singleton,
      List.drop_append_of_le_length (by omega), List.sum_append, List.sum_singleton]

theorem sumsLast_foldl (q : Nat → BitVec 23) (xs : List Int) (hsmall : SmallIntegers xs) :
    SumsLast xs (xs.foldl (fun m x => modelInsert q m (f32OfInt x)) SymModel.empty) := by
  induction xs using List.reverseRecOn with
  | nil => exact sumsLast_empty
  | append_singleton xs x ih =>
    rw [List.foldl_append, List.foldl_cons, List.foldl_nil]
    exact (ih (List.forall_mem_append.mp hsmall).1).insert hsmall q

end Sys2Proof.Machine

open Sys2Proof Sys2Proof.Machine

/-- Settles O39, by induction on the insertions: the slot that an insertion overwrites holds the integer it evicts. -/
theorem integerSumsExact : Obligations.IntegerSumsExact := fun q xs hsmall =>
  have h := sumsLast_foldl q xs hsmall
  ⟨h.cnt, h.sum⟩
end

section
/-!
SUPPORT. A listed turn of the engine (rules R210 to R213): what the selection answers where a field is complete and where none
is, the engine's lock, and the sync detector (rule R218).
-/
namespace Sys2Proof.Machine

/-! ### The selection -/

/-- A descriptor is held where it is a last VOICE segment whose record would meet one that waits (rule R212). -/
theorem descriptorHeld_iff (i : Instr) (s : State) :
    descriptorHeld i s = true ↔
      ∃ prot base w, i = .voice prot true base w ∧ s.muted = false ∧ s.firstframe = false ∧ s.outLen ≠ 0 := by
  cases i with
  | voice prot last base w => simp [descriptorHeld, emitHeld, and_assoc]
  | _ => simp [descriptorHeld]

section runningEngine
variable {s : State} (hrun : s.halted = false)
include hrun

/-- A complete field runs, unless its descriptor is held: then the engine waits, or halts with `RUN` down (rules R210,
R213). -/
theorem engineChoice_of_complete {i : Instr} (hlocked : s.locked = true)
    (havail : descW (gField s.gm s.f.toNat) ≤ avail Config.params s)
    (hdecode : decodeDescriptor (gField s.gm s.f.toNat) = .ok i) :
    engineChoice Config.params s =
      if descriptorHeld i s then (if s.run then .hold else .halt) else .field i := by
  rw [engineChoice, hrun, hlocked, decide_eq_true havail, hdecode]
  rfl

/-- Where no field is complete the choice depends on the samples alone (rule R210). -/
theorem engineChoice_of_incomplete
    (hincomplete : ¬ (s.locked = true ∧ descW (gField s.gm s.f.toNat) ≤ avail Config.params s)) :
    engineChoice Config.params s = sampleChoice s := by
  rw [engineChoice, hrun, if_neg Bool.false_ne_true, if_neg (by simpa using hincomplete)]

end runningEngine

/-- The step that a choice of the engine comes to (rules R170, R211, R213). -/
def chosenStep (s : State) : EngineChoice → Host.Outcome State Fault Refusal
  | .hold => .next s
  | .halt => .next { s with halted := true }
  | .sym => .next (symStep Config.env s)
  | .field i => exec i s
  | .reserved w => .fault (.reservedDescriptor w)

/-- A listed turn of the engine takes the step that the selection chose, which does not look at the turns (rules R89, R210). -/
theorem step_of_engineChoice {s : State} {ts : List Agent} {c : EngineChoice} (hturn : s.turns = .engine :: ts)
    (hchoice : engineChoice Config.params s = c) : step s = chosenStep { s with turns := ts } c := by
  have hchoice' : engineChoice Config.params { s with turns := ts } = c := hchoice
  rw [step_eq_outcomeOf, fetch_of_turn hturn, fetchFor, fetchEngine, Config.env_params, hchoice']
  cases c <;> rfl

/-! ### The lock -/

/-- What a step on the engine's turn can come to, whether the turn was listed or is the idle schedule's (rules R89, R210). -/
theorem engineStep_of_step {s t : State} (h : step s = .next t) (hagent : nextAgent Config.params s = .engine) :
    EngineStep (takeTurn s) t := by
  have hfetch := fetchedNext_of_step h
  rw [fetch, Config.env_params, hagent] at hfetch
  exact engineStep_of_fetch hfetch

/-- The detector is off while the engine is locked (rule R218). -/
theorem autoLockCheck_of_locked (P : Params) {s : State} (h : s.locked = true) : autoLockCheck P s = s :=
  if_pos (by rw [h, Bool.true_or])

/-- No engine step ends a lock (rules R217, R336). -/
theorem EngineStep.keeps_locked {s t : State} (h : EngineStep s t) (hs : s.locked = true) : t.locked = true := by
  cases h with
  | hold => exact hs
  | halt => exact hs
  | sym _ =>
    obtain ⟨d, fault, -, hpush⟩ := symPush_eq_dbPush Config.env s
    have hpushed : (symPush Config.env s).locked = true := by
      rw [hpush]
      exact hs
    rw [symStep, autoLockCheck_of_locked _ hpushed]
    exact hpushed
  | field _ hf =>
    obtain ⟨b, hb, rfl⟩ := hf.advances
    exact (congrArg State.locked hb :).trans hs

/-! ### The sync detector -/

/-- The grammar has no SYNC descriptor (rules R116, R218). -/
theorem hasSync_eq_false_iff (gm : Mem Word) :
    hasSync gm = false ↔ ∀ f, f < gNfield gm → (gField gm f).extractLsb' 28 4 ≠ 0x4#4 := by
  simp [hasSync, gFields, ← isSyncWord_iff]

/-- What keeps the detector from looking: a lock, the switch, a grammar without SYNC descriptor or sync table, too few dibits
(rule R218). -/
def DetectorOff (s : State) : Prop :=
  s.locked = true ∨ s.ctrl.getLsbD 1 = false
    ∨ (∀ f, f < gNfield s.gm → (gField s.gm f).extractLsb' 28 4 ≠ 0x4#4) ∨ gNsync s.gm = 0
    ∨ s.dbValid.toNat < gLookback s.gm

theorem autoLockCheck_of_off (P : Params) {s : State} (h : DetectorOff s) : autoLockCheck P s = s := by
  unfold autoLockCheck
  split
  · rfl
  next hon =>
    split
    · rfl
    next htables =>
      refine if_pos ?_
      simp only [Bool.or_eq_true, Bool.not_eq_true', decide_eq_true_eq, hasSync_eq_false_iff, not_or] at hon htables
      obtain hlocked | hswitch | hnosync | hnotable | hshort := h
      · exact absurd hlocked hon.1
      · exact absurd hswitch hon.2
      · exact absurd hnosync htables.1
      · exact absurd hnotable htables.2
      · exact hshort

/-- A detector that looks locks on the entry that the last dibits match (rules R218, R323). -/
theorem autoLockCheck_of_on (P : Params) {s : State} (h : ¬ DetectorOff s) :
    autoLockCheck P s = (syncMatch s.gm (recentDibits P s)).elim s fun k => lockOn P (gType s.gm k) s := by
  simp only [DetectorOff, not_or, ← hasSync_eq_false_iff] at h
  obtain ⟨hlocked, hswitch, hsync, htable, hlong⟩ := h
  have hauto : autoLock s = true := (Bool.not_eq_false _).mp hswitch
  rw [autoLockCheck, if_neg (by simp [hlocked, hauto]), if_neg (by simp [hsync, htable]), if_neg hlong]
  cases syncMatch s.gm (recentDibits P s) <;> rfl

/-- The dibits that the detector compares, where pointers wrap by themselves (rules R31, R218). -/
theorem recentDibits_of_full_width {P : Params} (hw : P.wPtr = 32) (s : State) :
    recentDibits P s = (List.range (gSyncw s.gm)).map fun i =>
      (dbRead P s (s.wp - BitVec.ofNat 32 (gSyncw s.gm) + BitVec.ofNat 32 i)).d := by
  simp only [recentDibits, ptrWrap_of_full_width hw]

/-- The sync test answers nothing where no entry matches (rule R237). -/
theorem syncMatch_eq_none (gm : Mem Word) (n : Nat) (raw : Nat → Dibit) :
    syncMatch gm ((List.range n).map raw) = none ↔ NoMatch gm n raw := by
  simp only [syncMatch, NoMatch, List.find?_range_eq_none, ← Bool.not_eq_true, patMatches_iff, Bool.not_eq_true']

end Sys2Proof.Machine

open Sys2Proof Sys2Proof.Machine

/-- Settles O56: the four engine steps by `EngineStep.keeps_locked`. -/
theorem engineNeverUnlocks : Obligations.EngineNeverUnlocks := fun _ _ h hagent hlocked =>
  (engineStep_of_step h hagent).keeps_locked hlocked

/-- Settles O9: the selection by `engineChoice_of_complete`. -/
theorem engineStepRunsDescriptor : Obligations.EngineStepRunsDescriptor := by
  intro s ts i hturn hrun hlocked hdecode havail hfree
  refine step_of_engineChoice (c := .field i) hturn ?_
  rw [engineChoice_of_complete hrun hlocked (by rwa [avail_params]) hdecode,
    if_neg (mt (descriptorHeld_iff i _).mp hfree)]

/-- Settles O11: a complete field by `engineChoice_of_complete`, no complete field by `engineChoice_of_incomplete`. -/
theorem engineSelection : Obligations.EngineSelection := by
  intro s ts hturn d complete held
  have hheld (hrun : s.halted = false) (hcomplete : complete) (hwaits : held) :
      engineChoice Config.params s = if s.run then .hold else .halt := by
    obtain ⟨prot, base, w, hdecode, hwaits⟩ := hwaits
    obtain ⟨hlocked, havail⟩ := hcomplete
    rw [engineChoice_of_complete hrun hlocked (by rwa [avail_params]) hdecode,
      if_pos ((descriptorHeld_iff _ _).mpr ⟨prot, base, w, rfl, hwaits⟩)]
  have hsample (hrun : s.halted = false) (hincomplete : ¬ complete) :
      engineChoice Config.params s =
        if s.rdyLen ≠ 0 then .sym else if s.run then .hold else .halt :=
    engineChoice_of_incomplete hrun (by rwa [avail_params])
  have hstep {c : EngineChoice} := step_of_engineChoice (c := c) hturn
  refine ⟨fun hhalted => hstep (engineChoice_of_halted hhalted), fun hrun hcomplete hwaits hup => hstep (c := .hold) ?_,
    fun hrun hcomplete hwaits hdown => hstep (c := .halt) ?_, fun hrun hincomplete hready => hstep (c := .sym) ?_,
    fun hrun hincomplete hempty hup => hstep (c := .hold) ?_, fun hrun hincomplete hempty hdown => hstep (c := .halt) ?_⟩
  · rw [hheld hrun hcomplete hwaits, if_pos hup]
  · rw [hheld hrun hcomplete hwaits, if_neg (by simp [hdown])]
  · rw [hsample hrun hincomplete, if_pos hready]
  · rw [hsample hrun hincomplete, if_neg (not_not.mpr hempty), if_pos hup]
  · rw [hsample hrun hincomplete, if_neg (not_not.mpr hempty), if_neg (by simp [hdown])]

/-- Settles O34: an idle detector by `autoLockCheck_of_off`, a looking one by `autoLockCheck_of_on` and what the sync test
answers. -/
theorem autoLockDetector : Obligations.AutoLockDetector := by
  intro P s hw recent off
  have hrecent : recentDibits P s = (List.range (gSyncw s.gm)).map recent := recentDibits_of_full_width hw s
  refine ⟨autoLockCheck_of_off P, fun hon hnone => ?_, fun k hon hlow => ?_⟩
  · rw [autoLockCheck_of_on P hon, hrecent, (syncMatch_eq_none _ _ _).mpr hnone, Option.elim_none]
  · have hlock : autoLockCheck P s = lockOn P (gType s.gm k) s := by
      rw [autoLockCheck_of_on P hon, hrecent, (syncMatch_eq_some _ _ _ k).mpr hlow, Option.elim_some]
    rw [hlock]
    refine ⟨sessionCleared_of_fixed rfl, rfl, rfl, ?_, rfl⟩
    rw [lockOn_rp, ptrWrap_of_full_width hw, toNat_sub_gLookback]
end

section
/-!
SUPPORT. What the descriptors share (rules R195, R226, R227, R240): `Advance` after a body, a saturating count, the content of a
field that may be used, the query and the training; and the descriptors SKIP, CACH and VOICE (rules R212, R229 to R234).
-/
namespace Sys2Proof.Machine

/-! ### Advance and the counters -/

/-- `Advance` from a state that a descriptor's body left: the sequencer is where it was before the body, but for `KIDX` (rule
R240). -/
theorem advanced_of_fieldFrame {s b : State} (h : fieldFrame b = fieldFrame s) (w : BitVec 10) :
    Advanced w b.kidx s (advance Config.params w b) := by
  have hrp : b.rp = s.rp := (congrArg State.rp h :)
  have hf : b.f = s.f := (congrArg State.f h :)
  have hj : b.j = s.j := (congrArg State.j h :)
  have hfirst : b.firstframe = s.firstframe := (congrArg State.firstframe h :)
  have hgm : b.gm = s.gm := (congrArg State.gm h :)
  have hlast : lastField b = decide (s.f.toNat + 1 = gNfield s.gm) := by rw [lastField, hf, hgm]
  refine ⟨by rw [advance_rp, ptrWrap_params, hrp], fun hend => ?_, fun hmore => ?_⟩
  · rw [advance_f, advance_j, advance_kidx, advance_firstframe, hlast, decide_eq_true hend, hj]
    refine ⟨rfl, ?_, rfl, rfl⟩
    rw [if_pos rfl, BitVec.toNat_ofNat]
    omega
  · rw [advance_f, advance_j, advance_kidx, advance_firstframe, hlast, decide_eq_false hmore, hf, hj, hfirst]
    exact ⟨rfl, rfl, rfl, rfl⟩

/-- At this hardware's width a counter stops at `2^32 - 1` (rules R9, R195). -/
theorem counted_satInc (x : Counter) : Counted x (satInc Config.params x) := by
  have hlt := x.isLt
  unfold Counted satInc
  split
  next hfull =>
    rw [Config.params_wCnt] at hfull
    omega
  next hroom =>
    rw [Config.params_wCnt] at hroom
    rw [BitVec.toNat_add_of_lt (show x.toNat + 1 < 2 ^ 32 by omega)]
    change x.toNat + 1 = _
    omega

/-! ### Protect -/

/-- A field is lost where it is protected and the oracle does not confirm it (rule R227). -/
abbrev FieldLost (prot : Bool) (q : FecQuery) : Prop := prot = true ∧ Config.fecOk q = false

/-- `b` agrees with `s` in all that `Protect` reads of the state, beside the field, and in all that it writes (rule R227). -/
structure SameForProtect (s b : State) : Prop where
  j : b.j = s.j
  f : b.f = s.f
  ctrl : b.ctrl = s.ctrl
  untrained : NothingTrained s b
  unasked : NotAsked s b

theorem SameForProtect.refl (s : State) : SameForProtect s s := ⟨rfl, rfl, rfl, ⟨rfl, rfl, rfl, rfl⟩, rfl, rfl⟩

section protectedField
variable {kind : BitVec 4} {prot : Bool} {field : List DbEntry} {s b : State}

theorem SameForProtect.query (h : SameForProtect s b) : fecQuery kind field b = fecQuery kind field s := by
  rw [fecQuery, fecQuery, h.j, h.f]

/-- A field may be used unless it is lost (rule R227). -/
theorem protect_good_iff (h : SameForProtect s b) :
    (protect Config.env kind prot field b).good = true ↔ ¬ FieldLost prot (fecQuery kind field s) := by
  rw [← h.query]
  cases prot with
  | false => simp [FieldLost]
  | true =>
    cases hok : Config.fecOk (fecQuery kind field b) with
    | false => simp [FieldLost, hok, protect_failed Config.env kind field b hok]
    | true => simp [FieldLost, hok, protect_confirmed Config.env kind field b hok]

/-- The content of a field that may be used: the oracle's dibits where it is protected, else the raw ones (rules R226, R227). -/
theorem protect_content {w : BitVec 10} (h : SameForProtect s b) (hfield : field = readField Config.params s w)
    (husable : ¬ FieldLost prot (fecQuery kind field s)) :
    (protect Config.env kind prot field b).content =
      (List.range w.toNat).map (contentDibit prot (fecQuery kind field s) s) := by
  subst hfield
  cases prot with
  | false => exact readField_dibits s w
  | true =>
    rw [← h.query] at husable ⊢
    have hok : Config.fecOk (fecQuery kind (readField Config.params s w) b) = true := by simpa [FieldLost] using husable
    rw [protect_confirmed Config.env kind _ b hok, length_readField]
    rfl

/-- One query goes out for a protected field and none else; a protected field that the oracle confirms trains, and no other
(rules R127, R227). -/
theorem protect_asks_and_trains (h : SameForProtect s b) :
    let q := fecQuery kind field s
    let after := (protect Config.env kind prot field b).after
    (if prot then Asked q s after else NotAsked s after) ∧
      (if prot = true ∧ Config.fecOk q = true then Trained q field s after else NothingTrained s after) := by
  obtain ⟨hht, hcnt, herr, hdraws⟩ := h.untrained
  obtain ⟨hout, hin⟩ := h.unasked
  dsimp only
  rw [← h.query]
  cases prot with
  | false => exact ⟨h.unasked, h.untrained⟩
  | true =>
    cases hok : Config.fecOk (fecQuery kind field b) with
    | false =>
      rw [protect_failed Config.env kind field b hok]
      exact ⟨⟨congrArg (· ++ _) hout, congrArg (· ++ _) hin⟩, h.untrained⟩
    | true =>
      rw [protect_confirmed Config.env kind field b hok]
      refine ⟨⟨?_, ?_⟩, trainFrom_congr Config.env _ none (fecTranscript _ _ b) s hht hcnt herr hdraws h.ctrl⟩
      · rw [trainField_fecOut, fecTranscript_fecOut, hout]
      · rw [trainField_fecIn, fecTranscript_fecIn, hin]

end protectedField

/-- A state with what training and asking write taken from another (rule R227). -/
def withTraining (p s : State) : State :=
  { s with
    ht := p.ht, bitCnt := p.bitCnt, bitErr := p.bitErr, nanDraws := p.nanDraws, fecOut := p.fecOut, fecIn := p.fecIn }

theorem protect_after_eq (env : Env) (kind : BitVec 4) (prot : Bool) (field : List DbEntry) (s : State) :
    (protect env kind prot field s).after = withTraining (protect env kind prot field s).after s := protect_frame ..

/-! ### CACH -/

theorem dibitAt_map_range (raw : Nat → Dibit) {i n : Nat} (h : i < n) : dibitAt ((List.range n).map raw) i = raw i := by
  simp [dibitAt, h]

/-- What CACH leaves for `Advance`: the slot bit of a field that may be used, or a counted failure (rule R230). -/
theorem cachField_body (prot : Bool) {slotIdx : BitVec 6} (slotHalf : Bool) {w : BitVec 10} (s : State)
    (hidx : slotIdx.toNat < w.toNat) :
    let field := readField Config.params s w
    let q := fecQuery 0x2#4 field s
    ∃ b, cachField Config.env prot slotIdx slotHalf w s = advance Config.params w b
      ∧ b = { withTraining (protect Config.env 0x2#4 prot field s).after s with curslot := b.curslot, hdrErr := b.hdrErr }
      ∧ if FieldLost prot q then b.curslot = s.curslot ∧ Counted s.hdrErr b.hdrErr
        else b.hdrErr = s.hdrErr ∧ b.curslot.toNat
          = ((contentDibit prot q s slotIdx.toNat).getLsbD (if slotHalf then 1 else 0)).toNat := by
  intro field q
  have hsame := SameForProtect.refl s
  have hgood := protect_good_iff (kind := 0x2#4) (prot := prot) (field := field) hsame
  have hafter := protect_after_eq Config.env 0x2#4 prot field s
  refine ⟨_, rfl, ?_⟩
  rw [Config.env_params, show readField Config.params s w = field from rfl]
  split
  next hok =>
    have husable := hgood.mp hok
    rw [hafter, if_neg husable, protect_content hsame rfl husable, dibitAt_map_range _ hidx, dibitBit_eq]
    exact ⟨rfl, rfl, BitVec.toNat_ofBool _⟩
  next hfails =>
    rw [hafter, if_pos (not_not.mp (hgood.not.mp hfails))]
    exact ⟨rfl, rfl, counted_satInc s.hdrErr⟩

/-! ### VOICE -/

/-- A VOICE that is not held runs (rules R212, R231). -/
theorem exec_voice_of_not_held (prot : Bool) {last : Bool} (base : BitVec 6) (w : BitVec 10) {s : State}
    (h : ¬ (last = true ∧ s.muted = false ∧ s.firstframe = false ∧ s.outLen ≠ 0)) :
    exec (.voice prot last base w) s = .next (voiceField Config.env prot last base w s) := by
  refine congrArg Host.Outcome.next (if_neg fun hheld => ?_)
  obtain ⟨_, _, _, heq, hwaits⟩ := (descriptorHeld_iff (.voice prot last base w) s).mp hheld
  cases heq
  exact h ⟨rfl, hwaits⟩

theorem voiceBegin_eq (base : BitVec 6) (s : State) :
    voiceBegin base s =
      { s with vm := if base = 0#6 then Vector.replicate 4 0#24 else s.vm, vbad := if base = 0#6 then false else s.vbad } := by
  unfold voiceBegin
  split <;> rfl

theorem sameForProtect_voiceBegin (base : BitVec 6) (s : State) : SameForProtect s (voiceBegin base s) := by
  rw [voiceBegin_eq]
  exact ⟨rfl, rfl, rfl, ⟨rfl, rfl, rfl, rfl⟩, rfl, rfl⟩

/-- What a segment leaves for the record: its content placed, or the sub-frame bad and the failure counted (rule R231). -/
theorem voicePlace_effect (prot : Bool) (base : BitVec 6) (w : BitVec 10) (s : State) :
    let field := readField Config.params s w
    let q := fecQuery 0x3#4 field s
    let content := (List.range w.toNat).map (contentDibit prot q s)
    let vm0 := if base = 0 then Vector.replicate 4 0#24 else s.vm
    ∃ v, voicePlace Config.env prot base field (voiceBegin base s) = v
      ∧ v = { withTraining (protect Config.env 0x3#4 prot field (voiceBegin base s)).after s with
          vm := v.vm, vbad := v.vbad, audErr := v.audErr }
      ∧ if FieldLost prot q then v.vm = vm0 ∧ v.vbad = true ∧ Counted s.audErr v.audErr
        else v.vm = placeDibits s.gm base.toNat content vm0 ∧ v.vbad = (if base = 0 then false else s.vbad)
          ∧ v.audErr = s.audErr := by
  intro field q content vm0
  have hsame := sameForProtect_voiceBegin base s
  have hgood := protect_good_iff (kind := 0x3#4) (prot := prot) (field := field) hsame
  have hafter := protect_after_eq Config.env 0x3#4 prot field (voiceBegin base s)
  refine ⟨_, rfl, ?_⟩
  unfold voicePlace
  dsimp only
  split
  next hok =>
    have husable := hgood.mp hok
    rw [hafter, if_neg husable, protect_content hsame rfl husable, voiceBegin_eq]
    exact ⟨rfl, rfl, rfl, rfl⟩
  next hfails =>
    rw [hafter, if_pos (not_not.mp (hgood.not.mp hfails)), voiceBegin_eq]
    exact ⟨rfl, rfl, rfl, counted_satInc s.audErr⟩

/-- A frame is published at its last segment if it is good, unmuted and not of the first burst (rule R234). -/
abbrev Publishes (last : Bool) (s : State) : Prop :=
  last = true ∧ s.muted = false ∧ s.firstframe = false ∧ s.vbad = false

/-- The header word of a record (rule R130). -/
theorem memRead_voiceRecord_header (m : Mem Word) (b : State) :
    ∃ h : Word, memRead (memLoad m (voiceRecord b)) 0 = some h ∧ h.extractLsb' 0 1 = b.curslot ∧ h.extractLsb' 1 3 = b.j
      ∧ h.extractLsb' 4 2 = b.kidx ∧ h.extractLsb' 6 26 = 0#26 := by
  refine ⟨(b.kidx ++ b.j ++ b.curslot).setWidth 32, by rw [memRead_memLoad]; rfl, ?_, ?_, ?_, ?_⟩
  · simp (disch := decide) only [BitVec.extractLsb'_setWidth_of_le, BitVec.extractLsb'_append_eq_right]
  · simp (disch := decide) only [BitVec.extractLsb'_setWidth_of_le, BitVec.extractLsb'_append_eq_of_le,
      Nat.reduceSub, BitVec.extractLsb'_append_eq_right]
  · simp (disch := decide) only [BitVec.extractLsb'_setWidth_of_le, BitVec.extractLsb'_append_eq_of_le,
      Nat.reduceSub, BitVec.extractLsb'_eq_self]
  · apply BitVec.eq_of_getLsbD_eq
    intro i _
    simp

/-- What the end of a segment leaves for `Advance`: a last one moves `KIDX`, and a published one fills the output slot (rule
R234). -/
theorem emitted_effect (last : Bool) (v : State) :
    ∃ e, (if last then emitVoice v else v) = e
      ∧ e = { v with
          kidx := if last then v.kidx + 1 else v.kidx, outRec := e.outRec, outLen := e.outLen, outOff := e.outOff }
      ∧ if Publishes last v then
          e.outLen = 1 ∧ e.outOff = 0
            ∧ (∃ h : Word, memRead e.outRec 0 = some h ∧ h.extractLsb' 0 1 = v.curslot ∧ h.extractLsb' 1 3 = v.j
                ∧ h.extractLsb' 4 2 = v.kidx ∧ h.extractLsb' 6 26 = 0#26)
            ∧ ∀ r : Fin 4, memRead e.outRec (1 + r.val) = some ((v.vm[r]).setWidth 32)
        else e.outRec = v.outRec ∧ e.outLen = v.outLen ∧ e.outOff = v.outOff := by
  refine ⟨_, rfl, ?_⟩
  cases last with
  | false => exact ⟨rfl, rfl, rfl, rfl⟩
  | true =>
    have hpublishes : (!v.muted && !v.firstframe && !v.vbad) = true ↔ Publishes true v := by simp [and_assoc]
    rw [if_pos rfl, if_pos rfl, emitVoice]
    by_cases hp : Publishes true v
    · rw [if_pos hp, if_pos (hpublishes.mpr hp)]
      exact ⟨rfl, rfl, rfl, memRead_voiceRecord_header v.outRec v, memRead_voiceRecord_row v.outRec v⟩
    · rw [if_neg hp, if_neg (hpublishes.not.mpr hp)]
      exact ⟨rfl, rfl, rfl, rfl⟩

end Sys2Proof.Machine

open Sys2Proof Sys2Proof.Machine

/-- Settles O27: the hold is the first branch of `execVoice`. -/
theorem voiceHeldWaits : Obligations.VoiceHeldWaits := by
  intro prot base w s hmuted hfirst hfull
  have hheld : emitHeld true s = true :=
    (descriptorHeld_iff (.voice prot true base w) s).mpr ⟨prot, base, w, rfl, hmuted, hfirst, hfull⟩
  exact congrArg Host.Outcome.next (if_pos hheld)

/-- Settles O24: SKIP is `Advance` (rules R229, R240). -/
theorem skipDescriptor : Obligations.SkipDescriptor := fun w _ =>
  ⟨_, rfl, advanced_of_fieldFrame rfl w, rfl⟩

/-- Settles O25: the body by `cachField_body`, the query and the training by `protect_asks_and_trains`. -/
theorem cachDescriptor : Obligations.CachDescriptor := by
  intro prot slotIdx slotHalf w s hwf field q
  have hidx : slotIdx.toNat < w.toNat := by
    simp only [Instr.wf, Bool.and_eq_true, decide_eq_true_eq] at hwf
    exact hwf.2
  obtain ⟨b, hexec, hb, houtcome⟩ := cachField_body prot slotHalf s hidx
  have hkidx : b.kidx = s.kidx := (congrArg State.kidx hb :)
  have hprotect := protect_asks_and_trains (kind := 0x2#4) (prot := prot) (field := field) (SameForProtect.refl s)
  refine ⟨advance Config.params w b, congrArg _ hexec, hkidx ▸ advanced_of_fieldFrame (hb ▸ rfl) w, ?_,
    and_assoc.mp ⟨?_, houtcome⟩⟩
  · rw [hb]
    rfl
  · rw [hb]
    exact hprotect

/-- Settles O26: the segment by `voicePlace_effect`, the record by `emitted_effect`, then `Advance`. -/
theorem voiceDescriptor : Obligations.VoiceDescriptor := by
  intro prot last base w s hfree field q content vm0 vbad0
  obtain ⟨v, hplaced, hv, houtcome⟩ := voicePlace_effect prot base w s
  obtain ⟨e, hemitted, he, hrecord⟩ := emitted_effect last v
  have hexec : exec (.voice prot last base w) s = .next (advance Config.params w e) := by
    rw [exec_voice_of_not_held prot base w hfree, ← hemitted, ← hplaced]
    rfl
  have hkidx : e.kidx = if last then s.kidx + 1 else s.kidx := by
    rw [he, hv]
    rfl
  have hprotect := protect_asks_and_trains (kind := 0x3#4) (prot := prot) (field := field) (sameForProtect_voiceBegin base s)
  refine ⟨advance Config.params w e, hexec, hkidx ▸ advanced_of_fieldFrame (by rw [he, hv]; rfl) w, ?_,
    and_assoc.mp ⟨?_, ?_, ?_⟩⟩
  · rw [he, hv]
    rfl
  · rw [he, hv]
    exact hprotect
  · rw [advance_vm, advance_vbad, advance_audErr, he]
    exact houtcome
  · have hvm : e.vm = v.vm := (congrArg State.vm he :)
    have hvbad : e.vbad = v.vbad := (congrArg State.vbad he :)
    have hkept : v.muted = s.muted ∧ v.firstframe = s.firstframe ∧ v.curslot = s.curslot ∧ v.j = s.j ∧ v.kidx = s.kidx
        ∧ v.outRec = s.outRec ∧ v.outLen = s.outLen ∧ v.outOff = s.outOff := by
      rw [hv]
      exact ⟨rfl, rfl, rfl, rfl, rfl, rfl, rfl, rfl⟩
    obtain ⟨hmuted, hfirst, hcurslot, hj, hkidx, hrec, hlen, hoff⟩ := hkept
    unfold Publishes at hrecord
    rw [hmuted, hfirst, hcurslot, hj, hkidx, hrec, hlen, hoff] at hrecord
    rw [advance_vbad, advance_vm, hvbad, hvm]
    exact hrecord
end

section
/-!
SUPPORT. The SYNC descriptor (rules R235 to R237, R251 to R262): the signalling assembly started, the field matched or carried as
signalling, the assembly completed.
-/
namespace Sys2Proof.Machine

/-! ### The phases of SYNC -/

/-- The assembly started at the discriminator burst (rules R235, R252). -/
def syncStarted (s : State) : State := if s.j = gDiscBurst s.gm then sigStart s else s

theorem syncStarted_eq (s : State) :
    syncStarted s =
      { s with
        sigw := if s.j = gDiscBurst s.gm then Vector.replicate 8 0 else s.sigw
        disc := if s.j = gDiscBurst s.gm then 0 else s.disc
        discValid := if s.j = gDiscBurst s.gm then false else s.discValid
        sigbad := if s.j = gDiscBurst s.gm then false else s.sigbad } := by
  unfold syncStarted
  split <;> rfl

/-- A missed field in a burst that expects a sync word is counted (rule R237). -/
theorem syncMissed_eq (env : Env) (s : State) :
    syncMissed env s =
      { s with syncMiss := if gSyncExpect s.gm s.j then satInc env.params s.syncMiss else s.syncMiss } := by
  unfold syncMissed
  split <;> rfl

/-- A count behind a condition (rule R195). -/
theorem counted_or_kept (counts : Bool) (x : Counter) :
    if counts then Counted x (if counts then satInc Config.params x else x)
    else (if counts then satInc Config.params x else x) = x := by
  cases counts with
  | true => exact counted_satInc x
  | false => rfl

theorem inSpan_iff (s : State) :
    inSpan s = true ↔ (gDiscBurst s.gm).toNat ≤ s.j.toNat ∧ s.j.toNat ≤ (gSigLast s.gm).toNat := by
  simp [inSpan]

/-- The committed registers are as they were: a body of SYNC writes the assembly alone (rules R253, R262). -/
def NothingCommitted (s b : State) : Prop :=
  b.gm = s.gm ∧ b.sigc = s.sigc ∧ b.algid = s.algid ∧ b.keyid = s.keyid ∧ b.encPres = s.encPres

theorem nothingCommitted_syncStarted (s : State) : NothingCommitted s (syncStarted s) := by
  rw [syncStarted_eq]
  exact ⟨rfl, rfl, rfl, rfl, rfl⟩

/-- Completion commits an assembly that is good and whose discriminator is valid, at the last burst of the span (rule R262). -/
theorem completed_effect {s b : State} (h : NothingCommitted s b) :
    ∃ c, (if s.j = gSigLast s.gm then sigComplete b else b) = c
      ∧ c = { b with sigc := c.sigc, algid := c.algid, keyid := c.keyid, encPres := c.encPres } ∧ SigCompleted s c := by
  obtain ⟨hgm, hsigc, halgid, hkeyid, hencPres⟩ := h
  refine ⟨_, rfl, ?_⟩
  by_cases hlast : s.j = gSigLast s.gm
  · have hcommits : (!b.sigbad && b.discValid) = true ↔ b.sigbad = false ∧ b.discValid = true := by simp
    rw [if_pos hlast, sigComplete]
    by_cases hgood : b.sigbad = false ∧ b.discValid = true
    · rw [if_pos (hcommits.mpr hgood), hgm]
      cases hmask : gEncMask s.gm b.disc with
      | true =>
        refine ⟨rfl, ?_⟩
        rw [if_pos rfl, SigCompleted, if_pos ⟨hlast, hgood⟩, if_pos hmask]
        exact ⟨rfl, rfl, rfl, rfl⟩
      | false =>
        refine ⟨rfl, ?_⟩
        rw [if_neg Bool.false_ne_true, SigCompleted, if_pos ⟨hlast, hgood⟩, if_neg (by simp [hmask])]
        exact ⟨rfl, rfl, rfl, rfl⟩
    · rw [if_neg (hcommits.not.mpr hgood), SigCompleted, if_neg (not_and.mpr fun _ => hgood)]
      exact ⟨rfl, hsigc, halgid, hkeyid, hencPres⟩
  · rw [if_neg hlast, SigCompleted, if_neg (not_and.mpr fun h => absurd h hlast)]
    exact ⟨rfl, hsigc, halgid, hkeyid, hencPres⟩

/-- SYNC from its body: the assembly completed, then `Advance` (rule R235). -/
theorem exec_sync_of_body {prot : Bool} {w : BitVec 10} {s b : State}
    (hbody : syncBody Config.env prot (readField Config.params s w) (syncStarted s) = b) (h : NothingCommitted s b) :
    ∃ c, exec (.sync prot w) s = .next (advance Config.params w c)
      ∧ c = { b with sigc := c.sigc, algid := c.algid, keyid := c.keyid, encPres := c.encPres } ∧ SigCompleted s c := by
  obtain ⟨c, hc, heffect⟩ := completed_effect h
  refine ⟨c, ?_, heffect⟩
  rw [← hc, ← hbody]
  rfl

theorem syncStarted_fields (s : State) : (syncStarted s).gm = s.gm ∧ (syncStarted s).j = s.j := by
  rw [syncStarted_eq]
  exact ⟨rfl, rfl⟩

theorem syncMatch_syncStarted (s : State) (w : BitVec 10) :
    syncMatch (syncStarted s).gm ((readField Config.params s w).map DbEntry.d) =
      syncMatch s.gm ((List.range w.toNat).map (rawDibit s)) := by
  rw [readField_dibits, (syncStarted_fields s).1]

theorem inSpan_syncStarted (s : State) :
    inSpan (syncStarted s) = true ↔ (gDiscBurst s.gm).toNat ≤ s.j.toNat ∧ s.j.toNat ≤ (gSigLast s.gm).toNat := by
  obtain ⟨hgm, hj⟩ := syncStarted_fields s
  rw [inSpan_iff, hgm, hj]

/-! ### A sync word -/

theorem syncMatched_eq (k : Nat) (s : State) :
    syncMatched k s =
      { s with
        muted := gClassData s.gm k
        lastsync := gType s.gm k
        slotst0 := if s.curslot = 0 then (if gClassData s.gm k then 2 else 1) else s.slotst0
        slotst1 := if s.curslot = 1 then (if gClassData s.gm k then 2 else 1) else s.slotst1 } := by
  obtain hslot | hslot := BitVec.eq_zero_or_eq_one s.curslot
  · cases hdata : gClassData s.gm k <;> simp [syncMatched, setSlotStatus, hdata, hslot]
  · cases hdata : gClassData s.gm k <;> simp [syncMatched, setSlotStatus, hdata, hslot]

/-- SYNC whose field is the sync word `k`: inside the span the assembly has lost a field (rules R235, R236, R258). -/
theorem syncBody_of_match (env : Env) (prot : Bool) {field : List DbEntry} {s : State} {k : Nat}
    (h : syncMatch s.gm (field.map DbEntry.d) = some k) :
    syncBody env prot field s = { syncMatched k s with sigbad := if inSpan s then true else s.sigbad } := by
  rw [syncBody, h]
  dsimp only
  split
  · rfl
  · rw [syncMatched_eq]

/-! ### A signalling field -/

theorem sigWire_eq (P : Params) (content : List Dibit) (s : State) :
    sigWire P content s =
      { s with
        sigw := if s.discValid then (gWires s.gm).foldl (wireOne P s.j s.disc content) s.sigw else s.sigw
        sigbad := if s.discValid then s.sigbad else true } := by
  unfold sigWire
  split <;> rfl

theorem getLsbD_bitPair (high low : Bool) :
    (BitVec.ofBool high ++ BitVec.ofBool low).getLsbD 1 = high ∧ (BitVec.ofBool high ++ BitVec.ofBool low).getLsbD 0 = low := by
  revert high low
  decide

/-- The discriminator decoded at its burst (rules R253, R255). -/
def discDecoded (content : List Dibit) (s : State) : State :=
  if s.j = gDiscBurst s.gm then sigDisc content s else s

theorem discDecoded_effect (content : List Dibit) (s : State) :
    ∃ d, discDecoded content s = d ∧ d = { s with disc := d.disc, discValid := d.discValid }
      ∧ if s.j = gDiscBurst s.gm then
          d.discValid = true
            ∧ d.disc.getLsbD 1 = dibitBit (dibitAt content (gD1Idx s.gm)) (gD1Half s.gm)
            ∧ d.disc.getLsbD 0 = dibitBit (dibitAt content (gD0Idx s.gm)) (gD0Half s.gm)
        else d.discValid = s.discValid ∧ d.disc = s.disc := by
  refine ⟨_, rfl, ?_⟩
  unfold discDecoded
  split
  · exact ⟨rfl, rfl, getLsbD_bitPair _ _⟩
  · exact ⟨rfl, rfl, rfl⟩

/-- A signalling field that may be used is wired under the discriminator, or loses the assembly where that is not valid; a lost
one loses the assembly and is counted (rules R253 to R257). -/
theorem sigBurst_effect (prot : Bool) (w : BitVec 10) {s m : State} (h : SameForProtect s m) (hgm : m.gm = s.gm) :
    let field := readField Config.params s w
    let q := fecQuery 0x4#4 field s
    let content := (List.range w.toNat).map (contentDibit prot q s)
    ∃ b, sigBurst Config.env prot field m = b
      ∧ b = { withTraining (protect Config.env 0x4#4 prot field m).after m with
          hdrErr := b.hdrErr, sigw := b.sigw, disc := b.disc, discValid := b.discValid, sigbad := b.sigbad }
      ∧ if FieldLost prot q then
          Counted m.hdrErr b.hdrErr ∧ b.sigbad = true ∧ b.sigw = m.sigw ∧ b.disc = m.disc ∧ b.discValid = m.discValid
        else
          b.hdrErr = m.hdrErr
            ∧ (if s.j = gDiscBurst s.gm then
                b.discValid = true
                  ∧ b.disc.getLsbD 1 = dibitBit (dibitAt content (gD1Idx s.gm)) (gD1Half s.gm)
                  ∧ b.disc.getLsbD 0 = dibitBit (dibitAt content (gD0Idx s.gm)) (gD0Half s.gm)
              else b.discValid = m.discValid ∧ b.disc = m.disc)
            ∧ (if b.discValid then
                b.sigw = (gWires s.gm).foldl (wireOne Config.params s.j b.disc content) m.sigw ∧ b.sigbad = m.sigbad
              else b.sigw = m.sigw ∧ b.sigbad = true) := by
  intro field q content
  have hj := h.j
  have hgood := protect_good_iff (kind := 0x4#4) (prot := prot) (field := field) h
  have hafter := protect_after_eq Config.env 0x4#4 prot field m
  refine ⟨_, rfl, ?_⟩
  unfold sigBurst
  dsimp only
  split
  next hok =>
    have husable := hgood.mp hok
    rw [hafter, if_neg husable, protect_content h rfl husable, ← hgm, ← hj]
    obtain ⟨d, hd, hframe, hdisc⟩ := discDecoded_effect content (withTraining (protect Config.env 0x4#4 prot field m).after m)
    rw [Config.env_params, show (if m.j = gDiscBurst m.gm then sigDisc content _ else _) = d from hd, sigWire_eq, hframe]
    refine ⟨rfl, rfl, hdisc, ?_⟩
    cases d.discValid <;> exact ⟨rfl, rfl⟩
  next hfails =>
    rw [hafter, if_pos (not_not.mp (hgood.not.mp hfails))]
    exact ⟨rfl, counted_satInc m.hdrErr, rfl, rfl, rfl, rfl⟩

end Sys2Proof.Machine

open Sys2Proof Sys2Proof.Machine

/-- Settles O28: the body by `syncBody_of_match`, from the started assembly; the completion by `exec_sync_of_body`. -/
theorem syncMatchedDescriptor : Obligations.SyncMatchedDescriptor := by
  intro prot w s k hk data starts
  have hmatch := (syncMatch_syncStarted s w).trans ((syncMatch_eq_some s.gm w.toNat (rawDibit s) k).mpr hk)
  have hbody := syncBody_of_match Config.env prot hmatch
  rw [syncMatched_eq] at hbody
  simp only [inSpan_syncStarted] at hbody
  obtain ⟨c, hexec, hc, hcompleted⟩ := exec_sync_of_body hbody (nothingCommitted_syncStarted s)
  rw [syncStarted_eq] at hc
  refine ⟨_, hexec, ?_, ?_, ?_, hcompleted⟩
  · rw [hc]
    exact advanced_of_fieldFrame rfl w
  · rw [hc]
    rfl
  · rw [hc]
    rfl

/-- Settles O29: outside the span the body only counts the miss (`syncBody_of_noMatch`). -/
theorem syncUnmatchedOutsideSpan : Obligations.SyncUnmatchedOutsideSpan := by
  intro prot w s hnone hout starts
  have hmatch := (syncMatch_syncStarted s w).trans ((syncMatch_eq_none s.gm w.toNat (rawDibit s)).mpr hnone)
  have hbody := syncBody_of_noMatch Config.env prot hmatch
  rw [if_neg ((inSpan_syncStarted s).not.mpr hout), syncMissed_eq] at hbody
  obtain ⟨c, hexec, hc, hcompleted⟩ := exec_sync_of_body hbody (nothingCommitted_syncStarted s)
  rw [syncStarted_eq] at hc
  refine ⟨_, hexec, ?_, ?_, ?_, hcompleted⟩
  · rw [hc]
    exact advanced_of_fieldFrame rfl w
  · rw [hc]
    rfl
  · rw [hc]
    exact counted_or_kept _ s.syncMiss

/-- Settles O30: inside the span the body is the signalling field (`sigBurst_effect`), from the assembly that was started and
the miss that was counted. -/
theorem syncUnmatchedInSpan : Obligations.SyncUnmatchedInSpan := by
  intro prot w s hnone hlow hhigh starts field q content sigw0 sigbad0
  have hmatch := (syncMatch_syncStarted s w).trans ((syncMatch_eq_none s.gm w.toNat (rawDibit s)).mpr hnone)
  have hbody := syncBody_of_noMatch Config.env prot hmatch
  obtain ⟨m, hmissed, hm⟩ : ∃ m, syncMissed Config.env (syncStarted s) = m ∧ m = _ :=
    ⟨_, rfl, (syncMissed_eq _ _).trans (by rw [syncStarted_eq])⟩
  have hsame : SameForProtect s m := by
    rw [hm]
    exact ⟨rfl, rfl, rfl, ⟨rfl, rfl, rfl, rfl⟩, rfl, rfl⟩
  obtain ⟨b, hburst, hb, houtcome⟩ := sigBurst_effect prot w hsame (by rw [hm])
  rw [if_pos ((inSpan_syncStarted s).mpr ⟨hlow, hhigh⟩), hmissed, hburst] at hbody
  have huncommitted : NothingCommitted s b := by
    rw [hb, hm]
    exact ⟨rfl, rfl, rfl, rfl, rfl⟩
  obtain ⟨c, hexec, hc, hcompleted⟩ := exec_sync_of_body hbody huncommitted
  have hprotect := protect_asks_and_trains (kind := 0x4#4) (prot := prot) (field := field) hsame
  refine ⟨_, hexec, ?_, ?_, ?_, and_assoc.mp ⟨?_, ?_, hcompleted⟩⟩
  · rw [hc, hb, hm]
    exact advanced_of_fieldFrame rfl w
  · rw [hc, hb, hm]
    rfl
  · rw [hc, hb, hm]
    exact counted_or_kept _ s.syncMiss
  · rw [hc, hb]
    exact hprotect
  · have hstart : m.hdrErr = s.hdrErr ∧ m.sigw = sigw0 ∧ m.sigbad = sigbad0 ∧ m.disc = (if starts then 0 else s.disc)
        ∧ m.discValid = (if starts then false else s.discValid) := by
      rw [hm]
      exact ⟨rfl, rfl, rfl, rfl, rfl⟩
    obtain ⟨herr, hsigw, hsigbad, hdisc, hdiscValid⟩ := hstart
    rw [herr, hsigw, hsigbad, hdisc, hdiscValid] at houtcome
    rw [hc]
    by_cases hlost : FieldLost prot q
    · rw [if_pos hlost] at houtcome ⊢
      exact houtcome
    · rw [if_neg hlost] at houtcome ⊢
      obtain ⟨hkept, hdecoded, hwired⟩ := houtcome
      refine ⟨hkept, ?_, hwired⟩
      by_cases hstarts : starts
      · rw [if_pos hstarts] at hdecoded ⊢
        exact hdecoded
      · rw [if_neg hstarts] at hdecoded ⊢
        rwa [if_neg hstarts, if_neg hstarts] at hdecoded
end

section
/-!
SUPPORT. The sticky bits of `FAULT` (rules R297 to R301): what each engine step and each port command does to them; and the
whole effect of port Q's turn (rules R105, R157, R158, R160, R310).
-/
namespace Sys2Proof.Machine

/-! ### Sticky bits -/

/-- Every `FAULT` bit that is set in `s` is set in `t` (rule R297). -/
def FaultBitsKept (s t : State) : Prop := ∀ k, s.fault.getLsbD k = true → t.fault.getLsbD k = true

theorem faultBitsKept_of_eq {s t : State} (h : t.fault = s.fault) : FaultBitsKept s t := by
  intro k hk
  rwa [h]

theorem faultBitsKept_raise (c : FaultCode) (s : State) : FaultBitsKept s (raise c s) := by
  intro k hk
  rw [getLsbD_raise_fault, hk, Bool.true_or]

theorem faultBitsKept_startFail (okG okC : Bool) (s : State) : FaultBitsKept s (startFail okG okC s) := by
  intro k hk
  rw [getLsbD_startFail_fault, hk, Bool.true_or, Bool.true_or]

theorem faultBitsKept_started (s : State) : FaultBitsKept s (started s) := by
  cases hhalted : s.halted with
  | false => exact faultBitsKept_of_eq (by rw [started_of_running hhalted])
  | true =>
    by_cases hok : grammarOk Config.params s.gm = true ∧ configOk s.thCenter s.thUmid s.thLmid s.thBand = true
    · refine faultBitsKept_of_eq ?_
      rw [started_of_ok hhalted hok.1 hok.2]
      split <;> rfl
    · rw [started_of_failed hhalted hok]
      exact faultBitsKept_startFail _ _ s

theorem faultBitsKept_submitSamples (P : Params) (samples : List Word) (s : State) :
    FaultBitsKept s (submitSamples P samples s) := by
  unfold submitSamples
  split
  · exact faultBitsKept_of_eq rfl
  split
  · exact faultBitsKept_raise .illcmd s
  split
  · exact faultBitsKept_raise .overrun s
  · exact faultBitsKept_of_eq rfl

/-- SYM sets BADSAMPLE or nothing, and the detector's lock leaves `FAULT` as it is (rules R170, R171, R323). -/
theorem faultBitsKept_symStep (s : State) : FaultBitsKept s (symStep Config.env s) := by
  have hfault : (symStep Config.env s).fault = sampleFault s (inHead s) := by
    rw [symStep, symPush_eq]
    obtain heq | ⟨-, -, st, heq⟩ := autoLockCheck_cases Config.env.params _ <;> rw [heq] <;> rfl
  intro k hk
  rw [hfault, getLsbD_sampleFault, hk, Bool.true_or]

theorem EngineStep.faultBitsKept {s t : State} (h : EngineStep s t) : FaultBitsKept s t := by
  cases h with
  | hold => exact faultBitsKept_of_eq rfl
  | halt => exact faultBitsKept_of_eq rfl
  | sym _ => exact faultBitsKept_symStep s
  | field _ hf =>
    obtain ⟨b, hb, rfl⟩ := hf.advances
    exact faultBitsKept_of_eq (congrArg State.fault hb :)

/-- No port command clears a `FAULT` bit, RESET included (rules R141, R297, R321). -/
theorem faultBitsKept_of_exec {s t : State} {i : Instr} {port : Port} (hi : i.port = some port) (h : exec i s = .next t) :
    FaultBitsKept s t := by
  cases i with
  | skip w => cases hi
  | cach prot slotIdx slotHalf w => cases hi
  | voice prot last base w => cases hi
  | sync prot w => cases hi
  | reset => cases h; exact faultBitsKept_of_eq rfl
  | stop => cases h; exact faultBitsKept_of_eq rfl
  | unlock => cases h; exact faultBitsKept_of_eq rfl
  | rdsr a => cases h; exact faultBitsKept_of_eq rfl
  | start => cases h; exact faultBitsKept_started s
  | submit samples => cases h; exact faultBitsKept_submitSamples Config.params samples s
  | lock st =>
    cases h
    split
    · exact faultBitsKept_raise .badlock s
    · exact faultBitsKept_of_eq rfl
  | wrcr a v =>
    cases h
    split
    · exact faultBitsKept_raise .illcmd s
    split
    · exact faultBitsKept_raise .busywr s
    · exact faultBitsKept_of_eq (by rw [writeReg_fields])
  | wrgm a v =>
    cases h
    split
    · exact faultBitsKept_raise .busywr s
    · exact faultBitsKept_of_eq rfl
  | consume =>
    cases h
    refine faultBitsKept_of_eq ?_
    split
    · rfl
    · split <;> rfl

/-! ### The ports' turns -/

/-- A step is what the turn of its agent comes to. -/
theorem fetchedNext_of_agent {s t : State} {a : Agent} (h : step s = .next t) (hagent : nextAgent Config.params s = a) :
    FetchedNext (fetchFor Config.env a (takeTurn s)) t := by
  have hfetch := fetchedNext_of_step h
  rwa [fetch, Config.env_params, hagent] at hfetch

/-- What a port's turn comes to, by the words at its front, where `taken rest` is the state with `rest` left on the port: it
waits, an illegal word raises ILLCMD, or a command of the port runs (rules R103, R105, R140, R158). -/
inductive PortTurn (port : Port) (ws : List Word) (s : State) (taken : List Word → State) : State → Prop
  | waits : PortTurn port ws s taken s
  | illegal {e : DecodeError} {rest : List Word} : decodeCommand port ws = .illegal e rest →
      PortTurn port ws s taken (raise .illcmd (taken rest))
  | command {i : Instr} {rest : List Word} {t : State} : decodeCommand port ws = .command i rest →
      exec i (taken rest) = .next t → PortTurn port ws s taken t

theorem portTurn_of_fetchP {s t : State} (h : FetchedNext (fetchP s) t) :
    PortTurn .p s.portP s (fun rest => { s with portP := rest }) t := by
  unfold fetchP at h
  split at h
  · cases h; exact .waits
  · next hd => cases h; exact .illegal hd
  · next hd => exact .command hd h

theorem portTurn_of_fetchQ {s t : State} (h : FetchedNext (fetchQ s) t) :
    PortTurn .q s.portQ s (fun rest => { s with portQ := rest }) t := by
  unfold fetchQ at h
  split at h
  · cases h; exact .waits
  · next hd => cases h; exact .illegal hd
  · next hd =>
    split at h
    · cases h; exact .waits
    · exact .command hd h

/-- Taking words from a port leaves `FAULT` as it is, so a port's turn keeps its bits. -/
theorem PortTurn.faultBitsKept {port : Port} {ws : List Word} {s t : State} {taken : List Word → State}
    (h : PortTurn port ws s taken t) (htaken : ∀ rest, (taken rest).fault = s.fault) : FaultBitsKept s t := by
  have hfrom {rest : List Word} (hkept : FaultBitsKept (taken rest) t) : FaultBitsKept s t :=
    fun k hk => hkept k (by rwa [htaken])
  cases h with
  | waits => exact faultBitsKept_of_eq rfl
  | illegal _ => exact hfrom (faultBitsKept_raise .illcmd _)
  | command hd hexec => exact hfrom (faultBitsKept_of_exec (decodeCommand_port hd) hexec)

/-- The words left after an illegal word are those behind it (rule R105). -/
theorem eq_cons_of_decodeCommand_illegal {port : Port} {ws rest : List Word} {e : DecodeError}
    (h : decodeCommand port ws = .illegal e rest) : ∃ w, ws = w :: rest := by
  cases ws with
  | nil => cases h
  | cons w ws =>
    by_cases hlegal : LegalCommandWord port w
    · obtain ⟨r, hr, rfl, hw⟩ := (legalCommandWord_iff port w).mp hlegal
      have htake := takesCommand_of_fits hr hw ws
      rw [decodeCommand_of_fits hr hw] at h
      rw [TakesCommand, h] at htake
      split at htake
      · obtain ⟨i, -, -, -, hi⟩ := htake
        cases hi
      · cases htake
    · obtain ⟨e', he⟩ := decodeCommand_of_not_legal hlegal ws
      cases he.symm.trans h
      exact ⟨w, rfl⟩

/-! ### Port Q -/

/-- All that port Q's turn writes: the output slot is drained or left, ILLCMD is set or left, responses are added, words are
taken from the front of the port (rule R310). -/
structure PortQWrites (s t : State) : Prop where
  frame : t = { s with portQ := t.portQ, qOut := t.qOut, outLen := t.outLen, outOff := t.outOff, fault := t.fault }
  otherFaults : ∀ k, k ≠ 0 → t.fault.getLsbD k = s.fault.getLsbD k
  outLen : t.outLen ≠ s.outLen → t.outLen = 0
  outOff : t.outOff ≠ s.outOff → t.outOff = 0
  illcmd : s.fault.getLsbD 0 = true → t.fault.getLsbD 0 = true
  answers : ∃ ws, t.qOut = s.qOut ++ ws
  takes : ∃ ws, s.portQ = ws ++ t.portQ

theorem portQWrites_refl (s : State) : PortQWrites s s where
  frame := rfl
  otherFaults _ _ := rfl
  outLen hne := absurd rfl hne
  outOff hne := absurd rfl hne
  illcmd h := h
  answers := ⟨[], (List.append_nil _).symm⟩
  takes := ⟨[], rfl⟩

/-- An illegal word is taken from the port, sets ILLCMD and has no response (rule R105). -/
theorem portQWrites_illegal {s : State} {w : Word} {rest : List Word} (h : s.portQ = w :: rest) :
    PortQWrites s (raise .illcmd { s with portQ := rest }) :=
  { portQWrites_refl s with
    frame := rfl
    otherFaults := fun k hk => by
      have hother : k ≠ faultBit .illcmd := hk
      rw [getLsbD_raise_fault, decide_eq_false hother, Bool.or_false]
    illcmd := faultBitsKept_raise .illcmd { s with portQ := rest } 0
    takes := ⟨[w], h⟩ }

/-- Port Q's commands: CONSUME answers with the record or with zeros and drains the slot or finds it empty, RDSR answers with a
register (rules R157, R160). -/
theorem portQWrites_of_exec {s t : State} {i : Instr} (hi : i.port = some .q) (h : exec i s = .next t) :
    PortQWrites s t := by
  have hanswer (ws : List Word) : PortQWrites s { s with qOut := s.qOut ++ ws } :=
    { portQWrites_refl s with frame := rfl, answers := ⟨ws, rfl⟩ }
  cases i with
  | consume =>
    cases h
    split
    · exact portQWrites_refl s
    split
    · exact hanswer _
    · exact { hanswer (consumeAnswer s) with frame := rfl, outLen := fun _ => rfl, outOff := fun _ => rfl }
  | rdsr a => cases h; exact hanswer _
  | _ => cases hi

/-- Words may be taken from the front before a command writes what port Q may write. -/
theorem PortQWrites.after_taking {s t : State} {ws rest : List Word} (hport : s.portQ = ws ++ rest)
    (h : PortQWrites { s with portQ := rest } t) : PortQWrites s t where
  frame := h.frame
  otherFaults := h.otherFaults
  outLen := h.outLen
  outOff := h.outOff
  illcmd := h.illcmd
  answers := h.answers
  takes := by
    obtain ⟨more, hmore⟩ := h.takes
    dsimp only at hmore
    exact ⟨ws ++ more, by rw [hport, hmore, List.append_assoc]⟩

theorem PortTurn.portQWrites {s t : State} (h : PortTurn .q s.portQ s (fun rest => { s with portQ := rest }) t) :
    PortQWrites s t := by
  cases h with
  | waits => exact portQWrites_refl s
  | illegal hd =>
    obtain ⟨w, hw⟩ := eq_cons_of_decodeCommand_illegal hd
    exact portQWrites_illegal hw
  | command hd hexec =>
    obtain ⟨-, hport, hwords⟩ := instructionEncodeDecode.1 _ _ _ _ hd
    exact (portQWrites_of_exec hport hexec).after_taking hwords

end Sys2Proof.Machine

open Sys2Proof Sys2Proof.Machine

/-- Settles O53: every turn but power-on reset sets bits of `FAULT` or leaves them (`FaultBitsKept`). -/
theorem faultBitsSticky : Obligations.FaultBitsSticky := by
  intro s t k h hpor
  suffices hkept : FaultBitsKept (takeTurn s) t from hkept k
  cases hagent : nextAgent Config.params s with
  | engine => exact (engineStep_of_step h hagent).faultBitsKept
  | producer => exact (portTurn_of_fetchP (fetchedNext_of_agent h hagent)).faultBitsKept fun _ => rfl
  | consumer => exact (portTurn_of_fetchQ (fetchedNext_of_agent h hagent)).faultBitsKept fun _ => rfl
  | por => exact absurd hagent hpor

/-- Settles O57: port Q's turn waits, raises ILLCMD or runs one of its two commands (`PortTurn.portQWrites`). -/
theorem portQWritesNothingElse : Obligations.PortQWritesNothingElse := by
  intro s t h hagent
  obtain ⟨hframe, hothers, hlen, hoff, hillcmd, hanswers, htakes⟩ :=
    (portTurn_of_fetchQ (fetchedNext_of_agent h hagent)).portQWrites
  exact ⟨hframe, hothers, hlen, hoff, hillcmd, hanswers, htakes⟩
end

section
/-!
SUPPORT. Power-on reset (rules R64, R320): it ends with the procedure Reset, from any state.
-/
namespace Sys2Proof.Machine

/-- The procedure Reset clears what it is to clear (rule R321). -/
theorem resetDone_resetProc (s : State) : ResetDone (resetProc s) :=
  ⟨sessionCleared_of_fixed rfl, rfl, rfl, rfl, rfl, rfl, rfl, rfl, rfl, rfl, fun _ => rfl, fun _ => rfl, fun _ => rfl⟩

/-- Power-on reset leaves nothing for Reset to clear: Reset is its last action (rule R320). -/
theorem resetProc_porProc (s : State) : resetProc (porProc s) = porProc s := rfl

theorem porDone_porProc (s : State) : PorDone (porProc s) := by
  have hreset : ResetDone (porProc s) := resetProc_porProc s ▸ resetDone_resetProc (porProc s)
  exact ⟨rfl, rfl, rfl, rfl, rfl, rfl, rfl, hreset⟩

/-- The first state is one that power-on reset leaves, with no words on the ports (rule R64). -/
theorem porProc_reset : porProc State.reset = State.reset := rfl

/-- A listed turn of agent POR is one whole step, whatever the other agents were doing (rules R89, R320). -/
theorem step_of_porTurn {s : State} {ts : List Agent} (hturn : s.turns = .por :: ts) :
    step s = .next (porProc { s with turns := ts }) := by
  rw [step_eq_outcomeOf, fetch_of_turn hturn, fetchFor, outcomeOf]

end Sys2Proof.Machine

open Sys2Proof Sys2Proof.Machine

/-- Settles O12: the turn is `step_of_porTurn`, the POR column `porDone_porProc`, which the reset state shares. -/
theorem powerOnReset : Obligations.PowerOnReset := by
  have hstatus : statusWord State.reset = 0x00000032#32 := by decide
  exact ⟨porProc_reset ▸ porDone_porProc State.reset, hstatus,
    fun s ts hturn => ⟨porProc { s with turns := ts }, step_of_porTurn hturn, porDone_porProc _⟩⟩
end
